-- ==== Sys2Proof/Word.lean ====
section
/-! DEFINITION. The fixed widths of the H8/500 (00_scope.md R6): bytes, words, 24-bit addresses. -/

namespace Sys2Proof

/-- Eight bits (R9). -/
abbrev Byte := BitVec 8

/-- Sixteen bits (R9): the width of a general register, of PC and of SR (R6). -/
abbrev Word := BitVec 16

/-- A memory address: page in bits 23 to 16, offset in bits 15 to 0 (R62). In minimum mode the page is 0. -/
abbrev Addr := BitVec 24

end Sys2Proof
end

