-- ==== Sys2Proof/Config.lean ====
section
/-! DEFINITION. The values the spec leaves open (`UNSPEC(n)`, 00_scope.md R10; 93_implementation_defined.md
treatment `any value`). None has a body, so nothing can be proved of the value drawn. Log entry 5. -/

namespace Sys2Proof.Config

/-- The n-th free 16-bit value. -/
opaque freeWord : Nat → Word

/-- The n-th free 8-bit value. -/
opaque freeByte : Nat → Byte

/-- The n-th free bit. -/
opaque freeBit : Nat → Bool

/-- What a read of a location that is neither RAM nor ROM gives: of its address and of the count at the read
(MEMORY_MAP, R84, U19; log entry 13). -/
opaque windowByte : Nat → Nat → Byte

/-- What an address whose contents a hardware standby lost reads as until it is written: of the address and of the
count at the standby (R426, U21; log entry 20). -/
opaque lostByte : Nat → Nat → Byte

/-- The parameter `INVALID_INSTR_STACKED_PC` of a chip that does not take the default of R393: from the bytes the
decoder examined and the address after the last of them (R393, D9; log entry 14). -/
opaque invalidInstrStackedPc : List Byte → Word → Word

end Sys2Proof.Config
end

