-- ==== Sys2Proof/Syntax.lean ====
section
/-! DEFINITION. The instructions of the H8/500 as syntax: one constructor of `Instr` for each mnemonic of
spec/opcode_table.json (30_encoding.md R126, R129). -/

namespace Sys2Proof

/-- The eight general registers (R20, R105). R6 is the frame pointer, R7 the stack pointer (R21). -/
inductive Reg where
  | r0 | r1 | r2 | r3 | r4 | r5 | r6 | r7
deriving DecidableEq, Repr

/-- Operand size: `Sz = 0` byte, `Sz = 1` word (R106). -/
inductive Size where
  | byte | word
deriving DecidableEq, Repr

/-- The operand width n in bits (R9). -/
@[reducible] def Size.bits : Size → Nat
  | .byte => 8
  | .word => 16

/-- The seven memory addressing modes of the EA byte (R104, R70 to R76). -/
inductive MemEA where
  /-- `@Rn` -/
  | ind (r : Reg)
  /-- `@(d:8,Rn)` -/
  | disp8 (r : Reg) (d : Byte)
  /-- `@(d:16,Rn)` -/
  | disp16 (r : Reg) (d : Word)
  /-- `@-Rn` -/
  | preDec (r : Reg)
  /-- `@Rn+` -/
  | postInc (r : Reg)
  /-- `@aa:8` -/
  | abs8 (a : Byte)
  /-- `@aa:16` -/
  | abs16 (a : Word)
deriving DecidableEq, Repr

/-- A destination operand: a register or a memory mode (EA modes `R M` of R126). -/
inductive DstEA where
  | reg (r : Reg)
  | mem (m : MemEA)
deriving DecidableEq, Repr

/-- A source operand with its size: a register, a memory mode or an immediate of the operand's size
(EA modes `R M I` of R126). -/
inductive SrcEA where
  | reg (sz : Size) (r : Reg)
  | mem (sz : Size) (m : MemEA)
  | imm8 (data : Byte)
  | imm16 (data : Word)
deriving DecidableEq, Repr

/-- The operand size the EA byte of a source gives (R104). -/
@[reducible] def SrcEA.size : SrcEA → Size
  | .reg sz _ => sz
  | .mem sz _ => sz
  | .imm8 _ => .byte
  | .imm16 _ => .word

/-- An immediate EA (EA mode `I` of R126). -/
inductive ImmEA where
  | imm8 (data : Byte)
  | imm16 (data : Word)
deriving DecidableEq, Repr

/-- The operand size of an immediate EA: H'04 is a byte, H'0C a word (R104). -/
@[reducible] def ImmEA.size : ImmEA → Size
  | .imm8 _ => .byte
  | .imm16 _ => .word

/-- The control registers that have a number `ccc` (R37, R107). PC and CP have none. -/
inductive CtlReg where
  | sr | ccr | br | ep | dp | tp
deriving DecidableEq, Repr

/-- The one operand size each control register allows (R37). -/
def CtlReg.size : CtlReg → Size
  | .sr => .word
  | .ccr | .br | .ep | .dp | .tp => .byte

/-- What follows an EA byte and its extension in a code of R121: an OP byte, or the prefix H'00 and a third
byte (R101, R102). -/
inductive OpTail where
  | op (b : Byte)
  | prefixed (b : Byte)
deriving DecidableEq, Repr

/-- The instructions. The comment of a group names the rules that give its encodings and its effect. -/
inductive Instr where
  -- EA-byte rows (R104): the general-format codes of R121 with that EA byte, for which no row of the table fits
  | eaRn (sz : Size) (r : Reg) (tail : OpTail)
  | eaPreDec (sz : Size) (r : Reg) (tail : OpTail)
  | eaPostInc (sz : Size) (r : Reg) (tail : OpTail)
  | eaInd (sz : Size) (r : Reg) (tail : OpTail)
  | eaDisp8 (sz : Size) (r : Reg) (d : Byte) (tail : OpTail)
  | eaDisp16 (sz : Size) (r : Reg) (d : Word) (tail : OpTail)
  | eaAbs8 (sz : Size) (a : Byte) (tail : OpTail)
  | eaAbs16 (sz : Size) (a : Word) (tail : OpTail)
  | eaImm8 (data : Byte) (op : Byte)
  | eaImm16 (data : Word) (op : Byte)
  -- data transfer, general format (R161 to R163, R172 to R175)
  | movGLoad (src : SrcEA) (rd : Reg)
  | movGStore (sz : Size) (rs : Reg) (m : MemEA)
  | movGImm8 (sz : Size) (m : MemEA) (data : Byte)
  | movGImm16 (m : MemEA) (data : Word)
  | xch (rs rd : Reg)
  | movtpe (rs : Reg) (m : MemEA)
  | movfpe (m : MemEA) (rd : Reg)
  | swap (rd : Reg)
  -- arithmetic, general format (R201 to R227)
  | addG (src : SrcEA) (rd : Reg)
  | addQ1 (sz : Size) (d : DstEA)
  | addQ2 (sz : Size) (d : DstEA)
  | addQm1 (sz : Size) (d : DstEA)
  | addQm2 (sz : Size) (d : DstEA)
  | sub (src : SrcEA) (rd : Reg)
  | adds (src : SrcEA) (rd : Reg)
  | subs (src : SrcEA) (rd : Reg)
  | addx (src : SrcEA) (rd : Reg)
  | subx (src : SrcEA) (rd : Reg)
  | dadd (rs rd : Reg)
  | dsub (rs rd : Reg)
  | mulxu (src : SrcEA) (rd : Reg)
  | divxu (src : SrcEA) (rd : Reg)
  | cmpG (src : SrcEA) (rd : Reg)
  | cmpGImm8 (m : MemEA) (data : Byte)
  | cmpGImm16 (m : MemEA) (data : Word)
  | exts (rd : Reg)
  | extu (rd : Reg)
  | tst (sz : Size) (d : DstEA)
  | neg (sz : Size) (d : DstEA)
  | clr (sz : Size) (d : DstEA)
  | tas (d : DstEA)
  -- logic (R261 to R264)
  | logAnd (src : SrcEA) (rd : Reg)
  | logOr (src : SrcEA) (rd : Reg)
  | logXor (src : SrcEA) (rd : Reg)
  | logNot (sz : Size) (d : DstEA)
  -- shift and rotate (R266 to R273)
  | shal (sz : Size) (d : DstEA)
  | shar (sz : Size) (d : DstEA)
  | shll (sz : Size) (d : DstEA)
  | shlr (sz : Size) (d : DstEA)
  | rotl (sz : Size) (d : DstEA)
  | rotr (sz : Size) (d : DstEA)
  | rotxl (sz : Size) (d : DstEA)
  | rotxr (sz : Size) (d : DstEA)
  -- bit manipulation (R275 to R282)
  | bsetImm (sz : Size) (b : BitVec 4) (d : DstEA)
  | bsetReg (sz : Size) (rs : Reg) (d : DstEA)
  | bclrImm (sz : Size) (b : BitVec 4) (d : DstEA)
  | bclrReg (sz : Size) (rs : Reg) (d : DstEA)
  | bnotImm (sz : Size) (b : BitVec 4) (d : DstEA)
  | bnotReg (sz : Size) (rs : Reg) (d : DstEA)
  | btstImm (sz : Size) (b : BitVec 4) (d : DstEA)
  | btstReg (sz : Size) (rs : Reg) (d : DstEA)
  -- control-register access (R344 to R348)
  | ldc (src : SrcEA) (cr : CtlReg)
  | stc (cr : CtlReg) (d : DstEA)
  | andc (imm : ImmEA) (cr : CtlReg)
  | orc (imm : ImmEA) (cr : CtlReg)
  | xorc (imm : ImmEA) (cr : CtlReg)
  -- short formats and multiple-register moves (R164 to R171, R213, R214)
  | movE (rd : Reg) (data : Byte)
  | movI (rd : Reg) (data : Word)
  | movL (sz : Size) (rd : Reg) (a : Byte)
  | movS (sz : Size) (rs : Reg) (a : Byte)
  | movFLoad (sz : Size) (rd : Reg) (d : Byte)
  | movFStore (sz : Size) (rs : Reg) (d : Byte)
  | ldm (list : Byte)
  | stm (list : Byte)
  | cmpE (rd : Reg) (data : Byte)
  | cmpI (rd : Reg) (data : Word)
  -- conditional branches (R300, R301)
  | bra8 (d : Byte) | brn8 (d : Byte) | bhi8 (d : Byte) | bls8 (d : Byte)
  | bcc8 (d : Byte) | bcs8 (d : Byte) | bne8 (d : Byte) | beq8 (d : Byte)
  | bvc8 (d : Byte) | bvs8 (d : Byte) | bpl8 (d : Byte) | bmi8 (d : Byte)
  | bge8 (d : Byte) | blt8 (d : Byte) | bgt8 (d : Byte) | ble8 (d : Byte)
  | bra16 (d : Word) | brn16 (d : Word) | bhi16 (d : Word) | bls16 (d : Word)
  | bcc16 (d : Word) | bcs16 (d : Word) | bne16 (d : Word) | beq16 (d : Word)
  | bvc16 (d : Word) | bvs16 (d : Word) | bpl16 (d : Word) | bmi16 (d : Word)
  | bge16 (d : Word) | blt16 (d : Word) | bgt16 (d : Word) | ble16 (d : Word)
  -- jumps, calls and returns (R302 to R310), loop control (R316)
  | jmpInd (r : Reg)
  | jmpAbs16 (a : Word)
  | jmpDisp8 (r : Reg) (d : Byte)
  | jmpDisp16 (r : Reg) (d : Word)
  | pjmpAbs24 (page : Byte) (a : Word)
  | pjmpInd (r : Reg)
  | bsr8 (d : Byte)
  | bsr16 (d : Word)
  | jsrInd (r : Reg)
  | jsrAbs16 (a : Word)
  | jsrDisp8 (r : Reg) (d : Byte)
  | jsrDisp16 (r : Reg) (d : Word)
  | pjsrAbs24 (page : Byte) (a : Word)
  | pjsrInd (r : Reg)
  | rts
  | prts
  | rtd8 (data : Byte)
  | rtd16 (data : Word)
  | prtd8 (data : Byte)
  | prtd16 (data : Word)
  | scbF (r : Reg) (d : Byte)
  | scbNE (r : Reg) (d : Byte)
  | scbEQ (r : Reg) (d : Byte)
  -- system control (R340 to R343, R349 to R351)
  | trapa (v : BitVec 4)
  | trapvs
  | rte
  | sleep
  | nop
  | link8 (data : Byte)
  | link16 (data : Word)
  | unlk
  -- the invalid codes of Table 2-10 (R117 to R119)
  | invalidFirst0B
  | invalidFirst16
  | invalidFirst1B
  | invalidOpReg (sz : Size) (r : Reg) (op : Byte)
  | invalidOpMem (sz : Size) (m : MemEA) (op : Byte)
  | invalidOpImm (imm : ImmEA) (op : Byte)
  | invalidSecond01 (b : Byte)
  | invalidSecond06 (b : Byte)
  | invalidSecond07 (b : Byte)
  | invalidSecond11 (b : Byte)
  | invalidThird (sz : Size) (d : DstEA) (b : Byte)
deriving DecidableEq, Repr

end Sys2Proof
end

