-- ==== Sys2Proof/Decode.lean ====
section
/-! DEFINITION. Decoding and encoding (30_encoding.md). `decode` is written from the operation code maps R112 to
R116 and the procedure R124, `encode` from the byte strings of R104 and R126. `decode` is total; a byte string
that is in no row of the table is rejected by name (R121; log entry 9). -/

namespace Sys2Proof

/-- Why a byte string is no instruction of the table. -/
inductive DecodeError where
  /-- The list ends before the instruction does; six bytes are always enough (R6, R100). -/
  | truncated
  /-- A special-format code of R121 (a) or (e): its first two bytes. -/
  | undefinedCode (first second : Byte)
deriving DecidableEq, Repr

/-- What decoding gives: the instruction and the bytes after it, or the reason there is none. -/
abbrev Decoded := Except DecodeError (Instr × List Byte)

/-! ## Fields -/

/-- A register number `rrr` (R105). -/
def Reg.ofNum : Nat → Reg
  | 0 => .r0 | 1 => .r1 | 2 => .r2 | 3 => .r3 | 4 => .r4 | 5 => .r5 | 6 => .r6 | _ => .r7

/-- The number of a register (R105). -/
def Reg.num : Reg → Nat
  | .r0 => 0 | .r1 => 1 | .r2 => 2 | .r3 => 3 | .r4 => 4 | .r5 => 5 | .r6 => 6 | .r7 => 7

/-- The register in bits 2:0 of a byte. -/
def regOf (b : Byte) : Reg := Reg.ofNum (b.toNat % 8)

/-- The size bit, bit 3 of a byte (R106). -/
def sizeOf (b : Byte) : Size := if b.getLsbD 3 then .word else .byte

/-- The bit number in bits 3:0 of an OP byte (R110). -/
def bitOf (b : Byte) : BitVec 4 := b.setWidth 4

/-- The control register in bits 2:0 of an OP byte, where the size allows it (R37, R107). -/
def ctlOf (sz : Size) (b : Byte) : Option CtlReg :=
  match sz, b.toNat % 8 with
  | .word, 0 => some .sr
  | .byte, 1 => some .ccr
  | .byte, 3 => some .br
  | .byte, 4 => some .ep
  | .byte, 5 => some .dp
  | .byte, 7 => some .tp
  | _, _ => none

/-- The number of a control register (R37). -/
def CtlReg.num : CtlReg → Nat
  | .sr => 0 | .ccr => 1 | .br => 3 | .ep => 4 | .dp => 5 | .tp => 7

/-- Takes one byte. -/
def withByte (bs : List Byte) (k : Byte → List Byte → Decoded) : Decoded :=
  match bs with
  | d :: t => k d t
  | [] => .error .truncated

/-- Takes two bytes, high byte first (R111). -/
def withWord (bs : List Byte) (k : Word → List Byte → Decoded) : Decoded :=
  match bs with
  | h :: l :: t => k (h ++ l) t
  | _ => .error .truncated

/-! ## General format -/

/-- The EA-row constructor of a memory mode: a code of R121. -/
def eaMem (sz : Size) (m : MemEA) (tail : OpTail) : Instr :=
  match m with
  | .ind r => .eaInd sz r tail
  | .disp8 r d => .eaDisp8 sz r d tail
  | .disp16 r d => .eaDisp16 sz r d tail
  | .preDec r => .eaPreDec sz r tail
  | .postInc r => .eaPostInc sz r tail
  | .abs8 a => .eaAbs8 sz a tail
  | .abs16 a => .eaAbs16 sz a tail

/-- The EA-row constructor of an immediate: a code of R121 (c). -/
def eaImm (imm : ImmEA) (op : Byte) : Instr :=
  match imm with
  | .imm8 data => .eaImm8 data op
  | .imm16 data => .eaImm16 data op

/-- The immediate EA as a source operand. -/
def ImmEA.src : ImmEA → SrcEA
  | .imm8 data => .imm8 data
  | .imm16 data => .imm16 data

/-- Third byte after a register EA and the prefix H'00 (R116, third column; R119, R121). -/
def decodeRegThird (sz : Size) (r : Reg) (b : Byte) : Instr :=
  match b.toNat / 8 with
  | 20 => if sz = .byte then .dadd r (regOf b) else .eaRn sz r (.prefixed b)
  | 22 => if sz = .byte then .dsub r (regOf b) else .eaRn sz r (.prefixed b)
  | 2 => if b.toNat = 0x14 then .eaRn sz r (.prefixed b) else .invalidThird sz (.reg r) b
  | 3 => if b.toNat = 0x19 ∨ b.toNat = 0x1C then .eaRn sz r (.prefixed b) else .invalidThird sz (.reg r) b
  | 0 | 1 | 4 | 5 | 6 | 7 | 8 | 9 | 10 | 11 | 12 | 13 | 14 | 15 | 17 | 19 | 21 => .invalidThird sz (.reg r) b
  | _ => .eaRn sz r (.prefixed b)

/-- Third byte after a memory EA and the prefix H'00 (R116, third column; R119, R121). -/
def decodeMemThird (sz : Size) (m : MemEA) (b : Byte) : Instr :=
  match b.toNat / 8 with
  | 16 => if sz = .byte then .movfpe m (regOf b) else eaMem sz m (.prefixed b)
  | 18 => if sz = .byte then .movtpe (regOf b) m else eaMem sz m (.prefixed b)
  | 2 => if b.toNat = 0x14 then eaMem sz m (.prefixed b) else .invalidThird sz (.mem m) b
  | 3 => if b.toNat = 0x19 ∨ b.toNat = 0x1C then eaMem sz m (.prefixed b) else .invalidThird sz (.mem m) b
  | 0 | 1 | 4 | 5 | 6 | 7 | 8 | 9 | 10 | 11 | 12 | 13 | 14 | 15 | 17 | 19 | 21 => .invalidThird sz (.mem m) b
  | _ => eaMem sz m (.prefixed b)

/-- Rows 08 to 0F of R113 and R114, one map for both: ADD:Q (R202). -/
def decodeAddQ (sz : Size) (d : DstEA) (op : Byte) (bad : Instr) : Instr :=
  match op.toNat with
  | 0x08 => .addQ1 sz d
  | 0x09 => .addQ2 sz d
  | 0x0C => .addQm1 sz d
  | 0x0D => .addQm2 sz d
  | _ => bad

/-- Rows 18 to 1F of R113 and R114: shifts and rotates. -/
def decodeShift (sz : Size) (d : DstEA) (op : Byte) : Instr :=
  match op.toNat with
  | 0x18 => .shal sz d
  | 0x19 => .shar sz d
  | 0x1A => .shll sz d
  | 0x1B => .shlr sz d
  | 0x1C => .rotl sz d
  | 0x1D => .rotr sz d
  | 0x1E => .rotxl sz d
  | _ => .rotxr sz d

/-- Rows C0 to FF of R113 and R114: bit instructions with an immediate bit number (R110). -/
def decodeBitImm (sz : Size) (d : DstEA) (op : Byte) : Instr :=
  match op.toNat / 16 with
  | 0xC => .bsetImm sz (bitOf op) d
  | 0xD => .bclrImm sz (bitOf op) d
  | 0xE => .bnotImm sz (bitOf op) d
  | _ => .btstImm sz (bitOf op) d

/-- The OP byte after a register EA, the prefix H'00 apart (R113). -/
def decodeRegOp (sz : Size) (r : Reg) (op : Byte) : Instr :=
  match op.toNat / 8 with
  | 0 => .invalidOpReg sz r op
  | 1 => decodeAddQ sz (.reg r) op (.invalidOpReg sz r op)
  | 2 =>
    match op.toNat with
    | 0x10 => if sz = .byte then .swap r else .eaRn sz r (.op op)
    | 0x11 => if sz = .byte then .exts r else .eaRn sz r (.op op)
    | 0x12 => if sz = .byte then .extu r else .eaRn sz r (.op op)
    | 0x13 => .clr sz (.reg r)
    | 0x14 => .neg sz (.reg r)
    | 0x15 => .logNot sz (.reg r)
    | 0x16 => .tst sz (.reg r)
    | _ => if sz = .byte then .tas (.reg r) else .eaRn sz r (.op op)
  | 3 => decodeShift sz (.reg r) op
  | 4 => .addG (.reg sz r) (regOf op)
  | 5 => .adds (.reg sz r) (regOf op)
  | 6 => .sub (.reg sz r) (regOf op)
  | 7 => .subs (.reg sz r) (regOf op)
  | 8 => .logOr (.reg sz r) (regOf op)
  | 9 => .bsetReg sz (regOf op) (.reg r)
  | 10 => .logAnd (.reg sz r) (regOf op)
  | 11 => .bclrReg sz (regOf op) (.reg r)
  | 12 => .logXor (.reg sz r) (regOf op)
  | 13 => .bnotReg sz (regOf op) (.reg r)
  | 14 => .cmpG (.reg sz r) (regOf op)
  | 15 => .btstReg sz (regOf op) (.reg r)
  | 16 => .movGLoad (.reg sz r) (regOf op)
  | 17 =>
    match ctlOf sz op with
    | some cr => .ldc (.reg sz r) cr
    | none => .eaRn sz r (.op op)
  | 18 => if sz = .word then .xch r (regOf op) else .eaRn sz r (.op op)
  | 19 =>
    match ctlOf sz op with
    | some cr => .stc cr (.reg r)
    | none => .eaRn sz r (.op op)
  | 20 => .addx (.reg sz r) (regOf op)
  | 21 => .mulxu (.reg sz r) (regOf op)
  | 22 => .subx (.reg sz r) (regOf op)
  | 23 => .divxu (.reg sz r) (regOf op)
  | _ => decodeBitImm sz (.reg r) op

/-- A general-format instruction after a register EA (R113, R116). -/
def decodeReg (sz : Size) (r : Reg) (bs : List Byte) : Decoded :=
  withByte bs fun op t =>
    if op = 0x00 then withByte t fun b t' => .ok (decodeRegThird sz r b, t')
    else .ok (decodeRegOp sz r op, t)

/-- The OP byte after a memory EA, the prefix H'00 and the codes with operand bytes (04 to 07) apart (R114). -/
def decodeMemOp (sz : Size) (m : MemEA) (op : Byte) : Instr :=
  match op.toNat / 8 with
  | 0 => .invalidOpMem sz m op
  | 1 => decodeAddQ sz (.mem m) op (.invalidOpMem sz m op)
  | 2 =>
    match op.toNat with
    | 0x13 => .clr sz (.mem m)
    | 0x14 => .neg sz (.mem m)
    | 0x15 => .logNot sz (.mem m)
    | 0x16 => .tst sz (.mem m)
    | 0x17 => if sz = .byte then .tas (.mem m) else eaMem sz m (.op op)
    | _ => .invalidOpMem sz m op
  | 3 => decodeShift sz (.mem m) op
  | 4 => .addG (.mem sz m) (regOf op)
  | 5 => .adds (.mem sz m) (regOf op)
  | 6 => .sub (.mem sz m) (regOf op)
  | 7 => .subs (.mem sz m) (regOf op)
  | 8 => .logOr (.mem sz m) (regOf op)
  | 9 => .bsetReg sz (regOf op) (.mem m)
  | 10 => .logAnd (.mem sz m) (regOf op)
  | 11 => .bclrReg sz (regOf op) (.mem m)
  | 12 => .logXor (.mem sz m) (regOf op)
  | 13 => .bnotReg sz (regOf op) (.mem m)
  | 14 => .cmpG (.mem sz m) (regOf op)
  | 15 => .btstReg sz (regOf op) (.mem m)
  | 16 => .movGLoad (.mem sz m) (regOf op)
  | 17 =>
    match ctlOf sz op with
    | some cr => .ldc (.mem sz m) cr
    | none => eaMem sz m (.op op)
  | 18 => .movGStore sz (regOf op) m
  | 19 =>
    match ctlOf sz op with
    | some cr => .stc cr (.mem m)
    | none => eaMem sz m (.op op)
  | 20 => .addx (.mem sz m) (regOf op)
  | 21 => .mulxu (.mem sz m) (regOf op)
  | 22 => .subx (.mem sz m) (regOf op)
  | 23 => .divxu (.mem sz m) (regOf op)
  | _ => decodeBitImm sz (.mem m) op

/-- A general-format instruction after a memory EA (R114, R116). -/
def decodeMem (sz : Size) (m : MemEA) (bs : List Byte) : Decoded :=
  withByte bs fun op t =>
    match op.toNat with
    | 0x00 => withByte t fun b t' => .ok (decodeMemThird sz m b, t')
    | 0x04 =>
      if sz = .byte then withByte t fun d t' => .ok (.cmpGImm8 m d, t') else .ok (eaMem sz m (.op op), t)
    | 0x05 =>
      if sz = .word then withWord t fun d t' => .ok (.cmpGImm16 m d, t') else .ok (eaMem sz m (.op op), t)
    | 0x06 => withByte t fun d t' => .ok (.movGImm8 sz m d, t')
    | 0x07 =>
      if sz = .word then withWord t fun d t' => .ok (.movGImm16 m d, t') else .ok (eaMem sz m (.op op), t)
    | _ => .ok (decodeMemOp sz m op, t)

/-- The OP byte after an immediate EA (R115). -/
def decodeImmOp (imm : ImmEA) (op : Byte) : Instr :=
  match op.toNat / 8 with
  | 4 => .addG imm.src (regOf op)
  | 5 => .adds imm.src (regOf op)
  | 6 => .sub imm.src (regOf op)
  | 7 => .subs imm.src (regOf op)
  | 8 => .logOr imm.src (regOf op)
  | 9 =>
    match ctlOf imm.size op with
    | some cr => .orc imm cr
    | none => eaImm imm op
  | 10 => .logAnd imm.src (regOf op)
  | 11 =>
    match ctlOf imm.size op with
    | some cr => .andc imm cr
    | none => eaImm imm op
  | 12 => .logXor imm.src (regOf op)
  | 13 =>
    match ctlOf imm.size op with
    | some cr => .xorc imm cr
    | none => eaImm imm op
  | 14 => .cmpG imm.src (regOf op)
  | 16 => .movGLoad imm.src (regOf op)
  | 17 =>
    match ctlOf imm.size op with
    | some cr => .ldc imm.src cr
    | none => eaImm imm op
  | 20 => .addx imm.src (regOf op)
  | 21 => .mulxu imm.src (regOf op)
  | 22 => .subx imm.src (regOf op)
  | 23 => .divxu imm.src (regOf op)
  | _ => .invalidOpImm imm op

/-- A general-format instruction after an immediate EA (R115). -/
def decodeImm (imm : ImmEA) (bs : List Byte) : Decoded :=
  withByte bs fun op t => .ok (decodeImmOp imm op, t)

/-! ## Special format -/

/-- Bcc d:8 by its condition field (R301). -/
def bcc8Of (c : Nat) (d : Byte) : Instr :=
  match c with
  | 0 => .bra8 d
  | 1 => .brn8 d
  | 2 => .bhi8 d
  | 3 => .bls8 d
  | 4 => .bcc8 d
  | 5 => .bcs8 d
  | 6 => .bne8 d
  | 7 => .beq8 d
  | 8 => .bvc8 d
  | 9 => .bvs8 d
  | 10 => .bpl8 d
  | 11 => .bmi8 d
  | 12 => .bge8 d
  | 13 => .blt8 d
  | 14 => .bgt8 d
  | _ => .ble8 d

/-- Bcc d:16 by its condition field (R301). -/
def bcc16Of (c : Nat) (d : Word) : Instr :=
  match c with
  | 0 => .bra16 d
  | 1 => .brn16 d
  | 2 => .bhi16 d
  | 3 => .bls16 d
  | 4 => .bcc16 d
  | 5 => .bcs16 d
  | 6 => .bne16 d
  | 7 => .beq16 d
  | 8 => .bvc16 d
  | 9 => .bvs16 d
  | 10 => .bpl16 d
  | 11 => .bmi16 d
  | 12 => .bge16 d
  | 13 => .blt16 d
  | 14 => .bgt16 d
  | _ => .ble16 d

/-- A second byte of R118: invalid after H'01, H'06, H'07 and H'11. -/
def secondIsInvalid (b : Byte) : Bool :=
  match b.toNat / 8 with
  | 2 => b.toNat != 0x14
  | 3 => b.toNat != 0x19 && b.toNat != 0x1C
  | 0 | 1 | 4 | 5 | 6 | 7 | 8 | 9 | 10 | 11 | 12 | 13 | 14 | 15 | 17 | 19 | 21 => true
  | _ => false

/-- The bytes after H'01, H'06, H'07: SCB (R116, R316), else R118 or R121. -/
def decodeScb (first : Byte) (scb : Reg → Byte → Instr) (invalid : Byte → Instr) (bs : List Byte) : Decoded :=
  withByte bs fun b t =>
    if b.toNat / 8 = 23 then withByte t fun d t' => .ok (scb (regOf b) d, t')
    else if secondIsInvalid b then .ok (invalid b, t)
    else .error (.undefinedCode first b)

/-- The bytes after H'11 (R116, second column; R118, R121). -/
def decode11 (bs : List Byte) : Decoded :=
  withByte bs fun b t =>
    match b.toNat / 8 with
    | 2 => if b.toNat = 0x14 then withByte t fun d t' => .ok (.prtd8 d, t') else .ok (.invalidSecond11 b, t)
    | 3 =>
      match b.toNat with
      | 0x19 => .ok (.prts, t)
      | 0x1C => withWord t fun d t' => .ok (.prtd16 d, t')
      | _ => .ok (.invalidSecond11 b, t)
    | 24 => .ok (.pjmpInd (regOf b), t)
    | 25 => .ok (.pjsrInd (regOf b), t)
    | 26 => .ok (.jmpInd (regOf b), t)
    | 27 => .ok (.jsrInd (regOf b), t)
    | 28 => withByte t fun d t' => .ok (.jmpDisp8 (regOf b) d, t')
    | 29 => withByte t fun d t' => .ok (.jsrDisp8 (regOf b) d, t')
    | 30 => withWord t fun d t' => .ok (.jmpDisp16 (regOf b) d, t')
    | 31 => withWord t fun d t' => .ok (.jsrDisp16 (regOf b) d, t')
    | 16 | 18 | 20 | 22 | 23 => .error (.undefinedCode 0x11 b)
    | _ => .ok (.invalidSecond11 b, t)

/-- First bytes H'00 to H'0F (R112). -/
def decodeRow0 (b1 : Byte) (t : List Byte) : Decoded :=
  match b1.toNat with
  | 0x00 => .ok (.nop, t)
  | 0x01 => decodeScb 0x01 .scbF .invalidSecond01 t
  | 0x02 => withByte t fun d t' => .ok (.ldm d, t')
  | 0x03 => withByte t fun p t' => withWord t' fun a t'' => .ok (.pjsrAbs24 p a, t'')
  | 0x04 => withByte t fun d t' => decodeImm (.imm8 d) t'
  | 0x05 => withByte t fun a t' => decodeMem .byte (.abs8 a) t'
  | 0x06 => decodeScb 0x06 .scbNE .invalidSecond06 t
  | 0x07 => decodeScb 0x07 .scbEQ .invalidSecond07 t
  | 0x08 => withByte t fun b t' =>
      if b.toNat / 16 = 1 then .ok (.trapa (bitOf b), t') else .error (.undefinedCode 0x08 b)
  | 0x09 => .ok (.trapvs, t)
  | 0x0A => .ok (.rte, t)
  | 0x0B => .ok (.invalidFirst0B, t)
  | 0x0C => withWord t fun d t' => decodeImm (.imm16 d) t'
  | 0x0D => withByte t fun a t' => decodeMem .word (.abs8 a) t'
  | 0x0E => withByte t fun d t' => .ok (.bsr8 d, t')
  | _ => .ok (.unlk, t)

/-- First bytes H'10 to H'1F (R112). -/
def decodeRow1 (b1 : Byte) (t : List Byte) : Decoded :=
  match b1.toNat with
  | 0x10 => withWord t fun a t' => .ok (.jmpAbs16 a, t')
  | 0x11 => decode11 t
  | 0x12 => withByte t fun d t' => .ok (.stm d, t')
  | 0x13 => withByte t fun p t' => withWord t' fun a t'' => .ok (.pjmpAbs24 p a, t'')
  | 0x14 => withByte t fun d t' => .ok (.rtd8 d, t')
  | 0x15 => withWord t fun a t' => decodeMem .byte (.abs16 a) t'
  | 0x16 => .ok (.invalidFirst16, t)
  | 0x17 => withByte t fun d t' => .ok (.link8 d, t')
  | 0x18 => withWord t fun a t' => .ok (.jsrAbs16 a, t')
  | 0x19 => .ok (.rts, t)
  | 0x1A => .ok (.sleep, t)
  | 0x1B => .ok (.invalidFirst1B, t)
  | 0x1C => withWord t fun d t' => .ok (.rtd16 d, t')
  | 0x1D => withWord t fun a t' => decodeMem .word (.abs16 a) t'
  | 0x1E => withWord t fun d t' => .ok (.bsr16 d, t')
  | _ => withWord t fun d t' => .ok (.link16 d, t')

/-- The decoding procedure (R124) over the first-byte map (R112). -/
def decode : List Byte → Decoded
  | [] => .error .truncated
  | b1 :: t =>
    match b1.toNat / 16 with
    | 0x0 => decodeRow0 b1 t
    | 0x1 => decodeRow1 b1 t
    | 0x2 => withByte t fun d t' => .ok (bcc8Of (b1.toNat % 16) d, t')
    | 0x3 => withWord t fun d t' => .ok (bcc16Of (b1.toNat % 16) d, t')
    | 0x4 =>
      if sizeOf b1 = .byte then withByte t fun d t' => .ok (.cmpE (regOf b1) d, t')
      else withWord t fun d t' => .ok (.cmpI (regOf b1) d, t')
    | 0x5 =>
      if sizeOf b1 = .byte then withByte t fun d t' => .ok (.movE (regOf b1) d, t')
      else withWord t fun d t' => .ok (.movI (regOf b1) d, t')
    | 0x6 => withByte t fun a t' => .ok (.movL (sizeOf b1) (regOf b1) a, t')
    | 0x7 => withByte t fun a t' => .ok (.movS (sizeOf b1) (regOf b1) a, t')
    | 0x8 => withByte t fun d t' => .ok (.movFLoad (sizeOf b1) (regOf b1) d, t')
    | 0x9 => withByte t fun d t' => .ok (.movFStore (sizeOf b1) (regOf b1) d, t')
    | 0xA => decodeReg (sizeOf b1) (regOf b1) t
    | 0xB => decodeMem (sizeOf b1) (.preDec (regOf b1)) t
    | 0xC => decodeMem (sizeOf b1) (.postInc (regOf b1)) t
    | 0xD => decodeMem (sizeOf b1) (.ind (regOf b1)) t
    | 0xE => withByte t fun d t' => decodeMem (sizeOf b1) (.disp8 (regOf b1) d) t'
    | _ => withWord t fun d t' => decodeMem (sizeOf b1) (.disp16 (regOf b1) d) t'

/-! ## Encoding -/

/-- A byte with a register number in bits 2:0. -/
def withReg (base : Byte) (r : Reg) : Byte := base ||| BitVec.ofNat 8 r.num

/-- A byte with the size bit in bit 3 and a register number in bits 2:0. -/
def withSizeReg (base : Byte) (sz : Size) (r : Reg) : Byte :=
  match sz with
  | .byte => withReg base r
  | .word => withReg (base ||| 0x08) r

/-- A byte with a bit number or vector number in bits 3:0. -/
def withBit (base : Byte) (b : BitVec 4) : Byte := base ||| b.setWidth 8

/-- A byte with a control register number in bits 2:0. -/
def withCtl (base : Byte) (cr : CtlReg) : Byte := base ||| BitVec.ofNat 8 cr.num

/-- A 16-bit field, high byte first (R111). -/
def wordBytes (w : Word) : List Byte := [w.extractLsb' 8 8, w.extractLsb' 0 8]

/-- The EA byte and extension of a register (R104). -/
def encodeRegEA (sz : Size) (r : Reg) : List Byte := [withSizeReg 0xA0 sz r]

/-- The EA byte and extension of a memory mode (R104). -/
def encodeMemEA (sz : Size) : MemEA → List Byte
  | .ind r => [withSizeReg 0xD0 sz r]
  | .disp8 r d => [withSizeReg 0xE0 sz r, d]
  | .disp16 r d => withSizeReg 0xF0 sz r :: wordBytes d
  | .preDec r => [withSizeReg 0xB0 sz r]
  | .postInc r => [withSizeReg 0xC0 sz r]
  | .abs8 a => [if sz = .byte then 0x05 else 0x0D, a]
  | .abs16 a => (if sz = .byte then 0x15 else 0x1D) :: wordBytes a

/-- The EA byte and extension of an immediate (R104). -/
def encodeImmEA : ImmEA → List Byte
  | .imm8 d => [0x04, d]
  | .imm16 d => 0x0C :: wordBytes d

/-- The EA byte and extension of a destination operand. -/
def encodeDst (sz : Size) : DstEA → List Byte
  | .reg r => encodeRegEA sz r
  | .mem m => encodeMemEA sz m

/-- The EA byte and extension of a source operand. -/
def encodeSrc : SrcEA → List Byte
  | .reg sz r => encodeRegEA sz r
  | .mem sz m => encodeMemEA sz m
  | .imm8 d => encodeImmEA (.imm8 d)
  | .imm16 d => encodeImmEA (.imm16 d)

/-- The bytes after the EA in a code of R121. -/
def encodeTail : OpTail → List Byte
  | .op b => [b]
  | .prefixed b => [0x00, b]

/-- The bytes of an instruction (R104, R126). For an invalid code, the bytes the decoder examines. -/
def encode : Instr → List Byte
  | .eaRn sz r t => encodeRegEA sz r ++ encodeTail t
  | .eaPreDec sz r t => encodeMemEA sz (.preDec r) ++ encodeTail t
  | .eaPostInc sz r t => encodeMemEA sz (.postInc r) ++ encodeTail t
  | .eaInd sz r t => encodeMemEA sz (.ind r) ++ encodeTail t
  | .eaDisp8 sz r d t => encodeMemEA sz (.disp8 r d) ++ encodeTail t
  | .eaDisp16 sz r d t => encodeMemEA sz (.disp16 r d) ++ encodeTail t
  | .eaAbs8 sz a t => encodeMemEA sz (.abs8 a) ++ encodeTail t
  | .eaAbs16 sz a t => encodeMemEA sz (.abs16 a) ++ encodeTail t
  | .eaImm8 d op => encodeImmEA (.imm8 d) ++ [op]
  | .eaImm16 d op => encodeImmEA (.imm16 d) ++ [op]
  | .movGLoad src rd => encodeSrc src ++ [withReg 0x80 rd]
  | .movGStore sz rs m => encodeMemEA sz m ++ [withReg 0x90 rs]
  | .movGImm8 sz m d => encodeMemEA sz m ++ [0x06, d]
  | .movGImm16 m d => encodeMemEA .word m ++ 0x07 :: wordBytes d
  | .xch rs rd => encodeRegEA .word rs ++ [withReg 0x90 rd]
  | .movtpe rs m => encodeMemEA .byte m ++ [0x00, withReg 0x90 rs]
  | .movfpe m rd => encodeMemEA .byte m ++ [0x00, withReg 0x80 rd]
  | .swap rd => encodeRegEA .byte rd ++ [0x10]
  | .addG src rd => encodeSrc src ++ [withReg 0x20 rd]
  | .addQ1 sz d => encodeDst sz d ++ [0x08]
  | .addQ2 sz d => encodeDst sz d ++ [0x09]
  | .addQm1 sz d => encodeDst sz d ++ [0x0C]
  | .addQm2 sz d => encodeDst sz d ++ [0x0D]
  | .sub src rd => encodeSrc src ++ [withReg 0x30 rd]
  | .adds src rd => encodeSrc src ++ [withReg 0x28 rd]
  | .subs src rd => encodeSrc src ++ [withReg 0x38 rd]
  | .addx src rd => encodeSrc src ++ [withReg 0xA0 rd]
  | .subx src rd => encodeSrc src ++ [withReg 0xB0 rd]
  | .dadd rs rd => encodeRegEA .byte rs ++ [0x00, withReg 0xA0 rd]
  | .dsub rs rd => encodeRegEA .byte rs ++ [0x00, withReg 0xB0 rd]
  | .mulxu src rd => encodeSrc src ++ [withReg 0xA8 rd]
  | .divxu src rd => encodeSrc src ++ [withReg 0xB8 rd]
  | .cmpG src rd => encodeSrc src ++ [withReg 0x70 rd]
  | .cmpGImm8 m d => encodeMemEA .byte m ++ [0x04, d]
  | .cmpGImm16 m d => encodeMemEA .word m ++ 0x05 :: wordBytes d
  | .exts rd => encodeRegEA .byte rd ++ [0x11]
  | .extu rd => encodeRegEA .byte rd ++ [0x12]
  | .tst sz d => encodeDst sz d ++ [0x16]
  | .neg sz d => encodeDst sz d ++ [0x14]
  | .clr sz d => encodeDst sz d ++ [0x13]
  | .tas d => encodeDst .byte d ++ [0x17]
  | .logAnd src rd => encodeSrc src ++ [withReg 0x50 rd]
  | .logOr src rd => encodeSrc src ++ [withReg 0x40 rd]
  | .logXor src rd => encodeSrc src ++ [withReg 0x60 rd]
  | .logNot sz d => encodeDst sz d ++ [0x15]
  | .shal sz d => encodeDst sz d ++ [0x18]
  | .shar sz d => encodeDst sz d ++ [0x19]
  | .shll sz d => encodeDst sz d ++ [0x1A]
  | .shlr sz d => encodeDst sz d ++ [0x1B]
  | .rotl sz d => encodeDst sz d ++ [0x1C]
  | .rotr sz d => encodeDst sz d ++ [0x1D]
  | .rotxl sz d => encodeDst sz d ++ [0x1E]
  | .rotxr sz d => encodeDst sz d ++ [0x1F]
  | .bsetImm sz b d => encodeDst sz d ++ [withBit 0xC0 b]
  | .bsetReg sz rs d => encodeDst sz d ++ [withReg 0x48 rs]
  | .bclrImm sz b d => encodeDst sz d ++ [withBit 0xD0 b]
  | .bclrReg sz rs d => encodeDst sz d ++ [withReg 0x58 rs]
  | .bnotImm sz b d => encodeDst sz d ++ [withBit 0xE0 b]
  | .bnotReg sz rs d => encodeDst sz d ++ [withReg 0x68 rs]
  | .btstImm sz b d => encodeDst sz d ++ [withBit 0xF0 b]
  | .btstReg sz rs d => encodeDst sz d ++ [withReg 0x78 rs]
  | .ldc src cr => encodeSrc src ++ [withCtl 0x88 cr]
  | .stc cr d => encodeDst cr.size d ++ [withCtl 0x98 cr]
  | .andc imm cr => encodeImmEA imm ++ [withCtl 0x58 cr]
  | .orc imm cr => encodeImmEA imm ++ [withCtl 0x48 cr]
  | .xorc imm cr => encodeImmEA imm ++ [withCtl 0x68 cr]
  | .movE rd d => [withReg 0x50 rd, d]
  | .movI rd d => withReg 0x58 rd :: wordBytes d
  | .movL sz rd a => [withSizeReg 0x60 sz rd, a]
  | .movS sz rs a => [withSizeReg 0x70 sz rs, a]
  | .movFLoad sz rd d => [withSizeReg 0x80 sz rd, d]
  | .movFStore sz rs d => [withSizeReg 0x90 sz rs, d]
  | .ldm l => [0x02, l]
  | .stm l => [0x12, l]
  | .cmpE rd d => [withReg 0x40 rd, d]
  | .cmpI rd d => withReg 0x48 rd :: wordBytes d
  | .bra8 d => [0x20, d]
  | .brn8 d => [0x21, d]
  | .bhi8 d => [0x22, d]
  | .bls8 d => [0x23, d]
  | .bcc8 d => [0x24, d]
  | .bcs8 d => [0x25, d]
  | .bne8 d => [0x26, d]
  | .beq8 d => [0x27, d]
  | .bvc8 d => [0x28, d]
  | .bvs8 d => [0x29, d]
  | .bpl8 d => [0x2A, d]
  | .bmi8 d => [0x2B, d]
  | .bge8 d => [0x2C, d]
  | .blt8 d => [0x2D, d]
  | .bgt8 d => [0x2E, d]
  | .ble8 d => [0x2F, d]
  | .bra16 d => 0x30 :: wordBytes d
  | .brn16 d => 0x31 :: wordBytes d
  | .bhi16 d => 0x32 :: wordBytes d
  | .bls16 d => 0x33 :: wordBytes d
  | .bcc16 d => 0x34 :: wordBytes d
  | .bcs16 d => 0x35 :: wordBytes d
  | .bne16 d => 0x36 :: wordBytes d
  | .beq16 d => 0x37 :: wordBytes d
  | .bvc16 d => 0x38 :: wordBytes d
  | .bvs16 d => 0x39 :: wordBytes d
  | .bpl16 d => 0x3A :: wordBytes d
  | .bmi16 d => 0x3B :: wordBytes d
  | .bge16 d => 0x3C :: wordBytes d
  | .blt16 d => 0x3D :: wordBytes d
  | .bgt16 d => 0x3E :: wordBytes d
  | .ble16 d => 0x3F :: wordBytes d
  | .jmpInd r => [0x11, withReg 0xD0 r]
  | .jmpAbs16 a => 0x10 :: wordBytes a
  | .jmpDisp8 r d => [0x11, withReg 0xE0 r, d]
  | .jmpDisp16 r d => 0x11 :: withReg 0xF0 r :: wordBytes d
  | .pjmpAbs24 p a => 0x13 :: p :: wordBytes a
  | .pjmpInd r => [0x11, withReg 0xC0 r]
  | .bsr8 d => [0x0E, d]
  | .bsr16 d => 0x1E :: wordBytes d
  | .jsrInd r => [0x11, withReg 0xD8 r]
  | .jsrAbs16 a => 0x18 :: wordBytes a
  | .jsrDisp8 r d => [0x11, withReg 0xE8 r, d]
  | .jsrDisp16 r d => 0x11 :: withReg 0xF8 r :: wordBytes d
  | .pjsrAbs24 p a => 0x03 :: p :: wordBytes a
  | .pjsrInd r => [0x11, withReg 0xC8 r]
  | .rts => [0x19]
  | .prts => [0x11, 0x19]
  | .rtd8 d => [0x14, d]
  | .rtd16 d => 0x1C :: wordBytes d
  | .prtd8 d => [0x11, 0x14, d]
  | .prtd16 d => 0x11 :: 0x1C :: wordBytes d
  | .scbF r d => [0x01, withReg 0xB8 r, d]
  | .scbNE r d => [0x06, withReg 0xB8 r, d]
  | .scbEQ r d => [0x07, withReg 0xB8 r, d]
  | .trapa v => [0x08, withBit 0x10 v]
  | .trapvs => [0x09]
  | .rte => [0x0A]
  | .sleep => [0x1A]
  | .nop => [0x00]
  | .link8 d => [0x17, d]
  | .link16 d => 0x1F :: wordBytes d
  | .unlk => [0x0F]
  | .invalidFirst0B => [0x0B]
  | .invalidFirst16 => [0x16]
  | .invalidFirst1B => [0x1B]
  | .invalidOpReg sz r op => encodeRegEA sz r ++ [op]
  | .invalidOpMem sz m op => encodeMemEA sz m ++ [op]
  | .invalidOpImm imm op => encodeImmEA imm ++ [op]
  | .invalidSecond01 b => [0x01, b]
  | .invalidSecond06 b => [0x06, b]
  | .invalidSecond07 b => [0x07, b]
  | .invalidSecond11 b => [0x11, b]
  | .invalidThird sz d b => encodeDst sz d ++ [0x00, b]

/-! ## The host's numbering of a table row -/

/-- The longest instruction (R6). -/
def maxLength : Nat := 6

/-- The `n` bytes of a number, most significant byte first: spec/opcode_table.json reads a row as one number whose
first byte is the most significant (R129; log entry 28). -/
def bytesOfNat : Nat → Nat → List Byte
  | 0, _ => []
  | n + 1, w => BitVec.ofNat 8 (w / 256 ^ n) :: bytesOfNat n w

/-- The bytes of a table row's word, and zeros up to the longest instruction. -/
def tableBytes (nbits w : Nat) : List Byte :=
  (bytesOfNat (nbits / 8) w ++ List.replicate maxLength 0).take maxLength

/-- The instruction the decoder reads from a word numbered as the opcode table numbers it (log entry 28). -/
def decodeTableWord (nbits w : Nat) : Option Instr :=
  match decode (tableBytes nbits w) with
  | .ok (i, _) => some i
  | .error _ => none

end Sys2Proof
end

