-- ==== Sys2Proof/Machine/State.lean ====
section
/-! DEFINITION. The state of the machine as plain data, the reasons a step can stop, and the state after reset.
INVENTORY.md lists every field with the rule that names it and its reset value. -/

namespace Sys2Proof.Machine

/-- The eight general registers (R20). -/
structure Regs where
  r0 : Word
  r1 : Word
  r2 : Word
  r3 : Word
  r4 : Word
  r5 : Word
  r6 : Word
  r7 : Word
deriving DecidableEq, Repr

/-- The two address-space modes (R7, R40 (a)). -/
inductive Mode where
  | min | max
deriving DecidableEq, Repr

/-- The processing states (R420, R40 (b)) and the terminal condition of R397. -/
inductive ProcState where
  | execution
  /-- Entered and left within one step (R422): no step leaves the machine in it. -/
  | exceptionHandling
  | busReleased
  | resetState
  | sleep
  | softwareStandby
  | hardwareStandby
  /-- A push of an exception sequence faulted; only reset leaves it (R397, U15). -/
  | doubleFault
deriving DecidableEq, Repr

/-- A pending interrupt request (R401): NMI, or a request of a level with its source, the source being the place
of its vector among the vectors 32 to 79. -/
inductive Request where
  | nmi
  | irq (level : BitVec 3) (source : Fin 48)
deriving DecidableEq, Repr

/-- The inputs of R467 and the platform input SBYCR.SSBY (R426). NMI and the request lines are `State.requests`. -/
structure Pins where
  resLow : Bool
  stbyLow : Bool
  breq : Bool
  ssby : Bool
  modePins : BitVec 3
deriving DecidableEq, Repr

/-- Where an address range is. The two differ in time (R84), and hardware standby holds RAM on the chip only (R426). -/
inductive Place where
  | onChip | external
deriving DecidableEq, Repr

/-- What lies at an address range (R7 `MEMORY_MAP`, R83, R84; log entry 13). -/
inductive RegionKind where
  | ram
  /-- Reads like RAM; a write leaves it as it is. -/
  | rom
  /-- The register field on the chip, or the registers of an external device: a read gives a byte of the device, a
  write stores nothing. With read side effects a read changes the device. -/
  | registerField (readEffects : Bool)
  /-- Nothing is there: a read gives a free byte, a write stores nothing (U19). -/
  | empty
deriving DecidableEq, Repr

/-- An address range of the memory map, its ends included. -/
structure Region where
  first : Nat
  last : Nat
  place : Place
  kind : RegionKind
deriving DecidableEq, Repr

/-- The parameter `INVALID_INSTR_STACKED_PC` (R393). -/
inductive StackedPcRule where
  /-- The default: the address after the last byte the decoder examined. -/
  | afterLastExamined
  /-- A chip's own function of the bytes, `Config.invalidInstrStackedPc`. -/
  | chipDefined
deriving DecidableEq, Repr

/-- The parameters of a chip that the spec leaves open (R7; the parameter table of 92_eei_decisions.md). -/
structure Chip where
  hasEClock : Bool
  hasBreq : Bool
  /-- False on the H8/570, which leaves software standby by reset only (R426). -/
  nmiLeavesStandby : Bool
  /-- True on the H8/520: hardware standby is selected by the mode pins, not by STBY (R426). -/
  standbyByMode : Bool
  /-- The values of the mode pins that select maximum mode (R441; log entry 3). -/
  maxModePins : List (BitVec 3)
  invalidPc : StackedPcRule
  /-- `PHYS_ADDR_BITS` less the 16 bits of an offset: the bits of the page the chip has address lines for (R7, D19; log
  entry 25). -/
  pageLines : Fin 9
  /-- `IFETCH_COHERENT` (R89, D4; log entry 24). -/
  ifetchCoherent : Bool
  /-- The first range that holds an address says what lies there; an address in no range is RAM. -/
  memoryMap : List Region
deriving DecidableEq, Repr

/-- A hardware standby that memory went through: RAM that `map` does not place on the chip is lost, and reads as a value
named by `count` until it is written (R426, U21; log entry 20). -/
structure PowerLoss where
  count : Nat
  map : List Region
deriving DecidableEq, Repr

/-- Memory: the bytes that differ from what an unlisted address reads as, addresses strictly rising, and the standbys
that decide what that is, the last one first (log entries 1 and 20). -/
structure Memory where
  cells : List Host.Cell
  lost : List PowerLoss
deriving DecidableEq, Repr

/-- The state of the machine. -/
structure State where
  /-- R0 to R7 (R20). -/
  regs : Regs
  /-- PC (R25). -/
  pc : Word
  /-- SR; its low byte is CCR (R27). -/
  sr : Word
  /-- CP, DP, EP, TP (R31 to R34) and BR (R35). -/
  cp : Byte
  dp : Byte
  ep : Byte
  tp : Byte
  br : Byte
  /-- MODE, latched at reset (R40 (a), R441). -/
  mode : Mode
  /-- MDCR bits MDS2 to MDS0 (R440, R441). -/
  mds : BitVec 3
  /-- The processing state (R40 (b), R420). -/
  proc : ProcState
  /-- The one-instruction inhibit (R40 (d), R395). -/
  inhibitNext : Bool
  /-- An address error was detected in the current instruction (R40 (c), R387). -/
  addrErrPending : Bool
  /-- A trace request latched at the check point (R40 (c), R398). -/
  tracePending : Bool
  /-- The bus lock TAS holds between its read and its write (R40 (e), R227). -/
  busLock : Bool
  /-- Pending interrupt requests; among equal levels the platform's choice stands first (R401; log entry 16). -/
  requests : List Request
  /-- Inputs of the CPU (R467). -/
  pins : Pins
  /-- Parameters of the chip (R7). -/
  chip : Chip
  /-- Memory (R39, R60). -/
  mem : Memory
  /-- Where `IFETCH_COHERENT` is false: the addresses stored to since the last instruction fetch, and between that fetch
  and the one before it (R89; log entry 24). -/
  stored : List Nat
  storedBefore : List Nat
  /-- The model's own: counts the free values drawn and the instructions fetched (log entry 5). -/
  free : Nat
deriving DecidableEq, Repr

/-- Why the machine stops with a fault. Every exception of the CPU is taken as a next state; a fault stands for
bytes to which the spec gives no instruction. -/
inductive Fault where
  /-- Raised by `step` where the bytes at the program counter are no instruction of the table: the special-format
  codes of R121 (a) and (e), whose behaviour is unspecified (D21, D22, treatment `refuse`). Safe: nothing is
  claimed of the machine after them. Log entry 9. -/
  | undecodable (e : DecodeError)
deriving DecidableEq, Repr

/-- Why an instruction has no meaning. -/
inductive Refusal where
  /-- Raised by `exec` for an instruction that is not modelled yet. Safe. -/
  | notModelled (mnemonic : String)
  /-- Raised by the EA-row constructors: a general-format code of R121 (a) to (c), whose behaviour is unspecified
  (D21, treatment `refuse`). Safe. Log entry 9. -/
  | unspecifiedCombination
  /-- Raised by LDC, ANDC, ORC, XORC for a term whose operand size is not the control register's (R37, R352, U2).
  No byte string decodes to such a term (log entry 10). Safe. -/
  | controlRegisterNotAllowed
  /-- Raised by word MULXU and DIVXU, PJMP @Rn and PJSR @Rn with an odd register number (R24, U6, D21, treatment
  `refuse`). Safe. Log entry 11. -/
  | oddRegisterPair
  /-- Raised by MOVFPE and MOVTPE where the chip has no E clock (R173, U11, D23, treatment `refuse`). Safe. Log
  entry 12. -/
  | noEClock
  /-- Raised by `step` on a chip without `IFETCH_COHERENT` where a byte of the instruction at the program counter was
  stored to within the last two instructions: "should refuse programs that write to the bytes of the next two
  instructions" (R89, D4). Safe. Log entry 24. -/
  | storeAheadOfFetch
deriving DecidableEq, Repr

/-- What one instruction answers. -/
abbrev Result := Host.Outcome State Fault Refusal

/-- The state right after the reset sequence (R440, R442, R44): SR = H'070x, program execution, PC and CP read from
the vector table of a memory in which nothing is listed. Registers and flags the spec leaves undetermined hold 0
(DESIGN CHOICE, unsafe; log entry 2); mode and pins: log entry 3; PC: log entry 4. -/
def State.reset : State where
  regs := ⟨0, 0, 0, 0, 0, 0, 0, 0⟩
  pc := 0
  sr := 0x0700
  cp := 0
  dp := 0
  ep := 0
  tp := 0
  br := 0
  mode := .max
  mds := 0b100
  proc := .execution
  inhibitNext := false
  addrErrPending := false
  tracePending := false
  busLock := false
  requests := []
  pins := { resLow := false, stbyLow := false, breq := false, ssby := false, modePins := 0b100 }
  chip :=
    { hasEClock := true, hasBreq := false, nmiLeavesStandby := true, standbyByMode := false,
      maxModePins := [0b011, 0b100], invalidPc := .afterLastExamined, pageLines := 8, ifetchCoherent := true,
      memoryMap := [] }
  mem := ⟨[], []⟩
  stored := []
  storedBefore := []
  free := 0

end Sys2Proof.Machine
end

