-- ==== Sys2Proof/Machine/Flags.lean ====
section
/-! DEFINITION. Every flag computation of the spec, over operands of n bits (41_arithmetic.md R200 and the rules of
each instruction). `m` of the spec, the most significant bit, is `msb`. -/

namespace Sys2Proof.Machine

/-- N, Z, V, C (R27, R30). -/
structure Flags where
  n : Bool
  z : Bool
  v : Bool
  c : Bool
deriving DecidableEq, Repr

/-- `add_n(d, s, cin)` (R200). -/
def addN {n : Nat} (d s : BitVec n) (cin : Bool) : BitVec n × Flags :=
  let t := d.toNat + s.toNat + cin.toNat
  let r := BitVec.ofNat n t
  (r, { n := r.msb
        z := r == 0#n
        v := (s.msb && d.msb && !r.msb) || (!s.msb && !d.msb && r.msb)
        c := decide (2 ^ n ≤ t) })

/-- `sub_n(d, s, bin)`: d - s - bin (R200). -/
def subN {n : Nat} (d s : BitVec n) (bin : Bool) : BitVec n × Flags :=
  let r := d - s - BitVec.ofNat n bin.toNat
  (r, { n := r.msb
        z := r == 0#n
        v := (!s.msb && d.msb && !r.msb) || (s.msb && !d.msb && r.msb)
        c := decide (d.toNat < s.toNat + bin.toNat) })

/-- ADDX: the old C enters, Z stays 1 only if it was 1 (R206). -/
def addxN {n : Nat} (d s : BitVec n) (old : Flags) : BitVec n × Flags :=
  let p := addN d s old.c
  (p.1, { p.2 with z := old.z && p.2.z })

/-- SUBX: the old C enters, Z stays 1 only if it was 1 (R208, conflict C7). -/
def subxN {n : Nat} (d s : BitVec n) (old : Flags) : BitVec n × Flags :=
  let p := subN d s old.c
  (p.1, { p.2 with z := old.z && p.2.z })

/-- MOV and the logic operations: N and Z of the value, V cleared, C kept (R160, R260). -/
def moveFlags {n : Nat} (r : BitVec n) (old : Flags) : Flags :=
  { n := r.msb, z := r == 0#n, v := false, c := old.c }

/-- TST, TAS, EXTS, EXTU, MULXU: N and Z of the value, V and C cleared (R216, R222 to R224, R227). -/
def testFlags {n : Nat} (r : BitVec n) : Flags :=
  { n := r.msb, z := r == 0#n, v := false, c := false }

/-- CLR (R226). -/
def clrFlags : Flags := { n := false, z := true, v := false, c := false }

/-- DIVXU by zero (R218 case (1)). -/
def zeroDivideFlags : Flags := { n := false, z := true, v := false, c := false }

/-- DIVXU overflow (R218 case (2)). -/
def divOverflowFlags : Flags := { n := false, z := false, v := true, c := false }

/-- The flags of a shift or rotate with result `r` (R265). -/
def shiftFlags {n : Nat} (r : BitVec n) (v c : Bool) : Flags :=
  { n := r.msb, z := r == 0#n, v := v, c := c }

/-- SHAL (R266). -/
def shalN {n : Nat} (d : BitVec n) (_old : Flags) : BitVec n × Flags :=
  let r := d <<< 1
  (r, shiftFlags r (d.msb ^^ d.getMsbD 1) d.msb)

/-- SHAR (R267). -/
def sharN {n : Nat} (d : BitVec n) (_old : Flags) : BitVec n × Flags :=
  let r := d.sshiftRight 1
  (r, shiftFlags r false (d.getLsbD 0))

/-- SHLL (R268). -/
def shllN {n : Nat} (d : BitVec n) (_old : Flags) : BitVec n × Flags :=
  let r := d <<< 1
  (r, shiftFlags r false d.msb)

/-- SHLR (R269). -/
def shlrN {n : Nat} (d : BitVec n) (_old : Flags) : BitVec n × Flags :=
  let r := d >>> 1
  (r, shiftFlags r false (d.getLsbD 0))

/-- A bit as the least significant bit of n. -/
def lowBit (n : Nat) (b : Bool) : BitVec n := BitVec.ofNat n b.toNat

/-- ROTL: bit 0 receives the old most significant bit (R270). -/
def rotlN {n : Nat} (d : BitVec n) (_old : Flags) : BitVec n × Flags :=
  let r := d <<< 1 ||| lowBit n d.msb
  (r, shiftFlags r false d.msb)

/-- ROTR: the most significant bit receives the old bit 0 (R271). -/
def rotrN {n : Nat} (d : BitVec n) (_old : Flags) : BitVec n × Flags :=
  let r := d >>> 1 ||| lowBit n (d.getLsbD 0) <<< (n - 1)
  (r, shiftFlags r false (d.getLsbD 0))

/-- ROTXL: bit 0 receives the old C (R272). -/
def rotxlN {n : Nat} (d : BitVec n) (old : Flags) : BitVec n × Flags :=
  let r := d <<< 1 ||| lowBit n old.c
  (r, shiftFlags r false d.msb)

/-- ROTXR: the most significant bit receives the old C (R273). -/
def rotxrN {n : Nat} (d : BitVec n) (old : Flags) : BitVec n × Flags :=
  let r := d >>> 1 ||| lowBit n old.c <<< (n - 1)
  (r, shiftFlags r false (d.getLsbD 0))

/-- The value of two BCD digits (R209). -/
def bcdValue (b : Byte) : Nat := 10 * (b.toNat / 16) + b.toNat % 16

/-- Both nibbles are at most 9 (R209). -/
def bcdValid (b : Byte) : Bool := decide (b.toNat / 16 ≤ 9) && decide (b.toNat % 16 ≤ 9)

/-- A number below 100 as two BCD digits (R209). -/
def toBcd (u : Nat) : Byte := BitVec.ofNat 8 (u / 10 * 16 + u % 10)

/-- DADD of valid digits: sticky Z, decimal carry, N and V kept (R209). -/
def daddN (d s : Byte) (old : Flags) : Byte × Flags :=
  let t := bcdValue d + bcdValue s + old.c.toNat
  let u := t % 100
  (toBcd u, { old with z := old.z && u == 0, c := decide (100 ≤ t) })

/-- DSUB of valid digits: sticky Z, decimal borrow, N and V kept (R210). -/
def dsubN (d s : Byte) (old : Flags) : Byte × Flags :=
  let b := bcdValue s + old.c.toNat
  let u := (bcdValue d + 100 - b) % 100
  (toBcd u, { old with z := old.z && u == 0, c := decide (bcdValue d < b) })

end Sys2Proof.Machine
end

