-- ==== Sys2Proof/Machine/Memory.lean ====
section
/-! DEFINITION. Memory as a canonical list of bytes (20_memory.md R60): what an unlisted byte reads as, one read, one
write, the loss of hardware standby, and the canonical form. -/

namespace Sys2Proof.Machine

/-- The range of a memory map that says what lies at an address: the first that holds it (R84; log entry 13). -/
def regionAt (map : List Region) (a : Nat) : Option Region :=
  map.find? fun g => decide (g.first ≤ a) && decide (a ≤ g.last)

/-- Hardware standby holds the contents of an address: "Only on-chip RAM contents are held" (R426); ROM has its contents
anyhow. An address in no range is not placed on the chip (log entry 20). -/
def heldInStandby (map : List Region) (a : Nat) : Bool :=
  match regionAt map a with
  | some g =>
    match g.kind with
    | .ram => g.place == .onChip
    | .rom => true
    | .registerField _ | .empty => false
  | none => false

/-- What an address that no entry lists reads as: after a hardware standby that lost it a free value (R426, U21; log
entry 20), else H'00. The spec gives memory no contents at power-up (R443, U21): H'00 is the model's (DESIGN CHOICE,
unsafe; log entry 1). -/
def Memory.unlisted (lost : List PowerLoss) (a : Nat) : Byte :=
  match lost.find? fun l => !heldInStandby l.map a with
  | some l => Config.lostByte a l.count
  | none => 0

/-- The byte at an address, of a list of entries. -/
def Memory.readCells (lost : List PowerLoss) : List Host.Cell → Nat → Byte
  | [], a => Memory.unlisted lost a
  | (k, b) :: t, a => if k = a then b else Memory.readCells lost t a

/-- The byte at an address. -/
def Memory.read (m : Memory) (a : Nat) : Byte := Memory.readCells m.lost m.cells a

/-- The entries after a store of a byte at an address, in the canonical form. -/
def Memory.writeCells (lost : List PowerLoss) : List Host.Cell → Nat → Byte → List Host.Cell
  | [], a, v => if v = Memory.unlisted lost a then [] else [(a, v)]
  | (k, b) :: t, a, v =>
    if a < k then
      if v = Memory.unlisted lost a then (k, b) :: t else (a, v) :: (k, b) :: t
    else if a = k then
      if v = Memory.unlisted lost a then t else (a, v) :: t
    else (k, b) :: Memory.writeCells lost t a v

/-- Stores a byte at an address and keeps the canonical form. -/
def Memory.write (m : Memory) (a : Nat) (v : Byte) : Memory :=
  { m with cells := Memory.writeCells m.lost m.cells a v }

/-- Hardware standby, on a chip with this memory map and at this count of free values: what is not held is lost (R426). -/
def Memory.losePower (m : Memory) (map : List Region) (count : Nat) : Memory where
  cells := m.cells.filter fun c => heldInStandby map c.1
  lost := ⟨count, map⟩ :: m.lost.filter fun l => l.map != map

/-- The canonical form of a list whose addresses are at least `lo`. -/
def Memory.wfFrom (lost : List PowerLoss) : Nat → List Host.Cell → Bool
  | _, [] => true
  | lo, (k, b) :: t =>
    decide (lo ≤ k) && decide (k < 2 ^ 24) && b != Memory.unlisted lost k && Memory.wfFrom lost (k + 1) t

/-- The canonical form: addresses strictly rising and inside the address space (R39), no entry equal to what an
unlisted address reads as. -/
def Memory.wf (m : Memory) : Bool := Memory.wfFrom m.lost 0 m.cells

end Sys2Proof.Machine
end

