-- ==== Sys2Proof/Machine/Ops.lean ====
section
/-! DEFINITION. The named operations over registers, flags, memory and stack, instruction fetch, and taking an
exception and returning from one: the primitives of 00_scope.md R10 and the sequences of 60_exceptions.md. -/

namespace Sys2Proof.Machine

/-! ## General registers (R20, R23) -/

/-- The contents of a register. -/
def Regs.get (g : Regs) : Reg → Word
  | .r0 => g.r0
  | .r1 => g.r1
  | .r2 => g.r2
  | .r3 => g.r3
  | .r4 => g.r4
  | .r5 => g.r5
  | .r6 => g.r6
  | .r7 => g.r7

/-- The registers with one of them replaced. -/
def Regs.set (g : Regs) (r : Reg) (v : Word) : Regs :=
  match r with
  | .r0 => { g with r0 := v }
  | .r1 => { g with r1 := v }
  | .r2 => { g with r2 := v }
  | .r3 => { g with r3 := v }
  | .r4 => { g with r4 := v }
  | .r5 => { g with r5 := v }
  | .r6 => { g with r6 := v }
  | .r7 => { g with r7 := v }

/-- `R[i]` (R10). -/
def State.reg (s : State) (r : Reg) : Word := s.regs.get r

/-- `R[i] <- v` (R10). -/
def State.setReg (s : State) (r : Reg) (v : Word) : State := { s with regs := s.regs.set r v }

/-- `Rb[i]` or `R[i]` by the operand size (R22, R69). -/
def State.regN (s : State) (sz : Size) (r : Reg) : BitVec sz.bits := (s.reg r).setWidth sz.bits

/-- A register with its low n bits replaced; a byte leaves bits 15:8 unchanged (R23). -/
def mergeReg : (sz : Size) → Word → BitVec sz.bits → Word
  | .byte, old, v => old.extractLsb' 8 8 ++ v
  | .word, _, v => v

/-- `Rb[i] <- v` or `R[i] <- v` by the operand size (R23). -/
def State.setRegN (s : State) (sz : Size) (r : Reg) (v : BitVec sz.bits) : State :=
  s.setReg r (mergeReg sz (s.reg r) v)

/-- Sign extension to 16 bits, `sext_16` (R10). -/
def sext16 {n : Nat} (v : BitVec n) : Word := v.signExtend 16

/-! ## Status register and control registers (R27 to R37, R352) -/

/-- The bits of SR that exist (R27). -/
def srBits : Word := 0x870F

/-- T (R28). -/
def State.flagT (s : State) : Bool := s.sr.getLsbD 15

/-- I2 to I0 (R29). -/
def State.mask (s : State) : BitVec 3 := s.sr.extractLsb' 8 3

/-- N, Z, V, C (R30). -/
def State.flags (s : State) : Flags where
  n := s.sr.getLsbD 3
  z := s.sr.getLsbD 2
  v := s.sr.getLsbD 1
  c := s.sr.getLsbD 0

/-- The flags as SR[3:0]. -/
def Flags.nibble (f : Flags) : BitVec 4 :=
  BitVec.ofBool f.n ++ BitVec.ofBool f.z ++ BitVec.ofBool f.v ++ BitVec.ofBool f.c

/-- Writes N, Z, V, C and nothing else of SR. -/
def State.setFlags (s : State) (f : Flags) : State := { s with sr := s.sr.extractLsb' 4 12 ++ f.nibble }

/-- A 16-bit write of SR: the reserved bits are dropped (R27). -/
def State.writeSR (s : State) (v : Word) : State := { s with sr := v &&& srBits }

/-- An 8-bit write of CCR: bits 7:4 are dropped, SR[15:8] is unchanged (R27). -/
def State.writeCCR (s : State) (v : Byte) : State :=
  { s with sr := s.sr.extractLsb' 8 8 ++ (v &&& 0x0F) }

/-- T <- 0 (R390). -/
def State.clearT (s : State) : State := { s with sr := s.sr &&& 0x7FFF }

/-- I2 to I0 <- l (R390, R394). -/
def State.setMask (s : State) (l : BitVec 3) : State :=
  { s with sr := s.sr.extractLsb' 11 5 ++ l ++ s.sr.extractLsb' 0 8 }

/-- `cr_read(ccc)`, a byte register zero-extended (R352). -/
def State.crRead (s : State) : CtlReg → Word
  | .sr => s.sr
  | .ccr => (s.sr.setWidth 8).setWidth 16
  | .br => s.br.setWidth 16
  | .ep => s.ep.setWidth 16
  | .dp => s.dp.setWidth 16
  | .tp => s.tp.setWidth 16

/-- `cr_write(ccc, v)`; a byte register takes the low byte (R352). -/
def State.crWrite (s : State) (cr : CtlReg) (v : Word) : State :=
  match cr with
  | .sr => s.writeSR v
  | .ccr => s.writeCCR (v.setWidth 8)
  | .br => { s with br := v.setWidth 8 }
  | .ep => { s with ep := v.setWidth 8 }
  | .dp => { s with dp := v.setWidth 8 }
  | .tp => { s with tp := v.setWidth 8 }

/-! ## Free values (`UNSPEC(n)`, R10; log entry 5) -/

/-- One more free value has been drawn. -/
def State.tick (s : State) : State := { s with free := s.free + 1 }

/-- A free word. -/
def State.drawWord (s : State) : Word × State := (Config.freeWord s.free, s.tick)

/-- A free byte. -/
def State.drawByte (s : State) : Byte × State := (Config.freeByte s.free, s.tick)

/-- A free bit. -/
def State.drawBit (s : State) : Bool × State := (Config.freeBit s.free, s.tick)

/-! ## Memory accesses (R62 to R64, R84) -/

/-- `A(page, off)`: the page counts in maximum mode only (R62). -/
def State.addr (s : State) (page : Byte) (off : Word) : Addr :=
  match s.mode with
  | .max => page ++ off
  | .min => (0 : Byte) ++ off

/-- `page_of(i)` (R10, R61). -/
def State.pageOf (s : State) : Reg → Byte
  | .r0 | .r1 | .r2 | .r3 => s.dp
  | .r4 | .r5 => s.ep
  | .r6 | .r7 => s.tp

/-- The address that reaches memory: the lines the chip has carry the low `PHYS_ADDR_BITS` bits (R7, D19; log
entry 25). -/
def State.phys (s : State) (a : Addr) : Nat := a.toNat % 2 ^ (16 + s.chip.pageLines.val)

/-- What the memory map says of an address that reaches memory (R84; log entry 13). -/
def Chip.kindAt (c : Chip) (a : Nat) : RegionKind :=
  match regionAt c.memoryMap a with
  | some g => g.kind
  | none => .ram

/-- The byte a read of an address finds. -/
def State.peek (s : State) (a : Addr) : Byte :=
  match s.chip.kindAt (s.phys a) with
  | .ram | .rom => Memory.read s.mem (s.phys a)
  | .registerField _ | .empty => Config.windowByte (s.phys a) s.free

/-- `MemRead(a, 1)` (R63). Memory and registers without read side effects are as before it (R83). -/
def State.loadByte (s : State) (a : Addr) : Byte × State :=
  (s.peek a,
    match s.chip.kindAt (s.phys a) with
    | .ram | .rom | .registerField false => s
    | .registerField true | .empty => s.tick)

/-- A store to an address, where the chip's instruction fetch may not see it (R89; log entry 24). -/
def State.noteStore (s : State) (a : Nat) : State :=
  if s.chip.ifetchCoherent then s else { s with stored := a :: s.stored }

/-- `MemWrite(a, 1, v)` (R63). -/
def State.storeByte (s : State) (a : Addr) (v : Byte) : State :=
  match s.chip.kindAt (s.phys a) with
  | .ram => { s.noteStore (s.phys a) with mem := Memory.write s.mem (s.phys a) v }
  | .rom | .registerField _ | .empty => s

/-- An address error is pending (R387). -/
def State.markAddrErr (s : State) : State := { s with addrErrPending := true }

/-- `MemRead(a, 2)`, big-endian (R63). At an odd address the access is not performed, the value is free and an
address error is pending (R64, R399). -/
def State.loadWord (s : State) (a : Addr) : Word × State :=
  if a.getLsbD 0 then (s.drawWord.1, s.drawWord.2.markAddrErr)
  else
    let h := s.loadByte a
    let l := h.2.loadByte (a + 1)
    (h.1 ++ l.1, l.2)

/-- `MemWrite(a, 2, v)`, big-endian (R63). At an odd address the access is not performed and an address error is
pending (R64, R399). -/
def State.storeWord (s : State) (a : Addr) (v : Word) : State :=
  if a.getLsbD 0 then s.markAddrErr
  else (s.storeByte a (v.extractLsb' 8 8)).storeByte (a + 1) (v.extractLsb' 0 8)

/-! ## Stack (R10, R21, R61) -/

/-- The address R7 points to, in page TP. -/
def State.stackAddr (s : State) : Addr := s.addr s.tp (s.reg .r7)

/-- `push16(v)` (R10). -/
def State.push16 (s : State) (v : Word) : State :=
  let s1 := s.setReg .r7 (s.reg .r7 - 2)
  s1.storeWord s1.stackAddr v

/-- `pop16()` (R10). -/
def State.pop16 (s : State) : Word × State :=
  let p := s.loadWord s.stackAddr
  (p.1, p.2.setReg .r7 (s.reg .r7 + 2))

/-- The word a code page register is pushed as: H'00 above it (D8). -/
def pageWord (page : Byte) : Word := (0 : Byte) ++ page

/-! ## Instruction fetch (R26, R65, R89) -/

/-- The address of the k-th instruction byte: PC wraps inside the code page (R26). -/
def State.fetchAddr (s : State) (k : Nat) : Addr := s.addr s.cp (s.pc + BitVec.ofNat 16 k)

/-- The bytes from PC on, as many as the longest instruction has. -/
def State.fetchBytes (s : State) : List Byte := (List.range maxLength).map fun k => s.peek (s.fetchAddr k)

/-- After the fetch of an instruction of `len` bytes PC points to the next instruction (R124 step 6). Devices run on
from one instruction to the next, so what a register field reads as is free again (log entry 13). -/
def State.advance (s : State) (len : Nat) : State :=
  { s.tick with pc := s.pc + BitVec.ofNat 16 len, stored := [], storedBefore := s.stored }

/-- One of the first `len` bytes at PC is noted as stored to within the last two instructions (R89; log entry 24). -/
def State.storedAhead (s : State) (len : Nat) : Bool :=
  (List.range len).any fun k => (s.stored ++ s.storedBefore).contains (s.phys (s.fetchAddr k))

/-! ## Exceptions (R388 to R392) -/

/-- The exceptions other than reset (R380). -/
inductive Exc where
  | invalidInstruction
  | zeroDivide
  | trapVS
  | addressError
  | trace
  | nmi
  | trapA (v : BitVec 4)
  | interrupt (level : BitVec 3) (source : Fin 48)
deriving DecidableEq, Repr

/-- The vector number (R388). -/
def Exc.vector : Exc → Nat
  | .invalidInstruction => 2
  | .zeroDivide => 3
  | .trapVS => 4
  | .addressError => 8
  | .trace => 9
  | .nmi => 11
  | .trapA v => 16 + v.toNat
  | .interrupt _ source => 32 + source.val

/-- The interrupt mask that accepting the exception sets: interrupts only (R390, R394). -/
def Exc.newMask : Exc → Option (BitVec 3)
  | .nmi => some 7
  | .interrupt level _ => some level
  | .invalidInstruction | .zeroDivide | .trapVS | .addressError | .trace | .trapA _ => none

/-- `vector_fetch(n)`: PC, and in maximum mode CP, from entry n of the table at address 0 (R388, R392, D8). -/
def State.vectorFetch (s : State) (n : Nat) : State :=
  match s.mode with
  | .min =>
    let p := s.loadWord (BitVec.ofNat 24 (2 * n))
    { p.2 with pc := p.1 }
  | .max =>
    let w := s.loadWord (BitVec.ofNat 24 (4 * n))
    let p := w.2.loadWord (BitVec.ofNat 24 (4 * n + 2))
    { p.2 with cp := w.1.setWidth 8, pc := p.1 }

/-- The pushes of the entry sequence: PC, in maximum mode CP, SR as it is (R390, R391). -/
def State.pushFrame (s : State) (pcToStack : Word) : State :=
  let s1 := s.push16 pcToStack
  let s2 :=
    match s.mode with
    | .min => s1
    | .max => s1.push16 (pageWord s.cp)
  s2.push16 s.sr

/-- The terminal condition of R397: nothing further is pending, only reset leaves it (U15). -/
def State.enterDoubleFault (s : State) : State :=
  { s with proc := .doubleFault, addrErrPending := false, tracePending := false, inhibitNext := false }

/-- `exception_sequence(kind, pc_to_stack)` (R390). With R7 odd the first push faults: double fault (R397). Nothing
is taken in the double fault state. -/
def State.exceptionSequence (s : State) (kind : Exc) (pcToStack : Word) : State :=
  if s.proc = .doubleFault then s
  else if (s.reg .r7).getLsbD 0 then s.enterDoubleFault
  else
    let s1 := { s with proc := .exceptionHandling }.pushFrame pcToStack
    let s2 := s1.clearT
    let s3 :=
      match kind.newMask with
      | some l => s2.setMask l
      | none => s2
    { s3.vectorFetch kind.vector with proc := .execution }

/-- The PC an invalid instruction stacks: the parameter `INVALID_INSTR_STACKED_PC` of the bytes examined and the
address after them (R393; log entry 14). -/
def State.invalidStackedPc (s : State) (examined : List Byte) (afterExamined : Word) : Word :=
  match s.chip.invalidPc with
  | .afterLastExamined => afterExamined
  | .chipDefined => Config.invalidInstrStackedPc examined afterExamined

/-- The exception of an invalid instruction whose examined bytes end at `afterExamined` (R385). -/
def State.takeInvalid (s : State) (examined : List Byte) (afterExamined : Word) : State :=
  s.exceptionSequence .invalidInstruction (s.invalidStackedPc examined afterExamined)

/-- Return from exception: SR, in maximum mode CP, then PC; the next check point is inhibited (R342, R396). -/
def State.returnFromException (s : State) : State :=
  let sr := s.pop16
  let s1 := sr.2.writeSR sr.1
  let s2 :=
    match s.mode with
    | .min => s1
    | .max =>
      let cp := s1.pop16
      { cp.2 with cp := cp.1.setWidth 8 }
  let pc := s2.pop16
  { pc.2 with pc := pc.1, inhibitNext := true }

end Sys2Proof.Machine
end

