-- ==== Sys2Proof/Machine/Control.lean ====
section
/-! DEFINITION. What the machine does around its instructions: fetch, the check point after an instruction and
interrupt acceptance (60_exceptions.md R387 to R395, R401), the processing states (R420 to R426) and the reset sequence
(70_reset_and_hazards.md R440). -/

namespace Sys2Proof.Machine

/-! ## Fetch (R124, R446) -/

/-- The instruction at PC and the state in which it is executed: PC points to the next instruction (R124 step 6). -/
def State.fetch (s : State) : Except DecodeError (Instr × State) :=
  match decode s.fetchBytes with
  | .ok (i, rest) => .ok (i, s.advance (maxLength - rest.length))
  | .error e => .error e

/-- The last two instructions stored to the one at PC, on a chip whose fetch may not see that (R89; log entry 24). All
bytes of the instruction count, as `decode` takes them, also the operand bytes of a code that is invalid in minimum mode
and of which fewer are examined (DESIGN CHOICE; log entry 24). -/
def State.staleFetch (s : State) : Bool :=
  !s.chip.ifetchCoherent &&
    match decode s.fetchBytes with
    | .ok (_, rest) => s.storedAhead (maxLength - rest.length)
    | .error _ => false

/-! ## Interrupts (R384, R394, R401, R402) -/

/-- The level of a request; NMI is level 8 (R402). -/
def Request.level : Request → Nat
  | .nmi => 8
  | .irq l _ => l.toNat

/-- The exception a request is accepted as (R394). -/
def Request.exc : Request → Exc
  | .nmi => .nmi
  | .irq l source => .interrupt l source

/-- The highest-level request; among equal levels the one the platform put first (R394, R401). -/
def topRequest : List Request → Option Request
  | [] => none
  | q :: rest =>
    match topRequest rest with
    | none => some q
    | some p => if q.level < p.level then some p else some q

/-- A request is accepted if it is NMI or its level is above the mask (R394). -/
def State.acceptable (s : State) (q : Request) : Bool := q.level == 8 || decide (s.mask.toNat < q.level)

/-- Accepts one request: the exception sequence, and the platform withdraws the request (R394, R401; log entry 16). -/
def State.acceptRequest (s : State) (q : Request) : State :=
  { s with requests := s.requests.erase q }.exceptionSequence q.exc s.pc

/-- `accept_interrupt_if_any()`, at most `fuel` times: each acceptance uses up one request (R394). -/
def State.acceptLoop : Nat → State → State
  | 0, s => s
  | fuel + 1, s =>
    if s.proc = .doubleFault then s
    else
      match topRequest s.requests with
      | none => s
      | some q => if s.acceptable q then State.acceptLoop fuel (s.acceptRequest q) else s

/-- `accept_interrupt_if_any()` (R394). -/
def State.acceptInterrupts (s : State) : State := State.acceptLoop s.requests.length s

/-! ## The check point (R387, R389, R395, R398) -/

/-- An address error detected in the instruction is handled: once, with the PC and SR the instruction left (R399). -/
def State.handleAddrErr (s : State) : State :=
  if s.addrErrPending then { s with addrErrPending := false }.exceptionSequence .addressError s.pc else s

/-- A latched trace request is handled (R398). -/
def State.handleTrace (s : State) : State :=
  if s.tracePending then { s with tracePending := false }.exceptionSequence .trace s.pc else s

/-- The check point at the end of an instruction: `inhibit_next` is read and cleared, the trace request is latched
before the address error sequence clears T; address error, trace, interrupts, in this order (R387, R389, D20). An
instruction exception has cleared T (R398). The double fault state has no check point (R397). -/
def State.checkPoint (s : State) : State :=
  if s.proc = .doubleFault then s
  else
    let s1 := { s with inhibitNext := false, tracePending := s.flagT && !s.inhibitNext }
    let s2 := s1.handleAddrErr.handleTrace
    if s.inhibitNext then s2 else s2.acceptInterrupts

/-! ## Reset (R381, R440 to R443) -/

/-- RES Low: whatever is being executed is halted, T is cleared, the mask is 7 (R381, R424). -/
def State.enterReset (s : State) : State :=
  { (s.clearT).setMask 7 with
    proc := .resetState, inhibitNext := false, addrErrPending := false, tracePending := false, busLock := false }

/-- The mode the mode pins select on this chip (R441). Every value that does not select maximum mode selects minimum
mode, those that select no operating mode included (DESIGN CHOICE; log entry 3). -/
def Chip.modeOf (c : Chip) (pins : BitVec 3) : Mode := if pins ∈ c.maxModePins then .max else .min

/-- The general registers after a reset: eight free values, from the k-th on (U1). -/
def freeRegs (k : Nat) : Regs where
  r0 := Config.freeWord k
  r1 := Config.freeWord (k + 1)
  r2 := Config.freeWord (k + 2)
  r3 := Config.freeWord (k + 3)
  r4 := Config.freeWord (k + 4)
  r5 := Config.freeWord (k + 5)
  r6 := Config.freeWord (k + 6)
  r7 := Config.freeWord (k + 7)

/-- What the reset sequence does before it reads the vector: the mode pins are latched, SR is H'070x with free N, Z, V,
C, the other registers are free (R440, R442, U1). Memory and requests are kept (R442, R443). -/
def State.resetRegisters (s : State) : State :=
  { s with
    mds := s.pins.modePins
    mode := s.chip.modeOf s.pins.modePins
    regs := freeRegs s.free
    dp := Config.freeByte s.free
    ep := Config.freeByte (s.free + 1)
    tp := Config.freeByte (s.free + 2)
    br := Config.freeByte (s.free + 3)
    cp :=
      match s.chip.modeOf s.pins.modePins with
      | .min => Config.freeByte (s.free + 4)
      | .max => s.cp
    sr := 0x0700 ||| (Config.freeWord (s.free + 8) &&& 0x000F)
    inhibitNext := false
    addrErrPending := false
    tracePending := false
    busLock := false
    stored := []
    storedBefore := []
    free := s.free + 9 }

/-- RES High: the reset sequence, vector 0; nothing is stacked and no interrupt is accepted before the first
instruction (R440, R446, D26). -/
def State.resetSequence (s : State) : State := { s.resetRegisters.vectorFetch 0 with proc := .execution }

/-! ## Processing states (R420 to R426) -/

/-- Another bus master asks for the bus and may have it (R423); not between the read and the write of TAS (R82). -/
def State.busRequested (s : State) : Bool := s.chip.hasBreq && s.pins.breq && !s.busLock

/-- BACK is asserted: the CPU has released the bus (R423, R467). -/
def State.back (s : State) : Bool := s.proc == .busReleased

/-- Sleep: woken by an acceptable request, else idle (R425). -/
def State.idleInSleep (s : State) : State := s.acceptInterrupts

/-- Software standby: woken by NMI, where the chip allows it, else idle (R426). -/
def State.idleInStandby (s : State) : State :=
  if s.chip.nmiLeavesStandby && s.requests.contains .nmi then s.acceptInterrupts else s

/-- The H8/520's mode-pin value that selects hardware standby (R426, R441). -/
def standbyPins : BitVec 3 := 6

/-- The H8/520's operating modes, whose selection leaves hardware standby (R426, R441). -/
def operatingPins : List (BitVec 3) := [1, 2, 3, 4, 7]

/-- Hardware standby is asked for: by STBY Low; on the H8/520 by mode 6 at the mode pins, until an operating mode is
selected (R426; log entry 20). -/
def State.standbySelected (s : State) : Bool :=
  if s.chip.standbyByMode then
    s.pins.modePins == standbyPins || s.proc == .hardwareStandby && !operatingPins.contains s.pins.modePins
  else s.pins.stbyLow

/-- Hardware standby, from any state: RAM on the chip is held, other RAM is lost (R420, R426; log entry 20). -/
def State.enterHardwareStandby (s : State) : State :=
  { s.tick with
    proc := .hardwareStandby, inhibitNext := false, addrErrPending := false, tracePending := false, busLock := false
    mem := s.mem.losePower s.chip.memoryMap s.free }

/-- A step in which no instruction is executed, or none if the CPU executes one (R420). Hardware standby goes before
RES; it is left through the reset state only (R426). -/
def State.withoutInstruction (s : State) : Option State :=
  if s.standbySelected then some s.enterHardwareStandby
  else if s.pins.resLow then some s.enterReset
  else
    match s.proc with
    | .hardwareStandby | .doubleFault => some s
    | .resetState => some s.resetSequence
    | .sleep => some s.idleInSleep
    | .softwareStandby => some s.idleInStandby
    | .busReleased => if s.busRequested then some s else some { s with proc := .execution }
    | .execution | .exceptionHandling => if s.busRequested then some { s with proc := .busReleased } else none

/-! ## Placing a program (log entry 4) -/

/-- The six bytes of an instruction in memory from the `k`-th fetch address on. -/
def State.placeBytes (s : State) : Nat → List Byte → Memory → Memory
  | _, [], m => m
  | k, b :: rest, m => s.placeBytes (k + 1) rest (Memory.write m (s.phys (s.fetchAddr k)) b)

end Sys2Proof.Machine
end

