-- ==== Sys2Proof/Machine/Operands.lean ====
section
/-! DEFINITION. Every operand form: the addressing modes (20_memory.md R68 to R79) and the operand access procedures
`ea_resolve`, `ea_read`, `ea_write` (R91), as the shapes the meanings are made of. -/

namespace Sys2Proof.Machine

/-- The step of `@-Rn` and `@Rn+`: 2 for a word or for R7, else 1 (R66, R73). -/
def stride (sz : Size) (r : Reg) : Word := if sz = .word ∨ r = .r7 then 2 else 1

/-- `ea_resolve`, its register effect: a pre-decrement is applied before the operand access (R73, R91). -/
def State.preStep (s : State) (sz : Size) : MemEA → State
  | .preDec r => s.setReg r (s.reg r - stride sz r)
  | .ind _ | .disp8 _ _ | .disp16 _ _ | .postInc _ | .abs8 _ | .abs16 _ => s

/-- A post-increment is applied after the operand's last access (R74, R91). -/
def State.postStep (s : State) (sz : Size) : MemEA → State
  | .postInc r => s.setReg r (s.reg r + stride sz r)
  | .ind _ | .disp8 _ _ | .disp16 _ _ | .preDec _ | .abs8 _ | .abs16 _ => s

/-- `operand_addr`, after any pre-decrement (R70 to R76). -/
def State.operandAddr (s : State) : MemEA → Addr
  | .ind r => s.addr (s.pageOf r) (s.reg r)
  | .disp8 r d => s.addr (s.pageOf r) (s.reg r + sext16 d)
  | .disp16 r d => s.addr (s.pageOf r) (s.reg r + d)
  | .preDec r => s.addr (s.pageOf r) (s.reg r)
  | .postInc r => s.addr (s.pageOf r) (s.reg r)
  | .abs8 a => s.addr 0 (s.br ++ a)
  | .abs16 a => s.addr s.dp a

/-- The two modes whose access is always a word access (R66). -/
def viaStack : MemEA → Bool
  | .preDec .r7 | .postInc .r7 => true
  | _ => false

/-- `ea_read` of a memory operand at `a`; a byte through @-R7 or @R7+ is the low byte of a word (R66, R67, D2). -/
def State.loadAt (s : State) (sz : Size) (stack : Bool) (a : Addr) : BitVec sz.bits × State :=
  match sz with
  | .word => s.loadWord a
  | .byte =>
    if stack then ((s.loadWord a).1.setWidth 8, (s.loadWord a).2)
    else s.loadByte a

/-- `ea_write` of a memory operand at `a`; a byte through @-R7 or @R7+ is the low byte of a word whose high byte is
free (R67, U9, D2). -/
def State.storeAt (s : State) (sz : Size) (stack : Bool) (a : Addr) (v : BitVec sz.bits) : State :=
  match sz, v with
  | .word, v => s.storeWord a v
  | .byte, v =>
    if stack then s.drawByte.2.storeWord a (s.drawByte.1 ++ v)
    else s.storeByte a v

/-! ## The shapes of the instructions -/

/-- `ea_read` of a source operand, up to and including the pre-decrement and the access (R91). -/
def State.readSrc (s : State) : (src : SrcEA) → BitVec src.size.bits × State
  | .reg sz r => (s.regN sz r, s)
  | .mem sz m => (s.preStep sz m).loadAt sz (viaStack m) ((s.preStep sz m).operandAddr m)
  | .imm8 data => (data, s)
  | .imm16 data => (data, s)

/-- The end of an instruction with a source operand: the post-increment, "after instruction execution" (R74). A
pointer that is also one of the registers the instruction wrote ends as a free value (R79, D5, U10; log entry 8). -/
def State.finishSrc (s : State) (src : SrcEA) (written : List Reg) : State :=
  match src with
  | .mem sz (.postInc r) =>
    if r ∈ written then s.drawWord.2.setReg r s.drawWord.1
    else s.postStep sz (.postInc r)
  | _ => s

/-- Rd and a source give a new Rd and flags: ADD:G, SUB, ADDX, SUBX, AND, OR, XOR, MOV:G. -/
def State.aluSrc (s : State) (src : SrcEA) (rd : Reg)
    (f : BitVec src.size.bits → BitVec src.size.bits → Flags → BitVec src.size.bits × Flags) : State :=
  let p := s.readSrc src
  let q := f (p.2.regN src.size rd) p.1 p.2.flags
  ((p.2.setRegN src.size rd q.1).setFlags q.2).finishSrc src [rd]

/-- Rd and a source give flags only: CMP:G. -/
def State.testSrc (s : State) (src : SrcEA) (rd : Reg)
    (f : BitVec src.size.bits → BitVec src.size.bits → Flags → Flags) : State :=
  let p := s.readSrc src
  (p.2.setFlags (f (p.2.regN src.size rd) p.1 p.2.flags)).finishSrc src []

/-- A source gives a whole new Rd and no flags: ADDS, SUBS. -/
def State.wordSrc (s : State) (src : SrcEA) (rd : Reg) (f : Word → Word → Word) : State :=
  let p := s.readSrc src
  (p.2.setReg rd (f (p.2.reg rd) (sext16 p.1))).finishSrc src [rd]

/-- Read-modify-write of a destination operand on one resolved address (R81, R91). -/
def State.modify (s : State) (sz : Size) (d : DstEA) (f : BitVec sz.bits → Flags → BitVec sz.bits × Flags) : State :=
  match d with
  | .reg r =>
    let q := f (s.regN sz r) s.flags
    (s.setRegN sz r q.1).setFlags q.2
  | .mem m =>
    let s1 := s.preStep sz m
    let a := s1.operandAddr m
    let p := s1.loadAt sz (viaStack m) a
    let q := f p.1 p.2.flags
    ((p.2.storeAt sz (viaStack m) a q.1).setFlags q.2).postStep sz m

/-- Read of a destination operand for its flags: TST, BTST, CMP:G #xx,<EAd> (R81). -/
def State.inspect (s : State) (sz : Size) (d : DstEA) (f : BitVec sz.bits → Flags → Flags) : State :=
  match d with
  | .reg r => s.setFlags (f (s.regN sz r) s.flags)
  | .mem m =>
    let s1 := s.preStep sz m
    let p := s1.loadAt sz (viaStack m) (s1.operandAddr m)
    (p.2.setFlags (f p.1 p.2.flags)).postStep sz m

/-- Write of a memory operand with no prior read: the value may depend on the registers after a pre-decrement
(R79, R81). -/
def State.storeMem (s : State) (sz : Size) (m : MemEA) (v : State → BitVec sz.bits) : State :=
  let s1 := s.preStep sz m
  (s1.storeAt sz (viaStack m) (s1.operandAddr m) (v s1)).postStep sz m

/-- Write of a destination operand with no prior read: CLR, STC (R81). -/
def State.writeDst (s : State) (sz : Size) (d : DstEA) (v : BitVec sz.bits) : State :=
  match d with
  | .reg r => s.setRegN sz r v
  | .mem m => s.storeMem sz m fun _ => v

end Sys2Proof.Machine
end

