-- ==== Sys2Proof/WellFormed.lean ====
section
/-! DEFINITION. Which terms of `Instr` are instructions the spec gives an encoding (30_encoding.md R107, R117 to
R121), and the restrictions on register numbers (R24). The lists here are those of R117 to R121; the decoder is
written from the operation code maps R112 to R116, and the two are compared by the round trip. -/

namespace Sys2Proof

/-- The byte lies between `lo` and `hi`. -/
def inRange (b : Byte) (lo hi : Nat) : Bool := decide (lo ≤ b.toNat) && decide (b.toNat ≤ hi)

/-- OP bytes that are invalid after a register EA (R117). -/
def invalidAfterReg (b : Byte) : Bool :=
  inRange b 0x01 0x07 || inRange b 0x0A 0x0B || inRange b 0x0E 0x0F

/-- OP bytes that are invalid after a memory EA (R117). -/
def invalidAfterMem (b : Byte) : Bool :=
  inRange b 0x01 0x03 || inRange b 0x0A 0x0B || inRange b 0x0E 0x0F || inRange b 0x10 0x12

/-- OP bytes that are invalid after an immediate EA (R117). -/
def invalidAfterImm (b : Byte) : Bool :=
  inRange b 0x00 0x1F || inRange b 0x78 0x7F || inRange b 0x90 0x9F || inRange b 0xC0 0xFF

/-- Second bytes that are invalid after H'01, H'06, H'07, H'11 (R118), and third bytes that are invalid after an
EA and the prefix H'00 (R119): one set. -/
def invalidFollowing (b : Byte) : Bool :=
  inRange b 0x00 0x13 || inRange b 0x15 0x18 || inRange b 0x1A 0x1B || inRange b 0x1D 0x7F ||
    inRange b 0x88 0x8F || inRange b 0x98 0x9F || inRange b 0xA8 0xAF

/-- The control register number in the low three bits is one the size allows (R107). -/
def ctlAllowed (sz : Size) (b : Byte) : Bool :=
  match sz with
  | .byte => [1, 3, 4, 5, 7].contains (b.toNat % 8)
  | .word => b.toNat % 8 == 0

/-- Third bytes of R121 (a) that are defined under another lead byte only: after a register EA or a memory EA. -/
def undefinedThird (b : Byte) : Bool :=
  inRange b 0x14 0x14 || inRange b 0x19 0x19 || inRange b 0x1C 0x1C || inRange b 0xB8 0xFF

/-- What may follow a register EA in a code of R121 (a) to (c). -/
def undefinedAfterReg (sz : Size) : OpTail → Bool
  | .op b =>
    (sz == .word && (inRange b 0x10 0x12 || inRange b 0x17 0x17)) || (sz == .byte && inRange b 0x90 0x97) ||
      ((inRange b 0x88 0x8F || inRange b 0x98 0x9F) && !ctlAllowed sz b)
  | .prefixed b =>
    undefinedThird b || inRange b 0x80 0x87 || inRange b 0x90 0x97 ||
      (sz == .word && (inRange b 0xA0 0xA7 || inRange b 0xB0 0xB7))

/-- What may follow a memory EA in a code of R121 (a) to (c). -/
def undefinedAfterMem (sz : Size) : OpTail → Bool
  | .op b =>
    (sz == .word && (inRange b 0x04 0x04 || inRange b 0x17 0x17)) ||
      (sz == .byte && (inRange b 0x05 0x05 || inRange b 0x07 0x07)) ||
      ((inRange b 0x88 0x8F || inRange b 0x98 0x9F) && !ctlAllowed sz b)
  | .prefixed b =>
    undefinedThird b || inRange b 0xA0 0xA7 || inRange b 0xB0 0xB7 ||
      (sz == .word && (inRange b 0x80 0x87 || inRange b 0x90 0x97))

/-- OP bytes that may follow an immediate EA in a code of R121 (c). -/
def undefinedAfterImm (sz : Size) (b : Byte) : Bool :=
  (inRange b 0x48 0x4F || inRange b 0x58 0x5F || inRange b 0x68 0x6F || inRange b 0x88 0x8F) && !ctlAllowed sz b

/-- A register number that names a pair (R24). -/
def Reg.even : Reg → Bool
  | .r0 | .r2 | .r4 | .r6 => true
  | .r1 | .r3 | .r5 | .r7 => false

/-- The term has an encoding of its own: the operand size agrees with the control register (R37, R352), the codes
of an EA-row constructor are codes of R121, the bytes of an invalid constructor are in the lists of R117 to R119. -/
def Instr.encodable : Instr → Bool
  | .eaRn sz _ t => undefinedAfterReg sz t
  | .eaPreDec sz _ t | .eaPostInc sz _ t | .eaInd sz _ t | .eaDisp8 sz _ _ t | .eaDisp16 sz _ _ t
  | .eaAbs8 sz _ t | .eaAbs16 sz _ t => undefinedAfterMem sz t
  | .eaImm8 _ op => undefinedAfterImm .byte op
  | .eaImm16 _ op => undefinedAfterImm .word op
  | .ldc src cr => src.size == cr.size
  | .andc imm cr | .orc imm cr | .xorc imm cr => imm.size == cr.size
  | .invalidOpReg _ _ op => invalidAfterReg op
  | .invalidOpMem _ _ op => invalidAfterMem op
  | .invalidOpImm _ op => invalidAfterImm op
  | .invalidSecond01 b | .invalidSecond06 b | .invalidSecond07 b | .invalidSecond11 b
  | .invalidThird _ _ b => invalidFollowing b
  | _ => true

/-- "d must be even (0, 2, 4, or 6)": word MULXU and DIVXU, PJMP @Rn, PJSR @Rn (R24, R216, R218, R303, R306). -/
def Instr.pairEven : Instr → Bool
  | .mulxu src rd | .divxu src rd => src.size == .byte || rd.even
  | .pjmpInd r | .pjsrInd r => r.even
  | _ => true

/-- A well-formed instruction: it has an encoding and its register pair, if it names one, is allowed. -/
def Instr.wellFormed (i : Instr) : Bool := i.encodable && i.pairEven

end Sys2Proof
end

