-- ==== Sys2Proof/Machine/Arithmetic.lean ====
section
/-! DEFINITION. The arithmetic instructions (41_arithmetic.md). PC already points to the next instruction. -/

namespace Sys2Proof.Machine

/-- ADD:G <EAs>,Rd (R201). -/
def execAddG (src : SrcEA) (rd : Reg) (s : State) : Result :=
  .next (s.aluSrc src rd fun d v _ => addN d v false)

/-- ADD:Q with the immediate as an n-bit constant (R202). -/
def State.addQuick (s : State) (sz : Size) (d : DstEA) (imm : BitVec sz.bits) : State :=
  s.modify sz d fun v _ => addN v imm false

/-- ADD:Q #1,<EAd> (R202). -/
def execAddQ1 (sz : Size) (d : DstEA) (s : State) : Result := .next (s.addQuick sz d 1)

/-- ADD:Q #2,<EAd> (R202). -/
def execAddQ2 (sz : Size) (d : DstEA) (s : State) : Result := .next (s.addQuick sz d 2)

/-- ADD:Q #-1,<EAd> (R202). -/
def execAddQm1 (sz : Size) (d : DstEA) (s : State) : Result := .next (s.addQuick sz d (-1))

/-- ADD:Q #-2,<EAd> (R202). -/
def execAddQm2 (sz : Size) (d : DstEA) (s : State) : Result := .next (s.addQuick sz d (-2))

/-- SUB <EAs>,Rd (R203). -/
def execSub (src : SrcEA) (rd : Reg) (s : State) : Result :=
  .next (s.aluSrc src rd fun d v _ => subN d v false)

/-- ADDS <EAs>,Rd: a byte source is sign-extended, Rd is a word, no flag changes (R204). -/
def execAdds (src : SrcEA) (rd : Reg) (s : State) : Result := .next (s.wordSrc src rd fun d v => d + v)

/-- SUBS <EAs>,Rd (R207). -/
def execSubs (src : SrcEA) (rd : Reg) (s : State) : Result := .next (s.wordSrc src rd fun d v => d - v)

/-- ADDX <EAs>,Rd (R206). -/
def execAddx (src : SrcEA) (rd : Reg) (s : State) : Result := .next (s.aluSrc src rd addxN)

/-- SUBX <EAs>,Rd (R208, conflict C7). -/
def execSubx (src : SrcEA) (rd : Reg) (s : State) : Result := .next (s.aluSrc src rd subxN)

/-- A decimal operation on the low bytes of Rd and Rs. With a nibble above 9 the result byte, Z and C are free
(D18, U8; log entry 23). -/
def State.decimal (s : State) (rs rd : Reg) (f : Byte → Byte → Flags → Byte × Flags) : State :=
  let d := s.regN .byte rd
  let v := s.regN .byte rs
  if bcdValid d && bcdValid v then
    let q := f d v s.flags
    (s.setRegN .byte rd q.1).setFlags q.2
  else
    let b := s.drawByte
    let z := b.2.drawBit
    let c := z.2.drawBit
    (c.2.setRegN .byte rd b.1).setFlags { s.flags with z := z.1, c := c.1 }

/-- DADD Rs,Rd (R209). -/
def execDadd (rs rd : Reg) (s : State) : Result := .next (s.decimal rs rd daddN)

/-- DSUB Rs,Rd (R210). -/
def execDsub (rs rd : Reg) (s : State) : Result := .next (s.decimal rs rd dsubN)

/-- CMP:G <EAs>,Rd (R211). -/
def execCmpG (src : SrcEA) (rd : Reg) (s : State) : Result :=
  .next (s.testSrc src rd fun d v _ => (subN d v false).2)

/-- CMP:G #xx:8,<EAd> (R212). -/
def execCmpGImm8 (m : MemEA) (data : Byte) (s : State) : Result :=
  .next (s.inspect .byte (.mem m) fun d _ => (subN d data false).2)

/-- CMP:G #xx:16,<EAd> (R212). -/
def execCmpGImm16 (m : MemEA) (data : Word) (s : State) : Result :=
  .next (s.inspect .word (.mem m) fun d _ => (subN d data false).2)

/-- CMP:E #xx:8,Rd (R213). -/
def execCmpE (rd : Reg) (data : Byte) (s : State) : Result :=
  .next (s.testSrc (.imm8 data) rd fun d v _ => (subN d v false).2)

/-- CMP:I #xx:16,Rd (R214). -/
def execCmpI (rd : Reg) (data : Word) (s : State) : Result :=
  .next (s.testSrc (.imm16 data) rd fun d v _ => (subN d v false).2)

/-- The register that holds the lower word of the pair named by Rd (R24). -/
def pairLow : Reg → Reg
  | .r0 => .r1
  | .r1 => .r2
  | .r2 => .r3
  | .r3 => .r4
  | .r4 => .r5
  | .r5 => .r6
  | .r6 => .r7
  | .r7 => .r0

/-- The 32-bit value of the pair named by Rd: Rd is the upper word (R24). -/
def State.regPair (s : State) (rd : Reg) : BitVec 32 := s.reg rd ++ s.reg (pairLow rd)

/-- A 32-bit write of the pair named by Rd (R24). -/
def State.setRegPair (s : State) (rd : Reg) (v : BitVec 32) : State :=
  (s.setReg rd (v.extractLsb' 16 16)).setReg (pairLow rd) (v.extractLsb' 0 16)

/-- The product of MULXU.B: the low byte of Rd times the source (R216). -/
def mulByte (d v : Word) : Word := (d.setWidth 8).setWidth 16 * v

/-- The product of MULXU.W (R216). -/
def mulWord (d v : Word) : BitVec 32 := d.setWidth 32 * v.setWidth 32

/-- MULXU <EAs>,Rd: flags of the full product (R216, D25); an odd pair is refused (U6; log entry 11). -/
def execMulxu (src : SrcEA) (rd : Reg) (s : State) : Result :=
  let p := s.readSrc src
  let v : Word := p.1.setWidth 16
  match src.size with
  | .byte =>
    let r := mulByte (p.2.reg rd) v
    .next (((p.2.setReg rd r).setFlags (testFlags r)).finishSrc src [rd])
  | .word =>
    if rd.even then
      let r := mulWord (p.2.reg rd) v
      .next (((p.2.setRegPair rd r).setFlags (testFlags r)).finishSrc src [rd, pairLow rd])
    else .refused .oddRegisterPair

/-- The flags of a performed division: N and Z of the n-bit quotient (R218, D12). -/
def quotientFlags (n q : Nat) : Flags := testFlags (BitVec.ofNat n q)

/-- DIVXU once the operands are read: dividend `dvd`, divisor `dvs`, n bits; `put q r` stores quotient and remainder.
Division by 0 sets the flags and takes the zero-divide exception as the last act; an overflow leaves Rd (R218,
R386). -/
def State.divide (s : State) (src : SrcEA) (n dvd dvs : Nat) (put : Nat → Nat → State) (written : List Reg) :
    State :=
  if dvs = 0 then
    ((s.setFlags zeroDivideFlags).finishSrc src []).exceptionSequence .zeroDivide s.pc
  else if 2 ^ n ≤ dvd / dvs then (s.setFlags divOverflowFlags).finishSrc src []
  else ((put (dvd / dvs) (dvd % dvs)).setFlags (quotientFlags n (dvd / dvs))).finishSrc src written

/-- DIVXU <EAs>,Rd: byte quotient low and remainder high in Rd; word remainder in Rd and quotient in Rd+1 (R218); an
odd pair is refused (U6; log entry 11). -/
def execDivxu (src : SrcEA) (rd : Reg) (s : State) : Result :=
  let p := s.readSrc src
  match src.size with
  | .byte =>
    .next (p.2.divide src 8 (p.2.reg rd).toNat p.1.toNat
      (fun q r => p.2.setReg rd (BitVec.ofNat 8 r ++ BitVec.ofNat 8 q)) [rd])
  | .word =>
    if rd.even then
      .next (p.2.divide src 16 (p.2.regPair rd).toNat p.1.toNat
        (fun q r => p.2.setRegPair rd (BitVec.ofNat 16 r ++ BitVec.ofNat 16 q)) [rd, pairLow rd])
    else .refused .oddRegisterPair

/-- EXTS Rd (R222). -/
def execExts (rd : Reg) (s : State) : Result :=
  let v := sext16 (s.regN .byte rd)
  .next ((s.setReg rd v).setFlags (testFlags v))

/-- EXTU Rd (R223). -/
def execExtu (rd : Reg) (s : State) : Result :=
  let v : Word := (s.regN .byte rd).setWidth 16
  .next ((s.setReg rd v).setFlags (testFlags v))

/-- TST <EAd> (R224). -/
def execTst (sz : Size) (d : DstEA) (s : State) : Result := .next (s.inspect sz d fun v _ => testFlags v)

/-- NEG <EAd> (R225). -/
def execNeg (sz : Size) (d : DstEA) (s : State) : Result := .next (s.modify sz d fun v _ => subN 0 v false)

/-- CLR <EAd>: one write and no read (R226). -/
def execClr (sz : Size) (d : DstEA) (s : State) : Result := .next ((s.writeDst sz d 0).setFlags clrFlags)

/-- TAS <EAd>: flags of the byte before its bit 7 is set, the bus locked from the read to the write (R227). -/
def execTas (d : DstEA) (s : State) : Result :=
  let s1 := { s with busLock := true }.modify .byte d fun v _ => (v ||| 0x80, testFlags v)
  .next { s1 with busLock := false }

end Sys2Proof.Machine
end

