-- ==== Sys2Proof/Machine/Branch.lean ====
section
/-! DEFINITION. The branch instructions (43_branch.md). PC already points to the next instruction (`PCnext`). No flag
changes here; only PJMP, PJSR, PRTS and PRTD write CP (R312). -/

namespace Sys2Proof.Machine

/-- The sixteen conditions (R301). -/
inductive Cond where
  | always | never | hi | ls | cc | cs | ne | eq | vc | vs | pl | mi | ge | lt | gt | le
deriving DecidableEq, Repr

/-- When a condition is true (R301). -/
def Cond.holds (f : Flags) : Cond → Bool
  | .always => true
  | .never => false
  | .hi => !(f.c || f.z)
  | .ls => f.c || f.z
  | .cc => !f.c
  | .cs => f.c
  | .ne => !f.z
  | .eq => f.z
  | .vc => !f.v
  | .vs => f.v
  | .pl => !f.n
  | .mi => f.n
  | .ge => !(f.n ^^ f.v)
  | .lt => f.n ^^ f.v
  | .gt => !(f.z || (f.n ^^ f.v))
  | .le => f.z || (f.n ^^ f.v)

/-- `PC <- target` in the same page (R10, R312). -/
def State.jump (s : State) (target : Word) : State := { s with pc := target }

/-- Bcc: PC-relative from the next instruction if the condition holds (R300, R78). -/
def State.branch (s : State) (c : Cond) (d : Word) : State := if c.holds s.flags then s.jump (s.pc + d) else s

/-- BRA d:8 (R300, R301). -/
def execBra8 (d : Byte) (s : State) : Result := .next (s.branch .always (sext16 d))

/-- BRN d:8 (R300, R301). -/
def execBrn8 (d : Byte) (s : State) : Result := .next (s.branch .never (sext16 d))

/-- BHI d:8 (R300, R301). -/
def execBhi8 (d : Byte) (s : State) : Result := .next (s.branch .hi (sext16 d))

/-- BLS d:8 (R300, R301). -/
def execBls8 (d : Byte) (s : State) : Result := .next (s.branch .ls (sext16 d))

/-- BCC d:8 (R300, R301). -/
def execBcc8 (d : Byte) (s : State) : Result := .next (s.branch .cc (sext16 d))

/-- BCS d:8 (R300, R301). -/
def execBcs8 (d : Byte) (s : State) : Result := .next (s.branch .cs (sext16 d))

/-- BNE d:8 (R300, R301). -/
def execBne8 (d : Byte) (s : State) : Result := .next (s.branch .ne (sext16 d))

/-- BEQ d:8 (R300, R301). -/
def execBeq8 (d : Byte) (s : State) : Result := .next (s.branch .eq (sext16 d))

/-- BVC d:8 (R300, R301). -/
def execBvc8 (d : Byte) (s : State) : Result := .next (s.branch .vc (sext16 d))

/-- BVS d:8 (R300, R301). -/
def execBvs8 (d : Byte) (s : State) : Result := .next (s.branch .vs (sext16 d))

/-- BPL d:8 (R300, R301). -/
def execBpl8 (d : Byte) (s : State) : Result := .next (s.branch .pl (sext16 d))

/-- BMI d:8 (R300, R301). -/
def execBmi8 (d : Byte) (s : State) : Result := .next (s.branch .mi (sext16 d))

/-- BGE d:8 (R300, R301). -/
def execBge8 (d : Byte) (s : State) : Result := .next (s.branch .ge (sext16 d))

/-- BLT d:8 (R300, R301). -/
def execBlt8 (d : Byte) (s : State) : Result := .next (s.branch .lt (sext16 d))

/-- BGT d:8 (R300, R301). -/
def execBgt8 (d : Byte) (s : State) : Result := .next (s.branch .gt (sext16 d))

/-- BLE d:8 (R300, R301). -/
def execBle8 (d : Byte) (s : State) : Result := .next (s.branch .le (sext16 d))

/-- BRA d:16 (R300, R301). -/
def execBra16 (d : Word) (s : State) : Result := .next (s.branch .always d)

/-- BRN d:16 (R300, R301). -/
def execBrn16 (d : Word) (s : State) : Result := .next (s.branch .never d)

/-- BHI d:16 (R300, R301). -/
def execBhi16 (d : Word) (s : State) : Result := .next (s.branch .hi d)

/-- BLS d:16 (R300, R301). -/
def execBls16 (d : Word) (s : State) : Result := .next (s.branch .ls d)

/-- BCC d:16 (R300, R301). -/
def execBcc16 (d : Word) (s : State) : Result := .next (s.branch .cc d)

/-- BCS d:16 (R300, R301). -/
def execBcs16 (d : Word) (s : State) : Result := .next (s.branch .cs d)

/-- BNE d:16 (R300, R301). -/
def execBne16 (d : Word) (s : State) : Result := .next (s.branch .ne d)

/-- BEQ d:16 (R300, R301). -/
def execBeq16 (d : Word) (s : State) : Result := .next (s.branch .eq d)

/-- BVC d:16 (R300, R301). -/
def execBvc16 (d : Word) (s : State) : Result := .next (s.branch .vc d)

/-- BVS d:16 (R300, R301). -/
def execBvs16 (d : Word) (s : State) : Result := .next (s.branch .vs d)

/-- BPL d:16 (R300, R301). -/
def execBpl16 (d : Word) (s : State) : Result := .next (s.branch .pl d)

/-- BMI d:16 (R300, R301). -/
def execBmi16 (d : Word) (s : State) : Result := .next (s.branch .mi d)

/-- BGE d:16 (R300, R301). -/
def execBge16 (d : Word) (s : State) : Result := .next (s.branch .ge d)

/-- BLT d:16 (R300, R301). -/
def execBlt16 (d : Word) (s : State) : Result := .next (s.branch .lt d)

/-- BGT d:16 (R300, R301). -/
def execBgt16 (d : Word) (s : State) : Result := .next (s.branch .gt d)

/-- BLE d:16 (R300, R301). -/
def execBle16 (d : Word) (s : State) : Result := .next (s.branch .le d)

/-- JMP @Rn: the register itself is the target (R302). -/
def execJmpInd (r : Reg) (s : State) : Result := .next (s.jump (s.reg r))

/-- JMP @aa:16 (R302). -/
def execJmpAbs16 (a : Word) (s : State) : Result := .next (s.jump a)

/-- JMP @(d:8,Rn) (R302). -/
def execJmpDisp8 (r : Reg) (d : Byte) (s : State) : Result := .next (s.jump (s.reg r + sext16 d))

/-- JMP @(d:16,Rn) (R302). -/
def execJmpDisp16 (r : Reg) (d : Word) (s : State) : Result := .next (s.jump (s.reg r + d))

/-- Push of the return address, then the jump: BSR, JSR (R304, R305). The target was computed before the push (D5). -/
def State.call (s : State) (target : Word) : State := (s.push16 s.pc).jump target

/-- BSR d:8 (R304). -/
def execBsr8 (d : Byte) (s : State) : Result := .next (s.call (s.pc + sext16 d))

/-- BSR d:16 (R304). -/
def execBsr16 (d : Word) (s : State) : Result := .next (s.call (s.pc + d))

/-- JSR @Rn (R305). -/
def execJsrInd (r : Reg) (s : State) : Result := .next (s.call (s.reg r))

/-- JSR @aa:16 (R305). -/
def execJsrAbs16 (a : Word) (s : State) : Result := .next (s.call a)

/-- JSR @(d:8,Rn) (R305). -/
def execJsrDisp8 (r : Reg) (d : Byte) (s : State) : Result := .next (s.call (s.reg r + sext16 d))

/-- JSR @(d:16,Rn) (R305). -/
def execJsrDisp16 (r : Reg) (d : Word) (s : State) : Result := .next (s.call (s.reg r + d))

/-- `CP <- page; PC <- target` (R303). -/
def State.pageJump (s : State) (page : Byte) (target : Word) : State := { s with cp := page, pc := target }

/-- Push of the return address with its page, then the page jump (R306). -/
def State.pageCall (s : State) (page : Byte) (target : Word) : State :=
  ((s.push16 s.pc).push16 (pageWord s.cp)).pageJump page target

/-- The register after Rn, whose contents PJMP @Rn and PJSR @Rn put in PC (R303). -/
def nextReg : Reg → Reg
  | .r0 => .r1
  | .r1 => .r2
  | .r2 => .r3
  | .r3 => .r4
  | .r4 => .r5
  | .r5 => .r6
  | .r6 => .r7
  | .r7 => .r0

/-- PJMP @aa:24; in minimum mode H'13 is an invalid first byte (R303, R120; log entry 15). -/
def execPjmpAbs24 (page : Byte) (a : Word) (s : State) : Result :=
  match s.mode with
  | .max => .next (s.pageJump page a)
  | .min => .next (s.takeInvalid [0x13] (s.pc - 3))

/-- PJMP @Rn; in minimum mode H'11, H'C0|r is invalid (R303, R120); an odd register is refused (U6; log entry 11). -/
def execPjmpInd (r : Reg) (s : State) : Result :=
  match s.mode with
  | .max =>
    if r.even then .next (s.pageJump ((s.reg r).setWidth 8) (s.reg (nextReg r))) else .refused .oddRegisterPair
  | .min => .next (s.takeInvalid (encode (.pjmpInd r)) s.pc)

/-- PJSR @aa:24; in minimum mode H'03 is an invalid first byte (R306, R120; log entry 15). -/
def execPjsrAbs24 (page : Byte) (a : Word) (s : State) : Result :=
  match s.mode with
  | .max => .next (s.pageCall page a)
  | .min => .next (s.takeInvalid [0x03] (s.pc - 3))

/-- PJSR @Rn; in minimum mode H'11, H'C8|r is invalid (R306, R120); an odd register is refused (U6; log entry 11). -/
def execPjsrInd (r : Reg) (s : State) : Result :=
  match s.mode with
  | .max =>
    if r.even then .next (s.pageCall ((s.reg r).setWidth 8) (s.reg (nextReg r))) else .refused .oddRegisterPair
  | .min => .next (s.takeInvalid (encode (.pjsrInd r)) s.pc)

/-- Pop of PC (R307). -/
def State.popPC (s : State) : State := { s.pop16.2 with pc := s.pop16.1 }

/-- Pop of CP, the low byte of a word, then of PC (R308). -/
def State.popCPPC (s : State) : State := { s.pop16.2 with cp := s.pop16.1.setWidth 8 }.popPC

/-- `R[7] <- R[7] + imm` (R309). -/
def State.releaseStack (s : State) (imm : Word) : State := s.setReg .r7 (s.reg .r7 + imm)

/-- RTS (R307). -/
def execRts (s : State) : Result := .next s.popPC

/-- PRTS; in minimum mode H'11, H'19 is invalid (R308, R120). -/
def execPrts (s : State) : Result :=
  match s.mode with
  | .max => .next s.popCPPC
  | .min => .next (s.takeInvalid [0x11, 0x19] s.pc)

/-- RTD #xx:8 (R309). -/
def execRtd8 (data : Byte) (s : State) : Result := .next (s.popPC.releaseStack (sext16 data))

/-- RTD #xx:16 (R309). -/
def execRtd16 (data : Word) (s : State) : Result := .next (s.popPC.releaseStack data)

/-- PRTD #xx:8; in minimum mode H'11, H'14 is invalid (R310, R120; log entry 15). -/
def execPrtd8 (data : Byte) (s : State) : Result :=
  match s.mode with
  | .max => .next (s.popCPPC.releaseStack (sext16 data))
  | .min => .next (s.takeInvalid [0x11, 0x14] (s.pc - 1))

/-- PRTD #xx:16; in minimum mode H'11, H'1C is invalid (R310, R120; log entry 15). -/
def execPrtd16 (data : Word) (s : State) : Result :=
  match s.mode with
  | .max => .next (s.popCPPC.releaseStack data)
  | .min => .next (s.takeInvalid [0x11, 0x1C] (s.pc - 2))

/-- SCB: leaves the loop where the condition is true, else counts Rn down and branches unless it reached -1 (R316). -/
def State.countAndBranch (s : State) (leave : Bool) (r : Reg) (d : Word) : State :=
  if leave then s
  else
    let v := s.reg r - 1
    let s1 := s.setReg r v
    if v = 0xFFFF then s1 else s1.jump (s.pc + d)

/-- SCB/F Rn,disp (R316). -/
def execScbF (r : Reg) (d : Byte) (s : State) : Result := .next (s.countAndBranch false r (sext16 d))

/-- SCB/NE Rn,disp (R316). -/
def execScbNE (r : Reg) (d : Byte) (s : State) : Result := .next (s.countAndBranch (!s.flags.z) r (sext16 d))

/-- SCB/EQ Rn,disp (R316). -/
def execScbEQ (r : Reg) (d : Byte) (s : State) : Result := .next (s.countAndBranch s.flags.z r (sext16 d))

end Sys2Proof.Machine
end

