-- ==== Sys2Proof/Machine/DataTransfer.lean ====
section
/-! DEFINITION. The data transfer instructions (40_data_transfer.md). PC already points to the next instruction
(R124 step 6). -/

namespace Sys2Proof.Machine

/-- MOV of an operand into a register: the shape of MOV:G, MOV:L and MOV:F loads (R160, R161). -/
def State.moveToReg (s : State) (src : SrcEA) (rd : Reg) : State :=
  s.aluSrc src rd fun _ v old => (v, moveFlags v old)

/-- MOV of a register into memory: the shape of MOV:G, MOV:S and MOV:F stores (R160, R162). -/
def State.moveToMem (s : State) (sz : Size) (rs : Reg) (m : MemEA) : State :=
  (s.storeMem sz m fun t => t.regN sz rs).setFlags (moveFlags ((s.preStep sz m).regN sz rs) s.flags)

/-- MOV of a value into memory (R160, R163). -/
def State.moveImm (s : State) (sz : Size) (m : MemEA) (v : BitVec sz.bits) : State :=
  (s.storeMem sz m fun _ => v).setFlags (moveFlags v s.flags)

/-- MOV:G <EAs>,Rd (R161). -/
def execMovGLoad (src : SrcEA) (rd : Reg) (s : State) : Result := .next (s.moveToReg src rd)

/-- MOV:G Rs,<EAd> (R162). -/
def execMovGStore (sz : Size) (rs : Reg) (m : MemEA) (s : State) : Result := .next (s.moveToMem sz rs m)

/-- MOV:G #xx:8,<EAd>: sign-extended to a word destination (R163). -/
def execMovGImm8 (sz : Size) (m : MemEA) (data : Byte) (s : State) : Result :=
  .next (s.moveImm sz m (data.signExtend sz.bits))

/-- MOV:G #xx:16,<EAd> (R163). -/
def execMovGImm16 (m : MemEA) (data : Word) (s : State) : Result := .next (s.moveImm .word m data)

/-- MOV:E #xx:8,Rd (R164). -/
def execMovE (rd : Reg) (data : Byte) (s : State) : Result := .next (s.moveToReg (.imm8 data) rd)

/-- MOV:I #xx:16,Rd (R165). -/
def execMovI (rd : Reg) (data : Word) (s : State) : Result := .next (s.moveToReg (.imm16 data) rd)

/-- MOV:L @aa:8,Rd (R166). -/
def execMovL (sz : Size) (rd : Reg) (a : Byte) (s : State) : Result := .next (s.moveToReg (.mem sz (.abs8 a)) rd)

/-- MOV:S Rs,@aa:8 (R167). -/
def execMovS (sz : Size) (rs : Reg) (a : Byte) (s : State) : Result := .next (s.moveToMem sz rs (.abs8 a))

/-- MOV:F @(d:8,R6),Rd (R168). -/
def execMovFLoad (sz : Size) (rd : Reg) (d : Byte) (s : State) : Result :=
  .next (s.moveToReg (.mem sz (.disp8 .r6 d)) rd)

/-- MOV:F Rs,@(d:8,R6) (R169). -/
def execMovFStore (sz : Size) (rs : Reg) (d : Byte) (s : State) : Result :=
  .next (s.moveToMem sz rs (.disp8 .r6 d))

/-- The registers of a list byte in ascending order: bit i is Ri (R108). -/
def listRegs (list : Byte) : List Reg :=
  [Reg.r0, .r1, .r2, .r3, .r4, .r5, .r6, .r7].filter fun r => list.getLsbD r.num

/-- The loop of LDM at stack offset `off`: each register in turn, R7's word read and discarded (R170). -/
def State.ldmLoop (s : State) (off : Word) : List Reg → State
  | [] => s
  | r :: rest =>
    let w := s.loadWord (s.addr s.tp off)
    let s1 := if r = .r7 then w.2 else w.2.setReg r w.1
    s1.ldmLoop (off + 2) rest

/-- LDM @SP+,<list>: R7 ends at its old value plus twice the number of registers (R170). -/
def execLdm (list : Byte) (s : State) : Result :=
  let sp0 := s.reg .r7
  .next ((s.ldmLoop sp0 (listRegs list)).setReg .r7 (sp0 + 2 * BitVec.ofNat 16 (listRegs list).length))

/-- The loop of STM, registers in descending order; R7 is pushed with its already decremented value (R171). -/
def State.stmLoop (s : State) : List Reg → State
  | [] => s
  | r :: rest =>
    let s1 := s.setReg .r7 (s.reg .r7 - 2)
    (s1.storeWord s1.stackAddr (s1.reg r)).stmLoop rest

/-- STM <list>,@-SP (R171). -/
def execStm (list : Byte) (s : State) : Result := .next (s.stmLoop (listRegs list).reverse)

/-- XCH Rs,Rd (R172). -/
def execXch (rs rd : Reg) (s : State) : Result :=
  .next ((s.setReg rs (s.reg rd)).setReg rd (s.reg rs))

/-- MOVTPE Rs,<EAd>: a byte store without flags, where the chip has an E clock (R173, D23). -/
def execMovtpe (rs : Reg) (m : MemEA) (s : State) : Result :=
  if s.chip.hasEClock then .next (s.storeMem .byte m fun t => t.regN .byte rs) else .refused .noEClock

/-- MOVFPE <EAs>,Rd: a byte load without flags, where the chip has an E clock (R174, D23). -/
def execMovfpe (m : MemEA) (rd : Reg) (s : State) : Result :=
  if s.chip.hasEClock then .next (s.aluSrc (.mem .byte m) rd fun _ v old => (v, old)) else .refused .noEClock

/-- SWAP Rd: N and Z of the 16-bit register after it (R175, D24). -/
def execSwap (rd : Reg) (s : State) : Result :=
  let w := s.reg rd
  let v : Word := w.extractLsb' 0 8 ++ w.extractLsb' 8 8
  .next ((s.setReg rd v).setFlags (moveFlags v s.flags))

end Sys2Proof.Machine
end

