-- ==== Sys2Proof/Machine/Invalid.lean ====
section
/-! DEFINITION. The codes of R121 (a) to (c) after an EA byte, which the spec leaves without behaviour, and the invalid
codes of Table 2-10 (30_encoding.md R117 to R119), which take the InvalidInstruction exception (60_exceptions.md R385). -/

namespace Sys2Proof.Machine

/-- A code of R121 after an EA byte `Rn`: "Their behaviour is unspecified" (D21, treatment `refuse`; log entry 9). -/
def execEaRn (_sz : Size) (_r : Reg) (_tail : OpTail) (_s : State) : Result :=
  .refused .unspecifiedCombination

/-- A code of R121 after an EA byte `@-Rn`: "Their behaviour is unspecified" (D21, treatment `refuse`; log entry 9). -/
def execEaPreDec (_sz : Size) (_r : Reg) (_tail : OpTail) (_s : State) : Result :=
  .refused .unspecifiedCombination

/-- A code of R121 after an EA byte `@Rn+`: "Their behaviour is unspecified" (D21, treatment `refuse`; log entry 9). -/
def execEaPostInc (_sz : Size) (_r : Reg) (_tail : OpTail) (_s : State) : Result :=
  .refused .unspecifiedCombination

/-- A code of R121 after an EA byte `@Rn`: "Their behaviour is unspecified" (D21, treatment `refuse`; log entry 9). -/
def execEaInd (_sz : Size) (_r : Reg) (_tail : OpTail) (_s : State) : Result :=
  .refused .unspecifiedCombination

/-- A code of R121 after an EA byte `@(d:8,Rn)`: "Their behaviour is unspecified" (D21, treatment `refuse`; log entry 9). -/
def execEaDisp8 (_sz : Size) (_r : Reg) (_d : Byte) (_tail : OpTail) (_s : State) : Result :=
  .refused .unspecifiedCombination

/-- A code of R121 after an EA byte `@(d:16,Rn)`: "Their behaviour is unspecified" (D21, treatment `refuse`; log entry 9). -/
def execEaDisp16 (_sz : Size) (_r : Reg) (_d : Word) (_tail : OpTail) (_s : State) : Result :=
  .refused .unspecifiedCombination

/-- A code of R121 after an EA byte `@aa:8`: "Their behaviour is unspecified" (D21, treatment `refuse`; log entry 9). -/
def execEaAbs8 (_sz : Size) (_a : Byte) (_tail : OpTail) (_s : State) : Result :=
  .refused .unspecifiedCombination

/-- A code of R121 after an EA byte `@aa:16`: "Their behaviour is unspecified" (D21, treatment `refuse`; log entry 9). -/
def execEaAbs16 (_sz : Size) (_a : Word) (_tail : OpTail) (_s : State) : Result :=
  .refused .unspecifiedCombination

/-- A code of R121 after an EA byte `#xx:8`: "Their behaviour is unspecified" (D21, treatment `refuse`; log entry 9). -/
def execEaImm8 (_data : Byte) (_op : Byte) (_s : State) : Result :=
  .refused .unspecifiedCombination

/-- A code of R121 after an EA byte `#xx:16`: "Their behaviour is unspecified" (D21, treatment `refuse`; log entry 9). -/
def execEaImm16 (_data : Word) (_op : Byte) (_s : State) : Result :=
  .refused .unspecifiedCombination

/-- The InvalidInstruction exception of an invalid code: no EA side effect, the bytes examined are all of its encoding
(R385, R393, D9). PC already points past them. -/
def State.invalidCode (s : State) (i : Instr) : Result := .next (s.takeInvalid (encode i) s.pc)

/-- First byte H'0B (R117). -/
def execInvalidFirst0B (s : State) : Result := s.invalidCode .invalidFirst0B

/-- First byte H'16 (R117). -/
def execInvalidFirst16 (s : State) : Result := s.invalidCode .invalidFirst16

/-- First byte H'1B (R117). -/
def execInvalidFirst1B (s : State) : Result := s.invalidCode .invalidFirst1B

/-- An invalid OP byte after a register EA (R117). -/
def execInvalidOpReg (sz : Size) (r : Reg) (op : Byte) (s : State) : Result := s.invalidCode (.invalidOpReg sz r op)

/-- An invalid OP byte after a memory EA (R117). -/
def execInvalidOpMem (sz : Size) (m : MemEA) (op : Byte) (s : State) : Result := s.invalidCode (.invalidOpMem sz m op)

/-- An invalid OP byte after an immediate EA (R117). -/
def execInvalidOpImm (imm : ImmEA) (op : Byte) (s : State) : Result := s.invalidCode (.invalidOpImm imm op)

/-- An invalid second byte after H'01 (R118). -/
def execInvalidSecond01 (b : Byte) (s : State) : Result := s.invalidCode (.invalidSecond01 b)

/-- An invalid second byte after H'06 (R118). -/
def execInvalidSecond06 (b : Byte) (s : State) : Result := s.invalidCode (.invalidSecond06 b)

/-- An invalid second byte after H'07 (R118). -/
def execInvalidSecond07 (b : Byte) (s : State) : Result := s.invalidCode (.invalidSecond07 b)

/-- An invalid second byte after H'11 (R118). -/
def execInvalidSecond11 (b : Byte) (s : State) : Result := s.invalidCode (.invalidSecond11 b)

/-- An invalid third byte after an EA and H'00 (R119). -/
def execInvalidThird (sz : Size) (d : DstEA) (b : Byte) (s : State) : Result := s.invalidCode (.invalidThird sz d b)

end Sys2Proof.Machine
end

