-- ==== Sys2Proof/Machine/Logic.lean ====
section
/-! DEFINITION. The logic, shift and bit-manipulation instructions (42_logic_shift_bit.md). PC already points to the
next instruction. -/

namespace Sys2Proof.Machine

/-- A logic operation on Rd and a source (R260). -/
def State.logic (s : State) (src : SrcEA) (rd : Reg)
    (f : BitVec src.size.bits → BitVec src.size.bits → BitVec src.size.bits) : State :=
  s.aluSrc src rd fun d v old => (f d v, moveFlags (f d v) old)

/-- AND <EAs>,Rd (R261). -/
def execLogAnd (src : SrcEA) (rd : Reg) (s : State) : Result := .next (s.logic src rd fun d v => d &&& v)

/-- OR <EAs>,Rd (R262). -/
def execLogOr (src : SrcEA) (rd : Reg) (s : State) : Result := .next (s.logic src rd fun d v => d ||| v)

/-- XOR <EAs>,Rd (R263). -/
def execLogXor (src : SrcEA) (rd : Reg) (s : State) : Result := .next (s.logic src rd fun d v => d ^^^ v)

/-- NOT <EAd> (R264). -/
def execLogNot (sz : Size) (d : DstEA) (s : State) : Result :=
  .next (s.modify sz d fun v old => (~~~v, moveFlags (~~~v) old))

/-- SHAL <EAd> (R266). -/
def execShal (sz : Size) (d : DstEA) (s : State) : Result := .next (s.modify sz d shalN)

/-- SHAR <EAd> (R267). -/
def execShar (sz : Size) (d : DstEA) (s : State) : Result := .next (s.modify sz d sharN)

/-- SHLL <EAd> (R268). -/
def execShll (sz : Size) (d : DstEA) (s : State) : Result := .next (s.modify sz d shllN)

/-- SHLR <EAd> (R269). -/
def execShlr (sz : Size) (d : DstEA) (s : State) : Result := .next (s.modify sz d shlrN)

/-- ROTL <EAd> (R270). -/
def execRotl (sz : Size) (d : DstEA) (s : State) : Result := .next (s.modify sz d rotlN)

/-- ROTR <EAd> (R271). -/
def execRotr (sz : Size) (d : DstEA) (s : State) : Result := .next (s.modify sz d rotrN)

/-- ROTXL <EAd> (R272). -/
def execRotxl (sz : Size) (d : DstEA) (s : State) : Result := .next (s.modify sz d rotxlN)

/-- ROTXR <EAd> (R273). -/
def execRotxr (sz : Size) (d : DstEA) (s : State) : Result := .next (s.modify sz d rotxrN)

/-- Bit `b` of an n-bit operand, alone. -/
def bitMask (n b : Nat) : BitVec n := 1#n <<< b

/-- Z is the complement of the tested bit; N, V, C are kept (R274). -/
def bitFlags {n : Nat} (v : BitVec n) (b : Nat) (old : Flags) : Flags := { old with z := !v.getLsbD b }

/-- BSET, BCLR, BNOT with bit number `b`: read, Z, write (R274). A bit number beyond the operand (8 to 15 of a byte)
leaves Z and the byte written free (D17, U7; log entry 22). -/
def State.bitModify (s : State) (sz : Size) (b : Nat) (d : DstEA)
    (f : BitVec sz.bits → BitVec sz.bits → BitVec sz.bits) : State :=
  if b < sz.bits then s.modify sz d fun v old => (f v (bitMask sz.bits b), bitFlags v b old)
  else
    let z := s.drawBit
    let w := z.2.drawWord
    w.2.modify sz d fun _ old => (w.1.setWidth sz.bits, { old with z := z.1 })

/-- BTST with bit number `b`: read and Z (R274); beyond the operand Z is free (D17, U7; log entry 22). -/
def State.bitTest (s : State) (sz : Size) (b : Nat) (d : DstEA) : State :=
  if b < sz.bits then s.inspect sz d fun v old => bitFlags v b old
  else s.drawBit.2.inspect sz d fun _ old => { old with z := s.drawBit.1 }

/-- The bit number in a register: its low four bits, read before any effect of the EA (R274, D5). -/
def State.bitNumber (s : State) (rs : Reg) : Nat := (s.reg rs).toNat % 16

/-- BSET #xx,<EAd> (R275). -/
def execBsetImm (sz : Size) (b : BitVec 4) (d : DstEA) (s : State) : Result :=
  .next (s.bitModify sz b.toNat d fun v k => v ||| k)

/-- BSET Rs,<EAd> (R276). -/
def execBsetReg (sz : Size) (rs : Reg) (d : DstEA) (s : State) : Result :=
  .next (s.bitModify sz (s.bitNumber rs) d fun v k => v ||| k)

/-- BCLR #xx,<EAd> (R277). -/
def execBclrImm (sz : Size) (b : BitVec 4) (d : DstEA) (s : State) : Result :=
  .next (s.bitModify sz b.toNat d fun v k => v &&& ~~~k)

/-- BCLR Rs,<EAd> (R278). -/
def execBclrReg (sz : Size) (rs : Reg) (d : DstEA) (s : State) : Result :=
  .next (s.bitModify sz (s.bitNumber rs) d fun v k => v &&& ~~~k)

/-- BNOT #xx,<EAd> (R279). -/
def execBnotImm (sz : Size) (b : BitVec 4) (d : DstEA) (s : State) : Result :=
  .next (s.bitModify sz b.toNat d fun v k => v ^^^ k)

/-- BNOT Rs,<EAd> (R280). -/
def execBnotReg (sz : Size) (rs : Reg) (d : DstEA) (s : State) : Result :=
  .next (s.bitModify sz (s.bitNumber rs) d fun v k => v ^^^ k)

/-- BTST #xx,<EAd> (R281). -/
def execBtstImm (sz : Size) (b : BitVec 4) (d : DstEA) (s : State) : Result := .next (s.bitTest sz b.toNat d)

/-- BTST Rs,<EAd> (R282). -/
def execBtstReg (sz : Size) (rs : Reg) (d : DstEA) (s : State) : Result :=
  .next (s.bitTest sz (s.bitNumber rs) d)

end Sys2Proof.Machine
end

