-- ==== Sys2Proof/Machine/SystemControl.lean ====
section
/-! DEFINITION. The system control instructions (44_system_control.md). PC already points to the next instruction.
There is one privilege level: none of them checks a mode (60_exceptions.md R430). -/

namespace Sys2Proof.Machine

/-- `inhibit_next <- true` (R353, R395). -/
def State.inhibit (s : State) : State := { s with inhibitNext := true }

/-- LDC <EAs>,CR: the size is the control register's (R344, R352). -/
def execLdc (src : SrcEA) (cr : CtlReg) (s : State) : Result :=
  if src.size = cr.size then
    let p := s.readSrc src
    .next ((p.2.crWrite cr (p.1.setWidth 16)).finishSrc src []).inhibit
  else .refused .controlRegisterNotAllowed

/-- STC CR,<EAd>: one write, no flags, no inhibit (R345). -/
def execStc (cr : CtlReg) (d : DstEA) (s : State) : Result :=
  .next (s.writeDst cr.size d ((s.crRead cr).setWidth cr.size.bits))

/-- The value of an immediate EA, a byte zero-extended. -/
def immValue : ImmEA → Word
  | .imm8 data => data.setWidth 16
  | .imm16 data => data

/-- The flags of ANDC, ORC, XORC on a register other than SR and CCR: of the 8-bit result, V cleared, C kept; SR and
CCR hold their flags in the value written (R352). -/
def State.crFlags (s : State) (cr : CtlReg) (r : Byte) : State :=
  match cr with
  | .sr | .ccr => s
  | .br | .ep | .dp | .tp => s.setFlags (moveFlags r s.flags)

/-- ANDC, ORC, XORC: read, operate, write, flags, inhibit (R346 to R348). -/
def State.crModify (s : State) (imm : ImmEA) (cr : CtlReg) (f : Word → Word → Word) : Result :=
  if imm.size = cr.size then
    let r := f (s.crRead cr) (immValue imm)
    .next ((s.crWrite cr r).crFlags cr (r.setWidth 8)).inhibit
  else .refused .controlRegisterNotAllowed

/-- ANDC #xx,CR (R346). -/
def execAndc (imm : ImmEA) (cr : CtlReg) (s : State) : Result := s.crModify imm cr fun v i => v &&& i

/-- ORC #xx,CR (R347). -/
def execOrc (imm : ImmEA) (cr : CtlReg) (s : State) : Result := s.crModify imm cr fun v i => v ||| i

/-- XORC #xx,CR (R348). -/
def execXorc (imm : ImmEA) (cr : CtlReg) (s : State) : Result := s.crModify imm cr fun v i => v ^^^ i

/-- TRAPA #xx: the stacked PC is the next instruction (R340, R386, D9). -/
def execTrapa (v : BitVec 4) (s : State) : Result := .next (s.exceptionSequence (.trapA v) s.pc)

/-- TRAP/VS (R341, R386). -/
def execTrapvs (s : State) : Result := .next (if s.flags.v then s.exceptionSequence .trapVS s.pc else s)

/-- RTE (R342, R396). -/
def execRte (s : State) : Result := .next s.returnFromException

/-- SLEEP: SBYCR.SSBY selects the power-down mode; the check point after it may still take an exception
(R343, R425, R426; log entry 19). -/
def execSleep (s : State) : Result :=
  .next { s with proc := if s.pins.ssby then .softwareStandby else .sleep }

/-- NOP (R349). -/
def execNop (s : State) : Result := .next s

/-- LINK: push FP, FP <- SP, SP <- SP + imm (R350). -/
def State.link (s : State) (imm : Word) : State :=
  let s1 := s.push16 (s.reg .r6)
  let s2 := s1.setReg .r6 (s1.reg .r7)
  s2.setReg .r7 (s2.reg .r7 + imm)

/-- LINK FP,#xx:8 (R350). -/
def execLink8 (data : Byte) (s : State) : Result := .next (s.link (sext16 data))

/-- LINK FP,#xx:16 (R350). -/
def execLink16 (data : Word) (s : State) : Result := .next (s.link data)

/-- UNLK FP: SP <- FP, pop FP (R351). -/
def execUnlk (s : State) : Result :=
  let p := (s.setReg .r7 (s.reg .r6)).pop16
  .next (p.2.setReg .r6 p.1)

end Sys2Proof.Machine
end

