-- ==== Sys2Proof/Machine/Dispatch.lean ====
section
/-! DEFINITION. One arm per instruction, each one call of its meaning. PC already points to the next instruction. -/

namespace Sys2Proof.Machine

def exec (i : Instr) (s : State) : Host.Outcome State Fault Refusal :=
  match i with
  | .eaRn sz r tail => Sys2Proof.Machine.execEaRn sz r tail s
  | .eaPreDec sz r tail => Sys2Proof.Machine.execEaPreDec sz r tail s
  | .eaPostInc sz r tail => Sys2Proof.Machine.execEaPostInc sz r tail s
  | .eaInd sz r tail => Sys2Proof.Machine.execEaInd sz r tail s
  | .eaDisp8 sz r d tail => Sys2Proof.Machine.execEaDisp8 sz r d tail s
  | .eaDisp16 sz r d tail => Sys2Proof.Machine.execEaDisp16 sz r d tail s
  | .eaAbs8 sz a tail => Sys2Proof.Machine.execEaAbs8 sz a tail s
  | .eaAbs16 sz a tail => Sys2Proof.Machine.execEaAbs16 sz a tail s
  | .eaImm8 data op => Sys2Proof.Machine.execEaImm8 data op s
  | .eaImm16 data op => Sys2Proof.Machine.execEaImm16 data op s
  | .movGLoad src rd => Sys2Proof.Machine.execMovGLoad src rd s
  | .movGStore sz rs m => Sys2Proof.Machine.execMovGStore sz rs m s
  | .movGImm8 sz m data => Sys2Proof.Machine.execMovGImm8 sz m data s
  | .movGImm16 m data => Sys2Proof.Machine.execMovGImm16 m data s
  | .xch rs rd => Sys2Proof.Machine.execXch rs rd s
  | .movtpe rs m => Sys2Proof.Machine.execMovtpe rs m s
  | .movfpe m rd => Sys2Proof.Machine.execMovfpe m rd s
  | .swap rd => Sys2Proof.Machine.execSwap rd s
  | .addG src rd => Sys2Proof.Machine.execAddG src rd s
  | .addQ1 sz d => Sys2Proof.Machine.execAddQ1 sz d s
  | .addQ2 sz d => Sys2Proof.Machine.execAddQ2 sz d s
  | .addQm1 sz d => Sys2Proof.Machine.execAddQm1 sz d s
  | .addQm2 sz d => Sys2Proof.Machine.execAddQm2 sz d s
  | .sub src rd => Sys2Proof.Machine.execSub src rd s
  | .adds src rd => Sys2Proof.Machine.execAdds src rd s
  | .subs src rd => Sys2Proof.Machine.execSubs src rd s
  | .addx src rd => Sys2Proof.Machine.execAddx src rd s
  | .subx src rd => Sys2Proof.Machine.execSubx src rd s
  | .dadd rs rd => Sys2Proof.Machine.execDadd rs rd s
  | .dsub rs rd => Sys2Proof.Machine.execDsub rs rd s
  | .mulxu src rd => Sys2Proof.Machine.execMulxu src rd s
  | .divxu src rd => Sys2Proof.Machine.execDivxu src rd s
  | .cmpG src rd => Sys2Proof.Machine.execCmpG src rd s
  | .cmpGImm8 m data => Sys2Proof.Machine.execCmpGImm8 m data s
  | .cmpGImm16 m data => Sys2Proof.Machine.execCmpGImm16 m data s
  | .exts rd => Sys2Proof.Machine.execExts rd s
  | .extu rd => Sys2Proof.Machine.execExtu rd s
  | .tst sz d => Sys2Proof.Machine.execTst sz d s
  | .neg sz d => Sys2Proof.Machine.execNeg sz d s
  | .clr sz d => Sys2Proof.Machine.execClr sz d s
  | .tas d => Sys2Proof.Machine.execTas d s
  | .logAnd src rd => Sys2Proof.Machine.execLogAnd src rd s
  | .logOr src rd => Sys2Proof.Machine.execLogOr src rd s
  | .logXor src rd => Sys2Proof.Machine.execLogXor src rd s
  | .logNot sz d => Sys2Proof.Machine.execLogNot sz d s
  | .shal sz d => Sys2Proof.Machine.execShal sz d s
  | .shar sz d => Sys2Proof.Machine.execShar sz d s
  | .shll sz d => Sys2Proof.Machine.execShll sz d s
  | .shlr sz d => Sys2Proof.Machine.execShlr sz d s
  | .rotl sz d => Sys2Proof.Machine.execRotl sz d s
  | .rotr sz d => Sys2Proof.Machine.execRotr sz d s
  | .rotxl sz d => Sys2Proof.Machine.execRotxl sz d s
  | .rotxr sz d => Sys2Proof.Machine.execRotxr sz d s
  | .bsetImm sz b d => Sys2Proof.Machine.execBsetImm sz b d s
  | .bsetReg sz rs d => Sys2Proof.Machine.execBsetReg sz rs d s
  | .bclrImm sz b d => Sys2Proof.Machine.execBclrImm sz b d s
  | .bclrReg sz rs d => Sys2Proof.Machine.execBclrReg sz rs d s
  | .bnotImm sz b d => Sys2Proof.Machine.execBnotImm sz b d s
  | .bnotReg sz rs d => Sys2Proof.Machine.execBnotReg sz rs d s
  | .btstImm sz b d => Sys2Proof.Machine.execBtstImm sz b d s
  | .btstReg sz rs d => Sys2Proof.Machine.execBtstReg sz rs d s
  | .ldc src cr => Sys2Proof.Machine.execLdc src cr s
  | .stc cr d => Sys2Proof.Machine.execStc cr d s
  | .andc imm cr => Sys2Proof.Machine.execAndc imm cr s
  | .orc imm cr => Sys2Proof.Machine.execOrc imm cr s
  | .xorc imm cr => Sys2Proof.Machine.execXorc imm cr s
  | .movE rd data => Sys2Proof.Machine.execMovE rd data s
  | .movI rd data => Sys2Proof.Machine.execMovI rd data s
  | .movL sz rd a => Sys2Proof.Machine.execMovL sz rd a s
  | .movS sz rs a => Sys2Proof.Machine.execMovS sz rs a s
  | .movFLoad sz rd d => Sys2Proof.Machine.execMovFLoad sz rd d s
  | .movFStore sz rs d => Sys2Proof.Machine.execMovFStore sz rs d s
  | .ldm list => Sys2Proof.Machine.execLdm list s
  | .stm list => Sys2Proof.Machine.execStm list s
  | .cmpE rd data => Sys2Proof.Machine.execCmpE rd data s
  | .cmpI rd data => Sys2Proof.Machine.execCmpI rd data s
  | .bra8 d => Sys2Proof.Machine.execBra8 d s
  | .brn8 d => Sys2Proof.Machine.execBrn8 d s
  | .bhi8 d => Sys2Proof.Machine.execBhi8 d s
  | .bls8 d => Sys2Proof.Machine.execBls8 d s
  | .bcc8 d => Sys2Proof.Machine.execBcc8 d s
  | .bcs8 d => Sys2Proof.Machine.execBcs8 d s
  | .bne8 d => Sys2Proof.Machine.execBne8 d s
  | .beq8 d => Sys2Proof.Machine.execBeq8 d s
  | .bvc8 d => Sys2Proof.Machine.execBvc8 d s
  | .bvs8 d => Sys2Proof.Machine.execBvs8 d s
  | .bpl8 d => Sys2Proof.Machine.execBpl8 d s
  | .bmi8 d => Sys2Proof.Machine.execBmi8 d s
  | .bge8 d => Sys2Proof.Machine.execBge8 d s
  | .blt8 d => Sys2Proof.Machine.execBlt8 d s
  | .bgt8 d => Sys2Proof.Machine.execBgt8 d s
  | .ble8 d => Sys2Proof.Machine.execBle8 d s
  | .bra16 d => Sys2Proof.Machine.execBra16 d s
  | .brn16 d => Sys2Proof.Machine.execBrn16 d s
  | .bhi16 d => Sys2Proof.Machine.execBhi16 d s
  | .bls16 d => Sys2Proof.Machine.execBls16 d s
  | .bcc16 d => Sys2Proof.Machine.execBcc16 d s
  | .bcs16 d => Sys2Proof.Machine.execBcs16 d s
  | .bne16 d => Sys2Proof.Machine.execBne16 d s
  | .beq16 d => Sys2Proof.Machine.execBeq16 d s
  | .bvc16 d => Sys2Proof.Machine.execBvc16 d s
  | .bvs16 d => Sys2Proof.Machine.execBvs16 d s
  | .bpl16 d => Sys2Proof.Machine.execBpl16 d s
  | .bmi16 d => Sys2Proof.Machine.execBmi16 d s
  | .bge16 d => Sys2Proof.Machine.execBge16 d s
  | .blt16 d => Sys2Proof.Machine.execBlt16 d s
  | .bgt16 d => Sys2Proof.Machine.execBgt16 d s
  | .ble16 d => Sys2Proof.Machine.execBle16 d s
  | .jmpInd r => Sys2Proof.Machine.execJmpInd r s
  | .jmpAbs16 a => Sys2Proof.Machine.execJmpAbs16 a s
  | .jmpDisp8 r d => Sys2Proof.Machine.execJmpDisp8 r d s
  | .jmpDisp16 r d => Sys2Proof.Machine.execJmpDisp16 r d s
  | .pjmpAbs24 page a => Sys2Proof.Machine.execPjmpAbs24 page a s
  | .pjmpInd r => Sys2Proof.Machine.execPjmpInd r s
  | .bsr8 d => Sys2Proof.Machine.execBsr8 d s
  | .bsr16 d => Sys2Proof.Machine.execBsr16 d s
  | .jsrInd r => Sys2Proof.Machine.execJsrInd r s
  | .jsrAbs16 a => Sys2Proof.Machine.execJsrAbs16 a s
  | .jsrDisp8 r d => Sys2Proof.Machine.execJsrDisp8 r d s
  | .jsrDisp16 r d => Sys2Proof.Machine.execJsrDisp16 r d s
  | .pjsrAbs24 page a => Sys2Proof.Machine.execPjsrAbs24 page a s
  | .pjsrInd r => Sys2Proof.Machine.execPjsrInd r s
  | .rts => Sys2Proof.Machine.execRts s
  | .prts => Sys2Proof.Machine.execPrts s
  | .rtd8 data => Sys2Proof.Machine.execRtd8 data s
  | .rtd16 data => Sys2Proof.Machine.execRtd16 data s
  | .prtd8 data => Sys2Proof.Machine.execPrtd8 data s
  | .prtd16 data => Sys2Proof.Machine.execPrtd16 data s
  | .scbF r d => Sys2Proof.Machine.execScbF r d s
  | .scbNE r d => Sys2Proof.Machine.execScbNE r d s
  | .scbEQ r d => Sys2Proof.Machine.execScbEQ r d s
  | .trapa v => Sys2Proof.Machine.execTrapa v s
  | .trapvs => Sys2Proof.Machine.execTrapvs s
  | .rte => Sys2Proof.Machine.execRte s
  | .sleep => Sys2Proof.Machine.execSleep s
  | .nop => Sys2Proof.Machine.execNop s
  | .link8 data => Sys2Proof.Machine.execLink8 data s
  | .link16 data => Sys2Proof.Machine.execLink16 data s
  | .unlk => Sys2Proof.Machine.execUnlk s
  | .invalidFirst0B => Sys2Proof.Machine.execInvalidFirst0B s
  | .invalidFirst16 => Sys2Proof.Machine.execInvalidFirst16 s
  | .invalidFirst1B => Sys2Proof.Machine.execInvalidFirst1B s
  | .invalidOpReg sz r op => Sys2Proof.Machine.execInvalidOpReg sz r op s
  | .invalidOpMem sz m op => Sys2Proof.Machine.execInvalidOpMem sz m op s
  | .invalidOpImm imm op => Sys2Proof.Machine.execInvalidOpImm imm op s
  | .invalidSecond01 b => Sys2Proof.Machine.execInvalidSecond01 b s
  | .invalidSecond06 b => Sys2Proof.Machine.execInvalidSecond06 b s
  | .invalidSecond07 b => Sys2Proof.Machine.execInvalidSecond07 b s
  | .invalidSecond11 b => Sys2Proof.Machine.execInvalidSecond11 b s
  | .invalidThird sz d b => Sys2Proof.Machine.execInvalidThird sz d b s

end Sys2Proof.Machine
end

