-- ==== Sys2Proof/Machine/Step.lean ====
section
/-! DEFINITION. One step of the machine (60_exceptions.md R387, R420), and an instruction stored where the next step
fetches it. -/

namespace Sys2Proof.Machine

/-- One step: a step without an instruction where the processing state or a pin asks for it (R420); else fetch, decode,
execute one instruction, and the check point after it (R387). Bytes that a fetch may not have seen stored are refused
(R89). -/
def step (s : State) : Host.Outcome State Fault Refusal :=
  match s.withoutInstruction with
  | some t => .next t
  | none =>
    if s.staleFetch then .refused .storeAheadOfFetch
    else
      match s.fetch with
      | .error e => .fault (.undecodable e)
      | .ok p =>
        match exec p.1 p.2 with
        | .next t => .next t.checkPoint
        | .fault f => .fault f
        | .refused r => .refused r

/-- The instruction of a table row's word stored at PC, zeros after it up to the longest instruction, and the CPU in
the program execution state with no pin that keeps it from executing (log entry 4). -/
def State.withFetchWord (s : State) (nbits w : Nat) : State :=
  { s with
    proc := .execution
    pins :=
      { s.pins with
        resLow := false, stbyLow := false, breq := false
        modePins := if s.chip.standbyByMode && s.pins.modePins == standbyPins then 1 else s.pins.modePins }
    stored := []
    storedBefore := []
    mem := s.placeBytes 0 (tableBytes nbits w) s.mem }

end Sys2Proof.Machine
end

