-- ==== Sys2Proof/Safety.lean ====
section
/-! DEFINITION. The terms the claims use: the invariant every step keeps, frames (what an instruction leaves as it is),
and what a load, a store, a push and an exception entry leave behind. -/

namespace Sys2Proof.Machine

/-! ## The invariant -/

/-- What holds of every state between two steps: memory in its canonical form; the reserved bits of SR 0 (R27); MODE
as the latched mode pins select it (R441); nothing left over from the instruction before: no address error, no trace
request, no inhibit, no bus lock (R387, R395, R82); no exception sequence half done (R422). -/
def State.Inv (s : State) : Prop :=
  s.mem.wf = true ∧ s.sr &&& 0x78F0 = 0 ∧ s.mode = s.chip.modeOf s.mds ∧ s.addrErrPending = false ∧
    s.tracePending = false ∧ s.inhibitNext = false ∧ s.busLock = false ∧ s.proc ≠ .exceptionHandling

/-! ## Frames -/

/-- Every general register but those listed. -/
def KeepsRegs (s t : State) (changed : List Reg) : Prop := ∀ r, r ∉ changed → t.reg r = s.reg r

/-- Every byte of memory but those at the addresses listed. -/
def KeepsBytes (s t : State) (stored : List Nat) : Prop :=
  ∀ a, a ∉ stored → Memory.read t.mem a = Memory.read s.mem a

/-- Everything but general registers, N Z V C, memory and the note of the stores to it, the count of free values, and
whether an address error is pending: PC, T, the mask, the reserved bits of SR, CP, DP, EP, TP, BR, mode, processing
state, inhibit, bus lock, requests, pins and chip are kept. -/
def KeepsRest (s t : State) : Prop :=
  t.sr.extractLsb' 4 12 = s.sr.extractLsb' 4 12 ∧
    t = { s with
      regs := t.regs, sr := t.sr, mem := t.mem, stored := t.stored, free := t.free,
      addrErrPending := t.addrErrPending }

/-! ## Places in memory -/

/-- The addresses listed are RAM (R84). -/
def State.ramAt (s : State) (l : List Nat) : Prop := ∀ a ∈ l, s.chip.kindAt a = .ram

/-- The addresses listed are RAM or ROM (R84). -/
def State.memAt (s : State) (l : List Nat) : Prop := ∀ a ∈ l, s.chip.kindAt a = .ram ∨ s.chip.kindAt a = .rom

/-- The two bytes of the word at an address. -/
def State.wordBytes (s : State) (a : Addr) : List Nat := [s.phys a, s.phys (a + 1)]

/-- The big-endian word at an address (R63). -/
def State.wordAt (s : State) (a : Addr) : Word :=
  Memory.read s.mem (s.phys a) ++ Memory.read s.mem (s.phys (a + 1))

/-! ## Memory operands -/

/-- A word access: word size, or a byte through @-R7 or @R7+ (R66). -/
def wordAccess (sz : Size) (m : MemEA) : Bool := sz == .word || viaStack m

/-- The address of a memory operand (R70 to R76), the one the meanings store to. -/
def State.effAddr (s : State) (sz : Size) (m : MemEA) : Addr := (s.preStep sz m).operandAddr m

/-- The access is a word access at an odd address (R64). -/
def State.misaligned (s : State) (sz : Size) (m : MemEA) : Bool :=
  wordAccess sz m && (s.effAddr sz m).getLsbD 0

/-- The bytes of the access. -/
def State.operandBytes (s : State) (sz : Size) (m : MemEA) : List Nat :=
  if wordAccess sz m then s.wordBytes (s.effAddr sz m) else [s.phys (s.effAddr sz m)]

/-- The general registers after the pre-decrement and the post-increment of a memory operand (R73, R74). -/
def State.stepped (s : State) (sz : Size) (m : MemEA) : State := (s.preStep sz m).postStep sz m

/-- The operand at address `a` is `v`; a byte through @-R7 or @R7+ is the low byte of the word (R67). -/
def State.holds (s : State) (sz : Size) (m : MemEA) (a : Addr) (v : BitVec sz.bits) : Prop :=
  match sz, v with
  | .word, v => s.wordAt a = v
  | .byte, v => Memory.read s.mem (if viaStack m then s.phys (a + 1) else s.phys a) = v

/-- A store of `v` to the operand and the flags `f`: the bytes outside the operand are kept, all bytes if the access is
misaligned, which leaves an address error pending; in RAM the operand then holds `v`. -/
def StoreEffect (s : State) (sz : Size) (m : MemEA) (v : BitVec sz.bits) (f : Flags) (t : State) : Prop :=
  KeepsRest s t ∧ t.flags = f ∧ (∀ r, t.reg r = (s.stepped sz m).reg r) ∧
    KeepsBytes s t (if s.misaligned sz m then [] else s.operandBytes sz m) ∧
    t.addrErrPending = (s.addrErrPending || s.misaligned sz m) ∧
    (s.mem.wf = true → s.misaligned sz m = false → s.ramAt (s.operandBytes sz m) →
      t.holds sz m (s.effAddr sz m) v)

/-- A destination operand becomes `(f old flags).1`, the flags `(f old flags).2`, `old` being what is read there. -/
def ModifyEffect (s : State) (sz : Size) (d : DstEA) (f : BitVec sz.bits → Flags → BitVec sz.bits × Flags)
    (t : State) : Prop :=
  match d with
  | .reg r => t = (s.setRegN sz r (f (s.regN sz r) s.flags).1).setFlags (f (s.regN sz r) s.flags).2
  | .mem m =>
    let old := ((s.preStep sz m).loadAt sz (viaStack m) (s.effAddr sz m)).1
    StoreEffect s sz m (f old s.flags).1 (f old s.flags).2 t

/-- A destination operand is read for the flags `f old flags` and nothing is stored. -/
def InspectEffect (s : State) (sz : Size) (d : DstEA) (f : BitVec sz.bits → Flags → Flags) (t : State) : Prop :=
  match d with
  | .reg r => t = s.setFlags (f (s.regN sz r) s.flags)
  | .mem m =>
    KeepsRest s t ∧ t.flags = f ((s.preStep sz m).loadAt sz (viaStack m) (s.effAddr sz m)).1 s.flags ∧
      (∀ r, t.reg r = (s.stepped sz m).reg r) ∧ KeepsBytes s t [] ∧
      t.addrErrPending = (s.addrErrPending || s.misaligned sz m)

/-! ## Source operands -/

/-- The general registers after the pre-decrement and the post-increment of a source operand. -/
def State.srcStepped (s : State) : SrcEA → State
  | .mem sz m => s.stepped sz m
  | .reg _ _ | .imm8 _ | .imm16 _ => s

/-- Reading the source is a word access at an odd address. -/
def State.srcMisaligned (s : State) : SrcEA → Bool
  | .mem sz m => s.misaligned sz m
  | .reg _ _ | .imm8 _ | .imm16 _ => false

/-- The register a source post-increments. -/
def incremented : SrcEA → Option Reg
  | .mem _ (.postInc r) => some r
  | _ => none

/-- What an instruction with a source operand leaves: the registers of `results` hold their values, unless the source
post-increments one of them (then its value is open: R79, log entry 8); every other register is as the source operand
leaves it; the flags are `f`; nothing is stored. -/
def SourceEffect (s : State) (src : SrcEA) (results : List (Reg × Word)) (f : Flags) (t : State) : Prop :=
  KeepsRest s t ∧ t.flags = f ∧ KeepsBytes s t [] ∧
    (∀ p ∈ results, incremented src ≠ some p.1 → t.reg p.1 = p.2) ∧
    (∀ r, r ∉ results.map Prod.fst → t.reg r = (s.srcStepped src).reg r) ∧
    t.addrErrPending = (s.addrErrPending || s.srcMisaligned src)

/-! ## Control registers -/

/-- The control register `cr` holds `v` as it keeps it, the other control registers are kept, and so is T and the mask
where `cr` is not SR; where `cr` is neither SR nor CCR the flags are `f` (R352). -/
def ControlWritten (s t : State) (cr : CtlReg) (v : Word) (f : Flags) : Prop :=
  (match cr with
    | .sr => t.sr = v &&& 0x870F
    | .ccr => t.sr = s.sr.extractLsb' 8 8 ++ (v.setWidth 8 &&& (0x0F : Byte))
    | .br | .ep | .dp | .tp => t.sr.extractLsb' 4 12 = s.sr.extractLsb' 4 12 ∧ t.flags = f) ∧
    t.br = (if cr = .br then v.setWidth 8 else s.br) ∧ t.ep = (if cr = .ep then v.setWidth 8 else s.ep) ∧
    t.dp = (if cr = .dp then v.setWidth 8 else s.dp) ∧ t.tp = (if cr = .tp then v.setWidth 8 else s.tp)

/-! ## The stack and exceptions -/

/-- The address of the k-th word from the top of the stack (R391). -/
def State.stackSlot (s : State) (k : Nat) : Addr := s.addr s.tp (s.reg .r7 + 2 * BitVec.ofNat 16 k)

/-- The bytes of the first n words from the top of the stack on. -/
def State.stackBytes (s : State) (n : Nat) : List Nat :=
  (List.range n).flatMap fun k => s.wordBytes (s.stackSlot k)

/-- The bytes that n pushes write. -/
def State.pushBytes (s : State) (n : Nat) : List Nat :=
  (List.range n).flatMap fun k => s.wordBytes (s.addr s.tp (s.reg .r7 - 2 * BitVec.ofNat 16 (k + 1)))

/-- The words listed, first one on top, have been pushed: R7 is lower by two for each, they stand in page TP from R7 on
where that is RAM, every other byte and every other general register is kept. With R7 odd nothing is stored (R399, log
entry 6). -/
def Pushed (s t : State) (words : List Word) : Prop :=
  t.reg .r7 = s.reg .r7 - 2 * BitVec.ofNat 16 words.length ∧ KeepsRegs s t [.r7] ∧
    (∀ a, (∀ k < words.length, (s.reg .r7).getLsbD 0 = false →
        a ∉ s.wordBytes (s.addr s.tp (t.reg .r7 + 2 * BitVec.ofNat 16 k))) →
      Memory.read t.mem a = Memory.read s.mem a) ∧
    (s.mem.wf = true → (s.reg .r7).getLsbD 0 = false → s.ramAt (s.pushBytes words.length) →
      ∀ k < words.length,
        words[k]? = some (t.wordAt (s.addr s.tp (t.reg .r7 + 2 * BitVec.ofNat 16 k))))

/-- The first byte of entry n of the vector table (R388). -/
def State.vectorAddr (s : State) (n : Nat) : Addr :=
  match s.mode with
  | .min => BitVec.ofNat 24 (2 * n)
  | .max => BitVec.ofNat 24 (4 * n)

/-- The bytes of entry n of the vector table (R388). -/
def State.vectorBytes (s : State) (n : Nat) : List Nat :=
  match s.mode with
  | .min => s.wordBytes (s.vectorAddr n)
  | .max => s.wordBytes (s.vectorAddr n) ++ s.wordBytes (s.vectorAddr n + 2)

/-- The frame of an exception, top word first (R391; H'00 above CP: D8, log entry 30). -/
def State.exceptionFrame (s : State) (pcToStack : Word) : List Word :=
  match s.mode with
  | .min => [s.sr, pcToStack]
  | .max => [s.sr, (0 : Byte) ++ s.cp, pcToStack]

/-- PC (and in maximum mode CP) are those of entry n of the vector table as it stands in memory after the pushes
(R392; that the word with CP comes first is D8, log entry 30). -/
def VectorTaken (s t : State) (n : Nat) : Prop :=
  match s.mode with
  | .min => t.pc = t.wordAt (s.vectorAddr n) ∧ t.cp = s.cp
  | .max => t.cp = (t.wordAt (s.vectorAddr n)).setWidth 8 ∧ t.pc = t.wordAt (s.vectorAddr n + 2)

/-- The entry of an exception (R390; in maximum mode by D8, log entry 30): the frame pushed, T cleared, the mask as the
kind sets it, the other bits of SR kept, PC and CP from the vector, program execution; nothing else changes. -/
def EntryEffect (s : State) (kind : Exc) (pcToStack : Word) (t : State) : Prop :=
  Pushed s t (s.exceptionFrame pcToStack) ∧
    t.flagT = false ∧ t.mask = kind.newMask.getD s.mask ∧ t.flags = s.flags ∧ t.sr &&& 0x78F0 = s.sr &&& 0x78F0 ∧
    VectorTaken s t kind.vector ∧
    t = { s with
      regs := t.regs, sr := t.sr, mem := t.mem, stored := t.stored, pc := t.pc, cp := t.cp, proc := .execution }

/-- n words can be pushed: R7 is even, there is RAM below it, memory is canonical. -/
def State.canPush (s : State) (n : Nat) : Prop :=
  s.ramAt (s.pushBytes n) ∧ s.mem.wf = true ∧ (s.reg .r7).getLsbD 0 = false

/-- The ordinary conditions of an exception entry: the frame can be pushed, the vector stands in RAM or ROM, and the CPU
is not in the double fault state. -/
def State.canEnter (s : State) (kind : Exc) : Prop :=
  s.canPush (match s.mode with | .min => 2 | .max => 3) ∧ s.memAt (s.vectorBytes kind.vector) ∧ s.proc ≠ .doubleFault

/-! ## Kinds of instruction -/

/-- The codes of Table 2-10 (a) to (c) (R117 to R119). -/
def isInvalidCode : Instr → Bool
  | .invalidFirst0B | .invalidFirst16 | .invalidFirst1B | .invalidOpReg _ _ _ | .invalidOpMem _ _ _
  | .invalidOpImm _ _ | .invalidSecond01 _ | .invalidSecond06 _ | .invalidSecond07 _ | .invalidSecond11 _
  | .invalidThird _ _ _ => true
  | _ => false

/-- The instructions that hold off trace and interrupts at their check point (R395). -/
def isInhibiting : Instr → Bool
  | .ldc _ _ | .andc _ _ | .orc _ _ | .xorc _ _ | .rte => true
  | _ => false

/-- The instructions that write a control register by its number (R37, R38). -/
def writesControl : Instr → Bool
  | .ldc _ _ | .andc _ _ | .orc _ _ | .xorc _ _ => true
  | _ => false

/-- The instructions that write CP themselves in maximum mode (R31, R312). -/
def isPageCrossing : Instr → Bool
  | .pjmpAbs24 _ _ | .pjmpInd _ | .pjsrAbs24 _ _ | .pjsrInd _ | .prts | .prtd8 _ | .prtd16 _ | .rte => true
  | _ => false

/-- The instructions that may end in an exception sequence of their own: TRAPA, TRAP/VS, DIVXU, the codes of
Table 2-10 and the codes of R120 (R386, R385). -/
def mayTrap : Instr → Bool
  | .trapa _ | .trapvs | .divxu _ _ | .pjmpAbs24 _ _ | .pjmpInd _ | .pjsrAbs24 _ _ | .pjsrInd _ | .prts | .prtd8 _
  | .prtd16 _ => true
  | i => isInvalidCode i

end Sys2Proof.Machine
end

