-- ==== Sys2Proof/Certificates/Slice0/Obligations.lean ====
section
/-! DEFINITION. The statements for the provers. `exec` is given the state in which PC already points to the next
instruction (R124 step 6); the terms are those of Safety.lean. -/

open Sys2Proof Sys2Proof.Machine

/-! ## Encoding -/

/-- Decoding what `encode` writes gives the instruction back and leaves the bytes after it (R104, R112 to R119, R126). -/
def Obligations.DecodeEncode : Prop :=
  ∀ (i : Instr) (rest : List Byte), i.encodable = true → decode (encode i ++ rest) = .ok (i, rest)

/-- Every byte string that decodes is the one encoding of its instruction, and that instruction has an encoding:
"For every EA class and every operation-code byte exactly one row fits, or none" (R122, R124, R129). -/
def Obligations.EncodeDecode : Prop :=
  ∀ (bs : List Byte) (i : Instr) (rest : List Byte), decode bs = .ok (i, rest) →
    bs = encode i ++ rest ∧ i.encodable = true

/-- Instructions are 1 to 6 bytes long, and six bytes are always enough to decode one or to reject it (R65, R100). -/
def Obligations.InstructionLength : Prop :=
  (∀ i : Instr, 1 ≤ (encode i).length ∧ (encode i).length ≤ 6) ∧
    ∀ bs : List Byte, 6 ≤ bs.length → decode bs ≠ .error .truncated

/-- Words of the spec decode to the instructions they stand for (R123 and the examples of 95_test_vectors.md 1.6). -/
def Obligations.SampleWordsDecode : Prop :=
  decode [0xD0, 0x21] = .ok (.addG (.mem .byte (.ind .r0)) .r1, []) ∧
  decode [0x0D, 0x11, 0x21] = .ok (.addG (.mem .word (.abs8 0x11)) .r1, []) ∧
  decode [0x11, 0xD8] = .ok (.jsrInd .r0, []) ∧
  decode [0x15, 0xF0, 0x00, 0x00, 0x80] = .ok (.movfpe (.abs16 0xF000) .r0, []) ∧
  decode [0x0C, 0x07, 0x00, 0x48] = .ok (.orc (.imm16 0x0700) .sr, []) ∧
  decode [0x0B] = .ok (.invalidFirst0B, [])

/-! ## The machine around its instructions -/

/-- A step in which the CPU executes runs the instruction the bytes at PC decode to, with PC past its bytes, and then
the check point; on a chip without IFETCH_COHERENT where the last two instructions did not store to those bytes (R89;
the other case is in StopsByName). -/
def Obligations.StepRunsDecodedInstruction : Prop :=
  ∀ (s : State) (i : Instr) (rest : List Byte), s.withoutInstruction = none → decode s.fetchBytes = .ok (i, rest) →
    (s.chip.ifetchCoherent = true ∨
      ∀ k < 6 - rest.length, s.phys (s.fetchAddr k) ∉ s.stored ∧ s.phys (s.fetchAddr k) ∉ s.storedBefore) →
    (step s = match exec i (s.advance (6 - rest.length)) with
      | .next t => .next t.checkPoint
      | .fault f => .fault f
      | .refused r => .refused r) ∧
    ∃ k, s.advance (6 - rest.length) = { s with
      pc := s.pc + BitVec.ofNat 16 (6 - rest.length), free := k, stored := [], storedBefore := s.stored }

/-- The invariant holds at reset. -/
def Obligations.InvAtReset : Prop := State.reset.Inv

/-- The invariant is kept by every step. -/
def Obligations.InvKeptByStep : Prop :=
  ∀ s t : State, s.Inv → step s = .next t → t.Inv

/-- What the spec fixes of the state after reset: T = 0, mask 7, reserved bits 0, no inhibit, no address error, no trace
request, program execution (R44, R442); PC is the reset vector of an empty table (log entry 4). -/
def Obligations.ResetValues : Prop :=
  State.reset.flagT = false ∧ State.reset.mask = 7 ∧ State.reset.sr &&& 0x78F0 = 0 ∧
    State.reset.inhibitNext = false ∧ State.reset.addrErrPending = false ∧ State.reset.tracePending = false ∧
    State.reset.proc = .execution ∧
    State.reset.pc = State.reset.wordAt 2 ∧ State.reset.cp = (State.reset.wordAt 0).setWidth 8

/-- RES Low, from every processing state and with hardware standby not selected: the reset state, T = 0, mask 7 (R381,
R420, R440). That memory, requests and
general registers are kept while RES is Low, and that RES is looked at between instructions, is the model's (log entries
17 and 21; R381 says that nothing of the interrupted program survives in a defined way except memory). -/
def Obligations.ResLowEntersResetState : Prop :=
  ∀ s : State, s.pins.resLow = true → s.standbySelected = false →
    ∃ t, step s = .next t ∧ t.proc = .resetState ∧ t.flagT = false ∧ t.mask = 7 ∧ t.mem = s.mem ∧
      t.regs = s.regs ∧ t.requests = s.requests ∧ t.mode = s.mode ∧ t.inhibitNext = false

/-- RES High in the reset state: the reset sequence latches the mode pins, leaves T = 0, mask 7, reserved bits 0,
nothing pending, and takes PC (and CP in maximum mode) from vector 0 where that stands in RAM or ROM; it stores nothing
(R440 to R443). The layout of the vector in maximum mode is the spec's decision D8 (log entry 30), that no request is
accepted before the first instruction its decision D26 (log entry 21), that memory is kept the model's (R443, log
entry 21). -/
def Obligations.ResetSequence : Prop :=
  ∀ s : State, s.proc = .resetState → s.pins.resLow = false → s.standbySelected = false →
    ∃ t, step s = .next t ∧ t.proc = .execution ∧ t.mds = s.pins.modePins ∧
      t.mode = s.chip.modeOf s.pins.modePins ∧ t.flagT = false ∧ t.mask = 7 ∧ t.sr &&& 0x78F0 = 0 ∧
      t.inhibitNext = false ∧ t.addrErrPending = false ∧ t.tracePending = false ∧ t.mem = s.mem ∧
      t.requests = s.requests ∧
      (match t.mode with
        | .min => s.memAt [0, 1] → t.pc = s.wordAt 0
        | .max => s.memAt [0, 1, 2, 3] → t.cp = (s.wordAt 0).setWidth 8 ∧ t.pc = s.wordAt 2)

/-- The waiting states. Hardware standby is selected by STBY Low, on the H8/520 by mode 6 until mode 1, 2, 3, 4 or 7; it
is entered from every state and holds RAM on the chip and ROM; when it is no longer selected it lasts until RES goes Low,
which leads to the reset state (R420, R426). Sleep lasts while no acceptable request is pending (R425), software standby
while no NMI is, or for good on a chip that only a reset wakes (R426). The bus is given to another master and taken back
when its request ends, and nothing but the processing state changes (R423). The double fault state is the spec's decision
D20 (R397, log entry 18); that the bus is released between instructions is the model's (log entry 17), and so is which
addresses are on the chip where the memory map does not say it, and that RES Low has to follow the mode pins of the
H8/520 (log entry 20). -/
def Obligations.WaitingStates : Prop :=
  (∀ s : State,
    (s.chip.standbyByMode = false → s.standbySelected = s.pins.stbyLow) ∧
    (s.chip.standbyByMode = true →
      (s.pins.modePins = 6 → s.standbySelected = true) ∧
      (s.pins.modePins ∈ ([1, 2, 3, 4, 7] : List (BitVec 3)) → s.standbySelected = false) ∧
      (s.pins.modePins ∈ ([0, 5] : List (BitVec 3)) → (s.standbySelected = true ↔ s.proc = .hardwareStandby)))) ∧
  (∀ s : State, s.standbySelected = true →
    ∃ t, step s = .next t ∧ t.proc = .hardwareStandby ∧ t.requests = s.requests ∧ t.mode = s.mode ∧
      ∀ a, heldInStandby s.chip.memoryMap a = true → Memory.read t.mem a = Memory.read s.mem a) ∧
  (∀ s : State, s.proc = .hardwareStandby → s.standbySelected = false → s.pins.resLow = true →
    ∃ t, step s = .next t ∧ t.proc = .resetState ∧ t.mem = s.mem) ∧
  ∀ s : State, s.pins.resLow = false → s.standbySelected = false →
    (s.proc = .doubleFault → step s = .next s) ∧
    (s.proc = .hardwareStandby → step s = .next s) ∧
    (s.proc = .softwareStandby → (.nmi ∉ s.requests ∨ s.chip.nmiLeavesStandby = false) → step s = .next s) ∧
    (s.proc = .sleep → (∀ q ∈ s.requests, s.acceptable q = false) → step s = .next s) ∧
    (s.proc = .execution → s.busRequested = true → step s = .next { s with proc := .busReleased }) ∧
    (s.proc = .busReleased →
      step s = .next (if s.busRequested = true then s else { s with proc := .execution }))

/-- Sleep and software standby are left by accepting a request: the highest one in sleep, NMI in software standby on
the chips that allow it; the stacked PC is the PC of the sleeping CPU, the address after the SLEEP (R425, R426). That
the accepted request is withdrawn is the spec's choice D13, where R401 lets the platform keep it (log entry 16); the entry
is by D8 in maximum mode (log entry 30); which chips NMI wakes from software standby is a parameter (log entry 19); a
second NMI pending is the case of InterruptMaskLevels. -/
def Obligations.WakeUpByRequest : Prop :=
  ∀ (s : State) (q : Request), s.pins.resLow = false → s.standbySelected = false → s.canEnter q.exc →
    topRequest s.requests = some q → s.acceptable q = true → .nmi ∉ s.requests.erase q →
    (s.proc = .sleep ∨ s.proc = .softwareStandby ∧ q = .nmi ∧ s.chip.nmiLeavesStandby = true) →
    ∃ t, step s = .next t ∧ t.proc = .execution ∧
      EntryEffect { s with requests := s.requests.erase q } q.exc s.pc t

/-! ## Exceptions at the check point -/

/-- The request looked at is a pending one and none has a higher level. Above the mask, or NMI, it is accepted: its
exception is entered with the mask raised to its level (7 for NMI) and the old SR stacked. When every pending request is
at or below the mask and none is NMI, nothing changes (R394, R402). That the platform withdraws an accepted request is
the spec's choice D13, where R401 lets it keep it (log entry 16); the entry is by D8 in maximum mode (log entry 30). -/
def Obligations.InterruptAcceptance : Prop :=
  (∀ (l : List Request) (q : Request), topRequest l = some q → q ∈ l ∧ ∀ p ∈ l, p.level ≤ q.level) ∧
  (∀ (s : State) (q : Request), s.canEnter q.exc → topRequest s.requests = some q →
    (q.level = 8 ∨ s.mask.toNat < q.level) → .nmi ∉ s.requests.erase q →
    EntryEffect { s with requests := s.requests.erase q } q.exc s.pc s.acceptInterrupts ∧
      s.acceptInterrupts.mask.toNat = min q.level 7) ∧
  ∀ s : State, (∀ q ∈ s.requests, q.level ≠ 8 ∧ q.level ≤ s.mask.toNat) → s.acceptInterrupts = s

/-- The interrupt mask: of the highest pending request, one at or below the mask, other than NMI, is not accepted; a
higher one is, and NMI at every mask, 7 included: its exception is entered on the old SR and PC, the chain goes on from
there, T ends as 0 and the mask as its level, 7 for NMI. Only further NMIs are accepted in that chain, each with a frame
of its own; R7 is lower by the frames, the other requests stay. A reset sets all three bits (R29, R391, R394, R402). That
an accepted request is withdrawn, so that the chain ends, is the spec's choice D13, where R401 lets the platform keep it
(log entry 16); the entry in maximum mode is by D8 (log entry 30). -/
def Obligations.InterruptMaskLevels : Prop :=
  ∀ (s : State) (q : Request),
    (topRequest s.requests = some q →
      (q.level ≠ 8 → q.level ≤ s.mask.toNat → s.acceptInterrupts = s) ∧
      (q.level = 8 ∨ s.mask.toNat < q.level → s.proc ≠ .doubleFault → (s.reg .r7).getLsbD 0 = false →
        let withdrawn : State := { s with requests := s.requests.erase q }
        let u := withdrawn.exceptionSequence q.exc s.pc
        let t := s.acceptInterrupts
        let frames := if q = .nmi then s.requests.count .nmi else 1
        (s.canEnter q.exc → EntryEffect withdrawn q.exc s.pc u) ∧
        t = u.acceptInterrupts ∧ (frames = 1 → t = u) ∧
        t.mask.toNat = min q.level 7 ∧ t.flagT = false ∧ t.proc = .execution ∧
        t.requests = (if q = .nmi then s.requests.filter (· ≠ .nmi) else s.requests.erase q) ∧
        t.reg .r7 = s.reg .r7 - BitVec.ofNat 16 frames * (match s.mode with | .min => 4 | .max => 6) ∧
        KeepsRegs s t [.r7])) ∧
    s.mask = s.sr.extractLsb' 8 3 ∧ (s.standbySelected = false → s.pins.resLow = true →
      ∃ t, step s = .next t ∧ t.mask = 7)

/-- The check point after an inhibiting instruction takes neither trace nor interrupt; the inhibit ends with it (R395).
That the trace is dropped, not postponed, and that NMI is held off too, is the spec's decision D11 (log entry 32). -/
def Obligations.InhibitHoldsOff : Prop :=
  ∀ s : State, s.inhibitNext = true → s.addrErrPending = false → s.proc ≠ .doubleFault →
    s.checkPoint = { s with inhibitNext := false, tracePending := false }

/-- Trace: with T = 1 the check point enters the trace exception with the PC of the next instruction (R383); pending
requests at or below the mask stay pending. After an instruction exception it does not, since the entry cleared T, and a
pending request is looked at before the first instruction of the handler (R386, R398). That T is looked at after the
instruction is the spec's decision D11 (log entry 32), that an accepted request is withdrawn its choice D13 (log entry
16); the entry is by D8 in maximum mode (log entry 30). -/
def Obligations.TraceTaken : Prop :=
  (∀ s : State, s.canEnter .trace → s.flagT = true → s.inhibitNext = false → s.addrErrPending = false →
    (∀ q ∈ s.requests, s.acceptable q = false) →
      EntryEffect { s with tracePending := false } .trace s.pc s.checkPoint) ∧
  ∀ (s : State) (v : BitVec 4) (p : Word),
    ∀ kind ∈ [Exc.trapA v, .trapVS, .zeroDivide, .invalidInstruction],
      s.canEnter kind → s.inhibitNext = false → s.addrErrPending = false →
      let u := s.exceptionSequence kind p
      ((∀ q ∈ u.requests, u.acceptable q = false) → u.checkPoint = { u with tracePending := false }) ∧
      ∀ q, topRequest u.requests = some q → u.acceptable q = true → .nmi ∉ u.requests.erase q → u.canEnter q.exc →
        EntryEffect { u with tracePending := false, requests := u.requests.erase q } q.exc u.pc u.checkPoint

/-- Address error: entered once at the check point, after the instruction, also where trace and interrupts are inhibited;
pending requests at or below the mask stay pending (R382, R387, R395; what R399 adds is the spec's decision D10, log entry 6). The entry is by D8 in maximum mode (log
entry 30). -/
def Obligations.AddressErrorTaken : Prop :=
  ∀ s : State, s.canEnter .addressError → s.addrErrPending = true →
    (s.inhibitNext = true ∨ s.flagT = false ∧ ∀ q ∈ s.requests, s.acceptable q = false) →
    EntryEffect { s with addrErrPending := false, inhibitNext := false, tracePending := false } .addressError s.pc
      s.checkPoint

/-- Address error, trace and interrupt due at one check point, two of them or all three: each is entered on the state
the one before installed, address error first, though its entry clears T, then trace, then the interrupt, whose stacked
SR has T = 0 and whose stacked PC is the first instruction of the handler before it (R389, R394, R398). That they are
entered back to back is the spec's decision D20 (log entry 32), that the accepted request is withdrawn its choice D13 (log
entry 16); the entries are by D8 in maximum mode (log entry 30). -/
def Obligations.SimultaneousExceptions : Prop :=
  (∀ s : State, s.addrErrPending = true → s.flagT = true → s.inhibitNext = false →
    (∀ q ∈ s.requests, s.acceptable q = false) →
    let first : State := { s with addrErrPending := false, tracePending := true }
    let u := first.exceptionSequence .addressError s.pc
    s.canEnter .addressError → u.canEnter .trace →
    EntryEffect first .addressError s.pc u ∧ u.flagT = false ∧
      EntryEffect { u with tracePending := false } .trace u.pc s.checkPoint) ∧
  ∀ (s : State) (q : Request), s.inhibitNext = false →
    topRequest s.requests = some q → s.acceptable q = true → .nmi ∉ s.requests.erase q →
    (s.flagT = true → s.addrErrPending = false →
      let first : State := { s with tracePending := false }
      let u := first.exceptionSequence .trace s.pc
      s.canEnter .trace → u.canEnter q.exc →
      EntryEffect first .trace s.pc u ∧ u.flagT = false ∧
        EntryEffect { u with requests := s.requests.erase q } q.exc u.pc s.checkPoint) ∧
    (s.flagT = false → s.addrErrPending = true →
      let first : State := { s with addrErrPending := false, tracePending := false }
      let u := first.exceptionSequence .addressError s.pc
      s.canEnter .addressError → u.canEnter q.exc →
      EntryEffect first .addressError s.pc u ∧ u.flagT = false ∧
        EntryEffect { u with requests := s.requests.erase q } q.exc u.pc s.checkPoint) ∧
    (s.flagT = true → s.addrErrPending = true →
      let first : State := { s with addrErrPending := false, tracePending := true }
      let u := first.exceptionSequence .addressError s.pc
      let v := { u with tracePending := false }.exceptionSequence .trace u.pc
      s.canEnter .addressError → u.canEnter .trace → v.canEnter q.exc →
      EntryEffect first .addressError s.pc u ∧ u.flagT = false ∧
        EntryEffect { u with tracePending := false } .trace u.pc v ∧ v.flagT = false ∧
        EntryEffect { v with requests := s.requests.erase q } q.exc v.pc s.checkPoint)

/-- A push of an exception sequence with R7 odd: the double fault state (the spec's decision D20, R397). That R7 is
looked at before the first push, so that nothing is stacked and R7 is kept, is the model's (log entry 18). -/
def Obligations.OddStackDoubleFaults : Prop :=
  ∀ (s : State) (kind : Exc) (p : Word), s.proc ≠ .doubleFault → (s.reg .r7).getLsbD 0 = true →
    s.exceptionSequence kind p = { s with
      proc := .doubleFault, addrErrPending := false, tracePending := false, inhibitNext := false }

/-! ## Memory and operands -/

/-- Words are big-endian: an aligned word written to RAM is read back, a byte access sees its half, no other byte
changes (R63, by the spec's decision D1, log entry 29). A word access at an odd address leaves an address error pending
(R64) and is not performed: a write changes nothing else, a read nothing but its free value (R399, the spec's decision
D10, log entry 6). A byte access never leaves one (R64). -/
def Obligations.WordAccess : Prop :=
  (∀ (s : State) (a : Addr) (v : Word), s.mem.wf = true → a.getLsbD 0 = false → s.ramAt (s.wordBytes a) →
    (s.loadWord a).1 = (s.loadByte a).1 ++ (s.loadByte (a + 1)).1 ∧
      ((s.storeWord a v).loadWord a).1 = v ∧ ((s.storeWord a v).loadByte a).1 = v.extractLsb' 8 8 ∧
      ((s.storeWord a v).loadByte (a + 1)).1 = v.extractLsb' 0 8 ∧
      KeepsBytes s (s.storeWord a v) (s.wordBytes a)) ∧
  ∀ (s : State) (a : Addr) (v : Word) (b : Byte),
    (a.getLsbD 0 = true → s.storeWord a v = { s with addrErrPending := true } ∧
      ∃ k, (s.loadWord a).2 = { s with addrErrPending := true, free := k }) ∧
    (s.loadByte a).2.addrErrPending = s.addrErrPending ∧ (s.storeByte a b).addrErrPending = s.addrErrPending

/-- The address of every memory operand, and the step of its pointer, as the mode gives them: @-Rn and @Rn+ step Rn by 2
for a word or R7, else by 1, the other modes change no register, and no mode changes another one (R61, R66, R70 to
R76). That offsets wrap inside the page is the spec's decision D16 (R62, log entry 34). -/
def Obligations.EffectiveAddresses : Prop :=
  ∀ (s : State) (sz : Size) (r q : Reg) (d : Byte) (w : Word),
    let place := fun (page : Byte) (off : Word) =>
      (match s.mode with | .max => page ++ off | .min => (0 : Byte) ++ off : Addr)
    let page := match r with | .r0 | .r1 | .r2 | .r3 => s.dp | .r4 | .r5 => s.ep | .r6 | .r7 => s.tp
    let k : Word := if sz = .word ∨ r = .r7 then 2 else 1
    (s.effAddr sz (.ind r) = place page (s.reg r) ∧ (s.stepped sz (.ind r)).reg q = s.reg q) ∧
    (s.effAddr sz (.disp8 r d) = place page (s.reg r + d.signExtend 16) ∧
      (s.stepped sz (.disp8 r d)).reg q = s.reg q) ∧
    (s.effAddr sz (.disp16 r w) = place page (s.reg r + w) ∧ (s.stepped sz (.disp16 r w)).reg q = s.reg q) ∧
    (s.effAddr sz (.preDec r) = place page (s.reg r - k) ∧
      (s.stepped sz (.preDec r)).reg q = if q = r then s.reg r - k else s.reg q) ∧
    (s.effAddr sz (.postInc r) = place page (s.reg r) ∧
      (s.stepped sz (.postInc r)).reg q = if q = r then s.reg r + k else s.reg q) ∧
    (s.effAddr sz (.abs8 d) = place 0 (s.br ++ d) ∧ (s.stepped sz (.abs8 d)).reg q = s.reg q) ∧
    (s.effAddr sz (.abs16 w) = place s.dp w ∧ (s.stepped sz (.abs16 w)).reg q = s.reg q)

/-- Which page register goes with which offset, in maximum mode (R61): CP with PC, TP with every implicit stack access,
DP, EP or TP with the register-indirect modes by their register, DP with @aa:16, and page H'00 with BR as bits 15:8 for
@aa:8. -/
def Obligations.PageOfEveryAccess : Prop :=
  ∀ (s : State) (sz : Size) (r : Reg) (d : Byte) (w : Word) (k : Nat), s.mode = .max →
    let pageOf := fun a : Addr => a.extractLsb' 16 8
    let page := match r with | .r0 | .r1 | .r2 | .r3 => s.dp | .r4 | .r5 => s.ep | .r6 | .r7 => s.tp
    pageOf (s.fetchAddr k) = s.cp ∧ pageOf s.stackAddr = s.tp ∧ pageOf (s.stackSlot k) = s.tp ∧
      (∀ m ∈ [MemEA.ind r, .disp8 r d, .disp16 r w, .preDec r, .postInc r], pageOf (s.effAddr sz m) = page) ∧
      pageOf (s.effAddr sz (.abs16 w)) = s.dp ∧
      pageOf (s.effAddr sz (.abs8 d)) = 0 ∧ (s.effAddr sz (.abs8 d)).extractLsb' 8 8 = s.br

/-- The value of a source operand: the low bits of a register; the immediate; the bytes in memory, big-endian, and the
low byte of the word for a byte through @-R7 or @R7+ (R69, R77; big-endian by D1, R63, log entry 29; the low byte of the
stack word by the spec's decision D2, R67, log entry 7). -/
def Obligations.SourceValues : Prop :=
  ∀ (s : State) (sz : Size) (r : Reg) (m : MemEA) (d : Byte) (w : Word),
    (s.readSrc (.reg sz r)).1 = (s.reg r).setWidth sz.bits ∧
    (s.readSrc (.imm8 d)).1 = d ∧ (s.readSrc (.imm16 w)).1 = w ∧
    (s.memAt (s.operandBytes .byte m) → s.misaligned .byte m = false →
      (s.readSrc (.mem .byte m)).1 =
        if viaStack m then (s.wordAt (s.effAddr .byte m)).setWidth 8
        else Memory.read s.mem (s.phys (s.effAddr .byte m))) ∧
    (s.memAt (s.operandBytes .word m) → s.misaligned .word m = false →
      (s.readSrc (.mem .word m)).1 = s.wordAt (s.effAddr .word m))

/-- A byte written to a general register leaves bits 15:8, a word replaces all of it, no other register changes (R22,
R23). A write of the flags changes N, Z, V, C and nothing else of SR; every write of SR or CCR drops the reserved bits
(R27, R30). -/
def Obligations.RegisterWrites : Prop :=
  ∀ (s : State) (r q : Reg) (b : Byte) (w : Word) (f : Flags),
    (s.setRegN .byte r b).reg r = (s.reg r).extractLsb' 8 8 ++ b ∧ (s.setRegN .word r w).reg r = w ∧
    (q ≠ r → (s.setRegN .byte r b).reg q = s.reg q ∧ (s.setRegN .word r w).reg q = s.reg q) ∧
    (s.setFlags f).flags = f ∧ (s.setFlags f).sr.extractLsb' 4 12 = s.sr.extractLsb' 4 12 ∧
    (s.writeSR w).sr &&& 0x78F0 = 0 ∧ (s.writeSR w).flagT = w.getLsbD 15 ∧ (s.writeSR w).mask = w.extractLsb' 8 3 ∧
    (s.writeSR w).flags = ⟨w.getLsbD 3, w.getLsbD 2, w.getLsbD 1, w.getLsbD 0⟩ ∧
    (s.writeCCR b).sr.extractLsb' 8 8 = s.sr.extractLsb' 8 8 ∧ (s.writeCCR b).sr &&& 0x00F0 = 0 ∧
    (s.writeCCR b).flags = ⟨b.getLsbD 3, b.getLsbD 2, b.getLsbD 1, b.getLsbD 0⟩

/-! ## Flag arithmetic -/

/-- Addition with carry: the sum modulo 2^n; N its sign, Z a zero result, C a carry, V signed overflow, which is the
formula of Table 2-7 (R200). -/
def Obligations.AdditionFlags : Prop :=
  ∀ (sz : Size) (d s : BitVec sz.bits) (cin : Bool),
    (addN d s cin).1.toNat = (d.toNat + s.toNat + cin.toNat) % 2 ^ sz.bits ∧
    (addN d s cin).2.n = (addN d s cin).1.msb ∧
    ((addN d s cin).2.z = true ↔ (addN d s cin).1 = 0) ∧
    ((addN d s cin).2.c = true ↔ 2 ^ sz.bits ≤ d.toNat + s.toNat + cin.toNat) ∧
    ((addN d s cin).2.v = true ↔ (addN d s cin).1.toInt ≠ d.toInt + s.toInt + cin.toNat)

/-- Subtraction with borrow: the difference modulo 2^n; N its sign, Z a zero result, C a borrow, V signed overflow
(R200). -/
def Obligations.SubtractionFlags : Prop :=
  ∀ (sz : Size) (d s : BitVec sz.bits) (bin : Bool),
    ((subN d s bin).1.toNat : Int) = ((d.toNat : Int) - s.toNat - bin.toNat) % 2 ^ sz.bits ∧
    (subN d s bin).2.n = (subN d s bin).1.msb ∧
    ((subN d s bin).2.z = true ↔ (subN d s bin).1 = 0) ∧
    ((subN d s bin).2.c = true ↔ d.toNat < s.toNat + bin.toNat) ∧
    ((subN d s bin).2.v = true ↔ (subN d s bin).1.toInt ≠ d.toInt - s.toInt - bin.toNat)

/-- Shifts and rotates by one bit: arithmetic and logical shifts as doubling and halving, rotates as rotations of the
operand, the rotates through C as rotations of C and the operand together; the C and V they give (R265 to R273). -/
def Obligations.ShiftAndRotateResults : Prop :=
  ∀ (sz : Size) (d : BitVec sz.bits) (f : Flags),
    ((shalN d f).1.toNat = 2 * d.toNat % 2 ^ sz.bits ∧ (shalN d f).2.c = d.msb ∧
      ((shalN d f).2.v = true ↔ (shalN d f).1.msb ≠ d.msb)) ∧
    ((sharN d f).1.toInt = d.toInt / 2 ∧ (sharN d f).2.c = d.getLsbD 0 ∧ (sharN d f).2.v = false) ∧
    ((shllN d f).1.toNat = 2 * d.toNat % 2 ^ sz.bits ∧ (shllN d f).2.c = d.msb ∧ (shllN d f).2.v = false) ∧
    ((shlrN d f).1.toNat = d.toNat / 2 ∧ (shlrN d f).2.c = d.getLsbD 0 ∧ (shlrN d f).2.v = false ∧
      (shlrN d f).2.n = false) ∧
    ((rotlN d f).1 = d.rotateLeft 1 ∧ (rotlN d f).2.c = d.msb ∧ (rotlN d f).2.v = false) ∧
    ((rotrN d f).1 = d.rotateRight 1 ∧ (rotrN d f).2.c = d.getLsbD 0 ∧ (rotrN d f).2.v = false) ∧
    (BitVec.ofBool (rotxlN d f).2.c ++ (rotxlN d f).1 = (BitVec.ofBool f.c ++ d).rotateLeft 1 ∧
      (rotxlN d f).2.v = false) ∧
    (BitVec.ofBool (rotxrN d f).2.c ++ (rotxrN d f).1 = (BitVec.ofBool f.c ++ d).rotateRight 1 ∧
      (rotxrN d f).2.v = false) ∧
    ∀ p ∈ [shalN d f, sharN d f, shllN d f, shlrN d f, rotlN d f, rotrN d f, rotxlN d f, rotxrN d f],
      p.2.n = p.1.msb ∧ (p.2.z = true ↔ p.1 = 0)

/-! ## Data transfer -/

/-- The moves into a register: MOV:G, MOV:E, MOV:I, MOV:L, MOV:F loads give Rd the value read, N and Z of it, V = 0, C
kept; MOVFPE, on a chip with an E clock, the value and no flags (R160, R161, R164 to R166, R168, R174). -/
def Obligations.MovesToRegister : Prop :=
  ∀ (s : State) (rd : Reg),
    let move := fun (src : SrcEA) (t : State) =>
      SourceEffect s src [(rd, mergeReg src.size ((s.readSrc src).2.reg rd) (s.readSrc src).1)]
        { n := (s.readSrc src).1.msb, z := (s.readSrc src).1 == 0, v := false, c := s.flags.c } t
    (∀ src, ∃ t, exec (.movGLoad src rd) s = .next t ∧ move src t) ∧
    (∀ data, ∃ t, exec (.movE rd data) s = .next t ∧ move (.imm8 data) t) ∧
    (∀ data, ∃ t, exec (.movI rd data) s = .next t ∧ move (.imm16 data) t) ∧
    (∀ sz a, ∃ t, exec (.movL sz rd a) s = .next t ∧ move (.mem sz (.abs8 a)) t) ∧
    (∀ sz d, ∃ t, exec (.movFLoad sz rd d) s = .next t ∧ move (.mem sz (.disp8 .r6 d)) t) ∧
    (∀ m, s.chip.hasEClock = true → ∃ t, exec (.movfpe m rd) s = .next t ∧
      SourceEffect s (.mem .byte m)
        [(rd, mergeReg .byte ((s.readSrc (.mem .byte m)).2.reg rd) (s.readSrc (.mem .byte m)).1)] s.flags t)

/-- The moves into memory: MOV:G, MOV:S, MOV:F stores and MOV:G #xx store the value, a register read after a
pre-decrement, an 8-bit immediate sign-extended; N and Z of it, V = 0, C kept; MOVTPE, on a chip with an E clock, stores
the byte and changes no flag (R160, R162, R163, R167, R169, R173). The order of the register's read is the spec's
decision D5 (R79, log entry 8); that a misaligned store leaves memory as it was is D10 (R399, log entry 6), where a byte
through @-R7 or @R7+ stands D2 (R67, log entry 7). -/
def Obligations.MovesToMemory : Prop :=
  ∀ (s : State) (sz : Size) (m : MemEA) (rs : Reg) (data : Byte) (word : Word) (a : Byte),
    let store := fun (sz : Size) (m : MemEA) (v : BitVec sz.bits) (t : State) =>
      StoreEffect s sz m v { n := v.msb, z := v == 0, v := false, c := s.flags.c } t
    (∃ t, exec (.movGStore sz rs m) s = .next t ∧ store sz m ((s.preStep sz m).regN sz rs) t) ∧
    (∃ t, exec (.movS sz rs a) s = .next t ∧ store sz (.abs8 a) (s.regN sz rs) t) ∧
    (∃ t, exec (.movFStore sz rs a) s = .next t ∧ store sz (.disp8 .r6 a) (s.regN sz rs) t) ∧
    (∃ t, exec (.movGImm8 sz m data) s = .next t ∧ store sz m (data.signExtend sz.bits) t) ∧
    (∃ t, exec (.movGImm16 m word) s = .next t ∧ store .word m word t) ∧
    (s.chip.hasEClock = true → ∃ t, exec (.movtpe rs m) s = .next t ∧
      StoreEffect s .byte m ((s.preStep .byte m).regN .byte rs) s.flags t)

/-- LDM: the listed registers but R7 take the words from the top of the stack on, lowest register first, R7 ends past
all of them; nothing else changes (R170). With R7 odd R7 moves all the same and an address error is pending (R382; the
rest of the effect is the spec's decision D10, R399, log entry 6). -/
def Obligations.LdmResult : Prop :=
  ∀ (list : Byte) (s : State), ∃ t, exec (.ldm list) s = .next t ∧
    t.reg .r7 = s.reg .r7 + 2 * BitVec.ofNat 16 ((List.range 8).filter fun j => list.getLsbD j).length ∧
    (∀ r, r ≠ .r7 → list.getLsbD r.num = false → t.reg r = s.reg r) ∧
    t = { s with regs := t.regs, free := t.free, addrErrPending := t.addrErrPending } ∧
    t.addrErrPending = (s.addrErrPending || (list != 0 && (s.reg .r7).getLsbD 0)) ∧
    (s.memAt (s.stackBytes ((List.range 8).filter fun j => list.getLsbD j).length) →
      (s.reg .r7).getLsbD 0 = false →
      t = { s with regs := t.regs } ∧
      ∀ r, r ≠ .r7 → list.getLsbD r.num = true →
        t.reg r = s.wordAt (s.stackSlot ((List.range r.num).filter fun j => list.getLsbD j).length))

/-- STM: the listed registers are pushed, highest first, R7 with its value less 2; nothing else changes (R171). That
with R7 odd nothing is stored is the spec's decision D10 (R399, log entry 6). -/
def Obligations.StmResult : Prop :=
  ∀ (list : Byte) (s : State), ∃ t, exec (.stm list) s = .next t ∧
    Pushed s t ((([.r0, .r1, .r2, .r3, .r4, .r5, .r6, .r7] : List Reg).filter fun r => list.getLsbD r.num).map
      fun r => if r = .r7 then s.reg .r7 - 2 else s.reg r) ∧
    t = { s with regs := t.regs, mem := t.mem, stored := t.stored, addrErrPending := t.addrErrPending } ∧
    t.addrErrPending = (s.addrErrPending || (list != 0 && (s.reg .r7).getLsbD 0))

/-- XCH, SWAP, EXTS, EXTU on registers: their results, their flags, and nothing else (R172, R175, R222, R223). N and Z
of SWAP are of the 16-bit result by the spec's decision D24, Z of EXTU by its resolution C9 (log entry 33). -/
def Obligations.RegisterOnlyMoves : Prop :=
  ∀ (s : State) (rs rd : Reg),
    (∃ t, exec (.xch rs rd) s = .next t ∧ t.reg rs = s.reg rd ∧ t.reg rd = s.reg rs ∧ KeepsRegs s t [rs, rd] ∧
      t = { s with regs := t.regs }) ∧
    (∃ t, exec (.swap rd) s = .next t ∧ t.reg rd = (s.reg rd).rotateLeft 8 ∧ KeepsRegs s t [rd] ∧
      t = { s.setFlags ⟨(t.reg rd).msb, t.reg rd == 0, false, s.flags.c⟩ with regs := t.regs }) ∧
    (∃ t, exec (.exts rd) s = .next t ∧ (t.reg rd).toInt = ((s.reg rd).setWidth 8).toInt ∧ KeepsRegs s t [rd] ∧
      t = { s.setFlags ⟨(t.reg rd).msb, t.reg rd == 0, false, false⟩ with regs := t.regs }) ∧
    (∃ t, exec (.extu rd) s = .next t ∧ (t.reg rd).toNat = (s.reg rd).toNat % 256 ∧ KeepsRegs s t [rd] ∧
      t = { s.setFlags ⟨false, t.reg rd == 0, false, false⟩ with regs := t.regs })

/-! ## Arithmetic and logic -/

/-- ADD:G, SUB, ADDX, SUBX, AND, OR, XOR: Rd becomes the result of Rd and the source, read after its pre-decrement; the
flags are the operation's, with a sticky Z for ADDX and SUBX; ADDS and SUBS take Rd as a word and the source
sign-extended, and change no flag; nothing is stored (R201, R203, R204, R206 to R208, R260 to R263). The sticky Z of
SUBX and the borrow of SUB are the spec's resolutions C7 and C6 (log entry 33), the order of the reads its decision D5
(log entry 8). -/
def Obligations.TwoOperandResults : Prop :=
  ∀ (s : State) (src : SrcEA) (rd : Reg),
    let d := (s.readSrc src).2.regN src.size rd
    let v := (s.readSrc src).1
    let c := s.flags.c
    let z := s.flags.z
    let logic := fun r : BitVec src.size.bits => (r, ({ n := r.msb, z := r == 0, v := false, c := c } : Flags))
    let wide := v.signExtend 16
    let word := (s.readSrc src).2.reg rd
    (∃ t, exec (.adds src rd) s = .next t ∧ SourceEffect s src [(rd, word + wide)] s.flags t) ∧
    (∃ t, exec (.subs src rd) s = .next t ∧ SourceEffect s src [(rd, word - wide)] s.flags t) ∧
    ∀ p ∈ ([(.addG src rd, addN d v false), (.sub src rd, subN d v false),
        (.addx src rd, ((addN d v c).1, { (addN d v c).2 with z := z && (addN d v c).2.z })),
        (.subx src rd, ((subN d v c).1, { (subN d v c).2 with z := z && (subN d v c).2.z })),
        (.logAnd src rd, logic (d &&& v)), (.logOr src rd, logic (d ||| v)), (.logXor src rd, logic (d ^^^ v))] :
        List (Instr × (BitVec src.size.bits × Flags))),
      ∃ t, exec p.1 s = .next t ∧
        SourceEffect s src [(rd, mergeReg src.size ((s.readSrc src).2.reg rd) p.2.1)] p.2.2 t

/-- The read-modify-write instructions ADD:Q, NEG, NOT and the shifts and rotates, on a register and on memory: the
operand becomes the result, the address is computed once, a pointer steps once (R91, R202, R225, R264, R265 to R273).
That a misaligned store leaves memory as it was is the spec's decision D10 (R399, log entry 6), where a byte through @-R7
or @R7+ stands D2 (R67, log entry 7). -/
def Obligations.ModifyResults : Prop :=
  ∀ (s : State) (sz : Size) (d : DstEA),
    ∀ p ∈ ([(.addQ1 sz d, fun v _ => addN v 1 false), (.addQ2 sz d, fun v _ => addN v 2 false),
        (.addQm1 sz d, fun v _ => addN v (BitVec.ofInt _ (-1)) false),
        (.addQm2 sz d, fun v _ => addN v (BitVec.ofInt _ (-2)) false),
        (.neg sz d, fun v _ => subN 0 v false),
        (.logNot sz d, fun v f => (~~~v, { n := (~~~v).msb, z := ~~~v == 0, v := false, c := f.c })),
        (.shal sz d, shalN), (.shar sz d, sharN), (.shll sz d, shllN), (.shlr sz d, shlrN),
        (.rotl sz d, rotlN), (.rotr sz d, rotrN), (.rotxl sz d, rotxlN), (.rotxr sz d, rotxrN)] :
        List (Instr × (BitVec sz.bits → Flags → BitVec sz.bits × Flags))),
      ∃ t, exec p.1 s = .next t ∧ ModifyEffect s sz d p.2 t

/-- CLR and STC write their destination: CLR 0 with N Z V C = 0 1 0 0, STC the control register with no flag changed; a
byte register destination keeps bits 15:8 (R226, R345). That STC reads EP, DP and TP back in minimum mode is the spec's
decision D7 (R36, log entry 35), that a misaligned store leaves memory as it was D10 (R399, log entry 6), where a byte
through @-R7 or @R7+ stands D2 (R67, log entry 7). -/
def Obligations.ClearAndStoreControl : Prop :=
  ∀ (s : State) (sz : Size) (cr : CtlReg) (r : Reg) (m : MemEA),
    let value : Word := match cr with
      | .sr => s.sr
      | .ccr => s.sr &&& 0x00FF
      | .br => s.br.setWidth 16
      | .ep => s.ep.setWidth 16
      | .dp => s.dp.setWidth 16
      | .tp => s.tp.setWidth 16
    exec (.clr sz (.reg r)) s = .next ((s.setRegN sz r 0).setFlags ⟨false, true, false, false⟩) ∧
    (∃ t, exec (.clr sz (.mem m)) s = .next t ∧ StoreEffect s sz m 0 ⟨false, true, false, false⟩ t) ∧
    exec (.stc cr (.reg r)) s = .next (s.setRegN cr.size r (value.setWidth _)) ∧
    (∃ t, exec (.stc cr (.mem m)) s = .next t ∧ StoreEffect s cr.size m (value.setWidth _) s.flags t)

/-- TAS: the flags of the byte as it was, then its bit 7 set; the bus lock is not held afterwards (R82, R227). Through
@-R7 and @R7+ it rests on the spec's decisions D2 (R67, log entry 7) and, with R7 odd, D10 (R399, log entry 6). -/
def Obligations.TasResult : Prop :=
  ∀ (s : State) (d : DstEA), s.busLock = false →
    ∃ t, exec (.tas d) s = .next t ∧
      ModifyEffect s .byte d (fun v _ => (v ||| 0x80, { n := v.msb, z := v == 0, v := false, c := false })) t

/-- The compares and TST: flags only (R211 to R214, R224). -/
def Obligations.CompareResults : Prop :=
  ∀ (s : State) (src : SrcEA) (rd : Reg) (sz : Size) (d : DstEA) (m : MemEA) (b : Byte) (w : Word),
    (∃ t, exec (.cmpG src rd) s = .next t ∧
      SourceEffect s src [] (subN ((s.readSrc src).2.regN src.size rd) (s.readSrc src).1 false).2 t) ∧
    exec (.cmpE rd b) s = .next (s.setFlags (subN (s.regN .byte rd) b false).2) ∧
    exec (.cmpI rd w) s = .next (s.setFlags (subN (s.regN .word rd) w false).2) ∧
    (∃ t, exec (.cmpGImm8 m b) s = .next t ∧ InspectEffect s .byte (.mem m) (fun v _ => (subN v b false).2) t) ∧
    (∃ t, exec (.cmpGImm16 m w) s = .next t ∧ InspectEffect s .word (.mem m) (fun v _ => (subN v w false).2) t) ∧
    (∃ t, exec (.tst sz d) s = .next t ∧
      InspectEffect s sz d (fun v _ => { n := v.msb, z := v == 0, v := false, c := false }) t)

/-- DADD and DSUB of valid digits: the low byte of Rd becomes the decimal sum or difference modulo 100, C the decimal
carry or borrow, Z sticky, N and V kept (R209, R210). -/
def Obligations.DecimalResults : Prop :=
  ∀ (s : State) (rs rd : Reg),
    let d := (s.reg rd).setWidth 8
    let v := (s.reg rs).setWidth 8
    let c := s.flags.c.toNat
    bcdValid d = true → bcdValid v = true →
    (∃ r : Byte, bcdValid r = true ∧ bcdValue r = (bcdValue d + bcdValue v + c) % 100 ∧
      exec (.dadd rs rd) s = .next ((s.setRegN .byte rd r).setFlags { s.flags with
        z := s.flags.z && decide (bcdValue r = 0), c := decide (100 ≤ bcdValue d + bcdValue v + c) })) ∧
    (∃ r : Byte, bcdValid r = true ∧ (bcdValue r : Int) = ((bcdValue d : Int) - bcdValue v - c) % 100 ∧
      exec (.dsub rs rd) s = .next ((s.setRegN .byte rd r).setFlags { s.flags with
        z := s.flags.z && decide (bcdValue r = 0), c := decide (bcdValue d < bcdValue v + c) }))

/-- Operands for which the spec states no result do not stop the machine: DADD and DSUB of a nibble above 9 leave only
the low byte of Rd, Z and C open (D18, U8), a bit instruction with bit number 8 to 15 on a byte only Z and the byte
written (D17, U7). The free values are the model's (log entries 5, 22, 23). -/
def Obligations.OpenOperandsRunOn : Prop :=
  (∀ (s : State) (rs rd : Reg), (bcdValid ((s.reg rd).setWidth 8) && bcdValid ((s.reg rs).setWidth 8)) = false →
    ∀ i ∈ [Instr.dadd rs rd, .dsub rs rd], ∃ (r : Byte) (z c : Bool) (k : Nat),
      exec i s = .next { (s.setRegN .byte rd r).setFlags { s.flags with z := z, c := c } with free := k }) ∧
  ∀ (s : State) (d : DstEA) (imm : BitVec 4) (rs : Reg),
    ∀ p ∈ ([(imm.toNat, [.bsetImm .byte imm d, .bclrImm .byte imm d, .bnotImm .byte imm d], .btstImm .byte imm d),
        ((s.reg rs).toNat % 16, [.bsetReg .byte rs d, .bclrReg .byte rs d, .bnotReg .byte rs d], .btstReg .byte rs d)] :
        List (Nat × List Instr × Instr)),
      8 ≤ p.1 →
      (∀ i ∈ p.2.1, ∃ (k : Nat) (b : Byte) (z : Bool) (t : State), exec i s = .next t ∧
        ModifyEffect { s with free := k } .byte d (fun _ f => (b, { f with z := z })) t) ∧
      ∃ (k : Nat) (z : Bool) (t : State), exec p.2.2 s = .next t ∧
        InspectEffect { s with free := k } .byte d (fun _ f => { f with z := z }) t

/-- MULXU: byte, the 16-bit product replaces Rd; word, with Rd even, the 32-bit product in Rd and the register after it;
V = C = 0 (R216, R24). That N and Z are those of the full product is the spec's decision D25, that Rd holds the upper
word its inference from DIVXU, marked [derived] in R216 (log entry 33); odd Rd is the case of StopsByName. -/
def Obligations.MultiplyResults : Prop :=
  ∀ (s : State) (src : SrcEA) (rd : Reg),
    let v := (s.readSrc src).1.toNat
    let d := ((s.readSrc src).2.reg rd).toNat
    (src.size = .byte → ∃ t, exec (.mulxu src rd) s = .next t ∧
      let p := d % 256 * v
      SourceEffect s src [(rd, BitVec.ofNat 16 p)] ⟨decide (2 ^ 15 ≤ p), decide (p = 0), false, false⟩ t) ∧
    (src.size = .word → rd.even = true → ∃ t, exec (.mulxu src rd) s = .next t ∧
      let p := d * v
      SourceEffect s src [(rd, BitVec.ofNat 16 (p / 65536)), (Reg.ofNum (rd.num + 1), BitVec.ofNat 16 p)]
        ⟨decide (2 ^ 31 ≤ p), decide (p = 0), false, false⟩ t)

/-- DIVXU: quotient and remainder where the quotient fits; overflow sets V alone and leaves Rd; division by 0 sets
Z alone, leaves Rd and enters the zero-divide exception with the PC of the next instruction (R218, R386). The flags are
the spec's decision D12 (log entry 33), the stacked PC its D9 (R393, log entry 31), the entry in maximum mode its D8 (log
entry 30). -/
def Obligations.DivideResults : Prop :=
  ∀ (s : State) (src : SrcEA) (rd : Reg), (src.size = .word → rd.even = true) →
    let n := src.size.bits
    let v := (s.readSrc src).1.toNat
    let hi := ((s.readSrc src).2.reg rd).toNat
    let lo := ((s.readSrc src).2.reg (Reg.ofNum (rd.num + 1))).toNat
    let dividend := if src.size = .byte then hi else hi * 65536 + lo
    ∃ t, exec (.divxu src rd) s = .next t ∧
      (v ≠ 0 → dividend / v < 2 ^ n →
        let q := dividend / v
        let r := dividend % v
        SourceEffect s src
          (if src.size = .byte then [(rd, BitVec.ofNat 16 (r * 256 + q))]
           else [(rd, BitVec.ofNat 16 r), (Reg.ofNum (rd.num + 1), BitVec.ofNat 16 q)])
          ⟨decide (2 ^ (n - 1) ≤ q), decide (q = 0), false, false⟩ t) ∧
      (v ≠ 0 → 2 ^ n ≤ dividend / v → SourceEffect s src [] ⟨false, false, true, false⟩ t) ∧
      (v = 0 →
        let u := ((s.readSrc src).2.setFlags ⟨false, true, false, false⟩).finishSrc src []
        SourceEffect s src [] ⟨false, true, false, false⟩ u ∧
          (u.canEnter .zeroDivide → EntryEffect u .zeroDivide s.pc t))

/-! ## Bits -/

/-- BSET, BCLR, BNOT with a bit number inside the operand: Z is the complement of the bit as it was, the bit is set,
cleared or inverted, the other bits and N, V, C are kept; BTST gives Z alone; the bit number is an immediate or the low
four bits of a register as it was before the instruction (R274 to R282; that order is the spec's decision D5, log entry
8). That a misaligned store leaves memory as it was is D10 (R399, log entry 6), where a byte through @-R7 or @R7+ stands
D2 (R67, log entry 7). -/
def Obligations.BitResults : Prop :=
  ∀ (s : State) (sz : Size) (d : DstEA) (imm : BitVec 4) (rs : Reg),
    let one := fun b : Nat => (1#sz.bits <<< b)
    let z := fun (b : Nat) (v : BitVec sz.bits) (f : Flags) => ({ f with z := !v.getLsbD b } : Flags)
    ∀ p ∈ ([(imm.toNat, .bsetImm sz imm d, .bclrImm sz imm d, .bnotImm sz imm d, .btstImm sz imm d),
        ((s.reg rs).toNat % 16, .bsetReg sz rs d, .bclrReg sz rs d, .bnotReg sz rs d, .btstReg sz rs d)] :
        List (Nat × Instr × Instr × Instr × Instr)),
      p.1 < sz.bits →
      (∃ t, exec p.2.1 s = .next t ∧ ModifyEffect s sz d (fun v f => (v ||| one p.1, z p.1 v f)) t) ∧
      (∃ t, exec p.2.2.1 s = .next t ∧ ModifyEffect s sz d (fun v f => (v &&& ~~~one p.1, z p.1 v f)) t) ∧
      (∃ t, exec p.2.2.2.1 s = .next t ∧ ModifyEffect s sz d (fun v f => (v ^^^ one p.1, z p.1 v f)) t) ∧
      (∃ t, exec p.2.2.2.2 s = .next t ∧ InspectEffect s sz d (z p.1) t)

/-! ## Branches -/

/-- Bcc d:8 and Bcc d:16, all sixteen conditions: PC-relative from the next instruction where the condition holds;
nothing else changes. After a compare of two registers BHI, BLS, BCC, BCS compare as unsigned numbers, BGE, BLT, BGT, BLE
as signed numbers, BNE and BEQ for equality (R78, R300, R301, R312; the part about the compare R301 marks as derived
from R200). -/
def Obligations.ConditionalBranch : Prop :=
  (∀ (s : State) (b : Byte) (w : Word),
    let f := s.flags
    ∀ p ∈ ([(.bra8 b, .bra16 w, true), (.brn8 b, .brn16 w, false), (.bhi8 b, .bhi16 w, !(f.c || f.z)),
        (.bls8 b, .bls16 w, f.c || f.z), (.bcc8 b, .bcc16 w, !f.c), (.bcs8 b, .bcs16 w, f.c),
        (.bne8 b, .bne16 w, !f.z), (.beq8 b, .beq16 w, f.z), (.bvc8 b, .bvc16 w, !f.v), (.bvs8 b, .bvs16 w, f.v),
        (.bpl8 b, .bpl16 w, !f.n), (.bmi8 b, .bmi16 w, f.n), (.bge8 b, .bge16 w, f.n == f.v),
        (.blt8 b, .blt16 w, f.n != f.v), (.bgt8 b, .bgt16 w, !f.z && f.n == f.v),
        (.ble8 b, .ble16 w, f.z || f.n != f.v)] : List (Instr × Instr × Bool)),
      exec p.1 s = .next { s with pc := if p.2.2 then s.pc + b.signExtend 16 else s.pc } ∧
        exec p.2.1 s = .next { s with pc := if p.2.2 then s.pc + w else s.pc }) ∧
  ∀ (s : State) (sz : Size) (rs rd : Reg) (d : Byte),
    let x := s.regN sz rd
    let y := s.regN sz rs
    ∃ t, exec (.cmpG (.reg sz rs) rd) s = .next t ∧ t.regs = s.regs ∧
      ∀ p ∈ ([(.bhi8 d, y.toNat < x.toNat), (.bls8 d, x.toNat ≤ y.toNat), (.bcc8 d, y.toNat ≤ x.toNat),
          (.bcs8 d, x.toNat < y.toNat), (.bne8 d, x ≠ y), (.beq8 d, x = y), (.bge8 d, y.toInt ≤ x.toInt),
          (.blt8 d, x.toInt < y.toInt), (.bgt8 d, y.toInt < x.toInt), (.ble8 d, x.toInt ≤ y.toInt)] :
          List (Instr × Prop)),
        (p.2 → exec p.1 t = .next { t with pc := t.pc + d.signExtend 16 }) ∧ (¬p.2 → exec p.1 t = .next t)

/-- JMP: PC becomes the target in the same page and nothing else changes (R302); PJMP in maximum mode, with Rn even,
loads CP and PC (R303). -/
def Obligations.JumpResults : Prop :=
  ∀ (s : State) (r : Reg) (d page : Byte) (a : Word),
    exec (.jmpInd r) s = .next { s with pc := s.reg r } ∧
    exec (.jmpAbs16 a) s = .next { s with pc := a } ∧
    exec (.jmpDisp8 r d) s = .next { s with pc := s.reg r + d.signExtend 16 } ∧
    exec (.jmpDisp16 r a) s = .next { s with pc := s.reg r + a } ∧
    (s.mode = .max → exec (.pjmpAbs24 page a) s = .next { s with cp := page, pc := a }) ∧
    (s.mode = .max → r.even = true →
      exec (.pjmpInd r) s = .next { s with cp := (s.reg r).setWidth 8, pc := s.reg (Reg.ofNum (r.num + 1)) })

/-- BSR and JSR push the address of the next instruction and jump; PJSR in maximum mode pushes PC, then CP below it, and
loads CP and PC; with R7 odd an address error is pending (R304 to R306, R311). That the target is computed before the
push is the spec's decision D5 (R305, log entry 8), the H'00 above CP D8 (log entry 30), the transfer made with nothing
stored where R7 is odd D10 (R399, log entry 6). -/
def Obligations.CallResults : Prop :=
  ∀ (s : State) (r : Reg) (d page : Byte) (a : Word),
    let rest := fun t : State => t.addrErrPending = (s.addrErrPending || (s.reg .r7).getLsbD 0) ∧
      t = { s with
        regs := t.regs, mem := t.mem, stored := t.stored, pc := t.pc, cp := t.cp, addrErrPending := t.addrErrPending }
    (∀ p ∈ ([(.bsr8 d, s.pc + d.signExtend 16), (.bsr16 a, s.pc + a), (.jsrInd r, s.reg r), (.jsrAbs16 a, a),
        (.jsrDisp8 r d, s.reg r + d.signExtend 16), (.jsrDisp16 r a, s.reg r + a)] : List (Instr × Word)),
      ∃ t, exec p.1 s = .next t ∧ Pushed s t [s.pc] ∧ t.pc = p.2 ∧ t.cp = s.cp ∧ rest t) ∧
    (s.mode = .max → ∃ t, exec (.pjsrAbs24 page a) s = .next t ∧ Pushed s t [(0 : Byte) ++ s.cp, s.pc] ∧
      t.cp = page ∧ t.pc = a ∧ rest t) ∧
    (s.mode = .max → r.even = true → ∃ t, exec (.pjsrInd r) s = .next t ∧ Pushed s t [(0 : Byte) ++ s.cp, s.pc] ∧
      t.cp = (s.reg r).setWidth 8 ∧ t.pc = s.reg (Reg.ofNum (r.num + 1)) ∧ rest t)

/-- RTS and RTD pop PC, PRTS and PRTD in maximum mode CP and PC; RTD and PRTD then add the sign-extended immediate to
R7; with R7 odd an address error is pending (R307 to R310). That R7 moves and the transfer is made all the same where R7
is odd is the spec's decision D10 (R399, log entry 6). -/
def Obligations.ReturnResults : Prop :=
  ∀ (s : State) (b : Byte) (w : Word),
    let popped := fun (t : State) (n : Nat) (imm : Word) =>
      t.reg .r7 = s.reg .r7 + 2 * BitVec.ofNat 16 n + imm ∧ KeepsRegs s t [.r7] ∧
      t.addrErrPending = (s.addrErrPending || (s.reg .r7).getLsbD 0) ∧
      t = { s with regs := t.regs, pc := t.pc, cp := t.cp, free := t.free, addrErrPending := t.addrErrPending }
    let readable := fun n : Nat => s.memAt (s.stackBytes n) ∧ (s.reg .r7).getLsbD 0 = false
    (∀ p ∈ ([(.rts, 0), (.rtd8 b, b.signExtend 16), (.rtd16 w, w)] : List (Instr × Word)),
      ∃ t, exec p.1 s = .next t ∧ popped t 1 p.2 ∧ t.cp = s.cp ∧ (readable 1 → t.pc = s.wordAt (s.stackSlot 0))) ∧
    (s.mode = .max →
      ∀ p ∈ ([(.prts, 0), (.prtd8 b, b.signExtend 16), (.prtd16 w, w)] : List (Instr × Word)),
        ∃ t, exec p.1 s = .next t ∧ popped t 2 p.2 ∧
          (readable 2 → t.cp = (s.wordAt (s.stackSlot 0)).setWidth 8 ∧ t.pc = s.wordAt (s.stackSlot 1)))

/-- PRTS after PJSR @aa:24, or after PJSR @Rn with Rn even, in maximum mode: CP, PC and every general register are as
they were at the call (R306, R308, R311). -/
def Obligations.PageCallAndReturn : Prop :=
  ∀ (s : State) (r : Reg) (page : Byte) (a : Word) (i : Instr), s.mode = .max → s.canPush 2 →
    i = .pjsrAbs24 page a ∨ r.even = true ∧ i = .pjsrInd r →
    ∃ t u, exec i s = .next t ∧ exec .prts t = .next u ∧ u = { s with mem := u.mem, stored := u.stored }

/-- SCB: with its condition true nothing but PC is as for the next instruction; else Rn is decremented as a word and
the branch is taken unless it became H'FFFF; no flag changes; the three bytes of each (R316). -/
def Obligations.ScbResults : Prop :=
  ∀ (s : State) (r : Reg) (d : Byte),
    (encode (.scbF r d) = [0x01, 0xB8 + BitVec.ofNat 8 r.num, d] ∧
      encode (.scbNE r d) = [0x06, 0xB8 + BitVec.ofNat 8 r.num, d] ∧
      encode (.scbEQ r d) = [0x07, 0xB8 + BitVec.ofNat 8 r.num, d]) ∧
    ∀ p ∈ ([(.scbF r d, false), (.scbNE r d, !s.flags.z), (.scbEQ r d, s.flags.z)] : List (Instr × Bool)),
      exec p.1 s = .next
        (if p.2 then s
         else if s.reg r = 0 then s.setReg r 0xFFFF
         else { s.setReg r (s.reg r - 1) with pc := s.pc + d.signExtend 16 })

/-! ## System control -/

/-- LDC: the control register takes the source operand, CR other than SR and CCR leave the flags, and the next check
point is inhibited; the operand size is the register's (R344, R352, R353). In minimum mode the page registers are plain
storage by the spec's decision D7 (R36, log entry 35). -/
def Obligations.LdcResult : Prop :=
  ∀ (s : State) (src : SrcEA) (cr : CtlReg), src.size = cr.size →
    ∃ t, exec (.ldc src cr) s = .next t ∧ ControlWritten s t cr ((s.readSrc src).1.setWidth 16) s.flags ∧
      t.inhibitNext = true ∧ (∀ r, t.reg r = (s.srcStepped src).reg r) ∧ KeepsBytes s t [] ∧
      t.addrErrPending = (s.addrErrPending || s.srcMisaligned src) ∧
      t = { s with
        regs := t.regs, sr := t.sr, br := t.br, ep := t.ep, dp := t.dp, tp := t.tp, inhibitNext := true,
        mem := t.mem, free := t.free, addrErrPending := t.addrErrPending }

/-- ANDC, ORC, XORC: the control register takes the result; on SR and CCR the flags are bits 3 to 0 of it, on the others
N and Z of the byte, V = 0, C kept; the next check point is inhibited; nothing else changes (R346 to R348, R352, R353).
In minimum mode the page registers are plain storage by the spec's decision D7 (R36, log entry 35). -/
def Obligations.ControlRegisterLogic : Prop :=
  ∀ (s : State) (imm : ImmEA) (cr : CtlReg), imm.size = cr.size →
    let v : Word := match cr with
      | .sr => s.sr
      | .ccr => s.sr &&& 0x00FF
      | .br => s.br.setWidth 16
      | .ep => s.ep.setWidth 16
      | .dp => s.dp.setWidth 16
      | .tp => s.tp.setWidth 16
    let x : Word := match imm with
      | .imm8 b => b.setWidth 16
      | .imm16 w => w
    ∀ p ∈ ([(.andc imm cr, v &&& x), (.orc imm cr, v ||| x), (.xorc imm cr, v ^^^ x)] : List (Instr × Word)),
      ∃ t, exec p.1 s = .next t ∧
        ControlWritten s t cr p.2
          ⟨(p.2.setWidth 8).msb, p.2.setWidth 8 == (0 : Byte), false, s.flags.c⟩ ∧
        t = { s with sr := t.sr, br := t.br, ep := t.ep, dp := t.dp, tp := t.tp, inhibitNext := true }

/-- TRAPA always enters vector 16 + v, TRAP/VS vector 4 where V = 1, with the PC of the next instruction stacked and the
mask kept; TRAP/VS with V = 0 does nothing (R340, R341, R386). The stacked PC is the spec's decision D9 (R393, log entry
31), the entry in maximum mode its D8 (log entry 30). -/
def Obligations.TrapResults : Prop :=
  ∀ (s : State) (v : BitVec 4),
    (s.canEnter (.trapA v) → ∃ t, exec (.trapa v) s = .next t ∧ EntryEffect s (.trapA v) s.pc t ∧ t.mask = s.mask ∧
      (Exc.trapA v).vector = 16 + v.toNat) ∧
    (s.canEnter .trapVS → s.flags.v = true → ∃ t, exec .trapvs s = .next t ∧ EntryEffect s .trapVS s.pc t ∧
      t.mask = s.mask ∧ Exc.trapVS.vector = 4) ∧
    (s.flags.v = false → exec .trapvs s = .next s)

/-- RTE: SR without its reserved bits, in maximum mode CP, and PC from the stack; R7 past the frame; the next check
point inhibited; nothing else changes (R342, R396). That with R7 odd R7 moves all the same is the spec's decision D10
(R399, log entry 6). -/
def Obligations.RteResult : Prop :=
  ∀ s : State, ∃ t, exec .rte s = .next t ∧ t.inhibitNext = true ∧
    t.reg .r7 = s.reg .r7 + (match s.mode with | .min => 4 | .max => 6) ∧ KeepsRegs s t [.r7] ∧
    t.addrErrPending = (s.addrErrPending || (s.reg .r7).getLsbD 0) ∧ (s.mode = .min → t.cp = s.cp) ∧
    t = { s with
      regs := t.regs, sr := t.sr, cp := t.cp, pc := t.pc, inhibitNext := true, free := t.free,
      addrErrPending := t.addrErrPending } ∧
    (s.memAt (s.stackBytes (match s.mode with | .min => 2 | .max => 3)) → (s.reg .r7).getLsbD 0 = false →
      t.sr = s.wordAt (s.stackSlot 0) &&& 0x870F ∧
      match s.mode with
      | .min => t.pc = s.wordAt (s.stackSlot 1)
      | .max => t.cp = (s.wordAt (s.stackSlot 1)).setWidth 8 ∧ t.pc = s.wordAt (s.stackSlot 2))

/-- RTE undoes an exception entry: after any exception sequence, RTE gives back SR, PC, CP and every general register
(R391, R396); memory keeps the frame. -/
def Obligations.ExceptionEntryAndReturn : Prop :=
  ∀ (s : State) (kind : Exc) (p : Word), s.canEnter kind → s.sr &&& 0x78F0 = 0 →
    ∃ t, exec .rte (s.exceptionSequence kind p) = .next t ∧
      t = { s with pc := p, proc := .execution, inhibitNext := true, mem := t.mem, stored := t.stored }

/-- SLEEP selects the power-down mode by SSBY and changes nothing else; NOP changes nothing (R343, R349, R426). -/
def Obligations.SleepAndNop : Prop :=
  ∀ s : State,
    exec .sleep s = .next { s with proc := if s.pins.ssby then .softwareStandby else .sleep } ∧ exec .nop s = .next s

/-- LINK pushes R6, sets R6 to the new R7 and adds the sign-extended immediate to R7; UNLK sets R7 to R6 and pops R6; no
flag changes (R350, R351). That with R7 odd LINK stores nothing, and R7 and R6 move all the same, is the spec's decision
D10 (R399, log entry 6). -/
def Obligations.LinkResults : Prop :=
  ∀ (s : State) (b : Byte) (w : Word),
    (∀ p ∈ ([(.link8 b, b.signExtend 16), (.link16 w, w)] : List (Instr × Word)),
      ∃ t, exec p.1 s = .next t ∧ t.reg .r6 = s.reg .r7 - 2 ∧ t.reg .r7 = s.reg .r7 - 2 + p.2 ∧
        KeepsRegs s t [.r6, .r7] ∧ Pushed s { t with regs := (s.setReg .r7 (s.reg .r7 - 2)).regs } [s.reg .r6] ∧
        t = { s with regs := t.regs, mem := t.mem, stored := t.stored, addrErrPending := t.addrErrPending } ∧
        t.addrErrPending = (s.addrErrPending || (s.reg .r7).getLsbD 0)) ∧
    ∃ t, exec .unlk s = .next t ∧ t.reg .r7 = s.reg .r6 + 2 ∧ KeepsRegs s t [.r6, .r7] ∧
      t = { s with regs := t.regs, free := t.free, addrErrPending := t.addrErrPending } ∧
      t.addrErrPending = (s.addrErrPending || (s.reg .r6).getLsbD 0) ∧
      (s.memAt (s.wordBytes (s.addr s.tp (s.reg .r6))) → (s.reg .r6).getLsbD 0 = false →
        t.reg .r6 = s.wordAt (s.addr s.tp (s.reg .r6)))

/-! ## Invalid codes and stops -/

/-- The codes of Table 2-10 enter the invalid instruction exception through vector 2, the mask kept; so do PJMP, PJSR,
PRTS and PRTD in minimum mode (R117 to R120, R385). That they have no effect of their own is the spec's decision D9 (log
entry 31), and so is the stacked PC, by default the address after the last byte examined (R393, log entry 14); that the
byte or bytes R120 names are those examined is the model's reading (log entry 15); the entry in maximum mode is D8 (log
entry 30). -/
def Obligations.InvalidCodesTakeException : Prop :=
  (∀ (i : Instr) (s : State), isInvalidCode i = true → s.canEnter .invalidInstruction →
    ∃ (t : State) (p : Word), exec i s = .next t ∧ EntryEffect s .invalidInstruction p t ∧ t.mask = s.mask ∧
      Exc.invalidInstruction.vector = 2 ∧ (s.chip.invalidPc = .afterLastExamined → p = s.pc)) ∧
  ∀ (s : State) (r : Reg) (b : Byte) (w : Word), s.mode = .min → s.canEnter .invalidInstruction →
    ∀ p ∈ ([(.pjmpAbs24 b w, s.pc - 3), (.pjmpInd r, s.pc), (.pjsrAbs24 b w, s.pc - 3), (.pjsrInd r, s.pc),
        (.prts, s.pc), (.prtd8 b, s.pc - 1), (.prtd16 w, s.pc - 2)] : List (Instr × Word)),
      ∃ (t : State) (pc : Word), exec p.1 s = .next t ∧ EntryEffect s .invalidInstruction pc t ∧
        (s.chip.invalidPc = .afterLastExamined → pc = p.2)

/-- Every stop of the model. Bytes that are in no row of the table stop `step` by name; the codes of R121 after an EA
byte, an odd register where a pair is named, MOVFPE and MOVTPE on a chip without E clock, and a control register of
another size are refused by name (R121, D21 to D23; log entries 9 to 12: the stops are the model's, the spec leaves the
behaviour unspecified). A chip without IFETCH_COHERENT notes its stores, and an instruction one of whose bytes was stored
to since the fetch before the last is refused (R89, D4; log entry 24). -/
def Obligations.StopsByName : Prop :=
  (∀ (s : State) (e : DecodeError), s.withoutInstruction = none → decode s.fetchBytes = .error e →
    step s = .fault (.undecodable e)) ∧
  (∀ (s : State) (i : Instr) (rest : List Byte) (k : Nat), s.withoutInstruction = none →
    decode s.fetchBytes = .ok (i, rest) → s.chip.ifetchCoherent = false → k < 6 - rest.length →
    (s.phys (s.fetchAddr k) ∈ s.stored ∨ s.phys (s.fetchAddr k) ∈ s.storedBefore) →
    step s = .refused .storeAheadOfFetch) ∧
  (∀ (s : State) (a : Addr) (v : Byte), s.chip.ifetchCoherent = false → s.chip.kindAt (s.phys a) = .ram →
    (s.storeByte a v).stored = s.phys a :: s.stored) ∧
  (∀ (s : State) (sz : Size) (r : Reg) (b : Byte) (w : Word) (t : OpTail) (op : Byte),
    ∀ i ∈ ([.eaRn sz r t, .eaPreDec sz r t, .eaPostInc sz r t, .eaInd sz r t, .eaDisp8 sz r b t, .eaDisp16 sz r w t,
        .eaAbs8 sz b t, .eaAbs16 sz w t, .eaImm8 b op, .eaImm16 w op] : List Instr),
      exec i s = .refused .unspecifiedCombination) ∧
  ∀ (s : State) (src : SrcEA) (rd : Reg) (m : MemEA) (imm : ImmEA) (cr : CtlReg),
    (src.size = .word → rd.even = false →
      exec (.mulxu src rd) s = .refused .oddRegisterPair ∧ exec (.divxu src rd) s = .refused .oddRegisterPair) ∧
    (s.mode = .max → rd.even = false →
      exec (.pjmpInd rd) s = .refused .oddRegisterPair ∧ exec (.pjsrInd rd) s = .refused .oddRegisterPair) ∧
    (s.chip.hasEClock = false →
      exec (.movtpe rd m) s = .refused .noEClock ∧ exec (.movfpe m rd) s = .refused .noEClock) ∧
    (src.size ≠ cr.size → exec (.ldc src cr) s = .refused .controlRegisterNotAllowed) ∧
    (imm.size ≠ cr.size → ∀ i ∈ [Instr.andc imm cr, .orc imm cr, .xorc imm cr],
      exec i s = .refused .controlRegisterNotAllowed)

/-! ## Rules of the whole machine -/

/-- MODE, MDCR, the chip and the pins change in no step but those of the reset state: "MODE therefore cannot change
between resets" (R441). -/
def Obligations.ModeChangesOnlyInReset : Prop :=
  ∀ s t : State, step s = .next t → s.proc ≠ .resetState →
    t.mode = s.mode ∧ t.mds = s.mds ∧ t.chip = s.chip ∧ t.pins = s.pins

/-- CP is written by no instruction but PJMP, PJSR, PRTS, PRTD, RTE and those that enter an exception, and in minimum
mode by none at all; DP, EP, TP and BR by LDC, ANDC, ORC and XORC only; no instruction changes the pending requests
(R31, R36, R312, R400, R401). -/
def Obligations.PageRegisterChanges : Prop :=
  ∀ (i : Instr) (s t : State), exec i s = .next t →
    (isPageCrossing i = false → mayTrap i = false → t.cp = s.cp) ∧ (s.mode = .min → t.cp = s.cp) ∧
    (writesControl i = false → t.dp = s.dp ∧ t.ep = s.ep ∧ t.tp = s.tp ∧ t.br = s.br) ∧ t.requests = s.requests

/-- The mask and T are written by LDC, ANDC, ORC, XORC and RTE only, but that an exception entry of the instruction
clears T; the same five, and no others, inhibit the next check point (R38, R386, R395). -/
def Obligations.SystemByteChanges : Prop :=
  ∀ (i : Instr) (s t : State), exec i s = .next t →
    (isInhibiting i = false → t.mask = s.mask ∧ (t.flagT = s.flagT ∨ mayTrap i = true ∧ t.flagT = false) ∧
      (t.inhibitNext = true → s.inhibitNext = true)) ∧
    (isInhibiting i = true → t.inhibitNext = true)
end

