-- ==== Sys2Proof/Laws/State.lean ====
section
/-! SUPPORT. One lemma per field per update of State: what each primitive update leaves as it is. -/

namespace Sys2Proof.Machine

variable (s : State)

/-! ### `setReg` -/

@[simp] theorem State.setReg_pc (r : Reg) (v : Word) : (s.setReg r v).pc = s.pc := rfl
@[simp] theorem State.setReg_sr (r : Reg) (v : Word) : (s.setReg r v).sr = s.sr := rfl
@[simp] theorem State.setReg_cp (r : Reg) (v : Word) : (s.setReg r v).cp = s.cp := rfl
@[simp] theorem State.setReg_dp (r : Reg) (v : Word) : (s.setReg r v).dp = s.dp := rfl
@[simp] theorem State.setReg_ep (r : Reg) (v : Word) : (s.setReg r v).ep = s.ep := rfl
@[simp] theorem State.setReg_tp (r : Reg) (v : Word) : (s.setReg r v).tp = s.tp := rfl
@[simp] theorem State.setReg_br (r : Reg) (v : Word) : (s.setReg r v).br = s.br := rfl
@[simp] theorem State.setReg_mode (r : Reg) (v : Word) : (s.setReg r v).mode = s.mode := rfl
@[simp] theorem State.setReg_mds (r : Reg) (v : Word) : (s.setReg r v).mds = s.mds := rfl
@[simp] theorem State.setReg_proc (r : Reg) (v : Word) : (s.setReg r v).proc = s.proc := rfl
@[simp] theorem State.setReg_inhibitNext (r : Reg) (v : Word) : (s.setReg r v).inhibitNext = s.inhibitNext := rfl
@[simp] theorem State.setReg_addrErrPending (r : Reg) (v : Word) : (s.setReg r v).addrErrPending = s.addrErrPending := rfl
@[simp] theorem State.setReg_tracePending (r : Reg) (v : Word) : (s.setReg r v).tracePending = s.tracePending := rfl
@[simp] theorem State.setReg_busLock (r : Reg) (v : Word) : (s.setReg r v).busLock = s.busLock := rfl
@[simp] theorem State.setReg_requests (r : Reg) (v : Word) : (s.setReg r v).requests = s.requests := rfl
@[simp] theorem State.setReg_pins (r : Reg) (v : Word) : (s.setReg r v).pins = s.pins := rfl
@[simp] theorem State.setReg_chip (r : Reg) (v : Word) : (s.setReg r v).chip = s.chip := rfl
@[simp] theorem State.setReg_mem (r : Reg) (v : Word) : (s.setReg r v).mem = s.mem := rfl
@[simp] theorem State.setReg_stored (r : Reg) (v : Word) : (s.setReg r v).stored = s.stored := rfl
@[simp] theorem State.setReg_storedBefore (r : Reg) (v : Word) : (s.setReg r v).storedBefore = s.storedBefore := rfl
@[simp] theorem State.setReg_free (r : Reg) (v : Word) : (s.setReg r v).free = s.free := rfl

/-! ### `setRegN` -/

@[simp] theorem State.setRegN_pc (sz : Size) (r : Reg) (v : BitVec sz.bits) : (s.setRegN sz r v).pc = s.pc := rfl
@[simp] theorem State.setRegN_sr (sz : Size) (r : Reg) (v : BitVec sz.bits) : (s.setRegN sz r v).sr = s.sr := rfl
@[simp] theorem State.setRegN_cp (sz : Size) (r : Reg) (v : BitVec sz.bits) : (s.setRegN sz r v).cp = s.cp := rfl
@[simp] theorem State.setRegN_dp (sz : Size) (r : Reg) (v : BitVec sz.bits) : (s.setRegN sz r v).dp = s.dp := rfl
@[simp] theorem State.setRegN_ep (sz : Size) (r : Reg) (v : BitVec sz.bits) : (s.setRegN sz r v).ep = s.ep := rfl
@[simp] theorem State.setRegN_tp (sz : Size) (r : Reg) (v : BitVec sz.bits) : (s.setRegN sz r v).tp = s.tp := rfl
@[simp] theorem State.setRegN_br (sz : Size) (r : Reg) (v : BitVec sz.bits) : (s.setRegN sz r v).br = s.br := rfl
@[simp] theorem State.setRegN_mode (sz : Size) (r : Reg) (v : BitVec sz.bits) : (s.setRegN sz r v).mode = s.mode := rfl
@[simp] theorem State.setRegN_mds (sz : Size) (r : Reg) (v : BitVec sz.bits) : (s.setRegN sz r v).mds = s.mds := rfl
@[simp] theorem State.setRegN_proc (sz : Size) (r : Reg) (v : BitVec sz.bits) : (s.setRegN sz r v).proc = s.proc := rfl
@[simp] theorem State.setRegN_inhibitNext (sz : Size) (r : Reg) (v : BitVec sz.bits) : (s.setRegN sz r v).inhibitNext = s.inhibitNext := rfl
@[simp] theorem State.setRegN_addrErrPending (sz : Size) (r : Reg) (v : BitVec sz.bits) : (s.setRegN sz r v).addrErrPending = s.addrErrPending := rfl
@[simp] theorem State.setRegN_tracePending (sz : Size) (r : Reg) (v : BitVec sz.bits) : (s.setRegN sz r v).tracePending = s.tracePending := rfl
@[simp] theorem State.setRegN_busLock (sz : Size) (r : Reg) (v : BitVec sz.bits) : (s.setRegN sz r v).busLock = s.busLock := rfl
@[simp] theorem State.setRegN_requests (sz : Size) (r : Reg) (v : BitVec sz.bits) : (s.setRegN sz r v).requests = s.requests := rfl
@[simp] theorem State.setRegN_pins (sz : Size) (r : Reg) (v : BitVec sz.bits) : (s.setRegN sz r v).pins = s.pins := rfl
@[simp] theorem State.setRegN_chip (sz : Size) (r : Reg) (v : BitVec sz.bits) : (s.setRegN sz r v).chip = s.chip := rfl
@[simp] theorem State.setRegN_mem (sz : Size) (r : Reg) (v : BitVec sz.bits) : (s.setRegN sz r v).mem = s.mem := rfl
@[simp] theorem State.setRegN_stored (sz : Size) (r : Reg) (v : BitVec sz.bits) : (s.setRegN sz r v).stored = s.stored := rfl
@[simp] theorem State.setRegN_storedBefore (sz : Size) (r : Reg) (v : BitVec sz.bits) : (s.setRegN sz r v).storedBefore = s.storedBefore := rfl
@[simp] theorem State.setRegN_free (sz : Size) (r : Reg) (v : BitVec sz.bits) : (s.setRegN sz r v).free = s.free := rfl

/-! ### `setFlags` -/

@[simp] theorem State.setFlags_regs (f : Flags) : (s.setFlags f).regs = s.regs := rfl
@[simp] theorem State.setFlags_pc (f : Flags) : (s.setFlags f).pc = s.pc := rfl
@[simp] theorem State.setFlags_cp (f : Flags) : (s.setFlags f).cp = s.cp := rfl
@[simp] theorem State.setFlags_dp (f : Flags) : (s.setFlags f).dp = s.dp := rfl
@[simp] theorem State.setFlags_ep (f : Flags) : (s.setFlags f).ep = s.ep := rfl
@[simp] theorem State.setFlags_tp (f : Flags) : (s.setFlags f).tp = s.tp := rfl
@[simp] theorem State.setFlags_br (f : Flags) : (s.setFlags f).br = s.br := rfl
@[simp] theorem State.setFlags_mode (f : Flags) : (s.setFlags f).mode = s.mode := rfl
@[simp] theorem State.setFlags_mds (f : Flags) : (s.setFlags f).mds = s.mds := rfl
@[simp] theorem State.setFlags_proc (f : Flags) : (s.setFlags f).proc = s.proc := rfl
@[simp] theorem State.setFlags_inhibitNext (f : Flags) : (s.setFlags f).inhibitNext = s.inhibitNext := rfl
@[simp] theorem State.setFlags_addrErrPending (f : Flags) : (s.setFlags f).addrErrPending = s.addrErrPending := rfl
@[simp] theorem State.setFlags_tracePending (f : Flags) : (s.setFlags f).tracePending = s.tracePending := rfl
@[simp] theorem State.setFlags_busLock (f : Flags) : (s.setFlags f).busLock = s.busLock := rfl
@[simp] theorem State.setFlags_requests (f : Flags) : (s.setFlags f).requests = s.requests := rfl
@[simp] theorem State.setFlags_pins (f : Flags) : (s.setFlags f).pins = s.pins := rfl
@[simp] theorem State.setFlags_chip (f : Flags) : (s.setFlags f).chip = s.chip := rfl
@[simp] theorem State.setFlags_mem (f : Flags) : (s.setFlags f).mem = s.mem := rfl
@[simp] theorem State.setFlags_stored (f : Flags) : (s.setFlags f).stored = s.stored := rfl
@[simp] theorem State.setFlags_storedBefore (f : Flags) : (s.setFlags f).storedBefore = s.storedBefore := rfl
@[simp] theorem State.setFlags_free (f : Flags) : (s.setFlags f).free = s.free := rfl

/-! ### `writeSR` -/

@[simp] theorem State.writeSR_regs (v : Word) : (s.writeSR v).regs = s.regs := rfl
@[simp] theorem State.writeSR_pc (v : Word) : (s.writeSR v).pc = s.pc := rfl
@[simp] theorem State.writeSR_cp (v : Word) : (s.writeSR v).cp = s.cp := rfl
@[simp] theorem State.writeSR_dp (v : Word) : (s.writeSR v).dp = s.dp := rfl
@[simp] theorem State.writeSR_ep (v : Word) : (s.writeSR v).ep = s.ep := rfl
@[simp] theorem State.writeSR_tp (v : Word) : (s.writeSR v).tp = s.tp := rfl
@[simp] theorem State.writeSR_br (v : Word) : (s.writeSR v).br = s.br := rfl
@[simp] theorem State.writeSR_mode (v : Word) : (s.writeSR v).mode = s.mode := rfl
@[simp] theorem State.writeSR_mds (v : Word) : (s.writeSR v).mds = s.mds := rfl
@[simp] theorem State.writeSR_proc (v : Word) : (s.writeSR v).proc = s.proc := rfl
@[simp] theorem State.writeSR_inhibitNext (v : Word) : (s.writeSR v).inhibitNext = s.inhibitNext := rfl
@[simp] theorem State.writeSR_addrErrPending (v : Word) : (s.writeSR v).addrErrPending = s.addrErrPending := rfl
@[simp] theorem State.writeSR_tracePending (v : Word) : (s.writeSR v).tracePending = s.tracePending := rfl
@[simp] theorem State.writeSR_busLock (v : Word) : (s.writeSR v).busLock = s.busLock := rfl
@[simp] theorem State.writeSR_requests (v : Word) : (s.writeSR v).requests = s.requests := rfl
@[simp] theorem State.writeSR_pins (v : Word) : (s.writeSR v).pins = s.pins := rfl
@[simp] theorem State.writeSR_chip (v : Word) : (s.writeSR v).chip = s.chip := rfl
@[simp] theorem State.writeSR_mem (v : Word) : (s.writeSR v).mem = s.mem := rfl
@[simp] theorem State.writeSR_stored (v : Word) : (s.writeSR v).stored = s.stored := rfl
@[simp] theorem State.writeSR_storedBefore (v : Word) : (s.writeSR v).storedBefore = s.storedBefore := rfl
@[simp] theorem State.writeSR_free (v : Word) : (s.writeSR v).free = s.free := rfl

/-! ### `writeCCR` -/

@[simp] theorem State.writeCCR_regs (v : Byte) : (s.writeCCR v).regs = s.regs := rfl
@[simp] theorem State.writeCCR_pc (v : Byte) : (s.writeCCR v).pc = s.pc := rfl
@[simp] theorem State.writeCCR_cp (v : Byte) : (s.writeCCR v).cp = s.cp := rfl
@[simp] theorem State.writeCCR_dp (v : Byte) : (s.writeCCR v).dp = s.dp := rfl
@[simp] theorem State.writeCCR_ep (v : Byte) : (s.writeCCR v).ep = s.ep := rfl
@[simp] theorem State.writeCCR_tp (v : Byte) : (s.writeCCR v).tp = s.tp := rfl
@[simp] theorem State.writeCCR_br (v : Byte) : (s.writeCCR v).br = s.br := rfl
@[simp] theorem State.writeCCR_mode (v : Byte) : (s.writeCCR v).mode = s.mode := rfl
@[simp] theorem State.writeCCR_mds (v : Byte) : (s.writeCCR v).mds = s.mds := rfl
@[simp] theorem State.writeCCR_proc (v : Byte) : (s.writeCCR v).proc = s.proc := rfl
@[simp] theorem State.writeCCR_inhibitNext (v : Byte) : (s.writeCCR v).inhibitNext = s.inhibitNext := rfl
@[simp] theorem State.writeCCR_addrErrPending (v : Byte) : (s.writeCCR v).addrErrPending = s.addrErrPending := rfl
@[simp] theorem State.writeCCR_tracePending (v : Byte) : (s.writeCCR v).tracePending = s.tracePending := rfl
@[simp] theorem State.writeCCR_busLock (v : Byte) : (s.writeCCR v).busLock = s.busLock := rfl
@[simp] theorem State.writeCCR_requests (v : Byte) : (s.writeCCR v).requests = s.requests := rfl
@[simp] theorem State.writeCCR_pins (v : Byte) : (s.writeCCR v).pins = s.pins := rfl
@[simp] theorem State.writeCCR_chip (v : Byte) : (s.writeCCR v).chip = s.chip := rfl
@[simp] theorem State.writeCCR_mem (v : Byte) : (s.writeCCR v).mem = s.mem := rfl
@[simp] theorem State.writeCCR_stored (v : Byte) : (s.writeCCR v).stored = s.stored := rfl
@[simp] theorem State.writeCCR_storedBefore (v : Byte) : (s.writeCCR v).storedBefore = s.storedBefore := rfl
@[simp] theorem State.writeCCR_free (v : Byte) : (s.writeCCR v).free = s.free := rfl

/-! ### `clearT` -/

@[simp] theorem State.clearT_regs : (s.clearT).regs = s.regs := rfl
@[simp] theorem State.clearT_pc : (s.clearT).pc = s.pc := rfl
@[simp] theorem State.clearT_cp : (s.clearT).cp = s.cp := rfl
@[simp] theorem State.clearT_dp : (s.clearT).dp = s.dp := rfl
@[simp] theorem State.clearT_ep : (s.clearT).ep = s.ep := rfl
@[simp] theorem State.clearT_tp : (s.clearT).tp = s.tp := rfl
@[simp] theorem State.clearT_br : (s.clearT).br = s.br := rfl
@[simp] theorem State.clearT_mode : (s.clearT).mode = s.mode := rfl
@[simp] theorem State.clearT_mds : (s.clearT).mds = s.mds := rfl
@[simp] theorem State.clearT_proc : (s.clearT).proc = s.proc := rfl
@[simp] theorem State.clearT_inhibitNext : (s.clearT).inhibitNext = s.inhibitNext := rfl
@[simp] theorem State.clearT_addrErrPending : (s.clearT).addrErrPending = s.addrErrPending := rfl
@[simp] theorem State.clearT_tracePending : (s.clearT).tracePending = s.tracePending := rfl
@[simp] theorem State.clearT_busLock : (s.clearT).busLock = s.busLock := rfl
@[simp] theorem State.clearT_requests : (s.clearT).requests = s.requests := rfl
@[simp] theorem State.clearT_pins : (s.clearT).pins = s.pins := rfl
@[simp] theorem State.clearT_chip : (s.clearT).chip = s.chip := rfl
@[simp] theorem State.clearT_mem : (s.clearT).mem = s.mem := rfl
@[simp] theorem State.clearT_stored : (s.clearT).stored = s.stored := rfl
@[simp] theorem State.clearT_storedBefore : (s.clearT).storedBefore = s.storedBefore := rfl
@[simp] theorem State.clearT_free : (s.clearT).free = s.free := rfl

/-! ### `setMask` -/

@[simp] theorem State.setMask_regs (l : BitVec 3) : (s.setMask l).regs = s.regs := rfl
@[simp] theorem State.setMask_pc (l : BitVec 3) : (s.setMask l).pc = s.pc := rfl
@[simp] theorem State.setMask_cp (l : BitVec 3) : (s.setMask l).cp = s.cp := rfl
@[simp] theorem State.setMask_dp (l : BitVec 3) : (s.setMask l).dp = s.dp := rfl
@[simp] theorem State.setMask_ep (l : BitVec 3) : (s.setMask l).ep = s.ep := rfl
@[simp] theorem State.setMask_tp (l : BitVec 3) : (s.setMask l).tp = s.tp := rfl
@[simp] theorem State.setMask_br (l : BitVec 3) : (s.setMask l).br = s.br := rfl
@[simp] theorem State.setMask_mode (l : BitVec 3) : (s.setMask l).mode = s.mode := rfl
@[simp] theorem State.setMask_mds (l : BitVec 3) : (s.setMask l).mds = s.mds := rfl
@[simp] theorem State.setMask_proc (l : BitVec 3) : (s.setMask l).proc = s.proc := rfl
@[simp] theorem State.setMask_inhibitNext (l : BitVec 3) : (s.setMask l).inhibitNext = s.inhibitNext := rfl
@[simp] theorem State.setMask_addrErrPending (l : BitVec 3) : (s.setMask l).addrErrPending = s.addrErrPending := rfl
@[simp] theorem State.setMask_tracePending (l : BitVec 3) : (s.setMask l).tracePending = s.tracePending := rfl
@[simp] theorem State.setMask_busLock (l : BitVec 3) : (s.setMask l).busLock = s.busLock := rfl
@[simp] theorem State.setMask_requests (l : BitVec 3) : (s.setMask l).requests = s.requests := rfl
@[simp] theorem State.setMask_pins (l : BitVec 3) : (s.setMask l).pins = s.pins := rfl
@[simp] theorem State.setMask_chip (l : BitVec 3) : (s.setMask l).chip = s.chip := rfl
@[simp] theorem State.setMask_mem (l : BitVec 3) : (s.setMask l).mem = s.mem := rfl
@[simp] theorem State.setMask_stored (l : BitVec 3) : (s.setMask l).stored = s.stored := rfl
@[simp] theorem State.setMask_storedBefore (l : BitVec 3) : (s.setMask l).storedBefore = s.storedBefore := rfl
@[simp] theorem State.setMask_free (l : BitVec 3) : (s.setMask l).free = s.free := rfl

/-! ### `tick` -/

@[simp] theorem State.tick_regs : (s.tick).regs = s.regs := rfl
@[simp] theorem State.tick_pc : (s.tick).pc = s.pc := rfl
@[simp] theorem State.tick_sr : (s.tick).sr = s.sr := rfl
@[simp] theorem State.tick_cp : (s.tick).cp = s.cp := rfl
@[simp] theorem State.tick_dp : (s.tick).dp = s.dp := rfl
@[simp] theorem State.tick_ep : (s.tick).ep = s.ep := rfl
@[simp] theorem State.tick_tp : (s.tick).tp = s.tp := rfl
@[simp] theorem State.tick_br : (s.tick).br = s.br := rfl
@[simp] theorem State.tick_mode : (s.tick).mode = s.mode := rfl
@[simp] theorem State.tick_mds : (s.tick).mds = s.mds := rfl
@[simp] theorem State.tick_proc : (s.tick).proc = s.proc := rfl
@[simp] theorem State.tick_inhibitNext : (s.tick).inhibitNext = s.inhibitNext := rfl
@[simp] theorem State.tick_addrErrPending : (s.tick).addrErrPending = s.addrErrPending := rfl
@[simp] theorem State.tick_tracePending : (s.tick).tracePending = s.tracePending := rfl
@[simp] theorem State.tick_busLock : (s.tick).busLock = s.busLock := rfl
@[simp] theorem State.tick_requests : (s.tick).requests = s.requests := rfl
@[simp] theorem State.tick_pins : (s.tick).pins = s.pins := rfl
@[simp] theorem State.tick_chip : (s.tick).chip = s.chip := rfl
@[simp] theorem State.tick_mem : (s.tick).mem = s.mem := rfl
@[simp] theorem State.tick_stored : (s.tick).stored = s.stored := rfl
@[simp] theorem State.tick_storedBefore : (s.tick).storedBefore = s.storedBefore := rfl

/-! ### `markAddrErr` -/

@[simp] theorem State.markAddrErr_regs : (s.markAddrErr).regs = s.regs := rfl
@[simp] theorem State.markAddrErr_pc : (s.markAddrErr).pc = s.pc := rfl
@[simp] theorem State.markAddrErr_sr : (s.markAddrErr).sr = s.sr := rfl
@[simp] theorem State.markAddrErr_cp : (s.markAddrErr).cp = s.cp := rfl
@[simp] theorem State.markAddrErr_dp : (s.markAddrErr).dp = s.dp := rfl
@[simp] theorem State.markAddrErr_ep : (s.markAddrErr).ep = s.ep := rfl
@[simp] theorem State.markAddrErr_tp : (s.markAddrErr).tp = s.tp := rfl
@[simp] theorem State.markAddrErr_br : (s.markAddrErr).br = s.br := rfl
@[simp] theorem State.markAddrErr_mode : (s.markAddrErr).mode = s.mode := rfl
@[simp] theorem State.markAddrErr_mds : (s.markAddrErr).mds = s.mds := rfl
@[simp] theorem State.markAddrErr_proc : (s.markAddrErr).proc = s.proc := rfl
@[simp] theorem State.markAddrErr_inhibitNext : (s.markAddrErr).inhibitNext = s.inhibitNext := rfl
@[simp] theorem State.markAddrErr_tracePending : (s.markAddrErr).tracePending = s.tracePending := rfl
@[simp] theorem State.markAddrErr_busLock : (s.markAddrErr).busLock = s.busLock := rfl
@[simp] theorem State.markAddrErr_requests : (s.markAddrErr).requests = s.requests := rfl
@[simp] theorem State.markAddrErr_pins : (s.markAddrErr).pins = s.pins := rfl
@[simp] theorem State.markAddrErr_chip : (s.markAddrErr).chip = s.chip := rfl
@[simp] theorem State.markAddrErr_mem : (s.markAddrErr).mem = s.mem := rfl
@[simp] theorem State.markAddrErr_stored : (s.markAddrErr).stored = s.stored := rfl
@[simp] theorem State.markAddrErr_storedBefore : (s.markAddrErr).storedBefore = s.storedBefore := rfl
@[simp] theorem State.markAddrErr_free : (s.markAddrErr).free = s.free := rfl

/-! ### `jump` -/

@[simp] theorem State.jump_regs (a : Word) : (s.jump a).regs = s.regs := rfl
@[simp] theorem State.jump_sr (a : Word) : (s.jump a).sr = s.sr := rfl
@[simp] theorem State.jump_cp (a : Word) : (s.jump a).cp = s.cp := rfl
@[simp] theorem State.jump_dp (a : Word) : (s.jump a).dp = s.dp := rfl
@[simp] theorem State.jump_ep (a : Word) : (s.jump a).ep = s.ep := rfl
@[simp] theorem State.jump_tp (a : Word) : (s.jump a).tp = s.tp := rfl
@[simp] theorem State.jump_br (a : Word) : (s.jump a).br = s.br := rfl
@[simp] theorem State.jump_mode (a : Word) : (s.jump a).mode = s.mode := rfl
@[simp] theorem State.jump_mds (a : Word) : (s.jump a).mds = s.mds := rfl
@[simp] theorem State.jump_proc (a : Word) : (s.jump a).proc = s.proc := rfl
@[simp] theorem State.jump_inhibitNext (a : Word) : (s.jump a).inhibitNext = s.inhibitNext := rfl
@[simp] theorem State.jump_addrErrPending (a : Word) : (s.jump a).addrErrPending = s.addrErrPending := rfl
@[simp] theorem State.jump_tracePending (a : Word) : (s.jump a).tracePending = s.tracePending := rfl
@[simp] theorem State.jump_busLock (a : Word) : (s.jump a).busLock = s.busLock := rfl
@[simp] theorem State.jump_requests (a : Word) : (s.jump a).requests = s.requests := rfl
@[simp] theorem State.jump_pins (a : Word) : (s.jump a).pins = s.pins := rfl
@[simp] theorem State.jump_chip (a : Word) : (s.jump a).chip = s.chip := rfl
@[simp] theorem State.jump_mem (a : Word) : (s.jump a).mem = s.mem := rfl
@[simp] theorem State.jump_stored (a : Word) : (s.jump a).stored = s.stored := rfl
@[simp] theorem State.jump_storedBefore (a : Word) : (s.jump a).storedBefore = s.storedBefore := rfl
@[simp] theorem State.jump_free (a : Word) : (s.jump a).free = s.free := rfl

/-! ### `pageJump` -/

@[simp] theorem State.pageJump_regs (p : Byte) (a : Word) : (s.pageJump p a).regs = s.regs := rfl
@[simp] theorem State.pageJump_sr (p : Byte) (a : Word) : (s.pageJump p a).sr = s.sr := rfl
@[simp] theorem State.pageJump_dp (p : Byte) (a : Word) : (s.pageJump p a).dp = s.dp := rfl
@[simp] theorem State.pageJump_ep (p : Byte) (a : Word) : (s.pageJump p a).ep = s.ep := rfl
@[simp] theorem State.pageJump_tp (p : Byte) (a : Word) : (s.pageJump p a).tp = s.tp := rfl
@[simp] theorem State.pageJump_br (p : Byte) (a : Word) : (s.pageJump p a).br = s.br := rfl
@[simp] theorem State.pageJump_mode (p : Byte) (a : Word) : (s.pageJump p a).mode = s.mode := rfl
@[simp] theorem State.pageJump_mds (p : Byte) (a : Word) : (s.pageJump p a).mds = s.mds := rfl
@[simp] theorem State.pageJump_proc (p : Byte) (a : Word) : (s.pageJump p a).proc = s.proc := rfl
@[simp] theorem State.pageJump_inhibitNext (p : Byte) (a : Word) : (s.pageJump p a).inhibitNext = s.inhibitNext := rfl
@[simp] theorem State.pageJump_addrErrPending (p : Byte) (a : Word) : (s.pageJump p a).addrErrPending = s.addrErrPending := rfl
@[simp] theorem State.pageJump_tracePending (p : Byte) (a : Word) : (s.pageJump p a).tracePending = s.tracePending := rfl
@[simp] theorem State.pageJump_busLock (p : Byte) (a : Word) : (s.pageJump p a).busLock = s.busLock := rfl
@[simp] theorem State.pageJump_requests (p : Byte) (a : Word) : (s.pageJump p a).requests = s.requests := rfl
@[simp] theorem State.pageJump_pins (p : Byte) (a : Word) : (s.pageJump p a).pins = s.pins := rfl
@[simp] theorem State.pageJump_chip (p : Byte) (a : Word) : (s.pageJump p a).chip = s.chip := rfl
@[simp] theorem State.pageJump_mem (p : Byte) (a : Word) : (s.pageJump p a).mem = s.mem := rfl
@[simp] theorem State.pageJump_stored (p : Byte) (a : Word) : (s.pageJump p a).stored = s.stored := rfl
@[simp] theorem State.pageJump_storedBefore (p : Byte) (a : Word) : (s.pageJump p a).storedBefore = s.storedBefore := rfl
@[simp] theorem State.pageJump_free (p : Byte) (a : Word) : (s.pageJump p a).free = s.free := rfl

/-! ### `inhibit` -/

@[simp] theorem State.inhibit_regs : (s.inhibit).regs = s.regs := rfl
@[simp] theorem State.inhibit_pc : (s.inhibit).pc = s.pc := rfl
@[simp] theorem State.inhibit_sr : (s.inhibit).sr = s.sr := rfl
@[simp] theorem State.inhibit_cp : (s.inhibit).cp = s.cp := rfl
@[simp] theorem State.inhibit_dp : (s.inhibit).dp = s.dp := rfl
@[simp] theorem State.inhibit_ep : (s.inhibit).ep = s.ep := rfl
@[simp] theorem State.inhibit_tp : (s.inhibit).tp = s.tp := rfl
@[simp] theorem State.inhibit_br : (s.inhibit).br = s.br := rfl
@[simp] theorem State.inhibit_mode : (s.inhibit).mode = s.mode := rfl
@[simp] theorem State.inhibit_mds : (s.inhibit).mds = s.mds := rfl
@[simp] theorem State.inhibit_proc : (s.inhibit).proc = s.proc := rfl
@[simp] theorem State.inhibit_addrErrPending : (s.inhibit).addrErrPending = s.addrErrPending := rfl
@[simp] theorem State.inhibit_tracePending : (s.inhibit).tracePending = s.tracePending := rfl
@[simp] theorem State.inhibit_busLock : (s.inhibit).busLock = s.busLock := rfl
@[simp] theorem State.inhibit_requests : (s.inhibit).requests = s.requests := rfl
@[simp] theorem State.inhibit_pins : (s.inhibit).pins = s.pins := rfl
@[simp] theorem State.inhibit_chip : (s.inhibit).chip = s.chip := rfl
@[simp] theorem State.inhibit_mem : (s.inhibit).mem = s.mem := rfl
@[simp] theorem State.inhibit_stored : (s.inhibit).stored = s.stored := rfl
@[simp] theorem State.inhibit_storedBefore : (s.inhibit).storedBefore = s.storedBefore := rfl
@[simp] theorem State.inhibit_free : (s.inhibit).free = s.free := rfl

/-! ### `enterDoubleFault` -/

@[simp] theorem State.enterDoubleFault_regs : (s.enterDoubleFault).regs = s.regs := rfl
@[simp] theorem State.enterDoubleFault_pc : (s.enterDoubleFault).pc = s.pc := rfl
@[simp] theorem State.enterDoubleFault_sr : (s.enterDoubleFault).sr = s.sr := rfl
@[simp] theorem State.enterDoubleFault_cp : (s.enterDoubleFault).cp = s.cp := rfl
@[simp] theorem State.enterDoubleFault_dp : (s.enterDoubleFault).dp = s.dp := rfl
@[simp] theorem State.enterDoubleFault_ep : (s.enterDoubleFault).ep = s.ep := rfl
@[simp] theorem State.enterDoubleFault_tp : (s.enterDoubleFault).tp = s.tp := rfl
@[simp] theorem State.enterDoubleFault_br : (s.enterDoubleFault).br = s.br := rfl
@[simp] theorem State.enterDoubleFault_mode : (s.enterDoubleFault).mode = s.mode := rfl
@[simp] theorem State.enterDoubleFault_mds : (s.enterDoubleFault).mds = s.mds := rfl
@[simp] theorem State.enterDoubleFault_busLock : (s.enterDoubleFault).busLock = s.busLock := rfl
@[simp] theorem State.enterDoubleFault_requests : (s.enterDoubleFault).requests = s.requests := rfl
@[simp] theorem State.enterDoubleFault_pins : (s.enterDoubleFault).pins = s.pins := rfl
@[simp] theorem State.enterDoubleFault_chip : (s.enterDoubleFault).chip = s.chip := rfl
@[simp] theorem State.enterDoubleFault_mem : (s.enterDoubleFault).mem = s.mem := rfl
@[simp] theorem State.enterDoubleFault_stored : (s.enterDoubleFault).stored = s.stored := rfl
@[simp] theorem State.enterDoubleFault_storedBefore : (s.enterDoubleFault).storedBefore = s.storedBefore := rfl
@[simp] theorem State.enterDoubleFault_free : (s.enterDoubleFault).free = s.free := rfl

/-! ### The fields that change -/

@[simp] theorem State.tick_free : s.tick.free = s.free + 1 := rfl
@[simp] theorem State.markAddrErr_addrErrPending : s.markAddrErr.addrErrPending = true := rfl
@[simp] theorem State.jump_pc (a : Word) : (s.jump a).pc = a := rfl
@[simp] theorem State.pageJump_pc (p : Byte) (a : Word) : (s.pageJump p a).pc = a := rfl
@[simp] theorem State.pageJump_cp (p : Byte) (a : Word) : (s.pageJump p a).cp = p := rfl
@[simp] theorem State.inhibit_inhibitNext : s.inhibit.inhibitNext = true := rfl
@[simp] theorem State.setFlags_sr (f : Flags) : (s.setFlags f).sr = s.sr.extractLsb' 4 12 ++ f.nibble := rfl
@[simp] theorem State.writeSR_sr (v : Word) : (s.writeSR v).sr = v &&& srBits := rfl
@[simp] theorem State.writeCCR_sr (v : Byte) : (s.writeCCR v).sr = s.sr.extractLsb' 8 8 ++ (v &&& 0x0F) := rfl
@[simp] theorem State.clearT_sr : s.clearT.sr = s.sr &&& 0x7FFF := rfl
@[simp] theorem State.setMask_sr (l : BitVec 3) :
    (s.setMask l).sr = s.sr.extractLsb' 11 5 ++ l ++ s.sr.extractLsb' 0 8 := rfl
@[simp] theorem State.enterDoubleFault_proc : s.enterDoubleFault.proc = .doubleFault := rfl
@[simp] theorem State.enterDoubleFault_addrErrPending : s.enterDoubleFault.addrErrPending = false := rfl
@[simp] theorem State.enterDoubleFault_tracePending : s.enterDoubleFault.tracePending = false := rfl
@[simp] theorem State.enterDoubleFault_inhibitNext : s.enterDoubleFault.inhibitNext = false := rfl

/-! ### General registers -/

/-- Reading a register after writing one (R20). -/
theorem Regs.get_set (g : Regs) (r q : Reg) (v : Word) : (g.set r v).get q = if q = r then v else g.get q := by
  cases r <;> cases q <;> rfl

theorem State.reg_setReg (r q : Reg) (v : Word) : (s.setReg r v).reg q = if q = r then v else s.reg q :=
  Regs.get_set s.regs r q v

@[simp] theorem State.reg_setReg_self (r : Reg) (v : Word) : (s.setReg r v).reg r = v := by
  simp [State.reg_setReg]

theorem State.reg_setReg_ne {r q : Reg} (h : q ≠ r) (v : Word) : (s.setReg r v).reg q = s.reg q := by
  simp [State.reg_setReg, h]

/-- A register is read from the register file alone. -/
theorem State.reg_congr {s t : State} (h : t.regs = s.regs) (q : Reg) : t.reg q = s.reg q := by
  simp [State.reg, h]

@[simp] theorem State.reg_setFlags (f : Flags) (q : Reg) : (s.setFlags f).reg q = s.reg q := rfl
@[simp] theorem State.reg_writeSR (v : Word) (q : Reg) : (s.writeSR v).reg q = s.reg q := rfl
@[simp] theorem State.reg_writeCCR (v : Byte) (q : Reg) : (s.writeCCR v).reg q = s.reg q := rfl
@[simp] theorem State.reg_clearT (q : Reg) : s.clearT.reg q = s.reg q := rfl
@[simp] theorem State.reg_setMask (l : BitVec 3) (q : Reg) : (s.setMask l).reg q = s.reg q := rfl
@[simp] theorem State.reg_tick (q : Reg) : s.tick.reg q = s.reg q := rfl
@[simp] theorem State.reg_markAddrErr (q : Reg) : s.markAddrErr.reg q = s.reg q := rfl
@[simp] theorem State.reg_jump (a : Word) (q : Reg) : (s.jump a).reg q = s.reg q := rfl
@[simp] theorem State.reg_pageJump (p : Byte) (a : Word) (q : Reg) : (s.pageJump p a).reg q = s.reg q := rfl
@[simp] theorem State.reg_inhibit (q : Reg) : s.inhibit.reg q = s.reg q := rfl

/-- Reading a register after a write of the operand size (R23). -/
theorem State.reg_setRegN (sz : Size) (r q : Reg) (v : BitVec sz.bits) :
    (s.setRegN sz r v).reg q = if q = r then mergeReg sz (s.reg r) v else s.reg q :=
  State.reg_setReg s r q _

end Sys2Proof.Machine
end

