-- ==== Sys2Proof/Laws/Flags.lean ====
section
/-! SUPPORT. SR as its fields: T, the mask, the flags and the reserved bits after each write of SR. -/

namespace Sys2Proof.Machine

/-- Two words with the same sixteen bits are equal. -/
theorem word_ext {x y : Word} (h : ∀ i < 16, x.getLsbD i = y.getLsbD i) : x = y := by
  apply BitVec.eq_of_getLsbD_eq
  simpa using h

theorem Flags.nibble_getLsbD (f : Flags) (i : Nat) :
    f.nibble.getLsbD i = (if i = 0 then f.c else if i = 1 then f.v else if i = 2 then f.z else if i = 3 then f.n
      else false) := by
  obtain ⟨n, z, v, c⟩ := f
  match i with
  | 0 => revert n z v c; decide
  | 1 => revert n z v c; decide
  | 2 => revert n z v c; decide
  | 3 => revert n z v c; decide
  | k + 4 =>
    rw [BitVec.getLsbD_of_ge _ _ (by omega)]
    simp

/-- The flags are read from SR alone. -/
theorem State.flags_congr {s t : State} (h : t.sr = s.sr) : t.flags = s.flags := by
  simp [State.flags, h]

/-- The bits of SR after the flags are written. -/
theorem State.setFlags_getLsbD (s : State) (f : Flags) (i : Nat) :
    (s.setFlags f).sr.getLsbD i = if i < 4 then f.nibble.getLsbD i else s.sr.getLsbD i := by
  simp only [State.setFlags, BitVec.getLsbD_append, BitVec.getLsbD_extractLsb']
  by_cases h : i < 4
  · simp [h]
  · by_cases h2 : i < 16
    · simp [h, show i - 4 < 12 by omega, show 4 + (i - 4) = i by omega]
    · simp [h, show ¬ i - 4 < 12 by omega, BitVec.getLsbD_of_ge _ i (show 16 ≤ i by omega)]

@[simp] theorem State.flags_setFlags (s : State) (f : Flags) : (s.setFlags f).flags = f := by
  simp only [State.flags, State.setFlags_getLsbD, Flags.nibble_getLsbD]
  rfl

@[simp] theorem State.flagT_setFlags (s : State) (f : Flags) : (s.setFlags f).flagT = s.flagT := by
  simp only [State.flagT, State.setFlags_getLsbD]
  rfl

/-- The bits of SR above the flags. -/
theorem State.upper_setFlags (s : State) (f : Flags) :
    (s.setFlags f).sr.extractLsb' 4 12 = s.sr.extractLsb' 4 12 := by
  apply BitVec.eq_of_getLsbD_eq
  intro i hi
  simp [-State.setFlags_sr, State.setFlags_getLsbD, hi]

/-- SR is its upper twelve bits and its flags. -/
theorem State.sr_split (s : State) : s.sr.extractLsb' 4 12 ++ s.flags.nibble = s.sr := by
  apply word_ext
  intro i hi
  simp only [BitVec.getLsbD_append, Flags.nibble_getLsbD, State.flags, BitVec.getLsbD_extractLsb']
  by_cases h : i < 4
  · match i, h with
    | 0, _ => rfl
    | 1, _ => rfl
    | 2, _ => rfl
    | 3, _ => rfl
  · simp [h, show i - 4 < 12 by omega, show 4 + (i - 4) = i by omega]

/-- Writing the flags a state has changes nothing. -/
@[simp] theorem State.setFlags_flags (s : State) : s.setFlags s.flags = s := by
  simp [State.setFlags, State.sr_split]

@[simp] theorem State.setFlags_setFlags (s : State) (f g : Flags) : (s.setFlags f).setFlags g = s.setFlags g := by
  have h := State.upper_setFlags s f
  simp only [State.setFlags] at h ⊢
  rw [h]

/-- The mask is a field of the upper bits. -/
theorem State.mask_eq (s : State) : s.mask = (s.sr.extractLsb' 4 12).extractLsb' 4 3 := by
  apply BitVec.eq_of_getLsbD_eq
  intro i hi
  simp [State.mask, hi, show 4 + i < 12 by omega, show 4 + (4 + i) = 8 + i by omega]

@[simp] theorem State.mask_setFlags (s : State) (f : Flags) : (s.setFlags f).mask = s.mask := by
  rw [State.mask_eq, State.mask_eq, State.upper_setFlags]

/-- The reserved bits, named one by one. -/
theorem reserved_getLsbD (x : Word) (i : Nat) :
    (x &&& 0x78F0).getLsbD i = (x.getLsbD i && (decide (4 ≤ i) && decide (i < 8) || decide (11 ≤ i) && decide (i < 15))) := by
  by_cases h : i < 16
  · rw [BitVec.getLsbD_and]
    congr 1
    revert i
    decide
  · simp [BitVec.getLsbD_of_ge _ i (show 16 ≤ i by omega)]

@[simp] theorem State.reserved_setFlags (s : State) (f : Flags) : (s.setFlags f).sr &&& 0x78F0 = s.sr &&& 0x78F0 := by
  apply word_ext
  intro i hi
  rw [reserved_getLsbD, reserved_getLsbD, State.setFlags_getLsbD]
  by_cases h : i < 4
  · simp [show ¬ 4 ≤ i by omega, show ¬ 11 ≤ i by omega]
  · simp [h]

@[simp] theorem State.reserved_writeSR (s : State) (v : Word) : (s.writeSR v).sr &&& 0x78F0 = 0 := by
  simp only [State.writeSR, srBits, BitVec.and_assoc]
  simp

theorem State.writeCCR_getLsbD (s : State) (v : Byte) (i : Nat) :
    (s.writeCCR v).sr.getLsbD i = if i < 8 then (v &&& 0x0F).getLsbD i else s.sr.getLsbD i := by
  refine (BitVec.getLsbD_append (x := s.sr.extractLsb' 8 8) (y := v &&& 0x0F) (i := i)).trans ?_
  rw [BitVec.getLsbD_extractLsb']
  by_cases h8 : i < 8
  · simp only [h8, if_true]
  · by_cases h16 : i < 16
    · simp [h8, show i - 8 < 8 by omega, show 8 + (i - 8) = i by omega]
    · simp [h8, show ¬ i - 8 < 8 by omega, BitVec.getLsbD_of_ge _ i (show 16 ≤ i by omega)]

/-- The bits of a byte that CCR keeps. -/
theorem ccr_getLsbD (v : Byte) (i : Nat) : (v &&& 0x0F).getLsbD i = (v.getLsbD i && decide (i < 4)) := by
  by_cases h : i < 8
  · rw [BitVec.getLsbD_and]
    congr 1
    revert i
    decide
  · simp [BitVec.getLsbD_of_ge _ i (show 8 ≤ i by omega)]

theorem State.reserved_writeCCR (s : State) (v : Byte) (h : s.sr &&& 0x78F0 = 0) :
    (s.writeCCR v).sr &&& 0x78F0 = 0 := by
  apply word_ext
  intro i hi
  have hb := congrArg (fun x => BitVec.getLsbD x i) h
  simp only [reserved_getLsbD] at hb
  rw [reserved_getLsbD, State.writeCCR_getLsbD]
  by_cases h8 : i < 8
  · rw [if_pos h8, ccr_getLsbD]
    by_cases h4 : i < 4
    · simp [show ¬ 4 ≤ i by omega, show ¬ 11 ≤ i by omega]
    · simp [h4]
  · rw [if_neg h8]
    exact hb

/-! ### T, mask and flags after `clearT` and `setMask` -/

theorem State.clearT_getLsbD (s : State) (i : Nat) :
    s.clearT.sr.getLsbD i = (s.sr.getLsbD i && decide (i < 15)) := by
  by_cases h : i < 16
  · simp only [State.clearT, BitVec.getLsbD_and]
    congr 1
    revert i
    decide
  · simp [BitVec.getLsbD_of_ge _ i (show 16 ≤ i by omega)]

theorem State.setMask_getLsbD (s : State) (l : BitVec 3) (i : Nat) :
    (s.setMask l).sr.getLsbD i = if 8 ≤ i ∧ i < 11 then l.getLsbD (i - 8) else s.sr.getLsbD i := by
  simp only [State.setMask, BitVec.getLsbD_append, BitVec.getLsbD_extractLsb']
  by_cases h8 : i < 8
  · simp [h8]
  · by_cases h11 : i < 11
    · simp [h8, show i - 8 < 3 by omega, show 8 ≤ i by omega, h11]
    · by_cases h16 : i < 16
      · simp [h8, h11, show ¬ i - 8 < 3 by omega, show i - 8 - 3 < 5 by omega, show 11 + (i - 8 - 3) = i by omega]
      · simp [h8, h11, show ¬ i - 8 < 3 by omega, show ¬ i - 8 - 3 < 5 by omega,
          BitVec.getLsbD_of_ge _ i (show 16 ≤ i by omega)]

@[simp] theorem State.flagT_clearT (s : State) : s.clearT.flagT = false := by
  simp only [State.flagT, State.clearT_getLsbD]
  simp

@[simp] theorem State.flags_clearT (s : State) : s.clearT.flags = s.flags := by
  simp only [State.flags, State.clearT_getLsbD]
  simp

@[simp] theorem State.mask_clearT (s : State) : s.clearT.mask = s.mask := by
  apply BitVec.eq_of_getLsbD_eq
  intro i hi
  simp [State.mask, -State.clearT_sr, State.clearT_getLsbD, hi, show 8 + i < 15 by omega]

@[simp] theorem State.reserved_clearT (s : State) : s.clearT.sr &&& 0x78F0 = s.sr &&& 0x78F0 := by
  apply word_ext
  intro i hi
  rw [reserved_getLsbD, reserved_getLsbD, State.clearT_getLsbD]
  by_cases h : i < 15
  · simp [h]
  · simp [h, show ¬ i < 8 by omega]

@[simp] theorem State.flagT_setMask (s : State) (l : BitVec 3) : (s.setMask l).flagT = s.flagT := by
  simp only [State.flagT, State.setMask_getLsbD]
  rfl

@[simp] theorem State.flags_setMask (s : State) (l : BitVec 3) : (s.setMask l).flags = s.flags := by
  simp only [State.flags, State.setMask_getLsbD]
  rfl

@[simp] theorem State.mask_setMask (s : State) (l : BitVec 3) : (s.setMask l).mask = l := by
  apply BitVec.eq_of_getLsbD_eq
  intro i hi
  simp [State.mask, -State.setMask_sr, State.setMask_getLsbD, hi, show 8 + i < 11 by omega]

@[simp] theorem State.reserved_setMask (s : State) (l : BitVec 3) : (s.setMask l).sr &&& 0x78F0 = s.sr &&& 0x78F0 := by
  apply word_ext
  intro i hi
  rw [reserved_getLsbD, reserved_getLsbD, State.setMask_getLsbD]
  by_cases h : 8 ≤ i ∧ i < 11
  · simp [h, show ¬ i < 8 by omega, show ¬ 11 ≤ i by omega]
  · simp [h]

end Sys2Proof.Machine
end

