-- ==== Sys2Proof/Laws/Memory.lean ====
section
/-! SUPPORT. Memory: a read after a write, and the canonical form is kept. -/

namespace Sys2Proof.Machine

/-- A canonical form from a higher address on is one from a lower address on. -/
theorem Memory.wfFrom_mono {u : List PowerLoss} {m : List Host.Cell} {lo lo' : Nat} (h : lo' ≤ lo) (hw : Memory.wfFrom u lo m = true) :
    Memory.wfFrom u lo' m = true := by
  cases m with
  | nil => rfl
  | cons p t =>
    simp only [Memory.wfFrom, Bool.and_eq_true, decide_eq_true_eq] at hw ⊢
    exact ⟨⟨⟨by omega, hw.1.1.2⟩, hw.1.2⟩, hw.2⟩

/-- An address below the canonical form's first is not listed. -/
theorem Memory.readCells_below {u : List PowerLoss} {m : List Host.Cell} {lo a : Nat} (hw : Memory.wfFrom u lo m = true) (h : a < lo) :
    Memory.readCells u m a = Memory.unlisted u a := by
  induction m generalizing lo with
  | nil => rfl
  | cons p t ih =>
    simp only [Memory.wfFrom, Bool.and_eq_true, decide_eq_true_eq] at hw
    have hk : lo ≤ p.1 := hw.1.1.1
    simp only [Memory.readCells, if_neg (show p.1 ≠ a by omega)]
    exact ih hw.2 (by omega)

/-- A write keeps the canonical form. -/
theorem Memory.wfFrom_write {u : List PowerLoss} {m : List Host.Cell} {lo a : Nat} (v : Byte) (hw : Memory.wfFrom u lo m = true) (hlo : lo ≤ a)
    (ha : a < 2 ^ 24) : Memory.wfFrom u lo (Memory.writeCells u m a v) = true := by
  induction m generalizing lo with
  | nil =>
    by_cases hv : v = Memory.unlisted u a
    · simp [Memory.writeCells, hv, Memory.wfFrom]
    · simp [Memory.writeCells, hv, Memory.wfFrom, hlo, show a < 16777216 from ha]
  | cons p t ih =>
    have hc := hw
    simp only [Memory.wfFrom, Bool.and_eq_true, decide_eq_true_eq] at hw
    obtain ⟨⟨⟨h1, h2⟩, h3⟩, h4⟩ := hw
    by_cases hv : v = Memory.unlisted u a
    · simp only [Memory.writeCells, hv, if_true]
      split
      · exact hc
      · split
        · exact Memory.wfFrom_mono (by omega) h4
        · have := ih h4 (show p.1 + 1 ≤ a by omega)
          rw [hv] at this
          simp [Memory.wfFrom, h1, show p.1 < 16777216 from h2, h3, this]
    · simp only [Memory.writeCells, hv, if_false]
      split
      · simp [Memory.wfFrom, hlo, hv, h3, h4]
        omega
      · split
        · subst a
          simp [Memory.wfFrom, h1, show p.1 < 16777216 from h2, hv, h4]
        · simp [Memory.wfFrom, h1, show p.1 < 16777216 from h2, h3, ih h4 (show p.1 + 1 ≤ a by omega)]

/-- A read after a write, from a canonical form on. -/
theorem Memory.readCells_write {u : List PowerLoss} {m : List Host.Cell} {lo : Nat}
    (hw : Memory.wfFrom u lo m = true) (a b : Nat) (v : Byte) :
    Memory.readCells u (Memory.writeCells u m a v) b = if b = a then v else Memory.readCells u m b := by
  induction m generalizing lo with
  | nil =>
    by_cases hv : v = Memory.unlisted u a
    · simp only [Memory.writeCells, hv, if_true, Memory.readCells]
      split <;> simp [*]
    · by_cases hb : b = a
      · simp [Memory.writeCells, hv, Memory.readCells, hb]
      · simp [Memory.writeCells, hv, Memory.readCells, hb, Ne.symm hb]
  | cons p t ih =>
    simp only [Memory.wfFrom, Bool.and_eq_true, decide_eq_true_eq] at hw
    obtain ⟨⟨⟨h1, h2⟩, h3⟩, h4⟩ := hw
    obtain ⟨k, c⟩ := p
    simp only at h1 h2 h3 h4
    by_cases hlt : a < k
    · have hbelow : Memory.readCells u ((k, c) :: t) a = Memory.unlisted u a :=
        Memory.readCells_below (lo := k) (by simp [Memory.wfFrom, show k < 16777216 from h2, h3, h4]) hlt
      by_cases hv : v = Memory.unlisted u a
      · simp only [Memory.writeCells, if_pos hlt, if_pos hv]
        by_cases hb : b = a
        · subst hb
          simp [hbelow, hv]
        · simp [hb]
      · simp only [Memory.writeCells, if_pos hlt, if_neg hv]
        by_cases hb : b = a
        · simp [Memory.readCells, hb]
        · simp [Memory.readCells, hb, Ne.symm hb]
    · by_cases heq : a = k
      · subst heq
        have hbelow : Memory.readCells u t a = Memory.unlisted u a := Memory.readCells_below h4 (by omega)
        by_cases hv : v = Memory.unlisted u a
        · simp only [Memory.writeCells, if_neg hlt, if_true, if_pos hv]
          by_cases hb : b = a
          · subst hb
            simp [hbelow, hv]
          · simp [Memory.readCells, hb, Ne.symm hb]
        · simp only [Memory.writeCells, if_neg hlt, if_true, if_neg hv]
          by_cases hb : b = a
          · simp [Memory.readCells, hb]
          · simp [Memory.readCells, hb, Ne.symm hb]
      · simp only [Memory.writeCells, if_neg hlt, if_neg heq, Memory.readCells]
        by_cases hk : k = b
        · subst hk
          simp [Ne.symm heq]
        · simp [hk, ih h4]

/-- The other bytes are as they were, whether or not the memory is canonical. -/
theorem Memory.readCells_write_ne (u : List PowerLoss) (m : List Host.Cell) {a b : Nat} (v : Byte) (h : b ≠ a) :
    Memory.readCells u (Memory.writeCells u m a v) b = Memory.readCells u m b := by
  induction m with
  | nil =>
    by_cases hv : v = Memory.unlisted u a
    · simp [Memory.writeCells, hv]
    · simp [Memory.writeCells, hv, Memory.readCells, Ne.symm h]
  | cons p t ih =>
    obtain ⟨k, c⟩ := p
    simp only [Memory.writeCells]
    split
    · split
      · rfl
      · simp [Memory.readCells, Ne.symm h]
    · split
      · next heq =>
        subst heq
        split
        · simp [Memory.readCells, Ne.symm h]
        · simp [Memory.readCells, Ne.symm h]
      · simp [Memory.readCells, ih]

/-! ### Memory -/

/-- The empty memory is canonical. -/
theorem Memory.wf_nil : Memory.wf ⟨[], []⟩ = true := rfl

@[simp] theorem Memory.write_lost (m : Memory) (a : Nat) (v : Byte) : (Memory.write m a v).lost = m.lost := rfl

/-- A write inside the address space keeps the canonical form. -/
theorem Memory.wf_write {m : Memory} {a : Nat} (v : Byte) (hw : m.wf = true) (ha : a < 2 ^ 24) :
    (Memory.write m a v).wf = true :=
  Memory.wfFrom_write v hw (Nat.zero_le a) ha

/-- A read after a write: the byte written at its address, every other byte as it was (R60). -/
theorem Memory.read_write {m : Memory} (hw : m.wf = true) (a b : Nat) (v : Byte) :
    Memory.read (Memory.write m a v) b = if b = a then v else Memory.read m b :=
  Memory.readCells_write hw a b v

/-- The other bytes are as they were, whether or not the memory is canonical. -/
theorem Memory.read_write_ne (m : Memory) {a b : Nat} (v : Byte) (h : b ≠ a) :
    Memory.read (Memory.write m a v) b = Memory.read m b :=
  Memory.readCells_write_ne m.lost m.cells v h

/-! ### Hardware standby (R426) -/

/-- An address that the standby holds reads, unlisted, as before it. -/
theorem Memory.unlisted_losePower {map : List Region} {a : Nat} (lost : List PowerLoss) (n : Nat)
    (h : heldInStandby map a = true) :
    Memory.unlisted (⟨n, map⟩ :: lost.filter fun l => l.map != map) a = Memory.unlisted lost a := by
  have e : (lost.filter fun l => l.map != map).find? (fun l => !heldInStandby l.map a) =
      lost.find? fun l => !heldInStandby l.map a := by
    induction lost with
    | nil => rfl
    | cons l t ih =>
      by_cases hl : l.map = map
      · simp [hl, h, ih]
      · simp [hl, ih, List.find?_cons]
  simp [Memory.unlisted, h, e]

/-- What the standby does to an entry list, read at an address. -/
theorem Memory.readCells_filter (u : List PowerLoss) (keep : Nat → Bool) (m : List Host.Cell) (a : Nat) :
    Memory.readCells u (m.filter fun c => keep c.1) a =
      if keep a = true then Memory.readCells u m a else Memory.unlisted u a := by
  induction m with
  | nil => simp [Memory.readCells]
  | cons p t ih =>
    obtain ⟨k, b⟩ := p
    by_cases hk : keep k = true
    · by_cases ha : k = a
      · subst ha; simp [Memory.readCells, hk]
      · simp [Memory.readCells, hk, ha, ih]
    · by_cases ha : k = a
      · subst ha; simp [ih, hk]
      · simp [Memory.readCells, hk, ha, ih]

/-- The value an unlisted address reads as counts for the addresses that are not listed only. -/
theorem Memory.readCells_congr {u w : List PowerLoss} {a : Nat} (h : Memory.unlisted w a = Memory.unlisted u a)
    (m : List Host.Cell) : Memory.readCells w m a = Memory.readCells u m a := by
  induction m with
  | nil => exact h
  | cons p t ih => simp only [Memory.readCells, ih]

/-- After a hardware standby an address that is held reads as before it, another one as the free value of the standby
(R426, U21; log entry 20). -/
theorem Memory.read_losePower (m : Memory) (map : List Region) (n a : Nat) :
    Memory.read (m.losePower map n) a =
      if heldInStandby map a = true then Memory.read m a else Config.lostByte a n := by
  unfold Memory.read Memory.losePower
  rw [Memory.readCells_filter]
  split
  · next h => exact Memory.readCells_congr (Memory.unlisted_losePower m.lost n h) m.cells
  · next h => simp [Memory.unlisted, h]

/-- A hardware standby keeps the canonical form. -/
theorem Memory.wf_losePower {m : Memory} (map : List Region) (n : Nat) (hw : m.wf = true) :
    (m.losePower map n).wf = true := by
  have key : ∀ (l : List Host.Cell) (lo : Nat), Memory.wfFrom m.lost lo l = true →
      Memory.wfFrom (m.losePower map n).lost lo (l.filter fun c => heldInStandby map c.1) = true := by
    intro l
    induction l with
    | nil => intro _ _; rfl
    | cons p t ih =>
      intro lo h
      simp only [Memory.wfFrom, Bool.and_eq_true, decide_eq_true_eq] at h
      obtain ⟨⟨⟨h1, h2⟩, h3⟩, h4⟩ := h
      by_cases hk : heldInStandby map p.1 = true
      · simp only [List.filter_cons, hk, if_true, Memory.wfFrom, Bool.and_eq_true, decide_eq_true_eq]
        refine ⟨⟨⟨h1, h2⟩, ?_⟩, ih _ h4⟩
        rw [show Memory.unlisted (m.losePower map n).lost p.1 = Memory.unlisted m.lost p.1 from
          Memory.unlisted_losePower m.lost n hk]
        exact h3
      · simp only [List.filter_cons, hk]
        exact Memory.wfFrom_mono (by omega) (ih _ h4)
  exact key m.cells 0 hw

end Sys2Proof.Machine
end

