-- ==== Sys2Proof/Laws/Ops.lean ====
section
/-! SUPPORT. For each shared operation of Ops.lean one lemma that says everything it can do: the caller cites it and
does not unfold the operation. -/

namespace Sys2Proof.Machine

/-! ## The address lines -/

/-- States of one chip reach memory at the same addresses. -/
theorem State.phys_congr {s t : State} (h : t.chip = s.chip) (a : Addr) : t.phys a = s.phys a := by
  simp [State.phys, h]

/-- Every address that reaches memory is in the address space. -/
theorem State.phys_lt (s : State) (a : Addr) : s.phys a < 2 ^ 24 :=
  Nat.lt_of_le_of_lt (Nat.mod_le _ _) a.isLt

/-- All 16 bits of an offset reach memory. -/
theorem State.phys_offset (s : State) (a : Addr) : s.phys a % 65536 = a.toNat % 65536 := by
  simp only [State.phys, Nat.pow_add]
  exact Nat.mod_mul_right_mod _ _ _

/-! ## Bytes -/

/-- A byte load changes at most the count. -/
theorem State.loadByte_eq (s : State) (a : Addr) : ∃ k, s.loadByte a = (s.peek a, { s with free := k }) := by
  simp only [State.loadByte]
  split
  · exact ⟨s.free, rfl⟩
  · exact ⟨s.free, rfl⟩
  · exact ⟨s.free, rfl⟩
  · exact ⟨s.free + 1, rfl⟩
  · exact ⟨s.free + 1, rfl⟩

/-- A byte load changes at most the count of free values. -/
theorem State.loadByte_spec (s : State) (a : Addr) :
    (s.loadByte a).1 = s.peek a ∧ ∃ k, (s.loadByte a).2 = { s with free := k } := by
  obtain ⟨k, h⟩ := s.loadByte_eq a
  rw [h]
  exact ⟨rfl, k, rfl⟩

/-- A byte load from RAM or ROM changes nothing. -/
theorem State.loadByte_mem (s : State) (a : Addr) (h : s.chip.kindAt (s.phys a) = .ram ∨ s.chip.kindAt (s.phys a) = .rom) :
    s.loadByte a = (Memory.read s.mem (s.phys a), s) := by
  rcases h with h | h <;> simp [State.loadByte, State.peek, h]

/-- The note of a store changes nothing else. -/
theorem State.noteStore_spec (s : State) (a : Nat) : s.noteStore a = { s with stored := (s.noteStore a).stored } := by
  simp only [State.noteStore]
  split <;> rfl

/-- A byte store changes at most memory and the note of its stores: the one byte, if it is RAM. -/
theorem State.storeByte_spec (s : State) (a : Addr) (v : Byte) :
    s.storeByte a v = { s with mem := (s.storeByte a v).mem, stored := (s.storeByte a v).stored } ∧
      (∀ b, b ≠ s.phys a → Memory.read (s.storeByte a v).mem b = Memory.read s.mem b) ∧
      (s.mem.wf = true → (s.storeByte a v).mem.wf = true) ∧
      (s.mem.wf = true → s.chip.kindAt (s.phys a) = .ram → Memory.read (s.storeByte a v).mem (s.phys a) = v) := by
  cases h : s.chip.kindAt (s.phys a)
  case ram =>
    have e : s.storeByte a v = { s.noteStore (s.phys a) with mem := Memory.write s.mem (s.phys a) v } := by
      simp only [State.storeByte, h]
    rw [e]
    refine ⟨by rw [s.noteStore_spec], fun b hb => Memory.read_write_ne _ _ hb,
      fun hw => Memory.wf_write _ hw (s.phys_lt a), fun hw _ => ?_⟩
    simp [Memory.read_write hw]
  all_goals
    have e : s.storeByte a v = s := by simp only [State.storeByte, h]
    rw [e]
    exact ⟨rfl, fun _ _ => rfl, id, fun _ h => by cases h⟩

/-! ## Words -/

/-- The low byte's address of an aligned word. -/
theorem succ_toNat {a : Addr} (h : a.getLsbD 0 = false) : (a + 1).toNat = a.toNat + 1 := by
  have h2 : a.toNat % 2 = 0 := by
    simp only [BitVec.getLsbD, Nat.testBit_zero] at h
    simpa using h
  have := a.isLt
  rw [BitVec.toNat_add]
  simp
  omega

/-- The byte after an aligned one reaches memory at the address after it. -/
theorem State.phys_succ (s : State) {a : Addr} (h : a.getLsbD 0 = false) : s.phys (a + 1) = s.phys a + 1 := by
  have h2 : a.toNat % 2 = 0 := by
    simp only [BitVec.getLsbD, Nat.testBit_zero] at h
    simpa using h
  have e : (2 : Nat) ^ (16 + s.chip.pageLines.val) = 2 * 2 ^ (15 + s.chip.pageLines.val) := by
    rw [show 16 + s.chip.pageLines.val = (15 + s.chip.pageLines.val) + 1 by omega, Nat.pow_succ, Nat.mul_comm]
  simp only [State.phys, succ_toNat h, e]
  obtain ⟨m, hm⟩ : ∃ m, m = 2 ^ (15 + s.chip.pageLines.val) := ⟨_, rfl⟩
  have hp : 0 < m := by rw [hm]; exact Nat.two_pow_pos _
  rw [← hm]
  obtain ⟨b, hb⟩ : ∃ b, a.toNat = 2 * b := ⟨a.toNat / 2, by omega⟩
  have := Nat.mod_lt b hp
  rw [hb, Nat.mul_mod_mul_left]
  have e2 : (2 * b + 1) % (2 * m) = 2 * (b % m) + 1 := by
    rw [Nat.mod_mul, show (2 * b + 1) / 2 = b by omega]
    omega
  exact e2

/-- A word load changes at most the count of free values, and leaves an address error pending at an odd address. -/
theorem State.loadWord_spec (s : State) (a : Addr) :
    ∃ k, (s.loadWord a).2 = { s with free := k, addrErrPending := s.addrErrPending || a.getLsbD 0 } := by
  simp only [State.loadWord]
  cases h : a.getLsbD 0
  · obtain ⟨k1, h1⟩ := (s.loadByte_spec a).2
    obtain ⟨k2, h2⟩ := ((s.loadByte a).2.loadByte_spec (a + 1)).2
    refine ⟨k2, ?_⟩
    simp only [Bool.or_false]
    rw [if_neg (by simp), h2, h1]
  · refine ⟨s.free + 1, ?_⟩
    simp only [Bool.or_true]
    rfl

/-- An aligned word load from RAM or ROM gives the big-endian word and changes nothing. -/
theorem State.loadWord_mem (s : State) (a : Addr) (h : a.getLsbD 0 = false) (hm : s.memAt (s.wordBytes a)) :
    s.loadWord a = (s.wordAt a, s) := by
  simp only [State.loadWord, h, s.loadByte_mem a (hm _ (by simp [State.wordBytes])),
    s.loadByte_mem (a + 1) (hm _ (by simp [State.wordBytes])), State.wordAt]
  rfl

/-- A word store: nothing but an address error pending at an odd address; else at most the two bytes. -/
theorem State.storeWord_spec (s : State) (a : Addr) (v : Word) :
    s.storeWord a v = { s with
        mem := (s.storeWord a v).mem
        stored := (s.storeWord a v).stored
        addrErrPending := s.addrErrPending || a.getLsbD 0 } ∧
      (∀ b, (a.getLsbD 0 = false → b ∉ s.wordBytes a) →
        Memory.read (s.storeWord a v).mem b = Memory.read s.mem b) ∧
      (s.mem.wf = true → (s.storeWord a v).mem.wf = true) ∧
      (s.mem.wf = true → a.getLsbD 0 = false → s.ramAt (s.wordBytes a) → (s.storeWord a v).wordAt a = v) := by
  cases h : a.getLsbD 0
  · have e : s.storeWord a v = (s.storeByte a (v.extractLsb' 8 8)).storeByte (a + 1) (v.extractLsb' 0 8) := by
      simp only [State.storeWord, h, Bool.false_eq_true, if_false]
    obtain ⟨a1, a2, a3, a4⟩ := s.storeByte_spec a (v.extractLsb' 8 8)
    obtain ⟨b1, b2, b3, b4⟩ := (s.storeByte a (v.extractLsb' 8 8)).storeByte_spec (a + 1) (v.extractLsb' 0 8)
    have hc : (s.storeByte a (v.extractLsb' 8 8)).chip = s.chip := by rw [a1]
    have hp : ∀ x, (s.storeByte a (v.extractLsb' 8 8)).phys x = s.phys x := State.phys_congr hc
    rw [e]
    simp only [hp] at b2 b4
    refine ⟨?_, ?_, fun hw => b3 (a3 hw), ?_⟩
    · rw [Bool.or_false, b1, a1]
    · intro b hb
      have hb := hb rfl
      simp only [State.wordBytes, List.mem_cons, List.not_mem_nil, or_false, not_or] at hb
      rw [b2 b hb.2, a2 b hb.1]
    · intro hw _ hr
      have hp2 : ∀ x, ((s.storeByte a (v.extractLsb' 8 8)).storeByte (a + 1) (v.extractLsb' 0 8)).phys x = s.phys x := by
        intro x
        rw [← hp x]
        exact State.phys_congr (by rw [b1]) x
      simp only [State.wordAt, hp2]
      rw [b4 (a3 hw) (by rw [hc]; exact hr _ (by simp [State.wordBytes])), b2 _ (by rw [s.phys_succ h]; omega),
        a4 hw (hr _ (by simp [State.wordBytes]))]
      apply word_ext
      intro i hi
      rw [BitVec.getLsbD_append, BitVec.getLsbD_extractLsb', BitVec.getLsbD_extractLsb']
      by_cases h8 : i < 8
      · simp [h8]
      · simp [h8, show i - 8 < 8 by omega, show 8 + (i - 8) = i by omega]
  · have e : s.storeWord a v = s.markAddrErr := by
      simp only [State.storeWord, h, if_true]
    rw [e]
    refine ⟨?_, fun _ _ => rfl, fun h => h, fun _ h => by cases h⟩
    rw [Bool.or_true]
    rfl

/-! ## Addresses and the stack -/

/-- The lowest bit is the parity. -/
theorem lsb_eq {n : Nat} (x : BitVec n) : x.getLsbD 0 = decide (x.toNat % 2 = 1) := by
  simp [BitVec.getLsbD, Nat.testBit_zero]

/-- Where page and offset put an address (R62). -/
theorem State.addr_toNat (s : State) (page : Byte) (off : Word) :
    (s.addr page off).toNat = (match s.mode with | .max => page.toNat | .min => 0) * 65536 + off.toNat := by
  have := off.isLt
  cases h : s.mode
  · simp only [State.addr, h]
    rw [BitVec.toNat_append, ← Nat.shiftLeft_add_eq_or_of_lt off.isLt]
    simp
  · simp only [State.addr, h]
    rw [BitVec.toNat_append, ← Nat.shiftLeft_add_eq_or_of_lt off.isLt, Nat.shiftLeft_eq]

/-- An address is odd where its offset is. -/
theorem State.addr_lsb (s : State) (page : Byte) (off : Word) : (s.addr page off).getLsbD 0 = off.getLsbD 0 := by
  rw [lsb_eq, lsb_eq, State.addr_toNat]
  congr 1
  apply propext
  omega

/-- The stack pointer stays odd or even over a push. -/
theorem lsb_sub_two (x : Word) : (x - 2).getLsbD 0 = x.getLsbD 0 := by
  rw [lsb_eq, lsb_eq]
  have := x.isLt
  have e : (x - 2).toNat = (65536 - 2 + x.toNat) % 65536 := by rw [BitVec.toNat_sub]; rfl
  rw [e]
  congr 1
  apply propext
  omega

/-- The stack pointer stays odd or even over a pop. -/
theorem lsb_add_two (x : Word) : (x + 2).getLsbD 0 = x.getLsbD 0 := by
  rw [lsb_eq, lsb_eq]
  have := x.isLt
  have e : (x + 2).toNat = (x.toNat + 2) % 65536 := by rw [BitVec.toNat_add]; rfl
  rw [e]
  congr 1
  apply propext
  omega

/-- A push: R7 is lower by two, at most the two bytes at the new R7 in page TP change, and with R7 odd none does and
an address error is pending. -/
theorem State.push16_spec (s : State) (v : Word) :
    s.push16 v = { s with
        regs := s.regs.set .r7 (s.reg .r7 - 2)
        mem := (s.push16 v).mem
        stored := (s.push16 v).stored
        addrErrPending := s.addrErrPending || (s.reg .r7).getLsbD 0 } ∧
      (∀ b, ((s.reg .r7).getLsbD 0 = false → b ∉ s.wordBytes (s.addr s.tp (s.reg .r7 - 2))) →
        Memory.read (s.push16 v).mem b = Memory.read s.mem b) ∧
      (s.mem.wf = true → (s.push16 v).mem.wf = true) ∧
      (s.mem.wf = true → (s.reg .r7).getLsbD 0 = false → s.ramAt (s.wordBytes (s.addr s.tp (s.reg .r7 - 2))) →
        (s.push16 v).wordAt (s.addr s.tp (s.reg .r7 - 2)) = v) := by
  have ha : (s.setReg .r7 (s.reg .r7 - 2)).stackAddr = s.addr s.tp (s.reg .r7 - 2) := by
    simp only [State.stackAddr, State.reg_setReg_self]
    rfl
  have hl : (s.addr s.tp (s.reg .r7 - 2)).getLsbD 0 = (s.reg .r7).getLsbD 0 := by
    rw [State.addr_lsb, lsb_sub_two]
  obtain ⟨h1, h2, h3, h4⟩ := (s.setReg .r7 (s.reg .r7 - 2)).storeWord_spec (s.addr s.tp (s.reg .r7 - 2)) v
  have e : s.push16 v = (s.setReg .r7 (s.reg .r7 - 2)).storeWord (s.addr s.tp (s.reg .r7 - 2)) v := by
    rw [State.push16, ha]
  rw [hl] at h1 h2 h4
  rw [e]
  exact ⟨h1, h2, h3, h4⟩

/-- A pop: R7 is higher by two; at most the count of free values changes beside it, and with R7 odd an address error
is pending. -/
theorem State.pop16_spec (s : State) :
    ∃ k, s.pop16.2 = { s with
      regs := s.regs.set .r7 (s.reg .r7 + 2)
      free := k
      addrErrPending := s.addrErrPending || (s.reg .r7).getLsbD 0 } := by
  obtain ⟨k, h⟩ := s.loadWord_spec s.stackAddr
  refine ⟨k, ?_⟩
  have hl : s.stackAddr.getLsbD 0 = (s.reg .r7).getLsbD 0 := by rw [State.stackAddr, State.addr_lsb]
  simp only [State.pop16, h, hl]
  rfl

/-- A pop from RAM or ROM with R7 even gives the word R7 points to. -/
theorem State.pop16_mem (s : State) (he : (s.reg .r7).getLsbD 0 = false)
    (hm : s.memAt (s.wordBytes (s.addr s.tp (s.reg .r7)))) :
    s.pop16 = (s.wordAt (s.addr s.tp (s.reg .r7)), s.setReg .r7 (s.reg .r7 + 2)) := by
  have hl : s.stackAddr.getLsbD 0 = false := by rw [State.stackAddr, State.addr_lsb, he]
  simp only [State.pop16, s.loadWord_mem _ hl hm]
  rfl

/-! ## Pushed words -/

/-- The offset of the k-th word above a stack pointer. -/
theorem slot_toNat (x : Word) (k : Nat) : (x + 2 * BitVec.ofNat 16 k).toNat = (x.toNat + 2 * k) % 65536 := by
  rw [BitVec.toNat_add, BitVec.toNat_mul, BitVec.toNat_ofNat]
  have : (2 : Word).toNat = 2 := rfl
  rw [this]
  omega

/-- An address and the address after an even offset. -/
theorem State.addr_succ (s : State) (page : Byte) (off : Word) (h : off.getLsbD 0 = false) :
    (s.addr page off + 1).toNat = (s.addr page off).toNat + 1 :=
  succ_toNat (by rw [State.addr_lsb]; exact h)

/-- Bytes at different offsets are at different addresses. -/
theorem State.phys_addr (s : State) (page : Byte) (off : Word) : s.phys (s.addr page off) % 65536 = off.toNat := by
  have := off.isLt
  rw [State.phys_offset, State.addr_toNat]
  omega

/-- Fewer pushes write fewer bytes. -/
theorem State.ramAt_push {s : State} {n m : Nat} (h : s.ramAt (s.pushBytes n)) (hm : m < n) :
    s.ramAt (s.wordBytes (s.addr s.tp (s.reg .r7 - 2 * BitVec.ofNat 16 (m + 1)))) := fun a ha =>
  h a (List.mem_flatMap.2 ⟨m, List.mem_range.2 hm, ha⟩)

theorem State.ramAt_push_le {s : State} {n m : Nat} (h : s.ramAt (s.pushBytes n)) (hm : m ≤ n) :
    s.ramAt (s.pushBytes m) := by
  intro a ha
  obtain ⟨k, hk, ha⟩ := List.mem_flatMap.1 ha
  exact s.ramAt_push h (Nat.lt_of_lt_of_le (List.mem_range.1 hk) hm) a ha

/-- RAM can be read. -/
theorem State.ramAt.memAt {s : State} {l : List Nat} (h : s.ramAt l) : s.memAt l := fun a ha => .inl (h a ha)

/-- Two states that agree on the mode form the same addresses. -/
theorem State.addr_congr {s t : State} (h : t.mode = s.mode) (page : Byte) (off : Word) :
    t.addr page off = s.addr page off := by
  simp [State.addr, h]

/-- Two states of one chip have the same two bytes in the word at an address. -/
theorem State.wordBytes_congr {s t : State} (h : t.chip = s.chip) (a : Addr) : t.wordBytes a = s.wordBytes a := by
  simp [State.wordBytes, State.phys, h]

/-- Nothing pushed. -/
theorem pushed_nil (s : State) : Pushed s s [] := by
  refine ⟨by simp, fun _ _ => rfl, fun _ _ => rfl, fun _ _ _ k hk => by simp at hk⟩

/-- One word more is pushed. -/
theorem Pushed.push {s t : State} {ws : List Word} (h : Pushed s t ws) (w : Word) (hm : t.mode = s.mode)
    (htp : t.tp = s.tp) (hc : t.chip = s.chip) (hwf : s.mem.wf = true → t.mem.wf = true) (hn : ws.length < 8) :
    Pushed s (t.push16 w) (w :: ws) := by
  obtain ⟨h1, h2, h3, h4⟩ := h
  obtain ⟨p1, p2, p3, p4⟩ := t.push16_spec w
  have r7 : (t.push16 w).reg .r7 = t.reg .r7 - 2 := by
    rw [p1]; exact State.reg_setReg_self t .r7 _
  have rq : ∀ q, q ≠ .r7 → (t.push16 w).reg q = t.reg q := by
    intro q hq
    rw [p1]; exact State.reg_setReg_ne t hq _
  have hx := (s.reg .r7).isLt
  have htN2 : (t.reg .r7).toNat = ((s.reg .r7).toNat + 65536 - 2 * ws.length) % 65536 := by
    rw [h1, BitVec.toNat_sub, BitVec.toNat_mul, BitVec.toNat_ofNat]
    have : (2 : Word).toNat = 2 := rfl
    rw [this]
    omega
  have huN : ((t.push16 w).reg .r7).toNat = ((t.reg .r7).toNat + 65534) % 65536 := by
    rw [r7, BitVec.toNat_sub]
    have : (2 : Word).toNat = 2 := rfl
    rw [this]
    omega
  have par : (t.reg .r7).getLsbD 0 = (s.reg .r7).getLsbD 0 := by
    rw [lsb_eq, lsb_eq, htN2]
    congr 1
    apply propext
    omega
  have slot0 : (t.push16 w).reg .r7 + 2 * BitVec.ofNat 16 0 = t.reg .r7 - 2 := by rw [r7]; simp
  have slotk : ∀ k, (t.push16 w).reg .r7 + 2 * BitVec.ofNat 16 (k + 1) = t.reg .r7 + 2 * BitVec.ofNat 16 k := by
    intro k
    apply BitVec.eq_of_toNat_eq
    rw [slot_toNat, slot_toNat, huN]
    omega
  have ac : ∀ page off, t.addr page off = s.addr page off := fun page off => State.addr_congr hm page off
  refine ⟨?_, ?_, ?_, ?_⟩
  · apply BitVec.eq_of_toNat_eq
    rw [huN, htN2, BitVec.toNat_sub, BitVec.toNat_mul, BitVec.toNat_ofNat]
    have : (2 : Word).toNat = 2 := rfl
    rw [this]
    simp only [List.length_cons]
    omega
  · intro q hq
    rw [rq q (by simpa using hq)]
    exact h2 q hq
  · intro a ha
    have e1 : Memory.read (t.push16 w).mem a = Memory.read t.mem a := by
      apply p2
      intro he
      have := ha 0 (by simp) (by rw [← par]; exact he)
      rw [slot0] at this
      rw [htp, ac, State.wordBytes_congr hc]
      exact this
    rw [e1]
    apply h3
    intro k hk he
    have := ha (k + 1) (by simpa using hk) he
    rw [slotk] at this
    exact this
  · intro hw he hr k hk
    cases k with
    | zero =>
      rw [slot0]
      have top : t.reg .r7 - 2 = s.reg .r7 - 2 * BitVec.ofNat 16 (ws.length + 1) := by
        apply BitVec.eq_of_toNat_eq
        rw [← r7, huN, htN2, BitVec.toNat_sub, BitVec.toNat_mul, BitVec.toNat_ofNat]
        have : (2 : Word).toNat = 2 := rfl
        rw [this]
        omega
      have hr0 := s.ramAt_push hr (show ws.length < (w :: ws).length by simp)
      rw [← top] at hr0
      have := p4 (hwf hw) (by rw [par]; exact he) (by
        rw [htp, ac, State.wordBytes_congr hc]
        intro a ha
        rw [hc]
        exact hr0 a ha)
      rw [htp, ac] at this
      rw [List.getElem?_cons_zero, this]
    | succ k =>
      have hk' : k < ws.length := by simpa using hk
      rw [slotk]
      have old := h4 hw he (s.ramAt_push_le hr (by simp)) k hk'
      rw [List.getElem?_cons_succ, old]
      congr 1
      have hev : (t.reg .r7 + 2 * BitVec.ofNat 16 k).getLsbD 0 = false := by
        have : (t.reg .r7).getLsbD 0 = false := by rw [par]; exact he
        rw [lsb_eq] at this ⊢
        rw [slot_toNat]
        simp only [decide_eq_false_iff_not] at this ⊢
        omega
      have hev0 : (t.reg .r7 - 2).getLsbD 0 = false := by
        rw [lsb_sub_two, par]; exact he
      have hparN : (t.reg .r7).toNat % 2 = 0 := by
        have : (t.reg .r7).getLsbD 0 = false := by rw [par]; exact he
        rw [lsb_eq] at this
        simp only [decide_eq_false_iff_not] at this
        omega
      have htl := (t.reg .r7).isLt
      have nz : (t.reg .r7 - 2).toNat = ((t.reg .r7).toNat + 65534) % 65536 := by rw [← r7]; exact huN
      have q1 := s.phys_addr s.tp (t.reg .r7 + 2 * BitVec.ofNat 16 k)
      have q2 := s.phys_addr s.tp (t.reg .r7 - 2)
      rw [slot_toNat] at q1
      rw [nz] at q2
      have c2 : (t.push16 w).chip = s.chip := by rw [p1]; exact hc
      have sl := s.phys_succ (a := s.addr s.tp (t.reg .r7 + 2 * BitVec.ofNat 16 k)) (by rw [State.addr_lsb]; exact hev)
      have sl0 := s.phys_succ (a := s.addr s.tp (t.reg .r7 - 2)) (by rw [State.addr_lsb]; exact hev0)
      have nb : s.phys (s.addr s.tp (t.reg .r7 + 2 * BitVec.ofNat 16 k)) ∉ t.wordBytes (t.addr t.tp (t.reg .r7 - 2)) ∧
          s.phys (s.addr s.tp (t.reg .r7 + 2 * BitVec.ofNat 16 k) + 1) ∉
            t.wordBytes (t.addr t.tp (t.reg .r7 - 2)) := by
        rw [htp, ac, State.wordBytes_congr hc]
        simp only [State.wordBytes, List.mem_cons, List.not_mem_nil, or_false, not_or, sl, sl0]
        omega
      simp only [State.wordAt, State.phys_congr c2, State.phys_congr hc]
      rw [p2 _ fun _ => nb.1, p2 _ fun _ => nb.2]

end Sys2Proof.Machine
end

