-- ==== Sys2Proof/Laws/Exceptions.lean ====
section
/-! SUPPORT. Exception entry and return: what the sequences can do, once for all their callers. -/

namespace Sys2Proof.Machine

theorem mode_cases (m : Mode) : m = .min ∨ m = .max := by cases m <;> simp

/-- The pushes of an entry change general registers, memory and whether an address error is pending; with R7 even they
push the frame of R391. -/
theorem State.pushFrame_spec (s : State) (p : Word) :
    s.pushFrame p = { s with
        regs := (s.pushFrame p).regs
        mem := (s.pushFrame p).mem
        stored := (s.pushFrame p).stored
        addrErrPending := s.addrErrPending || (s.reg .r7).getLsbD 0 } ∧
      Pushed s (s.pushFrame p) (s.exceptionFrame p) ∧ (s.mem.wf = true → (s.pushFrame p).mem.wf = true) := by
  obtain ⟨a1, a2, a3, a4⟩ := s.push16_spec p
  have P1 : Pushed s (s.push16 p) [p] := (pushed_nil s).push p rfl rfl rfl id (by simp)
  have r1 : (s.push16 p).reg .r7 = s.reg .r7 - 2 := by rw [a1]; exact State.reg_setReg_self s .r7 _
  have l1 : ((s.push16 p).reg .r7).getLsbD 0 = (s.reg .r7).getLsbD 0 := by rw [r1, lsb_sub_two]
  have m1 : (s.push16 p).mode = s.mode := by rw [a1]
  have t1 : (s.push16 p).tp = s.tp := by rw [a1]
  have c1 : (s.push16 p).chip = s.chip := by rw [a1]
  have q1 : (s.push16 p).sr = s.sr := by rw [a1]
  rcases mode_cases s.mode with hm | hm
  · have e : s.pushFrame p = (s.push16 p).push16 s.sr := by
      simp only [State.pushFrame, hm]
    obtain ⟨b1, b2, b3, b4⟩ := (s.push16 p).push16_spec s.sr
    rw [e]
    refine ⟨?_, ?_, fun h => b3 (a3 h)⟩
    · rw [b1, l1, a1]
      simp
    · have := P1.push s.sr m1 t1 c1 a3 (by simp)
      simpa [State.exceptionFrame, hm] using this
  · obtain ⟨b1, b2, b3, b4⟩ := (s.push16 p).push16_spec (pageWord s.cp)
    have P2 : Pushed s ((s.push16 p).push16 (pageWord s.cp)) [pageWord s.cp, p] :=
      P1.push (pageWord s.cp) m1 t1 c1 a3 (by simp)
    have r2 : ((s.push16 p).push16 (pageWord s.cp)).reg .r7 = (s.push16 p).reg .r7 - 2 := by
      rw [b1]; exact State.reg_setReg_self _ .r7 _
    have l2 : (((s.push16 p).push16 (pageWord s.cp)).reg .r7).getLsbD 0 = (s.reg .r7).getLsbD 0 := by
      rw [r2, lsb_sub_two, l1]
    have q2 : ((s.push16 p).push16 (pageWord s.cp)).sr = s.sr := by rw [b1]; exact q1
    have e : s.pushFrame p = ((s.push16 p).push16 (pageWord s.cp)).push16 s.sr := by
      simp only [State.pushFrame, hm]
    obtain ⟨d1, d2, d3, d4⟩ := ((s.push16 p).push16 (pageWord s.cp)).push16_spec s.sr
    rw [e]
    refine ⟨?_, ?_, fun h => d3 (b3 (a3 h))⟩
    · rw [d1, l2, b1, l1, a1]
      simp
    · have := P2.push s.sr (by rw [b1]; exact m1) (by rw [b1]; exact t1) (by rw [b1]; exact c1)
        (fun h => b3 (a3 h)) (by simp)
      simpa [State.exceptionFrame, hm, pageWord] using this

/-- The entries of the vector table are at even addresses (R392). -/
theorem vector_even (n : Nat) : (BitVec.ofNat 24 (2 * n)).getLsbD 0 = false ∧
    (BitVec.ofNat 24 (4 * n)).getLsbD 0 = false ∧ (BitVec.ofNat 24 (4 * n + 2)).getLsbD 0 = false := by
  simp only [lsb_eq, BitVec.toNat_ofNat, decide_eq_false_iff_not]
  omega

/-- The maximum-mode vector's second word. -/
theorem vector_second (n : Nat) : BitVec.ofNat 24 (4 * n) + 2 = BitVec.ofNat 24 (4 * n + 2) := by
  apply BitVec.eq_of_toNat_eq
  rw [BitVec.toNat_add, BitVec.toNat_ofNat, BitVec.toNat_ofNat]
  have : (2 : Addr).toNat = 2 := rfl
  rw [this]
  omega

/-- Two states of one chip in one mode have one vector table. -/
theorem State.vectorBytes_congr {s t : State} (hm : t.mode = s.mode) (hc : t.chip = s.chip) (n : Nat) :
    t.vectorBytes n = s.vectorBytes n := by
  simp only [State.vectorBytes, State.vectorAddr, hm, State.wordBytes_congr hc]

/-- A vector fetch changes PC, in maximum mode CP, and the count of free values; never an address error (R392). -/
theorem State.vectorFetch_spec (s : State) (n : Nat) :
    (∃ k, s.vectorFetch n = { s with pc := (s.vectorFetch n).pc, cp := (s.vectorFetch n).cp, free := k }) ∧
      (s.mode = .min → (s.vectorFetch n).cp = s.cp) ∧
      (s.memAt (s.vectorBytes n) →
        (s.vectorFetch n).free = s.free ∧
          match s.mode with
          | .min => (s.vectorFetch n).pc = s.wordAt (BitVec.ofNat 24 (2 * n)) ∧ (s.vectorFetch n).cp = s.cp
          | .max => (s.vectorFetch n).cp = (s.wordAt (BitVec.ofNat 24 (4 * n))).setWidth 8 ∧
              (s.vectorFetch n).pc = s.wordAt (BitVec.ofNat 24 (4 * n + 2))) := by
  obtain ⟨v1, v2, v3⟩ := vector_even n
  rcases mode_cases s.mode with hm | hm
  · obtain ⟨k, hk⟩ := s.loadWord_spec (BitVec.ofNat 24 (2 * n))
    rw [v1, Bool.or_false] at hk
    refine ⟨⟨k, ?_⟩, fun _ => ?_, fun hr => ?_⟩
    · simp only [State.vectorFetch, hm, hk]
    · simp only [State.vectorFetch, hm, hk]
    · simp only [State.vectorBytes, State.vectorAddr, hm] at hr
      simp only [State.vectorFetch, hm, s.loadWord_mem _ v1 hr]
      simp
  · obtain ⟨k, hk⟩ := s.loadWord_spec (BitVec.ofNat 24 (4 * n))
    obtain ⟨k2, hk2⟩ := (s.loadWord (BitVec.ofNat 24 (4 * n))).2.loadWord_spec (BitVec.ofNat 24 (4 * n + 2))
    rw [v2, Bool.or_false] at hk
    rw [v3, Bool.or_false] at hk2
    refine ⟨⟨k2, ?_⟩, fun h => (by rw [hm] at h; cases h), fun hr => ?_⟩
    · have e : s.vectorFetch n =
          { ((s.loadWord (BitVec.ofNat 24 (4 * n))).2.loadWord (BitVec.ofNat 24 (4 * n + 2))).2 with
            cp := (s.loadWord (BitVec.ofNat 24 (4 * n))).1.setWidth 8
            pc := ((s.loadWord (BitVec.ofNat 24 (4 * n))).2.loadWord (BitVec.ofNat 24 (4 * n + 2))).1 } := by
        simp only [State.vectorFetch, hm]
      rw [e, hk2, hk]
    · simp only [State.vectorBytes, State.vectorAddr, hm, vector_second] at hr
      simp only [State.vectorFetch, hm, s.loadWord_mem _ v2 fun a h => hr a (List.mem_append_left _ h),
        s.loadWord_mem _ v3 fun a h => hr a (List.mem_append_right _ h)]
      simp

/-- What an entry sequence can do (R390, R397): nothing in the double fault state; the double fault state with R7 odd;
else R7 is lower by the frame (R391), the other general registers are kept, SR, memory, PC, CP and the count of free
values change, and the state is program execution. -/
theorem State.exceptionSequence_cases (s : State) (kind : Exc) (p : Word) :
    (s.proc = .doubleFault ∧ s.exceptionSequence kind p = s) ∨
    (s.proc ≠ .doubleFault ∧ (s.reg .r7).getLsbD 0 = true ∧ s.exceptionSequence kind p = s.enterDoubleFault) ∨
    (s.proc ≠ .doubleFault ∧ (s.reg .r7).getLsbD 0 = false ∧
      (∃ k, s.exceptionSequence kind p = { s with
        regs := (s.exceptionSequence kind p).regs
        sr := (s.exceptionSequence kind p).sr
        mem := (s.exceptionSequence kind p).mem
        stored := (s.exceptionSequence kind p).stored
        pc := (s.exceptionSequence kind p).pc
        cp := (s.exceptionSequence kind p).cp
        proc := .execution
        free := k }) ∧
      (s.mode = .min → (s.exceptionSequence kind p).cp = s.cp) ∧
      (s.mem.wf = true → (s.exceptionSequence kind p).mem.wf = true) ∧
      (s.exceptionSequence kind p).flagT = false ∧
      (s.exceptionSequence kind p).mask = kind.newMask.getD s.mask ∧
      (s.exceptionSequence kind p).flags = s.flags ∧
      (s.exceptionSequence kind p).sr &&& 0x78F0 = s.sr &&& 0x78F0 ∧
      (∀ r, r ≠ .r7 → (s.exceptionSequence kind p).reg r = s.reg r) ∧
      (s.exceptionSequence kind p).reg .r7 = s.reg .r7 - (match s.mode with | .min => 4 | .max => 6) ∧
      (s.memAt (s.vectorBytes kind.vector) → EntryEffect s kind p (s.exceptionSequence kind p))) := by
  by_cases hd : s.proc = .doubleFault
  · exact .inl ⟨hd, by simp [State.exceptionSequence, hd]⟩
  cases ho : (s.reg .r7).getLsbD 0
  swap
  · exact .inr (.inl ⟨hd, rfl, by simp only [State.exceptionSequence, if_neg hd, ho, if_true]⟩)
  refine .inr (.inr ⟨hd, rfl, ?_⟩)
  obtain ⟨f1, f2, f3⟩ := { s with proc := ProcState.exceptionHandling }.pushFrame_spec p
  have ho' : (State.reg { s with proc := ProcState.exceptionHandling } .r7).getLsbD 0 = false := ho
  rw [ho', Bool.or_false] at f1
  obtain ⟨u, hu⟩ : ∃ u, u = { s with proc := ProcState.exceptionHandling }.pushFrame p := ⟨_, rfl⟩
  rw [← hu] at f1 f2 f3
  obtain ⟨w, hw⟩ : ∃ w, w = (match kind.newMask with | some l => u.clearT.setMask l | none => u.clearT) := ⟨_, rfl⟩
  have e : s.exceptionSequence kind p = { w.vectorFetch kind.vector with proc := .execution } := by
    unfold State.exceptionSequence
    refine (if_neg hd).trans ((if_neg (by rw [ho]; simp)).trans ?_)
    subst hw hu
    cases kind.newMask <;> rfl
  have w1 : w = { u with sr := w.sr } := by
    rw [hw]; cases kind.newMask <;> rfl
  have w2 : w.flagT = false := by
    rw [hw]; cases kind.newMask <;> simp
  have w3 : w.mask = kind.newMask.getD u.mask := by
    rw [hw]; cases kind.newMask <;> simp
  have w4 : w.flags = u.flags := by
    rw [hw]; cases kind.newMask <;> simp
  have w5 : w.sr &&& 0x78F0 = u.sr &&& 0x78F0 := by
    rw [hw]
    cases kind.newMask with
    | none => exact State.reserved_clearT u
    | some l => exact (State.reserved_setMask u.clearT l).trans (State.reserved_clearT u)
  have us : u.sr = s.sr := by rw [f1]
  have um : u.mask = s.mask := by simp [State.mask, us]
  have uf : u.flags = s.flags := by simp [State.flags, us]
  have wmode : w.mode = s.mode := by rw [w1, f1]
  have wchip : w.chip = s.chip := by rw [w1, f1]
  have wcp : w.cp = s.cp := by rw [w1, f1]
  have wmem : w.mem = u.mem := by rw [w1]
  obtain ⟨⟨k, g1⟩, g2, g3⟩ := w.vectorFetch_spec kind.vector
  have gsr : (w.vectorFetch kind.vector).sr = w.sr := by rw [g1]
  have gmem : (w.vectorFetch kind.vector).mem = u.mem := by rw [g1]; exact wmem
  have gregs : (w.vectorFetch kind.vector).regs = u.regs := by rw [g1]; rw [w1]
  rw [e]
  refine ⟨⟨k, ?_⟩, ?_, ?_, ?_, ?_, ?_, ?_, ?_, ?_, ?_⟩
  · rw [g1, w1, f1]
  · intro h
    have := g2 (by rw [wmode]; exact h)
    rw [wcp] at this
    exact this
  · intro h
    show (w.vectorFetch kind.vector).mem.wf = true
    rw [gmem]
    exact f3 h
  · show (w.vectorFetch kind.vector).flagT = false
    simp only [State.flagT, gsr]
    exact w2
  · have : (w.vectorFetch kind.vector).mask = w.mask := by simp only [State.mask, gsr]
    exact this.trans (w3.trans (by rw [um]))
  · have : (w.vectorFetch kind.vector).flags = w.flags := by simp only [State.flags, gsr]
    exact this.trans (w4.trans uf)
  · show (w.vectorFetch kind.vector).sr &&& 0x78F0 = _
    rw [gsr, w5, us]
  · intro r hr
    show (w.vectorFetch kind.vector).reg r = _
    rw [State.reg_congr gregs]
    exact f2.2.1 r (by simpa using hr)
  · show (w.vectorFetch kind.vector).reg .r7 = _
    rw [State.reg_congr gregs, f2.1]
    simp only [State.exceptionFrame]
    cases s.mode <;> rfl
  · intro hr
    have hr' : w.memAt (w.vectorBytes kind.vector) := by
      rw [State.vectorBytes_congr wmode wchip]
      intro a ha
      rw [wchip]
      exact hr a ha
    obtain ⟨gf, gv⟩ := g3 hr'
    refine ⟨?_, ?_, ?_, ?_, ?_, ?_, ?_⟩
    · obtain ⟨p1, p2, p3, p4⟩ := f2
      refine ⟨?_, ?_, ?_, ?_⟩
      · rw [show State.reg { w.vectorFetch kind.vector with proc := ProcState.execution } .r7 = u.reg .r7 from
          State.reg_congr gregs .r7]
        exact p1
      · intro r hr
        rw [show State.reg { w.vectorFetch kind.vector with proc := ProcState.execution } r = u.reg r from
          State.reg_congr gregs r]
        exact p2 r hr
      · intro a ha
        rw [show State.reg { w.vectorFetch kind.vector with proc := ProcState.execution } .r7 = u.reg .r7 from
          State.reg_congr gregs .r7] at ha
        show Memory.read (w.vectorFetch kind.vector).mem a = _
        rw [gmem]
        exact p3 a ha
      · intro h1 h2 h3 k hk
        rw [show State.reg { w.vectorFetch kind.vector with proc := ProcState.execution } .r7 = u.reg .r7 from
          State.reg_congr gregs .r7]
        have := p4 h1 h2 h3 k hk
        have gp : ∀ x, State.phys { w.vectorFetch kind.vector with proc := ProcState.execution } x = u.phys x :=
          State.phys_congr (by rw [g1, w1])
        simp only [State.wordAt, gp] at this ⊢
        rw [gmem]
        exact this
    · show (w.vectorFetch kind.vector).flagT = false
      simp only [State.flagT, gsr]
      exact w2
    · have : (w.vectorFetch kind.vector).mask = w.mask := by simp only [State.mask, gsr]
      exact this.trans (w3.trans (by rw [um]))
    · have : (w.vectorFetch kind.vector).flags = w.flags := by simp only [State.flags, gsr]
      exact this.trans (w4.trans uf)
    · show (w.vectorFetch kind.vector).sr &&& 0x78F0 = _
      rw [gsr, w5, us]
    · simp only [VectorTaken, State.vectorAddr]
      have wa : ∀ a, State.wordAt { w.vectorFetch kind.vector with proc := ProcState.execution } a = w.wordAt a := by
        intro a
        have gp : ∀ x, State.phys { w.vectorFetch kind.vector with proc := ProcState.execution } x = w.phys x :=
          State.phys_congr (by rw [g1])
        simp only [State.wordAt, gp]
        rw [gmem, wmem]
      rcases mode_cases s.mode with hm | hm
      · rw [show w.mode = .min by rw [wmode, hm]] at gv
        simp only [wa, hm]
        exact ⟨gv.1, by rw [gv.2, wcp]⟩
      · rw [show w.mode = .max by rw [wmode, hm]] at gv
        simp only [wa, hm, vector_second]
        exact gv
    · have hf : k = s.free := by
        have : (w.vectorFetch kind.vector).free = k := by rw [g1]
        rw [← this, gf, w1, f1]
      rw [g1, hf, w1, f1]

end Sys2Proof.Machine
end

