-- ==== Sys2Proof/Laws/Operands.lean ====
section
/-! SUPPORT. For each operand form and each shape of Operands.lean one lemma that says everything it can do. -/

namespace Sys2Proof.Machine

/-! ## Side effects of an operand -/

theorem State.preStep_spec (s : State) (sz : Size) (m : MemEA) :
    s.preStep sz m = { s with regs := (s.preStep sz m).regs } := by
  cases m <;> rfl

theorem State.postStep_spec (s : State) (sz : Size) (m : MemEA) :
    s.postStep sz m = { s with regs := (s.postStep sz m).regs } := by
  cases m <;> rfl

/-- A post-increment depends on the registers alone. -/
theorem State.postStep_regs {s t : State} (h : t.regs = s.regs) (sz : Size) (m : MemEA) :
    (t.postStep sz m).regs = (s.postStep sz m).regs := by
  cases m <;> simp [State.postStep, State.setReg, State.reg, h]

/-- A load of an operand changes at most the count of free values, and leaves an address error pending where it is a
word access at an odd address. -/
theorem State.loadAt_spec (s : State) (sz : Size) (st : Bool) (a : Addr) :
    ∃ k, (s.loadAt sz st a).2 = { s with
      free := k, addrErrPending := s.addrErrPending || ((sz == .word || st) && a.getLsbD 0) } := by
  cases sz
  · cases st
    · obtain ⟨k, h⟩ := (s.loadByte_spec a).2
      refine ⟨k, ?_⟩
      have hz : ((Size.byte == Size.word || false) && a.getLsbD 0) = false := by
        rw [show (Size.byte == Size.word) = false from rfl]; rfl
      rw [hz, Bool.or_false]
      exact h
    · obtain ⟨k, h⟩ := s.loadWord_spec a
      exact ⟨k, by simpa [State.loadAt] using h⟩
  · obtain ⟨k, h⟩ := s.loadWord_spec a
    exact ⟨k, by simpa [State.loadAt] using h⟩

/-- A store of an operand: nothing but an address error pending where it is a word access at an odd address; else at
most its bytes, and the count of free values. -/
theorem State.storeAt_spec (s : State) (sz : Size) (m : MemEA) (a : Addr) (v : BitVec sz.bits) :
    (∃ k, s.storeAt sz (viaStack m) a v = { s with
      mem := (s.storeAt sz (viaStack m) a v).mem
      stored := (s.storeAt sz (viaStack m) a v).stored
      free := k
      addrErrPending := s.addrErrPending || (wordAccess sz m && a.getLsbD 0) }) ∧
      (∀ b, ((wordAccess sz m && a.getLsbD 0) = false →
          b ∉ if wordAccess sz m then s.wordBytes a else [s.phys a]) →
        Memory.read (s.storeAt sz (viaStack m) a v).mem b = Memory.read s.mem b) ∧
      (s.mem.wf = true → (s.storeAt sz (viaStack m) a v).mem.wf = true) ∧
      (s.mem.wf = true → (wordAccess sz m && a.getLsbD 0) = false →
        s.ramAt (if wordAccess sz m then s.wordBytes a else [s.phys a]) →
        (s.storeAt sz (viaStack m) a v).holds sz m a v) := by
  cases sz
  · cases hv : viaStack m
    · have hw : wordAccess .byte m = false := by simp [wordAccess, hv]
      obtain ⟨h1, h2, h3, h4⟩ := s.storeByte_spec a v
      have e : s.storeAt .byte false a v = s.storeByte a v := rfl
      simp only [hw, Bool.false_and, Bool.or_false, Bool.false_eq_true, if_false]
      rw [e]
      refine ⟨⟨s.free, h1⟩, fun b hb => h2 b (by simpa using hb), h3, fun w _ r => ?_⟩
      have hp : ∀ x, (s.storeByte a v).phys x = s.phys x := State.phys_congr (by rw [h1])
      simp only [State.holds, hv, Bool.false_eq_true, if_false, hp]
      exact h4 w (r _ (by simp))
    · have hw : wordAccess .byte m = true := by simp [wordAccess, hv]
      obtain ⟨h1, h2, h3, h4⟩ := s.tick.storeWord_spec a (Config.freeByte s.free ++ v)
      have e : s.storeAt .byte true a v = s.tick.storeWord a (Config.freeByte s.free ++ v) := rfl
      simp only [hw, Bool.true_and, if_true]
      rw [e]
      refine ⟨⟨s.free + 1, h1⟩, fun b hb => h2 b hb, h3, fun w o r => ?_⟩
      have := h4 w o r
      simp only [State.holds, hv, if_true]
      have e2 := congrArg (fun x : Word => x.setWidth 8) this
      simp only [State.wordAt] at e2
      rw [BitVec.setWidth_append, BitVec.setWidth_append] at e2
      simpa using e2
  · have hw : wordAccess .word m = true := by simp [wordAccess]
    obtain ⟨h1, h2, h3, h4⟩ := s.storeWord_spec a v
    have e : s.storeAt .word (viaStack m) a v = s.storeWord a v := rfl
    simp only [hw, Bool.true_and, if_true]
    rw [e]
    refine ⟨⟨s.free, h1⟩, fun b hb => h2 b (fun h => by simpa using hb h), h3, fun w o r => ?_⟩
    exact h4 w o r

/-! ## Sources -/

/-- Reading a source changes at most the registers of a pre-decrement, the count of free values, and whether an address
error is pending. -/
theorem State.readSrc_spec (s : State) (src : SrcEA) :
    ∃ k, (s.readSrc src).2 = { s with
      regs := (s.readSrc src).2.regs
      free := k
      addrErrPending := s.addrErrPending || s.srcMisaligned src } := by
  cases src with
  | reg sz r => exact ⟨s.free, by simp [State.readSrc, State.srcMisaligned]⟩
  | imm8 d => exact ⟨s.free, by simp [State.readSrc, State.srcMisaligned]⟩
  | imm16 d => exact ⟨s.free, by simp [State.readSrc, State.srcMisaligned]⟩
  | mem sz m =>
    obtain ⟨k, h⟩ := (s.preStep sz m).loadAt_spec sz (viaStack m) ((s.preStep sz m).operandAddr m)
    refine ⟨k, ?_⟩
    have e : (s.readSrc (.mem sz m)).2 =
        ((s.preStep sz m).loadAt sz (viaStack m) ((s.preStep sz m).operandAddr m)).2 := rfl
    rw [e, h, s.preStep_spec sz m]
    simp only [State.srcMisaligned, State.misaligned, State.effAddr, wordAccess]
    rw [← s.preStep_spec sz m]

/-- The registers after a source has been read: those after its pre-decrement. -/
theorem State.readSrc_regs (s : State) (src : SrcEA) :
    (s.readSrc src).2.regs = (match src with | .mem sz m => (s.preStep sz m).regs | _ => s.regs) := by
  cases src with
  | reg sz r => rfl
  | imm8 d => rfl
  | imm16 d => rfl
  | mem sz m =>
    obtain ⟨k, h⟩ := (s.preStep sz m).loadAt_spec sz (viaStack m) ((s.preStep sz m).operandAddr m)
    have e : (s.readSrc (.mem sz m)).2 =
        ((s.preStep sz m).loadAt sz (viaStack m) ((s.preStep sz m).operandAddr m)).2 := rfl
    rw [e, h]

/-- Reading a source leaves SR alone. -/
theorem State.readSrc_sr (s : State) (src : SrcEA) : (s.readSrc src).2.sr = s.sr := by
  obtain ⟨k, h⟩ := s.readSrc_spec src
  rw [h]

theorem State.readSrc_flags (s : State) (src : SrcEA) : (s.readSrc src).2.flags = s.flags := by
  simp only [State.flags, State.readSrc_sr]

/-- The end of an instruction with a source: the post-increment, or a free value in the pointer. -/
theorem State.finishSrc_spec (s : State) (src : SrcEA) (written : List Reg) :
    ∃ k, s.finishSrc src written = { s with regs := (s.finishSrc src written).regs, free := k } := by
  cases src with
  | reg sz r => exact ⟨s.free, rfl⟩
  | imm8 d => exact ⟨s.free, rfl⟩
  | imm16 d => exact ⟨s.free, rfl⟩
  | mem sz m =>
    cases m with
    | postInc r =>
      by_cases h : r ∈ written
      · refine ⟨s.free + 1, ?_⟩
        simp only [State.finishSrc, if_pos h]
        rfl
      · refine ⟨s.free, ?_⟩
        simp only [State.finishSrc, if_neg h]
        rfl
    | ind r => exact ⟨s.free, rfl⟩
    | disp8 r d => exact ⟨s.free, rfl⟩
    | disp16 r d => exact ⟨s.free, rfl⟩
    | preDec r => exact ⟨s.free, rfl⟩
    | abs8 a => exact ⟨s.free, rfl⟩
    | abs16 a => exact ⟨s.free, rfl⟩

/-- A register that is not the post-incremented pointer is as before the end of the instruction. -/
theorem State.finishSrc_reg_ne (s : State) (src : SrcEA) (written : List Reg) (q : Reg) (h : incremented src ≠ some q) :
    (s.finishSrc src written).reg q = s.reg q := by
  cases src with
  | reg sz r => rfl
  | imm8 d => rfl
  | imm16 d => rfl
  | mem sz m =>
    cases m with
    | postInc r =>
      have hq : q ≠ r := fun e => h (by rw [e]; rfl)
      by_cases hw : r ∈ written
      · simp only [State.finishSrc, if_pos hw]
        exact State.reg_setReg_ne _ hq _
      · simp only [State.finishSrc, if_neg hw]
        exact State.reg_setReg_ne _ hq _
    | ind r => rfl
    | disp8 r d => rfl
    | disp16 r d => rfl
    | preDec r => rfl
    | abs8 a => rfl
    | abs16 a => rfl

/-- The post-incremented pointer, where the instruction has not written it. -/
theorem State.finishSrc_reg_inc (s : State) (src : SrcEA) (written : List Reg) (q : Reg) (h : incremented src = some q)
    (hw : q ∉ written) : (s.finishSrc src written).reg q = s.reg q + stride src.size q := by
  cases src with
  | reg sz r => cases h
  | imm8 d => cases h
  | imm16 d => cases h
  | mem sz m =>
    cases m with
    | postInc r =>
      have e : r = q := by simpa [incremented] using h
      subst e
      simp only [State.finishSrc, if_neg hw]
      exact State.reg_setReg_self _ _ _
    | ind r => cases h
    | disp8 r d => cases h
    | disp16 r d => cases h
    | preDec r => cases h
    | abs8 a => cases h
    | abs16 a => cases h

/-- The registers a source operand leaves, for a register the instruction does not write. -/
theorem State.srcStepped_reg (s : State) (src : SrcEA) (q : Reg) :
    (s.srcStepped src).reg q =
      if incremented src = some q then (s.readSrc src).2.reg q + stride src.size q else (s.readSrc src).2.reg q := by
  rw [State.reg_congr (State.readSrc_regs s src ▸ rfl : (s.readSrc src).2.regs =
    ({ s with regs := (match src with | .mem sz m => (s.preStep sz m).regs | _ => s.regs) } : State).regs)]
  cases src with
  | reg sz r => simp [incremented, State.srcStepped]
  | imm8 d => simp [incremented, State.srcStepped]
  | imm16 d => simp [incremented, State.srcStepped]
  | mem sz m =>
    cases m with
    | postInc r =>
      by_cases h : q = r
      · subst h
        simp only [incremented, if_true]
        exact State.reg_setReg_self _ _ _
      · have : ¬ incremented (.mem sz (.postInc r)) = some q := by simpa [incremented] using Ne.symm h
        rw [if_neg this]
        exact State.reg_setReg_ne _ h _
    | ind r => simp only [incremented, State.srcStepped]; rfl
    | disp8 r d => simp only [incremented, State.srcStepped]; rfl
    | disp16 r d => simp only [incremented, State.srcStepped]; rfl
    | preDec r => simp only [incremented, State.srcStepped]; rfl
    | abs8 a => simp only [incremented, State.srcStepped]; rfl
    | abs16 a => simp only [incremented, State.srcStepped]; rfl

/-- Whatever an instruction with a source writes to general registers and flags after reading it and before ending:
the effect it leaves. -/
theorem sourceEffect (s : State) (src : SrcEA) (results : List (Reg × Word)) (f : Flags) (u : State)
    (hu : u = { (s.readSrc src).2 with regs := u.regs, sr := u.sr })
    (hup : u.sr.extractLsb' 4 12 = s.sr.extractLsb' 4 12) (hf : u.flags = f)
    (hr : ∀ p ∈ results, u.reg p.1 = p.2)
    (hk : ∀ q, q ∉ results.map Prod.fst → u.reg q = (s.readSrc src).2.reg q) :
    SourceEffect s src results f (u.finishSrc src (results.map Prod.fst)) := by
  obtain ⟨k, h⟩ := s.readSrc_spec src
  obtain ⟨k2, h2⟩ := u.finishSrc_spec src (results.map Prod.fst)
  have hsr : (u.finishSrc src (results.map Prod.fst)).sr = u.sr := by rw [h2]
  have hmem : (u.finishSrc src (results.map Prod.fst)).mem = s.mem := by rw [h2, hu, h]
  refine ⟨⟨by rw [hsr]; exact hup, ?_⟩, ?_, ?_, ?_, ?_, ?_⟩
  · rw [h2, hu, h]
  · simp only [State.flags, hsr]
    exact hf
  · intro a _
    rw [hmem]
  · intro p hp hi
    rw [State.finishSrc_reg_ne u src _ p.1 hi]
    exact hr p hp
  · intro q hq
    rw [State.srcStepped_reg]
    by_cases hi : incremented src = some q
    · rw [if_pos hi, State.finishSrc_reg_inc u src _ q hi hq, hk q hq]
    · rw [if_neg hi, State.finishSrc_reg_ne u src _ q hi, hk q hq]
  · rw [h2, hu, h]

/-- The shape of the two-operand instructions with a result. -/
theorem State.aluSrc_spec (s : State) (src : SrcEA) (rd : Reg)
    (f : BitVec src.size.bits → BitVec src.size.bits → Flags → BitVec src.size.bits × Flags) :
    SourceEffect s src
      [(rd, mergeReg src.size ((s.readSrc src).2.reg rd)
        (f ((s.readSrc src).2.regN src.size rd) (s.readSrc src).1 s.flags).1)]
      (f ((s.readSrc src).2.regN src.size rd) (s.readSrc src).1 s.flags).2 (s.aluSrc src rd f) := by
  have hs := State.readSrc_sr s src
  simp only [State.aluSrc, State.readSrc_flags]
  refine sourceEffect s src _ _ _ rfl ?_ ?_ ?_ ?_
  · rw [State.upper_setFlags, State.setRegN_sr, hs]
  · exact State.flags_setFlags _ _
  · intro p hp
    rw [List.mem_singleton] at hp
    subst hp
    simp only [State.reg_setFlags]
    exact State.reg_setReg_self _ _ _
  · intro q hq
    simp only [State.reg_setFlags]
    exact State.reg_setReg_ne _ (by simpa using hq) _

/-- The shape of the compares. -/
theorem State.testSrc_spec (s : State) (src : SrcEA) (rd : Reg)
    (f : BitVec src.size.bits → BitVec src.size.bits → Flags → Flags) :
    SourceEffect s src [] (f ((s.readSrc src).2.regN src.size rd) (s.readSrc src).1 s.flags) (s.testSrc src rd f) := by
  have hs := State.readSrc_sr s src
  simp only [State.testSrc, State.readSrc_flags]
  refine sourceEffect s src [] _ _ rfl ?_ ?_ (by simp) (fun _ _ => rfl)
  · rw [State.upper_setFlags, hs]
  · exact State.flags_setFlags _ _

/-- The shape of ADDS and SUBS. -/
theorem State.wordSrc_spec (s : State) (src : SrcEA) (rd : Reg) (f : Word → Word → Word) :
    SourceEffect s src [(rd, f ((s.readSrc src).2.reg rd) (sext16 (s.readSrc src).1))] s.flags (s.wordSrc src rd f) := by
  have hs := State.readSrc_sr s src
  simp only [State.wordSrc]
  refine sourceEffect s src _ _ _ rfl ?_ ?_ ?_ ?_
  · rw [State.setReg_sr, hs]
  · simp only [State.flags, State.setReg_sr, hs]
  · intro p hp
    rw [List.mem_singleton] at hp
    subst hp
    exact State.reg_setReg_self _ _ _
  · intro q hq
    exact State.reg_setReg_ne _ (by simpa using hq) _

/-! ## Destinations -/

/-- A store to a memory operand and then flags. -/
theorem storeEffect (s u : State) (sz : Size) (m : MemEA) (v : BitVec sz.bits) (f : Flags)
    (hu : ∃ k, u = { s.preStep sz m with free := k, addrErrPending := u.addrErrPending })
    (he : (u.addrErrPending || s.misaligned sz m) = (s.addrErrPending || s.misaligned sz m)) :
    StoreEffect s sz m v f
      (((u.storeAt sz (viaStack m) (s.effAddr sz m) v).setFlags f).postStep sz m) := by
  obtain ⟨k, hu⟩ := hu
  have pre := s.preStep_spec sz m
  obtain ⟨⟨k2, h1⟩, h2, h3, h4⟩ := u.storeAt_spec sz m (s.effAddr sz m) v
  obtain ⟨w, hw⟩ : ∃ w, w = u.storeAt sz (viaStack m) (s.effAddr sz m) v := ⟨_, rfl⟩
  rw [← hw] at h1 h2 h3 h4 ⊢
  have post := (w.setFlags f).postStep_spec sz m
  have umem : u.mem = s.mem := by rw [hu, pre]
  have uchip : u.chip = s.chip := by rw [hu, pre]
  have usr : u.sr = s.sr := by rw [hu, pre]
  have wregs : w.regs = (s.preStep sz m).regs := by rw [h1, hu]
  have pmem : ((w.setFlags f).postStep sz m).mem = w.mem := by rw [post]; rfl
  have psr : ((w.setFlags f).postStep sz m).sr = (w.setFlags f).sr := by rw [post]
  have wsr : w.sr = s.sr := by rw [h1]; exact usr
  have perr : ((w.setFlags f).postStep sz m).addrErrPending = (s.addrErrPending || s.misaligned sz m) := by
    rw [post]
    show w.addrErrPending = _
    rw [h1]
    exact he
  refine ⟨⟨?_, ?_⟩, ?_, ?_, ?_, perr, ?_⟩
  · rw [psr, State.upper_setFlags, wsr]
  · rw [post]
    have : w = { s with
        regs := w.regs, mem := w.mem, stored := w.stored, free := w.free, addrErrPending := w.addrErrPending } := by
      rw [h1, hu, pre]
    rw [this]
    rfl
  · exact (State.flags_congr psr).trans (State.flags_setFlags w f)
  · intro r
    apply State.reg_congr
    exact State.postStep_regs (s := s.preStep sz m) (t := w.setFlags f) wregs sz m
  · intro a ha
    rw [pmem, h2, umem]
    intro hm
    have hm : s.misaligned sz m = false := hm
    rw [hm] at ha
    rw [State.wordBytes_congr uchip, State.phys_congr uchip]
    exact ha
  · intro hwf hmis hram
    have := h4 (by rw [umem]; exact hwf) hmis (by
      intro a ha
      rw [State.wordBytes_congr uchip, State.phys_congr uchip] at ha
      rw [uchip]
      exact hram a ha)
    have hp : ∀ x, ((w.setFlags f).postStep sz m).phys x = w.phys x := State.phys_congr (by rw [post]; rfl)
    cases sz
    · simp only [State.holds, hp] at this ⊢
      rw [pmem]
      exact this
    · simp only [State.holds, State.wordAt, hp] at this ⊢
      rw [pmem]
      exact this

/-- The shape of the read-modify-write instructions. -/
theorem State.modify_spec (s : State) (sz : Size) (d : DstEA) (f : BitVec sz.bits → Flags → BitVec sz.bits × Flags) :
    ModifyEffect s sz d f (s.modify sz d f) := by
  cases d with
  | reg r => rfl
  | mem m =>
    obtain ⟨k, h⟩ := (s.preStep sz m).loadAt_spec sz (viaStack m) (s.effAddr sz m)
    have hf : ((s.preStep sz m).loadAt sz (viaStack m) (s.effAddr sz m)).2.flags = s.flags := by
      simp only [State.flags]
      rw [h, s.preStep_spec sz m]
    have e : s.modify sz (.mem m) f =
        ((((s.preStep sz m).loadAt sz (viaStack m) (s.effAddr sz m)).2.storeAt sz (viaStack m) (s.effAddr sz m)
          (f ((s.preStep sz m).loadAt sz (viaStack m) (s.effAddr sz m)).1
            ((s.preStep sz m).loadAt sz (viaStack m) (s.effAddr sz m)).2.flags).1).setFlags
          (f ((s.preStep sz m).loadAt sz (viaStack m) (s.effAddr sz m)).1
            ((s.preStep sz m).loadAt sz (viaStack m) (s.effAddr sz m)).2.flags).2).postStep sz m := rfl
    rw [e, hf]
    refine storeEffect s _ sz m _ _ ⟨k, ?_⟩ ?_
    · rw [h]
    · rw [h]
      have : (s.preStep sz m).addrErrPending = s.addrErrPending := by rw [s.preStep_spec sz m]
      simp only [this, State.misaligned, wordAccess]
      cases s.addrErrPending <;> simp

/-- The shape of the instructions that only look at a destination operand. -/
theorem State.inspect_spec (s : State) (sz : Size) (d : DstEA) (f : BitVec sz.bits → Flags → Flags) :
    InspectEffect s sz d f (s.inspect sz d f) := by
  cases d with
  | reg r => rfl
  | mem m =>
    obtain ⟨k, h⟩ := (s.preStep sz m).loadAt_spec sz (viaStack m) (s.effAddr sz m)
    have pre := s.preStep_spec sz m
    have hsr : ((s.preStep sz m).loadAt sz (viaStack m) (s.effAddr sz m)).2.sr = s.sr := by rw [h, pre]
    have hf : ((s.preStep sz m).loadAt sz (viaStack m) (s.effAddr sz m)).2.flags = s.flags := by
      simp only [State.flags, hsr]
    have e : s.inspect sz (.mem m) f =
        ((((s.preStep sz m).loadAt sz (viaStack m) (s.effAddr sz m)).2.setFlags
          (f ((s.preStep sz m).loadAt sz (viaStack m) (s.effAddr sz m)).1
            ((s.preStep sz m).loadAt sz (viaStack m) (s.effAddr sz m)).2.flags)).postStep sz m) := rfl
    rw [hf] at e
    simp only [InspectEffect]
    rw [e]
    generalize (s.preStep sz m).loadAt sz (viaStack m) (s.effAddr sz m) = p at h hsr
    obtain ⟨v, w⟩ := p
    simp only at h hsr ⊢
    have post := (w.setFlags (f v s.flags)).postStep_spec sz m
    have psr : ((w.setFlags (f v s.flags)).postStep sz m).sr = (w.setFlags (f v s.flags)).sr := by rw [post]
    have pmem : ((w.setFlags (f v s.flags)).postStep sz m).mem = s.mem := by
      rw [post]
      show w.mem = _
      rw [h, pre]
    have perr : ((w.setFlags (f v s.flags)).postStep sz m).addrErrPending = (s.addrErrPending || s.misaligned sz m) := by
      rw [post]
      show w.addrErrPending = _
      rw [h, pre]
      simp only [State.misaligned, wordAccess]
    have wregs : w.regs = (s.preStep sz m).regs := by rw [h]
    have hw : w = { s with regs := w.regs, free := w.free, addrErrPending := w.addrErrPending } := by rw [h, pre]
    refine ⟨⟨?_, ?_⟩, ?_, ?_, ?_, perr⟩
    · rw [psr, State.upper_setFlags, hsr]
    · rw [post, hw]
      rfl
    · exact (State.flags_congr psr).trans (State.flags_setFlags w _)
    · intro r
      apply State.reg_congr
      exact State.postStep_regs (s := s.preStep sz m) (t := w.setFlags (f v s.flags)) wregs sz m
    · intro a _
      rw [pmem]

/-- A store with no prior read, and the flags after it. -/
theorem State.storeMem_spec (s : State) (sz : Size) (m : MemEA) (v : State → BitVec sz.bits) (f : Flags) :
    StoreEffect s sz m (v (s.preStep sz m)) f ((s.storeMem sz m v).setFlags f) := by
  have e : (s.storeMem sz m v).setFlags f =
      (((s.preStep sz m).storeAt sz (viaStack m) (s.effAddr sz m) (v (s.preStep sz m))).setFlags f).postStep sz m := by
    simp only [State.storeMem]
    rw [show (s.preStep sz m).operandAddr m = s.effAddr sz m from rfl]
    cases m <;> rfl
  rw [e]
  refine storeEffect s _ sz m _ _ ⟨s.free, ?_⟩ ?_
  · rw [s.preStep_spec sz m]
  · rw [s.preStep_spec sz m]

/-- A store with no prior read leaves the flags alone. -/
theorem State.storeMem_flags (s : State) (sz : Size) (m : MemEA) (v : State → BitVec sz.bits) :
    (s.storeMem sz m v).setFlags s.flags = s.storeMem sz m v := by
  obtain ⟨⟨k, h⟩, -⟩ := (s.preStep sz m).storeAt_spec sz m (s.effAddr sz m) (v (s.preStep sz m))
  have e : s.storeMem sz m v =
      ((s.preStep sz m).storeAt sz (viaStack m) (s.effAddr sz m) (v (s.preStep sz m))).postStep sz m := rfl
  have hsr : (s.storeMem sz m v).sr = s.sr := by
    rw [e, State.postStep_spec]
    show ((s.preStep sz m).storeAt sz (viaStack m) (s.effAddr sz m) (v (s.preStep sz m))).sr = _
    rw [h, s.preStep_spec sz m]
  have hf : s.flags = (s.storeMem sz m v).flags := by simp only [State.flags, hsr]
  rw [hf]
  exact State.setFlags_flags _

end Sys2Proof.Machine
end

