-- ==== Sys2Proof/Laws/Frame.lean ====
section
/-! SUPPORT. What no operation of an instruction changes (mode, mode pins latched, chip, pins, requests) and what every
one keeps (the canonical form of memory, the reserved bits of SR): one relation, and for each shared operation the lemma
that it stays inside. -/

namespace Sys2Proof.Machine

/-- From `s` to `t` nothing changes that only the world outside or a reset may change, memory stays canonical and the
reserved bits of SR stay 0. -/
def Frame (s t : State) : Prop :=
  (t.mode = s.mode ∧ t.mds = s.mds ∧ t.chip = s.chip ∧ t.pins = s.pins ∧ t.requests = s.requests) ∧
    (s.mem.wf = true → t.mem.wf = true) ∧ (s.sr &&& 0x78F0 = 0 → t.sr &&& 0x78F0 = 0)

theorem Frame.refl (s : State) : Frame s s := ⟨⟨rfl, rfl, rfl, rfl, rfl⟩, id, id⟩

theorem Frame.trans {s t u : State} (h : Frame s t) (g : Frame t u) : Frame s u := by
  obtain ⟨⟨h1, h2, h3, h4, h5⟩, h6, h7⟩ := h
  obtain ⟨⟨g1, g2, g3, g4, g5⟩, g6, g7⟩ := g
  exact ⟨⟨g1.trans h1, g2.trans h2, g3.trans h3, g4.trans h4, g5.trans h5⟩, fun w => g6 (h6 w), fun w => g7 (h7 w)⟩

/-- Where only the fields that an instruction may change freely differ. -/
theorem Frame.of_eq {s t : State} (h1 : t.mode = s.mode) (h2 : t.mds = s.mds) (h3 : t.chip = s.chip)
    (h4 : t.pins = s.pins) (h5 : t.requests = s.requests) (h6 : t.mem = s.mem) (h7 : t.sr = s.sr) : Frame s t :=
  ⟨⟨h1, h2, h3, h4, h5⟩, fun w => by rw [h6]; exact w, fun w => by rw [h7]; exact w⟩

theorem Frame.setReg (s : State) (r : Reg) (v : Word) : Frame s (s.setReg r v) := .of_eq rfl rfl rfl rfl rfl rfl rfl

theorem Frame.setRegN (s : State) (sz : Size) (r : Reg) (v : BitVec sz.bits) : Frame s (s.setRegN sz r v) :=
  .setReg s r _

theorem Frame.setFlags (s : State) (f : Flags) : Frame s (s.setFlags f) :=
  ⟨⟨rfl, rfl, rfl, rfl, rfl⟩, id, fun w => (State.reserved_setFlags s f).trans w⟩

theorem Frame.tick (s : State) : Frame s s.tick := .of_eq rfl rfl rfl rfl rfl rfl rfl

theorem Frame.preStep (s : State) (sz : Size) (m : MemEA) : Frame s (s.preStep sz m) := by
  rw [s.preStep_spec sz m]; exact .of_eq rfl rfl rfl rfl rfl rfl rfl

theorem Frame.postStep (s : State) (sz : Size) (m : MemEA) : Frame s (s.postStep sz m) := by
  rw [s.postStep_spec sz m]; exact .of_eq rfl rfl rfl rfl rfl rfl rfl

theorem Frame.loadWord (s : State) (a : Addr) : Frame s (s.loadWord a).2 := by
  obtain ⟨k, h⟩ := s.loadWord_spec a
  rw [h]; exact .of_eq rfl rfl rfl rfl rfl rfl rfl

theorem Frame.storeWord (s : State) (a : Addr) (v : Word) : Frame s (s.storeWord a v) := by
  obtain ⟨h, -, hw, -⟩ := s.storeWord_spec a v
  refine ⟨?_, hw, ?_⟩
  · rw [h]; exact ⟨rfl, rfl, rfl, rfl, rfl⟩
  · rw [h]; exact id

theorem Frame.loadAt (s : State) (sz : Size) (st : Bool) (a : Addr) : Frame s (s.loadAt sz st a).2 := by
  obtain ⟨k, h⟩ := s.loadAt_spec sz st a
  rw [h]; exact .of_eq rfl rfl rfl rfl rfl rfl rfl

theorem Frame.storeAt (s : State) (sz : Size) (m : MemEA) (a : Addr) (v : BitVec sz.bits) :
    Frame s (s.storeAt sz (viaStack m) a v) := by
  obtain ⟨⟨k, h⟩, -, hw, -⟩ := s.storeAt_spec sz m a v
  refine ⟨?_, hw, ?_⟩
  · rw [h]; exact ⟨rfl, rfl, rfl, rfl, rfl⟩
  · rw [h]; exact id

theorem Frame.readSrc (s : State) (src : SrcEA) : Frame s (s.readSrc src).2 := by
  obtain ⟨k, h⟩ := s.readSrc_spec src
  rw [h]; exact .of_eq rfl rfl rfl rfl rfl rfl rfl

theorem Frame.finishSrc (s : State) (src : SrcEA) (written : List Reg) : Frame s (s.finishSrc src written) := by
  obtain ⟨k, h⟩ := s.finishSrc_spec src written
  rw [h]; exact .of_eq rfl rfl rfl rfl rfl rfl rfl

theorem Frame.aluSrc (s : State) (src : SrcEA) (rd : Reg)
    (f : BitVec src.size.bits → BitVec src.size.bits → Flags → BitVec src.size.bits × Flags) :
    Frame s (s.aluSrc src rd f) :=
  (((Frame.readSrc s src).trans (.setRegN _ _ _ _)).trans (.setFlags _ _)).trans (.finishSrc _ _ _)

theorem Frame.testSrc (s : State) (src : SrcEA) (rd : Reg)
    (f : BitVec src.size.bits → BitVec src.size.bits → Flags → Flags) : Frame s (s.testSrc src rd f) :=
  ((Frame.readSrc s src).trans (.setFlags _ _)).trans (.finishSrc _ _ _)

theorem Frame.wordSrc (s : State) (src : SrcEA) (rd : Reg) (f : Word → Word → Word) : Frame s (s.wordSrc src rd f) :=
  ((Frame.readSrc s src).trans (.setReg _ _ _)).trans (.finishSrc _ _ _)

theorem Frame.modify (s : State) (sz : Size) (d : DstEA) (f : BitVec sz.bits → Flags → BitVec sz.bits × Flags) :
    Frame s (s.modify sz d f) := by
  cases d with
  | reg r => exact (Frame.setRegN _ _ _ _).trans (.setFlags _ _)
  | mem m =>
    exact ((((Frame.preStep s sz m).trans (.loadAt _ _ _ _)).trans (.storeAt _ _ _ _ _)).trans
      (.setFlags _ _)).trans (.postStep _ _ _)

theorem Frame.inspect (s : State) (sz : Size) (d : DstEA) (f : BitVec sz.bits → Flags → Flags) :
    Frame s (s.inspect sz d f) := by
  cases d with
  | reg r => exact .setFlags _ _
  | mem m =>
    exact (((Frame.preStep s sz m).trans (.loadAt _ _ _ _)).trans (.setFlags _ _)).trans (.postStep _ _ _)

theorem Frame.storeMem (s : State) (sz : Size) (m : MemEA) (v : State → BitVec sz.bits) :
    Frame s (s.storeMem sz m v) :=
  ((Frame.preStep s sz m).trans (.storeAt _ _ _ _ _)).trans (.postStep _ _ _)

theorem Frame.writeDst (s : State) (sz : Size) (d : DstEA) (v : BitVec sz.bits) : Frame s (s.writeDst sz d v) := by
  cases d with
  | reg r => exact .setRegN _ _ _ _
  | mem m => exact .storeMem _ _ _ _

theorem Frame.push16 (s : State) (v : Word) : Frame s (s.push16 v) := (Frame.setReg _ _ _).trans (.storeWord _ _ _)

theorem Frame.pop16 (s : State) : Frame s s.pop16.2 := (Frame.loadWord _ _).trans (.setReg _ _ _)

theorem Frame.crWrite (s : State) (cr : CtlReg) (v : Word) : Frame s (s.crWrite cr v) := by
  cases cr
  case sr => exact ⟨⟨rfl, rfl, rfl, rfl, rfl⟩, id, fun _ => State.reserved_writeSR s v⟩
  case ccr => exact ⟨⟨rfl, rfl, rfl, rfl, rfl⟩, id, fun w => State.reserved_writeCCR s _ w⟩
  all_goals exact .of_eq rfl rfl rfl rfl rfl rfl rfl

theorem Frame.exceptionSequence (s : State) (kind : Exc) (p : Word) : Frame s (s.exceptionSequence kind p) := by
  rcases s.exceptionSequence_cases kind p with ⟨-, h⟩ | ⟨-, -, h⟩ | ⟨-, -, ⟨k, h⟩, -, hw, -, -, -, hr, -⟩
  · rw [h]; exact .refl s
  · rw [h]; exact .of_eq rfl rfl rfl rfl rfl rfl rfl
  · refine ⟨?_, hw, fun w => hr.trans w⟩
    rw [h]
    exact ⟨rfl, rfl, rfl, rfl, rfl⟩

/-- The loop of LDM. -/
theorem Frame.ldmLoop (l : List Reg) : ∀ (s : State) (off : Word), Frame s (s.ldmLoop off l) := by
  induction l with
  | nil => exact fun s _ => .refl s
  | cons r rest ih =>
    intro s off
    refine Frame.trans ?_ (ih _ _)
    by_cases h : r = .r7
    · simp only [if_pos h]; exact .loadWord _ _
    · simp only [if_neg h]; exact (Frame.loadWord _ _).trans (.setReg _ _ _)

/-- The loop of STM. -/
theorem Frame.stmLoop (l : List Reg) : ∀ s : State, Frame s (s.stmLoop l) := by
  induction l with
  | nil => exact fun s => .refl s
  | cons r rest ih =>
    intro s
    exact ((Frame.setReg _ _ _).trans (.storeWord _ _ _)).trans (ih _)

/-- Return from exception: only SR, CP, PC, R7, the inhibit, the count of free values and a pending address error
change (R342). -/
theorem State.returnFromException_spec (s : State) :
    ∃ k, s.returnFromException = { s with
      regs := s.regs.set .r7 (s.reg .r7 + match s.mode with | .min => 4 | .max => 6)
      sr := s.pop16.1 &&& srBits
      cp := s.returnFromException.cp
      pc := s.returnFromException.pc
      inhibitNext := true
      free := k
      addrErrPending := s.addrErrPending || (s.reg .r7).getLsbD 0 } := by
  obtain ⟨k1, h1⟩ := s.pop16_spec
  obtain ⟨u, hu⟩ : ∃ u, u = s.pop16.2.writeSR s.pop16.1 := ⟨_, rfl⟩
  have u1 : u = { s with
      regs := s.regs.set .r7 (s.reg .r7 + 2), sr := s.pop16.1 &&& srBits, free := k1,
      addrErrPending := s.addrErrPending || (s.reg .r7).getLsbD 0 } := by
    rw [hu, h1]; rfl
  have ur : u.reg .r7 = s.reg .r7 + 2 := by rw [u1]; exact State.reg_setReg_self s .r7 _
  have regs2 : ∀ v w : Word, (s.regs.set .r7 v).set .r7 w = s.regs.set .r7 w := fun _ _ => rfl
  rcases mode_cases s.mode with hm | hm
  · obtain ⟨k2, h2⟩ := u.pop16_spec
    have e : s.returnFromException = { u.pop16.2 with pc := u.pop16.1, inhibitNext := true } := by
      simp only [State.returnFromException, hm, hu]
    refine ⟨k2, ?_⟩
    have ec : s.returnFromException.cp = s.cp := by rw [e, h2, u1]
    rw [ec, e, h2, ur, lsb_add_two, u1]
    simp only [hm, regs2, Bool.or_assoc, Bool.or_self, BitVec.add_assoc]
    rfl
  · obtain ⟨w, hw⟩ : ∃ w, w = ({ u.pop16.2 with cp := u.pop16.1.setWidth 8 } : State) := ⟨_, rfl⟩
    obtain ⟨k2, h2⟩ := u.pop16_spec
    obtain ⟨k3, h3⟩ := w.pop16_spec
    have e : s.returnFromException = { w.pop16.2 with pc := w.pop16.1, inhibitNext := true } := by
      simp only [State.returnFromException, hm, hu, hw]
    have wr : w.reg .r7 = s.reg .r7 + 2 + 2 := by
      rw [hw, h2]
      show State.reg (u.setReg .r7 (u.reg .r7 + 2)) .r7 = _
      rw [State.reg_setReg_self, ur]
    have w1 : w = { u with regs := u.regs.set .r7 (u.reg .r7 + 2), cp := w.cp, free := k2,
                           addrErrPending := u.addrErrPending || (u.reg .r7).getLsbD 0 } := by
      rw [hw, h2]
    refine ⟨k3, ?_⟩
    have ec : s.returnFromException.cp = w.cp := by rw [e, h3]
    rw [ec, e, h3, wr, lsb_add_two, lsb_add_two, w1, ur, lsb_add_two, u1]
    simp only [hm, regs2, Bool.or_assoc, Bool.or_self, BitVec.add_assoc]
    rfl

theorem Frame.returnFromException (s : State) : Frame s s.returnFromException := by
  obtain ⟨k, h⟩ := s.returnFromException_spec
  rw [h]
  exact ⟨⟨rfl, rfl, rfl, rfl, rfl⟩, id, fun _ => State.reserved_writeSR s s.pop16.1⟩

/-- The reset state keeps memory and the reserved bits (R381). -/
theorem Frame.enterReset (s : State) : Frame s s.enterReset := by
  refine ⟨⟨rfl, rfl, rfl, rfl, rfl⟩, id, fun w => ?_⟩
  exact ((State.reserved_setMask s.clearT 7).trans (State.reserved_clearT s)).trans w

end Sys2Proof.Machine
end

