-- ==== Sys2Proof/Tests/Slice0.lean ====
section
/-! SUPPORT. Tests by evaluation: what the well-formedness check refuses, words written out from the encodings of the spec
for every constructor, one step of every instruction with the values of 95_test_vectors.md and the examples of the rules,
and a state that meets the hypotheses of each obligation that has some. -/

namespace Sys2Proof.Tests

open Sys2Proof Sys2Proof.Machine

set_option Elab.async false

/-! ## Helpers -/

/-- Bytes in memory from an address on. -/
def put (a : Nat) (bs : List Byte) (m : Memory) : Memory :=
  (bs.foldl (fun p b => (p.1 + 1, Memory.write p.2 p.1 b)) (a, m)).2

/-- A state with bytes stored from an address on. -/
def store (a : Nat) (bs : List Byte) (s : State) : State := { s with mem := put a bs s.mem }

/-- The conventions of 95_test_vectors.md: minimum mode, code at H'1000, R7 = H'FE00, SR = 0, all of memory RAM. -/
def start (code : List Byte) : State :=
  store 0x1000 code { State.reset with
    regs := ⟨0, 0, 0, 0, 0, 0, 0, 0xFE00⟩, sr := 0, pc := 0x1000, mode := .min, mds := 0b001
    pins := { State.reset.pins with modePins := 0b001 } }

/-- The conventions of its section 2.6: maximum mode, code at H'01:1000, DP, EP, TP, BR = H'02, H'03, H'0F, H'FF. -/
def startMax (code : List Byte) : State :=
  store 0x011000 code { State.reset with
    regs := ⟨0, 0, 0, 0, 0, 0, 0, 0xFE00⟩, sr := 0, pc := 0x1000, cp := 0x01, dp := 0x02, ep := 0x03, tp := 0x0F
    br := 0xFF }

/-- One step gives a next state of which `p` holds. -/
def after (s : State) (p : State → Bool) : Bool :=
  match step s with
  | .next t => p t
  | .fault _ | .refused _ => false

/-- Each byte string decodes, whole, to the instruction beside it. -/
def readsAll (rows : List (List Byte × Instr)) : Bool :=
  rows.all fun r =>
    match decode r.1 with
    | .ok (i, rest) => i == r.2 && rest.isEmpty
    | .error _ => false

/-! ## Well-formedness -/

theorem test_wellformed_refuses_size_of_control_register :
    [Instr.ldc (.imm8 0) .sr, .ldc (.reg .word .r0) .dp, .andc (.imm16 0) .ccr, .orc (.imm8 1) .sr,
      .xorc (.imm16 0) .tp].all fun i => !i.wellFormed := by
  decide +kernel

theorem test_wellformed_refuses_defined_code_as_unspecified :
    [Instr.eaRn .byte .r0 (.op 0x20), .eaPreDec .word .r0 (.op 0x80), .eaPostInc .byte .r1 (.prefixed 0x80),
      .eaInd .byte .r0 (.op 0x17), .eaDisp8 .word .r0 0 (.op 0x05), .eaDisp16 .byte .r0 0 (.op 0x89),
      .eaAbs8 .byte 0 (.op 0x04), .eaAbs16 .word 0 (.op 0x07), .eaImm8 0 0x20, .eaImm16 0 0x48].all
      fun i => !i.wellFormed := by
  decide +kernel

theorem test_wellformed_refuses_defined_code_as_invalid :
    [Instr.invalidOpReg .byte .r0 0x08, .invalidOpMem .byte (.ind .r0) 0x13, .invalidOpImm (.imm8 0) 0x20,
      .invalidSecond01 0xB8, .invalidSecond06 0x14, .invalidSecond07 0x80, .invalidSecond11 0x19,
      .invalidThird .byte (.reg .r0) 0xA0].all fun i => !i.wellFormed := by
  decide +kernel

theorem test_wellformed_refuses_odd_pair :
    [Instr.mulxu (.reg .word .r0) .r1, .divxu (.imm16 2) .r7, .pjmpInd .r3, .pjsrInd .r5].all
      fun i => !i.wellFormed := by
  decide +kernel

theorem test_wellformed_accepts :
    [Instr.ldc (.imm8 0) .tp, .orc (.imm16 0) .sr, .eaRn .word .r0 (.op 0x10), .invalidOpReg .byte .r0 0x04,
      .invalidThird .word (.mem (.abs16 0)) 0x1D, .mulxu (.reg .byte .r0) .r1, .divxu (.imm16 2) .r6,
      .pjsrInd .r4, .nop].all Instr.wellFormed := by
  decide +kernel

/-! ## Decoding: words written out from the encodings of 30_encoding.md and the instruction rules -/

/-- Rules R161 to R175. -/
theorem test_decode_data_transfer :
    readsAll [([0xA0, 0x81], .movGLoad (.reg .byte .r0) .r1), ([0xD9, 0x80], .movGLoad (.mem .word (.ind .r1)) .r0),
    ([0x0C, 0x12, 0x34, 0x85], .movGLoad (.imm16 0x1234) .r5), ([0xD9, 0x90], .movGStore .word .r0 (.ind .r1)),
    ([0xDA, 0x06, 0x80], .movGImm8 .word (.ind .r2) 0x80),
    ([0xD9, 0x07, 0x12, 0x34], .movGImm16 (.ind .r1) 0x1234), ([0xA8, 0x91], .xch .r0 .r1),
    ([0xA8, 0x90], .xch .r0 .r0), ([0xD1, 0x00, 0x90], .movtpe .r0 (.ind .r1)),
    ([0x15, 0xF0, 0x00, 0x00, 0x80], .movfpe (.abs16 0xF000) .r0), ([0xA0, 0x10], .swap .r0),
    ([0x50, 0x55], .movE .r0 0x55), ([0x5D, 0xFF, 0x00], .movI .r5 0xFF00),
    ([0x60, 0xA0], .movL .byte .r0 0xA0), ([0x78, 0xA0], .movS .word .r0 0xA0),
    ([0x80, 0x04], .movFLoad .byte .r0 0x04), ([0x98, 0xFE], .movFStore .word .r0 0xFE),
    ([0x02, 0x1D], .ldm 0x1D), ([0x12, 0x0F], .stm 0x0F)] := by
  decide +kernel

/-- Rules R201 to R227. -/
theorem test_decode_arithmetic :
    readsAll [([0xD0, 0x21], .addG (.mem .byte (.ind .r0)) .r1),
    ([0x0D, 0x11, 0x21], .addG (.mem .word (.abs8 0x11)) .r1), ([0xD8, 0x08], .addQ1 .word (.mem (.ind .r0))),
    ([0xA1, 0x09], .addQ2 .byte (.reg .r1)), ([0xA1, 0x0C], .addQm1 .byte (.reg .r1)),
    ([0xA1, 0x0D], .addQm2 .byte (.reg .r1)), ([0xD9, 0x30], .sub (.mem .word (.ind .r1)) .r0),
    ([0x0C, 0x00, 0x10, 0x2B], .adds (.imm16 0x0010) .r3),
    ([0x0C, 0x00, 0x02, 0x3A], .subs (.imm16 0x0002) .r2),
    ([0xE4, 0x20, 0xA0], .addx (.mem .byte (.disp8 .r4 0x20)) .r0),
    ([0xCA, 0xB0], .subx (.mem .word (.postInc .r2)) .r0), ([0xA0, 0x00, 0xA1], .dadd .r0 .r1),
    ([0xA2, 0x00, 0xB3], .dsub .r2 .r3), ([0xA0, 0xA9], .mulxu (.reg .byte .r0) .r1),
    ([0xDB, 0xB8], .divxu (.mem .word (.ind .r3)) .r0), ([0xA9, 0x70], .cmpG (.reg .word .r1) .r0),
    ([0xC4, 0x04, 0x41], .cmpGImm8 (.postInc .r4) 0x41),
    ([0xDC, 0x05, 0x00, 0x02], .cmpGImm16 (.ind .r4) 0x0002), ([0x40, 0x0A], .cmpE .r0 0x0A),
    ([0x49, 0xFF, 0xFF], .cmpI .r1 0xFFFF), ([0xA0, 0x11], .exts .r0), ([0xA1, 0x12], .extu .r1),
    ([0xF9, 0x10, 0x00, 0x16], .tst .word (.mem (.disp16 .r1 0x1000))), ([0xA8, 0x14], .neg .word (.reg .r0)),
    ([0xFD, 0x10, 0x00, 0x13], .clr .word (.mem (.disp16 .r5 0x1000))),
    ([0x15, 0xF0, 0x00, 0x17], .tas (.mem (.abs16 0xF000)))] := by
  decide +kernel

/-- Rules R261 to R282. -/
theorem test_decode_logic_shift_bit :
    readsAll [([0x05, 0xF8, 0x51], .logAnd (.mem .byte (.abs8 0xF8)) .r1),
    ([0x05, 0xF0, 0x41], .logOr (.mem .byte (.abs8 0xF0)) .r1),
    ([0x05, 0xA0, 0x60], .logXor (.mem .byte (.abs8 0xA0)) .r0),
    ([0xE2, 0x10, 0x15], .logNot .byte (.mem (.disp8 .r2 0x10))),
    ([0xC2, 0x18], .shal .byte (.mem (.postInc .r2))),
    ([0x1D, 0xFF, 0x00, 0x19], .shar .word (.mem (.abs16 0xFF00))), ([0xA1, 0x1A], .shll .byte (.reg .r1)),
    ([0xD9, 0x1B], .shlr .word (.mem (.ind .r1))), ([0xA8, 0x1C], .rotl .word (.reg .r0)),
    ([0xD1, 0x1D], .rotr .byte (.mem (.ind .r1))), ([0xE9, 0x02, 0x1E], .rotxl .word (.mem (.disp8 .r1 0x02))),
    ([0x05, 0xFA, 0x1F], .rotxr .byte (.mem (.abs8 0xFA))),
    ([0xC1, 0xC0], .bsetImm .byte 0 (.mem (.postInc .r1))), ([0xAB, 0x4A], .bsetReg .word .r2 (.reg .r3)),
    ([0x15, 0xFF, 0x00, 0xD7], .bclrImm .byte 7 (.mem (.abs16 0xFF00))),
    ([0xD1, 0x58], .bclrReg .byte .r0 (.mem (.ind .r1))), ([0xA0, 0xE1], .bnotImm .byte 1 (.reg .r0)),
    ([0xA9, 0x68], .bnotReg .word .r0 (.reg .r1)), ([0xDC, 0xFF], .btstImm .word 15 (.mem (.ind .r4))),
    ([0x05, 0xF0, 0x78], .btstReg .byte .r0 (.mem (.abs8 0xF0)))] := by
  decide +kernel

/-- Rules R300, R301. -/
theorem test_decode_conditional_branch :
    readsAll [([0x20, 0x0E], .bra8 0x0E), ([0x21, 0x0E], .brn8 0x0E), ([0x22, 0x0E], .bhi8 0x0E),
    ([0x23, 0x0E], .bls8 0x0E), ([0x24, 0x0E], .bcc8 0x0E), ([0x25, 0x0E], .bcs8 0x0E),
    ([0x26, 0x0E], .bne8 0x0E), ([0x27, 0x0E], .beq8 0x0E), ([0x28, 0x0E], .bvc8 0x0E),
    ([0x29, 0x0E], .bvs8 0x0E), ([0x2A, 0x0E], .bpl8 0x0E), ([0x2B, 0x0E], .bmi8 0x0E),
    ([0x2C, 0x0E], .bge8 0x0E), ([0x2D, 0x0E], .blt8 0x0E), ([0x2E, 0x0E], .bgt8 0x0E),
    ([0x2F, 0x0E], .ble8 0x0E), ([0x30, 0xFF, 0xFD], .bra16 0xFFFD), ([0x31, 0xFF, 0xFD], .brn16 0xFFFD),
    ([0x32, 0xFF, 0xFD], .bhi16 0xFFFD), ([0x33, 0xFF, 0xFD], .bls16 0xFFFD),
    ([0x34, 0xFF, 0xFD], .bcc16 0xFFFD), ([0x35, 0xFF, 0xFD], .bcs16 0xFFFD),
    ([0x36, 0xFF, 0xFD], .bne16 0xFFFD), ([0x37, 0xFF, 0xFD], .beq16 0xFFFD),
    ([0x38, 0xFF, 0xFD], .bvc16 0xFFFD), ([0x39, 0xFF, 0xFD], .bvs16 0xFFFD),
    ([0x3A, 0xFF, 0xFD], .bpl16 0xFFFD), ([0x3B, 0xFF, 0xFD], .bmi16 0xFFFD),
    ([0x3C, 0xFF, 0xFD], .bge16 0xFFFD), ([0x3D, 0xFF, 0xFD], .blt16 0xFFFD),
    ([0x3E, 0xFF, 0xFD], .bgt16 0xFFFD), ([0x3F, 0xFF, 0xFD], .ble16 0xFFFD)] := by
  decide +kernel

/-- Rules R302 to R316. -/
theorem test_decode_jump_call_return :
    readsAll [([0x11, 0xD4], .jmpInd .r4), ([0x10, 0x12, 0x35], .jmpAbs16 0x1235),
    ([0x11, 0xE4, 0x10], .jmpDisp8 .r4 0x10), ([0x11, 0xF4, 0x12, 0x34], .jmpDisp16 .r4 0x1234),
    ([0x13, 0x02, 0x10, 0x00], .pjmpAbs24 0x02 0x1000), ([0x11, 0xC4], .pjmpInd .r4),
    ([0x0E, 0x10], .bsr8 0x10), ([0x1E, 0xEF, 0xFD], .bsr16 0xEFFD), ([0x11, 0xD8], .jsrInd .r0),
    ([0x18, 0x11, 0x00], .jsrAbs16 0x1100), ([0x11, 0xEB, 0x05], .jsrDisp8 .r3 0x05),
    ([0x11, 0xFB, 0x0F, 0xFF], .jsrDisp16 .r3 0x0FFF), ([0x03, 0x01, 0x00, 0x00], .pjsrAbs24 0x01 0x0000),
    ([0x11, 0xCA], .pjsrInd .r2), ([0x19], .rts), ([0x11, 0x19], .prts), ([0x14, 0x04], .rtd8 0x04),
    ([0x1C, 0x00, 0x04], .rtd16 0x0004), ([0x11, 0x14, 0x08], .prtd8 0x08),
    ([0x11, 0x1C, 0x00, 0x08], .prtd16 0x0008), ([0x01, 0xB8, 0xFB], .scbF .r0 0xFB),
    ([0x06, 0xBB, 0xFA], .scbNE .r3 0xFA), ([0x07, 0xBC, 0xFA], .scbEQ .r4 0xFA)] := by
  decide +kernel

/-- Rules R340 to R351. -/
theorem test_decode_system_control :
    readsAll [([0x04, 0x01, 0x8D], .ldc (.imm8 0x01) .dp), ([0xA8, 0x88], .ldc (.reg .word .r0) .sr),
    ([0xA0, 0x9B], .stc .br (.reg .r0)), ([0xA8, 0x98], .stc .sr (.reg .r0)),
    ([0x04, 0xFE, 0x59], .andc (.imm8 0xFE) .ccr), ([0x0C, 0x07, 0x00, 0x48], .orc (.imm16 0x0700) .sr),
    ([0x04, 0x01, 0x69], .xorc (.imm8 0x01) .ccr), ([0x08, 0x14], .trapa 4), ([0x09], .trapvs), ([0x0A], .rte),
    ([0x1A], .sleep), ([0x00], .nop), ([0x17, 0xFC], .link8 0xFC), ([0x1F, 0xFF, 0x00], .link16 0xFF00),
    ([0x0F], .unlk)] := by
  decide +kernel

/-- Rules R117 to R119, V140 to V148. -/
theorem test_decode_invalid :
    readsAll [([0x0B], .invalidFirst0B), ([0x16], .invalidFirst16), ([0x1B], .invalidFirst1B),
    ([0xA0, 0x04], .invalidOpReg .byte .r0 0x04), ([0xD0, 0x10], .invalidOpMem .byte (.ind .r0) 0x10),
    ([0x04, 0x12, 0x18], .invalidOpImm (.imm8 0x12) 0x18),
    ([0x04, 0x12, 0x98], .invalidOpImm (.imm8 0x12) 0x98), ([0x01, 0x20], .invalidSecond01 0x20),
    ([0x06, 0x88], .invalidSecond06 0x88), ([0x07, 0x13], .invalidSecond07 0x13),
    ([0x11, 0x20], .invalidSecond11 0x20), ([0xA0, 0x00, 0x20], .invalidThird .byte (.reg .r0) 0x20),
    ([0xF9, 0x12, 0x34, 0x00, 0xAF], .invalidThird .word (.mem (.disp16 .r1 0x1234)) 0xAF)] := by
  decide +kernel

/-- The codes of R121: word-size SWAP, EXTS and DADD, TAS.W, CMP:G #xx:8 with a word EA, not allowed control registers
(V154). -/
theorem test_decode_unspecified :
    readsAll [([0xA9, 0x10], .eaRn .word .r1 (.op 0x10)), ([0xA9, 0x00, 0xA1], .eaRn .word .r1 (.prefixed 0xA1)),
    ([0xB9, 0x17], .eaPreDec .word .r1 (.op 0x17)), ([0xCA, 0x04], .eaPostInc .word .r2 (.op 0x04)),
    ([0xD2, 0x8A], .eaInd .byte .r2 (.op 0x8A)), ([0xE2, 0x10, 0x9A], .eaDisp8 .byte .r2 0x10 (.op 0x9A)),
    ([0xFA, 0x12, 0x34, 0x00, 0x80], .eaDisp16 .word .r2 0x1234 (.prefixed 0x80)),
    ([0x05, 0x20, 0x07], .eaAbs8 .byte 0x20 (.op 0x07)),
    ([0x1D, 0x20, 0x00, 0x89], .eaAbs16 .word 0x2000 (.op 0x89)), ([0x04, 0x01, 0x8A], .eaImm8 0x01 0x8A),
    ([0x0C, 0x00, 0x01, 0x89], .eaImm16 0x0001 0x89)] := by
  decide +kernel

/-- V155 and U4: codes that are in no row, and a string that ends too early. -/
theorem test_decode_rejects :
    decode [0x08, 0x24] = .error (.undefinedCode 0x08 0x24) ∧ decode [0x01, 0xC0] = .error (.undefinedCode 0x01 0xC0) ∧
      decode [0x11, 0xB8] = .error (.undefinedCode 0x11 0xB8) ∧ decode [0xF0, 0x12] = .error .truncated := by
  decide +kernel

/-- A table row's word: PRTD #xx:8 is H'111400, TRAPA H'0810. -/
theorem test_decodeTableWord :
    decodeTableWord 24 0x111408 = some (.prtd8 0x08) ∧ decodeTableWord 16 0x0814 = some (.trapa 4) ∧
      decodeTableWord 8 0x19 = some .rts := by
  decide +kernel

/-- The very next step runs the word that was placed. -/
theorem test_withFetchWord :
    after (State.reset.withFetchWord 16 0x5055) (fun t => t.reg .r0 == 0x0055 && t.pc == 0x0002) := by
  decide +kernel

/-! ## One step each: data transfer (95_test_vectors.md 2.1 and the examples of R164 to R174) -/

/-- V1; C is kept. -/
theorem test_movG_load_byte :
    after { start [0xA0, 0x81] with regs := ⟨0x1280, 0xFFFF, 0, 0, 0, 0, 0, 0xFE00⟩, sr := 0x0001 } fun t =>
      t.reg .r1 == 0xFF80 && t.sr == 0x0009 && t.pc == 0x1002 := by
  decide +kernel

/-- V4: the displacement wraps in the page. -/
theorem test_movG_load_wraps :
    after (store 0x0070 [0x00, 0x05]
      { start [0xE8, 0x7F, 0x81] with regs := ⟨0xFFF1, 0, 0, 0, 0, 0, 0, 0xFE00⟩ }) fun t =>
      t.reg .r1 == 0x0005 && t.flags == ⟨false, false, false, false⟩ := by
  decide +kernel

/-- V7: the byte is the low byte of the word. -/
theorem test_movG_load_from_stack :
    after (store 0xFDFE [0x55, 0xAB] { start [0xC7, 0x81] with regs := ⟨0, 0, 0, 0, 0, 0, 0, 0xFDFE⟩ }) fun t =>
      t.reg .r1 == 0x00AB && t.reg .r7 == 0xFE00 && t.flags == ⟨true, false, false, false⟩ := by
  decide +kernel

/-- V5: sign-extended. -/
theorem test_movG_imm8_to_word :
    after { start [0xDA, 0x06, 0x80] with regs := ⟨0, 0, 0x3000, 0, 0, 0, 0, 0xFE00⟩ } fun t =>
      t.wordAt 0x3000 == 0xFF80 && t.flags == ⟨true, false, false, false⟩ && t.pc == 0x1003 := by
  decide +kernel

/-- R163. -/
theorem test_movG_imm16 :
    after { start [0xD9, 0x07, 0x12, 0x34] with regs := ⟨0, 0x3000, 0, 0, 0, 0, 0, 0xFE00⟩ } fun t =>
      t.wordAt 0x3000 == 0x1234 && t.flags == ⟨false, false, false, false⟩ && t.pc == 0x1004 := by
  decide +kernel

/-- V6: R7 moves by two (the memory written holds a free byte, which no evaluation can show). -/
theorem test_movG_store_to_stack :
    after { start [0xB7, 0x90] with regs := ⟨0x12AB, 0, 0, 0, 0, 0, 0, 0xFE00⟩ } fun t =>
      t.reg .r7 == 0xFDFE && t.flags == ⟨true, false, false, false⟩ && t.pc == 0x1002 := by
  decide +kernel

/-- R79: MOV.W R7,@-R7 stores the decremented value. -/
theorem test_movG_store_decremented_pointer :
    after (start [0xBF, 0x97]) fun t =>
      t.wordAt 0xFDFE == 0xFDFE && t.reg .r7 == 0xFDFE && t.flags == ⟨true, false, false, false⟩ := by
  decide +kernel

/-- R164: bits 15:8 are kept. -/
theorem test_movE :
    after { start [0x50, 0x55] with regs := ⟨0xAB00, 0, 0, 0, 0, 0, 0, 0xFE00⟩ } fun t =>
      t.reg .r0 == 0xAB55 && t.flags == ⟨false, false, false, false⟩ && t.pc == 0x1002 := by
  decide +kernel

/-- V2. -/
theorem test_movI :
    after { start [0x5A, 0x00, 0x00] with regs := ⟨0, 0, 0x1234, 0, 0, 0, 0, 0xFE00⟩ } fun t =>
      t.reg .r2 == 0x0000 && t.flags == ⟨false, true, false, false⟩ && t.pc == 0x1003 := by
  decide +kernel

/-- V9. -/
theorem test_movL :
    after (store 0xFFA0 [0x7F, 0xFF] { start [0x68, 0xA0] with br := 0xFF }) fun t =>
      t.reg .r0 == 0x7FFF && t.flags == ⟨false, false, false, false⟩ := by
  decide +kernel

/-- V10. -/
theorem test_movS :
    after (store 0x2010 [0x77]
      { start [0x71, 0x10] with regs := ⟨0, 0xAB00, 0, 0, 0, 0, 0, 0xFE00⟩, br := 0x20 }) fun t =>
      Memory.read t.mem 0x2010 == 0x00 && t.flags == ⟨false, true, false, false⟩ := by
  decide +kernel

/-- R168. -/
theorem test_movF_load :
    after (store 0xFD04 [0x9A] { start [0x80, 0x04] with regs := ⟨0x1111, 0, 0, 0, 0, 0, 0xFD00, 0xFE00⟩ }) fun t =>
      t.reg .r0 == 0x119A && t.flags == ⟨true, false, false, false⟩ := by
  decide +kernel

/-- V8. -/
theorem test_movF_store :
    after (store 0xFDFA [0x01, 0x01] { start [0x98, 0xFE] with regs := ⟨0, 0, 0, 0, 0, 0, 0xFDFC, 0xFE00⟩ }) fun t =>
      t.wordAt 0xFDFA == 0x0000 && t.flags == ⟨false, true, false, false⟩ := by
  decide +kernel

/-- V11. -/
theorem test_xch :
    after { start [0xA8, 0x91] with regs := ⟨0x1111, 0x2222, 0, 0, 0, 0, 0, 0xFE00⟩, sr := 0x000F } fun t =>
      t.reg .r0 == 0x2222 && t.reg .r1 == 0x1111 && t.sr == 0x000F := by
  decide +kernel

/-- V12: flags of the whole word. -/
theorem test_swap :
    after { start [0xA0, 0x10] with regs := ⟨0x12FF, 0, 0, 0, 0, 0, 0, 0xFE00⟩ } fun t =>
      t.reg .r0 == 0xFF12 && t.flags == ⟨true, false, false, false⟩ := by
  decide +kernel

/-- V40. -/
theorem test_stm_with_r7 :
    after { start [0x12, 0xC0] with regs := ⟨0, 0, 0, 0, 0, 0, 0x1234, 0xFE00⟩ } fun t =>
      t.wordAt 0xFDFE == 0xFDFE && t.wordAt 0xFDFC == 0x1234 && t.reg .r7 == 0xFDFC := by
  decide +kernel

/-- R171: the highest register is pushed first. -/
theorem test_stm_order :
    after { start [0x12, 0x0F] with regs := ⟨0x0001, 0x0002, 0x0003, 0x0004, 0, 0, 0, 0xFE08⟩ } fun t =>
      t.wordAt 0xFE00 == 0x0001 && t.wordAt 0xFE06 == 0x0004 && t.reg .r7 == 0xFE00 := by
  decide +kernel

/-- V41: the word for R7 is read and dropped. -/
theorem test_ldm_with_r7 :
    after (store 0xFE00 [0x11, 0x11, 0x22, 0x22] (start [0x02, 0x81])) fun t =>
      t.reg .r0 == 0x1111 && t.reg .r7 == 0xFE04 := by
  decide +kernel

/-- R170. -/
theorem test_ldm_order :
    after (store 0xFE00 [0x11, 0x11, 0x22, 0x22, 0x33, 0x33, 0x44, 0x44] (start [0x02, 0x1D])) fun t =>
      t.reg .r0 == 0x1111 && t.reg .r2 == 0x2222 && t.reg .r4 == 0x4444 && t.reg .r7 == 0xFE08 := by
  decide +kernel

/-- V43. -/
theorem test_movtpe :
    after { start [0xD1, 0x00, 0x90] with regs := ⟨0x12AB, 0xF000, 0, 0, 0, 0, 0, 0xFE00⟩, sr := 0x000F } fun t =>
      Memory.read t.mem 0xF000 == 0xAB && t.sr == 0x000F && t.pc == 0x1003 := by
  decide +kernel

/-- R174: no flag changes. -/
theorem test_movfpe :
    after (store 0xF000 [0x9C]
      { start [0x15, 0xF0, 0x00, 0x00, 0x80] with regs := ⟨0x5500, 0, 0, 0, 0, 0, 0, 0xFE00⟩, sr := 0x000F }) fun t =>
      t.reg .r0 == 0x559C && t.sr == 0x000F && t.pc == 0x1005 := by
  decide +kernel

/-! ## Arithmetic (2.2) -/

/-- V14. -/
theorem test_addG_byte :
    after { start [0xA0, 0x21] with regs := ⟨0x007F, 0x1201, 0, 0, 0, 0, 0, 0xFE00⟩ } fun t =>
      t.reg .r1 == 0x1280 && t.flags == ⟨true, false, true, false⟩ := by
  decide +kernel

/-- V15. -/
theorem test_addG_word :
    after { start [0xA8, 0x21] with regs := ⟨0x8000, 0x8000, 0, 0, 0, 0, 0, 0xFE00⟩ } fun t =>
      t.reg .r1 == 0x0000 && t.flags == ⟨false, true, true, true⟩ := by
  decide +kernel

/-- R202. -/
theorem test_addQ1 :
    after (store 0x3000 [0xFF, 0xFF] { start [0xD8, 0x08] with regs := ⟨0x3000, 0, 0, 0, 0, 0, 0, 0xFE00⟩ }) fun t =>
      t.wordAt 0x3000 == 0x0000 && t.flags == ⟨false, true, false, true⟩ := by
  decide +kernel

/-- V17. -/
theorem test_addQ2 :
    after (store 0x3000 [0x7F, 0xFF] { start [0xD8, 0x09] with regs := ⟨0x3000, 0, 0, 0, 0, 0, 0, 0xFE00⟩ }) fun t =>
      t.wordAt 0x3000 == 0x8001 && t.flags == ⟨true, false, true, false⟩ := by
  decide +kernel

/-- R202, by the formulas of R200: 0 + H'FF. -/
theorem test_addQm1 :
    after { start [0xA1, 0x0C] with regs := ⟨0, 0xAA00, 0, 0, 0, 0, 0, 0xFE00⟩ } fun t =>
      t.reg .r1 == 0xAAFF && t.flags == ⟨true, false, false, false⟩ := by
  decide +kernel

/-- V16. -/
theorem test_addQm2 :
    after { start [0xA1, 0x0D] with regs := ⟨0, 0xAA01, 0, 0, 0, 0, 0, 0xFE00⟩ } fun t =>
      t.reg .r1 == 0xAAFF && t.flags == ⟨true, false, false, false⟩ := by
  decide +kernel

/-- V18. -/
theorem test_sub_byte :
    after { start [0xA1, 0x30] with regs := ⟨0x0080, 0x0001, 0, 0, 0, 0, 0, 0xFE00⟩ } fun t =>
      t.reg .r0 == 0x007F && t.flags == ⟨false, false, true, false⟩ := by
  decide +kernel

/-- V19. -/
theorem test_sub_word :
    after { start [0x0C, 0xFF, 0xFF, 0x30] with regs := ⟨0x7FFF, 0, 0, 0, 0, 0, 0, 0xFE00⟩ } fun t =>
      t.reg .r0 == 0x8000 && t.flags == ⟨true, false, true, true⟩ := by
  decide +kernel

/-- V20. -/
theorem test_adds :
    after { start [0x04, 0xF0, 0x2B] with regs := ⟨0, 0, 0, 0x0020, 0, 0, 0, 0xFE00⟩, sr := 0x000F } fun t =>
      t.reg .r3 == 0x0010 && t.sr == 0x000F := by
  decide +kernel

/-- V21. -/
theorem test_subs :
    after { start [0x0C, 0x00, 0x02, 0x3A] with regs := ⟨0, 0, 0x0001, 0, 0, 0, 0, 0xFE00⟩, sr := 0x000F } fun t =>
      t.reg .r2 == 0xFFFF && t.sr == 0x000F := by
  decide +kernel

/-- V22. -/
theorem test_addx_keeps_z :
    after { start [0xAA, 0xA0] with regs := ⟨0xFFFF, 0, 0, 0, 0, 0, 0, 0xFE00⟩, sr := 0x0005 } fun t =>
      t.reg .r0 == 0x0000 && t.flags == ⟨false, true, false, true⟩ := by
  decide +kernel

/-- V23. -/
theorem test_addx_sticky_z :
    after { start [0xAA, 0xA0] with regs := ⟨0xFFFF, 0, 0, 0, 0, 0, 0, 0xFE00⟩, sr := 0x0001 } fun t =>
      t.reg .r0 == 0x0000 && t.flags == ⟨false, false, false, true⟩ := by
  decide +kernel

/-- V24. -/
theorem test_subx :
    after { start [0xA1, 0xB0] with regs := ⟨0, 0x00FF, 0, 0, 0, 0, 0, 0xFE00⟩, sr := 0x0005 } fun t =>
      t.reg .r0 == 0x0000 && t.flags == ⟨false, true, false, true⟩ := by
  decide +kernel

/-- V31. -/
theorem test_dadd :
    after { start [0xA0, 0x00, 0xA1] with regs := ⟨0x0001, 0x0099, 0, 0, 0, 0, 0, 0xFE00⟩, sr := 0x0004 } fun t =>
      t.reg .r1 == 0x0000 && t.flags == ⟨false, true, false, true⟩ := by
  decide +kernel

/-- V32. -/
theorem test_dsub :
    after { start [0xA2, 0x00, 0xB3] with regs := ⟨0, 0, 0x0001, 0, 0, 0, 0, 0xFE00⟩, sr := 0x0004 } fun t =>
      t.reg .r3 == 0x0099 && t.flags == ⟨false, false, false, true⟩ := by
  decide +kernel

/-- V27. -/
theorem test_mulxu_byte :
    after { start [0x04, 0xFF, 0xA8] with regs := ⟨0x12FF, 0, 0, 0, 0, 0, 0, 0xFE00⟩ } fun t =>
      t.reg .r0 == 0xFE01 && t.flags == ⟨true, false, false, false⟩ := by
  decide +kernel

/-- R216: the upper word in Rd. -/
theorem test_mulxu_word :
    after { start [0x0C, 0xFF, 0xFF, 0xAA] with regs := ⟨0, 0, 0xFFFF, 0, 0, 0, 0, 0xFE00⟩ } fun t =>
      t.reg .r2 == 0xFFFE && t.reg .r3 == 0x0001 && t.flags == ⟨true, false, false, false⟩ := by
  decide +kernel

/-- V28. -/
theorem test_divxu_overflow :
    after { start [0x04, 0x01, 0xB8] with regs := ⟨0xFFFF, 0, 0, 0, 0, 0, 0, 0xFE00⟩ } fun t =>
      t.reg .r0 == 0xFFFF && t.flags == ⟨false, false, true, false⟩ := by
  decide +kernel

/-- R218. -/
theorem test_divxu_word :
    after (store 0x3000 [0x00, 0x10]
      { start [0xDB, 0xB8] with regs := ⟨0x0001, 0, 0, 0x3000, 0, 0, 0, 0xFE00⟩ }) fun t =>
      t.reg .r0 == 0x0000 && t.reg .r1 == 0x1000 && t.flags == ⟨false, false, false, false⟩ := by
  decide +kernel

/-- V25. -/
theorem test_cmpG :
    after { start [0xA9, 0x70] with regs := ⟨0x1234, 0x1234, 0, 0, 0, 0, 0, 0xFE00⟩ } fun t =>
      t.reg .r0 == 0x1234 && t.flags == ⟨false, true, false, false⟩ := by
  decide +kernel

/-- X2: 'B' against 'A'. -/
theorem test_cmpG_imm8 :
    after (store 0x3000 [0x42] { start [0xC4, 0x04, 0x41] with regs := ⟨0, 0, 0, 0, 0x3000, 0, 0, 0xFE00⟩ }) fun t =>
      t.reg .r4 == 0x3001 && t.flags == ⟨false, false, false, false⟩ && t.pc == 0x1003 := by
  decide +kernel

/-- R212: memory is the minuend. -/
theorem test_cmpG_imm16 :
    after (store 0x3000 [0x00, 0x01]
      { start [0xDC, 0x05, 0x00, 0x02] with regs := ⟨0, 0, 0, 0, 0x3000, 0, 0, 0xFE00⟩ }) fun t =>
      t.wordAt 0x3000 == 0x0001 && t.flags == ⟨true, false, false, true⟩ && t.pc == 0x1004 := by
  decide +kernel

/-- V26. -/
theorem test_cmpE :
    after { start [0x40, 0x0A] with regs := ⟨0x0005, 0, 0, 0, 0, 0, 0, 0xFE00⟩ } fun t =>
      t.reg .r0 == 0x0005 && t.flags == ⟨true, false, false, true⟩ := by
  decide +kernel

/-- R214. -/
theorem test_cmpI :
    after (start [0x49, 0xFF, 0xFF]) fun t =>
      t.reg .r1 == 0x0000 && t.flags == ⟨false, false, false, true⟩ && t.pc == 0x1003 := by
  decide +kernel

/-- V35. -/
theorem test_exts :
    after { start [0xA0, 0x11] with regs := ⟨0x1280, 0, 0, 0, 0, 0, 0, 0xFE00⟩, sr := 0x0003 } fun t =>
      t.reg .r0 == 0xFF80 && t.flags == ⟨true, false, false, false⟩ := by
  decide +kernel

/-- V36. -/
theorem test_extu :
    after { start [0xA1, 0x12] with regs := ⟨0, 0xFF00, 0, 0, 0, 0, 0, 0xFE00⟩, sr := 0x0003 } fun t =>
      t.reg .r1 == 0x0000 && t.flags == ⟨false, true, false, false⟩ := by
  decide +kernel

/-- V37. -/
theorem test_tst :
    after (store 0x3000 [0x80, 0x00]
      { start [0xF9, 0x10, 0x00, 0x16] with regs := ⟨0, 0x2000, 0, 0, 0, 0, 0, 0xFE00⟩, sr := 0x0003 }) fun t =>
      t.wordAt 0x3000 == 0x8000 && t.flags == ⟨true, false, false, false⟩ := by
  decide +kernel

/-- V33. -/
theorem test_neg_word :
    after { start [0xA8, 0x14] with regs := ⟨0x8000, 0, 0, 0, 0, 0, 0, 0xFE00⟩ } fun t =>
      t.reg .r0 == 0x8000 && t.flags == ⟨true, false, true, true⟩ := by
  decide +kernel

/-- V34. -/
theorem test_neg_byte :
    after { start [0xA0, 0x14] with regs := ⟨0x1200, 0, 0, 0, 0, 0, 0, 0xFE00⟩ } fun t =>
      t.reg .r0 == 0x1200 && t.flags == ⟨false, true, false, false⟩ := by
  decide +kernel

/-- V38. -/
theorem test_clr :
    after { start [0xA2, 0x13] with regs := ⟨0, 0, 0xABCD, 0, 0, 0, 0, 0xFE00⟩, sr := 0x000F } fun t =>
      t.reg .r2 == 0xAB00 && t.flags == ⟨false, true, false, false⟩ := by
  decide +kernel

/-- V39: the flags are those of the old byte. -/
theorem test_tas :
    after { start [0xD0, 0x17] with regs := ⟨0x3000, 0, 0, 0, 0, 0, 0, 0xFE00⟩, sr := 0x0003 } fun t =>
      Memory.read t.mem 0x3000 == 0x80 && !t.busLock && t.flags == ⟨false, true, false, false⟩ := by
  decide +kernel

/-! ## Logic, shift, bit (2.3) -/

/-- V50. -/
theorem test_and :
    after (store 0xFFF8 [0x0F]
      { start [0x05, 0xF8, 0x51] with regs := ⟨0, 0x12F3, 0, 0, 0, 0, 0, 0xFE00⟩, br := 0xFF }) fun t =>
      t.reg .r1 == 0x1203 && t.flags == ⟨false, false, false, false⟩ := by
  decide +kernel

/-- V52. -/
theorem test_or :
    after { start [0x0C, 0x80, 0x00, 0x42] with regs := ⟨0, 0, 0x0001, 0, 0, 0, 0, 0xFE00⟩, sr := 0x0001 } fun t =>
      t.reg .r2 == 0x8001 && t.flags == ⟨true, false, false, true⟩ := by
  decide +kernel

/-- V51. -/
theorem test_xor :
    after { start [0xA8, 0x60] with regs := ⟨0xBEEF, 0, 0, 0, 0, 0, 0, 0xFE00⟩ } fun t =>
      t.reg .r0 == 0x0000 && t.flags == ⟨false, true, false, false⟩ := by
  decide +kernel

/-- V53. -/
theorem test_not :
    after (store 0x3010 [0xFF] { start [0xE2, 0x10, 0x15] with regs := ⟨0, 0, 0x3000, 0, 0, 0, 0, 0xFE00⟩ }) fun t =>
      Memory.read t.mem 0x3010 == 0x00 && t.flags == ⟨false, true, false, false⟩ := by
  decide +kernel

/-- V55. -/
theorem test_shal :
    after { start [0xA0, 0x18] with regs := ⟨0x0040, 0, 0, 0, 0, 0, 0, 0xFE00⟩ } fun t =>
      t.reg .r0 == 0x0080 && t.flags == ⟨true, false, true, false⟩ := by
  decide +kernel

/-- V56. -/
theorem test_shar :
    after { start [0xA0, 0x19] with regs := ⟨0x0081, 0, 0, 0, 0, 0, 0, 0xFE00⟩ } fun t =>
      t.reg .r0 == 0x00C0 && t.flags == ⟨true, false, false, true⟩ := by
  decide +kernel

/-- V57. -/
theorem test_shll :
    after { start [0xA1, 0x1A] with regs := ⟨0, 0x55C0, 0, 0, 0, 0, 0, 0xFE00⟩ } fun t =>
      t.reg .r1 == 0x5580 && t.flags == ⟨true, false, false, true⟩ := by
  decide +kernel

/-- V58. -/
theorem test_shlr :
    after (store 0x3000 [0x00, 0x01] { start [0xD9, 0x1B] with regs := ⟨0, 0x3000, 0, 0, 0, 0, 0, 0xFE00⟩ }) fun t =>
      t.wordAt 0x3000 == 0x0000 && t.flags == ⟨false, true, false, true⟩ := by
  decide +kernel

/-- V59. -/
theorem test_rotl :
    after { start [0xA8, 0x1C] with regs := ⟨0x8000, 0, 0, 0, 0, 0, 0, 0xFE00⟩ } fun t =>
      t.reg .r0 == 0x0001 && t.flags == ⟨false, false, false, true⟩ := by
  decide +kernel

/-- V60. -/
theorem test_rotr :
    after { start [0xA0, 0x1D] with regs := ⟨0x0001, 0, 0, 0, 0, 0, 0, 0xFE00⟩ } fun t =>
      t.reg .r0 == 0x0080 && t.flags == ⟨true, false, false, true⟩ := by
  decide +kernel

/-- V61. -/
theorem test_rotxl :
    after { start [0xA0, 0x1E] with sr := 0x0001 } fun t =>
      t.reg .r0 == 0x0001 && t.flags == ⟨false, false, false, false⟩ := by
  decide +kernel

/-- V62. -/
theorem test_rotxr :
    after { start [0xA8, 0x1F] with regs := ⟨0x0001, 0, 0, 0, 0, 0, 0, 0xFE00⟩ } fun t =>
      t.reg .r0 == 0x0000 && t.flags == ⟨false, true, false, true⟩ := by
  decide +kernel

/-- V63. -/
theorem test_bset_imm :
    after { start [0xC1, 0xC0] with regs := ⟨0, 0x3000, 0, 0, 0, 0, 0, 0xFE00⟩ } fun t =>
      Memory.read t.mem 0x3000 == 0x01 && t.reg .r1 == 0x3001 && t.flags == ⟨false, true, false, false⟩ := by
  decide +kernel

/-- R276. -/
theorem test_bset_reg :
    after { start [0xAB, 0x4A] with regs := ⟨0, 0, 0xFFFF, 0, 0, 0, 0, 0xFE00⟩ } fun t =>
      t.reg .r3 == 0x8000 && t.flags == ⟨false, true, false, false⟩ := by
  decide +kernel

/-- V64. -/
theorem test_bclr_imm :
    after { start [0xAA, 0xDF] with regs := ⟨0, 0, 0xFFFF, 0, 0, 0, 0, 0xFE00⟩, sr := 0x0004 } fun t =>
      t.reg .r2 == 0x7FFF && t.flags == ⟨false, false, false, false⟩ := by
  decide +kernel

/-- R278. -/
theorem test_bclr_reg :
    after (store 0x3000 [0xFF]
      { start [0xD1, 0x58] with regs := ⟨0x0003, 0x3000, 0, 0, 0, 0, 0, 0xFE00⟩, sr := 0x0004 }) fun t =>
      Memory.read t.mem 0x3000 == 0xF7 && t.flags == ⟨false, false, false, false⟩ := by
  decide +kernel

/-- R279. -/
theorem test_bnot_imm :
    after { start [0xA0, 0xE1] with regs := ⟨0x0002, 0, 0, 0, 0, 0, 0, 0xFE00⟩, sr := 0x0004 } fun t =>
      t.reg .r0 == 0x0000 && t.flags == ⟨false, false, false, false⟩ := by
  decide +kernel

/-- V65. -/
theorem test_bnot_reg :
    after { start [0xA9, 0x68] with regs := ⟨0xFFFF, 0, 0, 0, 0, 0, 0, 0xFE00⟩ } fun t =>
      t.reg .r1 == 0x8000 && t.flags == ⟨false, true, false, false⟩ := by
  decide +kernel

/-- R281. -/
theorem test_btst_imm :
    after (store 0x3000 [0x80, 0x00]
      { start [0xDC, 0xFF] with regs := ⟨0, 0, 0, 0, 0x3000, 0, 0, 0xFE00⟩, sr := 0x0004 }) fun t =>
      t.wordAt 0x3000 == 0x8000 && t.flags == ⟨false, false, false, false⟩ := by
  decide +kernel

/-- V66. -/
theorem test_btst_reg :
    after (store 0xFFF0 [0x80]
      { start [0x05, 0xF0, 0x78] with regs := ⟨0xFFF7, 0, 0, 0, 0, 0, 0, 0xFE00⟩, sr := 0x0004, br := 0xFF }) fun t =>
      Memory.read t.mem 0xFFF0 == 0x80 && t.flags == ⟨false, false, false, false⟩ := by
  decide +kernel

/-! ## Branches (2.4) -/

/-- V70. -/
theorem test_beq_taken :
    after { start [0x27, 0x0E] with sr := 0x0004 } fun t =>
      t.sr == 0x0004 && t.pc == 0x1010 := by
  decide +kernel

/-- V71. -/
theorem test_beq_not_taken :
    after (start [0x27, 0x0E]) fun t =>
      t.pc == 0x1002 := by
  decide +kernel

/-- V72. -/
theorem test_bra_to_itself :
    after (start [0x20, 0xFE]) fun t =>
      t.pc == 0x1000 := by
  decide +kernel

/-- V73. -/
theorem test_bne_word :
    after (start [0x36, 0xFF, 0xFD]) fun t =>
      t.pc == 0x1000 := by
  decide +kernel

/-- V74. -/
theorem test_brn :
    after (start [0x21, 0x55]) fun t =>
      t.pc == 0x1002 := by
  decide +kernel

/-- V75. -/
theorem test_bgt :
    after { start [0x2E, 0x04] with sr := 0x000A } fun t =>
      t.pc == 0x1006 := by
  decide +kernel

/-- V76. -/
theorem test_ble :
    after { start [0x2F, 0x04] with sr := 0x0008 } fun t =>
      t.pc == 0x1006 := by
  decide +kernel

/-- V77. -/
theorem test_bhi_not_taken :
    after { start [0x22, 0x04] with sr := 0x0004 } fun t =>
      t.pc == 0x1002 := by
  decide +kernel

/-- V79. -/
theorem test_bsr_byte :
    after (start [0x0E, 0x10]) fun t =>
      t.wordAt 0xFDFE == 0x1002 && t.reg .r7 == 0xFDFE && t.pc == 0x1012 := by
  decide +kernel

/-- V80. -/
theorem test_bsr_word :
    after (start [0x1E, 0xEF, 0xFD]) fun t =>
      t.wordAt 0xFDFE == 0x1003 && t.pc == 0x0000 := by
  decide +kernel

/-- V81. -/
theorem test_jmp_disp8 :
    after { start [0x11, 0xE4, 0x10] with regs := ⟨0, 0, 0, 0, 0x2000, 0, 0, 0xFE00⟩ } fun t =>
      t.pc == 0x2010 := by
  decide +kernel

/-- V82. -/
theorem test_jmp_abs :
    after (start [0x10, 0x12, 0x35]) fun t =>
      t.pc == 0x1235 := by
  decide +kernel

/-- V83. -/
theorem test_jsr_disp16 :
    after { start [0x11, 0xFB, 0x0F, 0xFF] with regs := ⟨0, 0, 0, 0x1001, 0, 0, 0, 0xFE00⟩ } fun t =>
      t.wordAt 0xFDFE == 0x1004 && t.reg .r7 == 0xFDFE && t.pc == 0x2000 := by
  decide +kernel

/-- R305: the target is read before the push (D5). -/
theorem test_jsr_sp :
    after (start [0x11, 0xDF]) fun t =>
      t.wordAt 0xFDFE == 0x1002 && t.pc == 0xFE00 := by
  decide +kernel

/-- V84. -/
theorem test_rts :
    after (store 0xFDFE [0x10, 0x04] { start [0x19] with regs := ⟨0, 0, 0, 0, 0, 0, 0, 0xFDFE⟩ }) fun t =>
      t.reg .r7 == 0xFE00 && t.pc == 0x1004 := by
  decide +kernel

/-- V85. -/
theorem test_rtd :
    after (store 0xFDFE [0x10, 0x04] { start [0x14, 0x04] with regs := ⟨0, 0, 0, 0, 0, 0, 0, 0xFDFE⟩ }) fun t =>
      t.reg .r7 == 0xFE04 && t.pc == 0x1004 := by
  decide +kernel

/-- V86. -/
theorem test_scbF_exit :
    after (start [0x01, 0xB8, 0xFD]) fun t =>
      t.reg .r0 == 0xFFFF && t.pc == 0x1003 := by
  decide +kernel

/-- V87. -/
theorem test_scbF_branch :
    after { start [0x01, 0xB8, 0xFD] with regs := ⟨0x0001, 0, 0, 0, 0, 0, 0, 0xFE00⟩ } fun t =>
      t.reg .r0 == 0x0000 && t.pc == 0x1000 := by
  decide +kernel

/-- V88. -/
theorem test_scbNE :
    after { start [0x06, 0xBB, 0xFD] with regs := ⟨0, 0, 0, 0x0005, 0, 0, 0, 0xFE00⟩ } fun t =>
      t.reg .r3 == 0x0005 && t.pc == 0x1003 := by
  decide +kernel

/-- X3: Z = 1 leaves the loop. -/
theorem test_scbEQ :
    after { start [0x07, 0xBB, 0xFA] with regs := ⟨0, 0, 0, 0x0006, 0, 0, 0, 0xFE00⟩, sr := 0x0004 } fun t =>
      t.reg .r3 == 0x0006 && t.pc == 0x1003 := by
  decide +kernel

/-- V89. -/
theorem test_pjmp_register :
    after { startMax [0x11, 0xC4] with regs := ⟨0, 0, 0, 0, 0x0002, 0x8000, 0, 0xFE00⟩ } fun t =>
      t.cp == 0x02 && t.pc == 0x8000 := by
  decide +kernel

/-- V90. -/
theorem test_pjmp_minimum :
    after (store 0x0004 [0x48, 0x00] (start [0x11, 0xC4])) fun t =>
      t.wordAt 0xFDFE == 0x1002 && t.reg .r7 == 0xFDFC && t.pc == 0x4800 := by
  decide +kernel

/-- V91. -/
theorem test_pjmp_absolute :
    after (startMax [0x13, 0x02, 0x10, 0x00]) fun t =>
      t.cp == 0x02 && t.pc == 0x1000 := by
  decide +kernel

/-- X9. -/
theorem test_pjsr :
    after (startMax [0x03, 0x02, 0x10, 0x00]) fun t =>
      t.wordAt 0x0FFDFE == 0x1004 && t.wordAt 0x0FFDFC == 0x0001 && t.reg .r7 == 0xFDFC && t.cp == 0x02 &&
      t.pc == 0x1000 := by
  decide +kernel

/-- X9. -/
theorem test_prts :
    after (store 0xFFDFC [0x00, 0x01, 0x10, 0x04]
      { startMax [0x11, 0x19] with regs := ⟨0, 0, 0, 0, 0, 0, 0, 0xFDFC⟩, cp := 0x01 }) fun t =>
      t.cp == 0x01 && t.reg .r7 == 0xFE00 && t.pc == 0x1004 := by
  decide +kernel

/-- R310: PRTS, then R7 + 8. -/
theorem test_prtd :
    after (store 0xFFDFC [0x7F, 0x05, 0x10, 0x04]
      { startMax [0x11, 0x14, 0x08] with regs := ⟨0, 0, 0, 0, 0, 0, 0, 0xFDFC⟩ }) fun t =>
      t.cp == 0x05 && t.reg .r7 == 0xFE08 && t.pc == 0x1004 := by
  decide +kernel

/-! ## System control (2.5) -/

/-- V100. -/
theorem test_ldc_page :
    after { start [0x04, 0x01, 0x8D] with sr := 0x000F } fun t =>
      t.dp == 0x01 && t.sr == 0x000F && t.pc == 0x1003 := by
  decide +kernel

/-- V101: no trace after it. -/
theorem test_ldc_sr :
    after (start [0x0C, 0xFF, 0xFF, 0x88]) fun t =>
      t.sr == 0x870F && t.pc == 0x1004 := by
  decide +kernel

/-- V103 (with T = 0). -/
theorem test_stc_sr :
    after { start [0xA8, 0x98] with sr := 0x0305 } fun t =>
      t.reg .r0 == 0x0305 && t.sr == 0x0305 := by
  decide +kernel

/-- V104. -/
theorem test_stc_ccr :
    after { start [0xA0, 0x99] with regs := ⟨0xFFFF, 0, 0, 0, 0, 0, 0, 0xFE00⟩, sr := 0x070A } fun t =>
      t.reg .r0 == 0xFF0A := by
  decide +kernel

/-- V105. -/
theorem test_andc :
    after { start [0x04, 0xFE, 0x59] with sr := 0x000F } fun t =>
      t.sr == 0x000E := by
  decide +kernel

/-- V106. -/
theorem test_orc_sr :
    after { start [0x0C, 0x07, 0x00, 0x48] with sr := 0x8004 } fun t =>
      t.sr == 0x8704 && t.pc == 0x1004 := by
  decide +kernel

/-- V108: flags of the byte, C kept. -/
theorem test_orc_br :
    after { start [0x04, 0x80, 0x4B] with sr := 0x0005 } fun t =>
      t.br == 0x80 && t.sr == 0x0009 := by
  decide +kernel

/-- V107. -/
theorem test_xorc :
    after { start [0x04, 0x01, 0x69] with sr := 0x0001 } fun t =>
      t.sr == 0x0000 := by
  decide +kernel

/-- V109. -/
theorem test_link8 :
    after { start [0x17, 0xFC] with regs := ⟨0, 0, 0, 0, 0, 0, 0x1234, 0xFE00⟩ } fun t =>
      t.wordAt 0xFDFE == 0x1234 && t.reg .r6 == 0xFDFE && t.reg .r7 == 0xFDFA := by
  decide +kernel

/-- V110. -/
theorem test_link16 :
    after { start [0x1F, 0xFF, 0x00] with regs := ⟨0, 0, 0, 0, 0, 0, 0x1234, 0xFE00⟩ } fun t =>
      t.wordAt 0xFDFE == 0x1234 && t.reg .r6 == 0xFDFE && t.reg .r7 == 0xFCFE := by
  decide +kernel

/-- V111. -/
theorem test_unlk :
    after (store 0xFDFE [0x12, 0x34] { start [0x0F] with regs := ⟨0, 0, 0, 0, 0, 0, 0xFDFE, 0xFDFA⟩ }) fun t =>
      t.reg .r7 == 0xFE00 && t.reg .r6 == 0x1234 := by
  decide +kernel

/-- V112. -/
theorem test_nop :
    after { start [0x00] with sr := 0x000F } fun t =>
      t.sr == 0x000F && t.pc == 0x1001 := by
  decide +kernel

/-- V113. -/
theorem test_trapvs_clear :
    after (start [0x09]) fun t =>
      t.reg .r7 == 0xFE00 && t.pc == 0x1001 := by
  decide +kernel

/-- V114. -/
theorem test_trapvs_set :
    after (store 0x0008 [0x40, 0x00] { start [0x09] with sr := 0x0002 }) fun t =>
      t.wordAt 0xFDFE == 0x1001 && t.wordAt 0xFDFC == 0x0002 && t.reg .r7 == 0xFDFC && t.sr == 0x0002 &&
      t.pc == 0x4000 := by
  decide +kernel

/-- S10. -/
theorem test_trapa_maximum :
    after (store 0x0040 [0x00, 0x03, 0x80, 0x00] (startMax [0x08, 0x10])) fun t =>
      t.wordAt 0x0FFDFE == 0x1002 && t.wordAt 0x0FFDFC == 0x0001 && t.wordAt 0x0FFDFA == 0 && t.reg .r7 == 0xFDFA &&
      t.cp == 0x03 && t.pc == 0x8000 := by
  decide +kernel

/-- S10: the return. -/
theorem test_rte :
    after (store 0xFFDFC [0x00, 0x01, 0x10, 0x02]
      { startMax [0x0A] with regs := ⟨0, 0, 0, 0, 0, 0, 0, 0xFDFA⟩, sr := 0x0705 }) fun t =>
      t.sr == 0x0000 && t.cp == 0x01 && t.reg .r7 == 0xFE00 && t.pc == 0x1002 := by
  decide +kernel

/-- S11. -/
theorem test_sleep :
    after (start [0x1A]) fun t =>
      t.proc == .sleep && t.pc == 0x1001 := by
  decide +kernel

/-! ## Addressing in maximum mode (2.6) -/

/-- V120. -/
theorem test_page_dp :
    after (store 0x21234 [0x5A] { startMax [0xD0, 0x81] with regs := ⟨0x1234, 0, 0, 0, 0, 0, 0, 0xFE00⟩ }) fun t =>
      t.reg .r1 == 0x005A := by
  decide +kernel

/-- V122. -/
theorem test_page_ep :
    after (store 0x31234 [0x5A] { startMax [0xD5, 0x81] with regs := ⟨0, 0, 0, 0, 0, 0x1234, 0, 0xFE00⟩ }) fun t =>
      t.reg .r1 == 0x005A := by
  decide +kernel

/-- V124. -/
theorem test_page_tp_wraps :
    after (store 0xF7E00 [0x5A] (startMax [0xF7, 0x80, 0x00, 0x81])) fun t =>
      t.reg .r1 == 0x005A := by
  decide +kernel

/-- V125. -/
theorem test_page_zero_br :
    after (store 0xFF20 [0x5A] (startMax [0x05, 0x20, 0x81])) fun t =>
      t.reg .r1 == 0x005A := by
  decide +kernel

/-- V126. -/
theorem test_page_abs16 :
    after (store 0x24000 [0x5A] (startMax [0x15, 0x40, 0x00, 0x81])) fun t =>
      t.reg .r1 == 0x005A := by
  decide +kernel

/-- V127. -/
theorem test_page_no_borrow :
    after (store 0x2FFFE [0x12, 0x34] { startMax [0xBB, 0x81] with regs := ⟨0, 0, 0, 0, 0, 0, 0, 0xFE00⟩ }) fun t =>
      t.reg .r1 == 0x1234 && t.reg .r3 == 0xFFFE := by
  decide +kernel

/-! ## Exceptions and processing states (part 3) -/

/-- S1. -/
theorem test_reset_minimum :
    after (store 0x0000 [0x10, 0x00] { start [] with proc := .resetState }) fun t =>
      t.proc == .execution && t.mode == .min && !t.inhibitNext && t.pc == 0x1000 := by
  decide +kernel

/-- S2. -/
theorem test_reset_maximum :
    after (store 0x0000 [0x00, 0x01, 0x10, 0x00] { startMax [] with proc := .resetState }) fun t =>
      t.cp == 0x01 && t.mode == .max && t.pc == 0x1000 := by
  decide +kernel

/-- S3. -/
theorem test_trace :
    after (store 0x0012 [0x50, 0x00] { start [0x00] with sr := 0x8000 }) fun t =>
      t.wordAt 0xFDFE == 0x1001 && t.wordAt 0xFDFC == 0x8000 && t.reg .r7 == 0xFDFC && t.sr == 0x0000 &&
      t.pc == 0x5000 := by
  decide +kernel

/-- S4. -/
theorem test_invalid_first_byte :
    after (store 0x0004 [0x48, 0x00] { start [0x0B] with sr := 0x0300 }) fun t =>
      t.wordAt 0xFDFE == 0x1001 && t.wordAt 0xFDFC == 0x0300 && t.sr == 0x0300 && t.pc == 0x4800 := by
  decide +kernel

/-- S5. -/
theorem test_zero_divide :
    after (store 0x0006 [0x44, 0x00]
      { start [0x04, 0x00, 0xB8] with regs := ⟨0x1234, 0, 0, 0, 0, 0, 0, 0xFE00⟩, sr := 0x000B }) fun t =>
      t.reg .r0 == 0x1234 && t.wordAt 0xFDFC == 0x0004 && t.wordAt 0xFDFE == 0x1003 && t.sr == 0x0004 &&
      t.pc == 0x4400 := by
  decide +kernel

/-- S6, with a store: R399, the write is not performed. -/
theorem test_address_error :
    after (store 0x0010 [0x4C, 0x00]
      { start [0xD9, 0x90] with regs := ⟨0x1234, 0x2001, 0, 0, 0, 0, 0, 0xFE00⟩ }) fun t =>
      t.wordAt 0xFDFE == 0x1002 && t.reg .r7 == 0xFDFC && Memory.read t.mem 0x2001 == 0x00 && !t.addrErrPending &&
      t.pc == 0x4C00 := by
  decide +kernel

/-- S7, step 1. -/
theorem test_mask_change_inhibits :
    after { start [0x0C, 0xF8, 0xFF, 0x58] with sr := 0x0700, requests := [.irq 5 8] } fun t =>
      t.sr == 0x0000 && t.requests == [.irq 5 8] && t.pc == 0x1004 := by
  decide +kernel

/-- S7, step 2. -/
theorem test_interrupt :
    after (store 0x0050 [0x40, 0x00] { start [0x00] with requests := [.irq 5 8] }) fun t =>
      t.wordAt 0xFDFE == 0x1001 && t.sr == 0x0500 && t.requests == [] && t.pc == 0x4000 := by
  decide +kernel

/-- S8. -/
theorem test_nmi :
    after (store 0x0016 [0x41, 0x00] { start [0x00] with sr := 0x0700, requests := [.nmi] }) fun t =>
      t.wordAt 0xFDFC == 0x0700 && t.sr == 0x0700 && t.pc == 0x4100 := by
  decide +kernel

/-- S9. -/
theorem test_trace_then_interrupt :
    after (store 0x0042 [0x60, 0x00] (store 0x0012 [0x50, 0x00]
      { start [0x00] with sr := 0x8000, requests := [.irq 3 1] })) fun t =>
      t.reg .r7 == 0xFDF8 && t.sr == 0x0300 && t.wordAt 0xFDFE == 0x1001 && t.wordAt 0xFDFA == 0x5000 &&
      t.wordAt 0xFDF8 == 0x0000 && t.pc == 0x6000 := by
  decide +kernel

/-- S11. -/
theorem test_wake_up :
    after (store 0x0040 [0x42, 0x00] { start [] with proc := .sleep, pc := 0x1001, requests := [.irq 1 0] }) fun t =>
      t.wordAt 0xFDFE == 0x1001 && t.sr == 0x0100 && t.proc == .execution && t.pc == 0x4200 := by
  decide +kernel

/-- S12. -/
theorem test_double_fault :
    after { start [0x08, 0x10] with regs := ⟨0, 0, 0, 0, 0, 0, 0, 0xFDFF⟩ } fun t =>
      t.proc == .doubleFault := by
  decide +kernel

/-! ## The parameters of a chip -/

/-- With 20 address lines H'1F:1000 is H'0F:1000; with 24 it is not (R7, D19). -/
theorem test_address_lines :
    let s : State := startMax []
    let few : State := { s with chip := { s.chip with pageLines := 4 } }
    ((few.storeByte 0x0F1000 0x5A).loadByte 0x1F1000).1 = 0x5A ∧
      ((s.storeByte 0x0F1000 0x5A).loadByte 0x1F1000).1 = 0 := by
  decide +kernel

/-- A chip with ROM, a register field with read side effects and one without, and an empty place. -/
def mapped : State :=
  { start [] with chip := { State.reset.chip with memoryMap :=
      [⟨0, 0x7FFF, .onChip, .rom⟩, ⟨0xFF80, 0xFFBF, .onChip, .registerField true⟩,
        ⟨0xFFC0, 0xFFFF, .external, .registerField false⟩, ⟨0x8000, 0x8FFF, .external, .empty⟩] } }

/-- ROM and registers drop a write; a read changes the device only where it has read side effects (R83, R84). -/
theorem test_memory_map :
    [(0x7FFF : Addr), 0xFF80, 0xFFC0, 0x8000].all (fun a => mapped.storeByte a 0x5A == mapped) ∧
      (mapped.loadByte 0xFFC0).2 = mapped ∧ (mapped.loadByte 0x7FFF).2 = mapped ∧
      (mapped.loadByte 0xFF80).2 = mapped.tick ∧ ((mapped.storeByte 0xF000 0x5A).loadByte 0xF000).1 = 0x5A := by
  decide +kernel

/-- Hardware standby holds what is in on-chip RAM and in ROM; what was in other RAM is no longer listed (R426). -/
theorem test_hardware_standby_memory :
    let s : State := { start [] with
      mem := put 0xFB80 [0x12] (put 0x9000 [0x34] (put 0x1000 [0x56] ⟨[], []⟩))
      chip := { State.reset.chip with memoryMap :=
        [⟨0, 0x7FFF, .external, .rom⟩, ⟨0x8000, 0xFB7F, .external, .ram⟩, ⟨0xFB80, 0xFF7F, .onChip, .ram⟩] }
      pins := { (start []).pins with stbyLow := true } }
    after s fun t => t.proc == .hardwareStandby && t.mem.cells == [(0x1000, 0x56), (0xFB80, 0x12)] &&
      (t.mem.read 0x1000 == 0x56) && (t.mem.read 0xFB80 == 0x12) && (t.mem.read 0xFB81 == 0) := by
  decide +kernel

/-- The chip on which a fetch may not see a store (R89, D4). -/
def incoherent (code : List Byte) : State :=
  { start code with chip := { State.reset.chip with ifetchCoherent := false } }

/-- The step after `n` others refuses because the instruction was stored to. -/
def refusesAfter : Nat → State → Bool
  | n, s =>
    match step s, n with
    | .next t, n + 1 => refusesAfter n t
    | .refused .storeAheadOfFetch, 0 => true
    | _, _ => false

/-- MOV:G.B R0,@H'1005: the second instruction after it is refused; stored to the third, or on a chip with a coherent
fetch, nothing is. -/
theorem test_ifetch_coherent :
    refusesAfter 2 (incoherent [0x15, 0x10, 0x05, 0x90, 0x00, 0x00, 0x00]) ∧
      !refusesAfter 3 (incoherent [0x15, 0x10, 0x06, 0x90, 0x00, 0x00, 0x00]) ∧
      !refusesAfter 2 (start [0x15, 0x10, 0x05, 0x90, 0x00, 0x00, 0x00]) := by
  decide +kernel

/-! ## Witnesses: states and operands that meet the hypotheses of the obligations -/

/-- The ordinary conditions of an exception entry are met at the states the tests start from. -/
theorem allRam_canEnter (s : State) (kind : Exc) (hc : s.chip = State.reset.chip) (hw : s.mem.wf = true)
    (he : (s.reg .r7).getLsbD 0 = false) (hp : s.proc ≠ .doubleFault) : s.canEnter kind :=
  ⟨⟨fun _ _ => by rw [hc]; rfl, hw, he⟩, fun _ _ => .inl (by rw [hc]; rfl), hp⟩

theorem start_canEnter (kind : Exc) : (start []).canEnter kind :=
  allRam_canEnter _ _ rfl (by decide +kernel) (by decide +kernel) (by decide +kernel)

/-- They are met on a chip with ROM at the vectors and a register field beside the stack. -/
theorem witness_canEnter_with_rom :
    let s : State := { start [] with chip := { (start []).chip with
      memoryMap := [⟨0, 0x7FFF, .onChip, .rom⟩, ⟨0xFF80, 0xFFFF, .onChip, .registerField true⟩] } }
    s.canEnter .trace :=
  ⟨⟨by unfold State.ramAt; decide +kernel, by decide +kernel, by decide +kernel⟩,
    by unfold State.memAt; decide +kernel, by decide +kernel⟩

theorem witness_DecodeEncode :
    Instr.encodable (.ldc (.imm16 0) .sr) = true ∧ Instr.encodable (.eaRn .word .r7 (.prefixed 0xFF)) = true := by
  decide +kernel

theorem witness_EncodeDecode : decode [0xFF, 0x12, 0x34, 0x07, 0x56, 0x78, 0x00] =
    .ok (.movGImm16 (.disp16 .r7 0x1234) 0x5678, [0x00]) := by
  decide +kernel

theorem witness_InstructionLength : 6 ≤ ([0xFF, 0x12, 0x34, 0x07, 0x56, 0x78] : List Byte).length := by decide

theorem witness_StepRunsDecodedInstruction :
    (start [0x50, 0x55]).withoutInstruction = none ∧ (start [0x50, 0x55]).chip.ifetchCoherent = true ∧
      decode (start [0x50, 0x55]).fetchBytes = .ok (.movE .r0 0x55, [0, 0, 0, 0]) ∧
      ∀ k < 2, (start [0x50, 0x55]).phys ((start [0x50, 0x55]).fetchAddr k) ∉ [0x0FFF, 0x1002] := by
  decide +kernel

theorem witness_InvKeptByStep : (start [0xD9, 0x90]).Inv ∧ after (start [0xD9, 0x90]) fun _ => true :=
  ⟨⟨by decide +kernel, by decide +kernel, by decide +kernel, by decide +kernel, by decide +kernel, by decide +kernel,
    by decide +kernel, by decide +kernel⟩, by decide +kernel⟩

theorem witness_ResLowEntersResetState :
    let s := { start [0x00] with pins := { (start [0x00]).pins with resLow := true } }
    s.pins.resLow = true ∧ s.standbySelected = false := by
  decide +kernel

theorem witness_ResetSequence :
    (∀ m ∈ [Mode.min, .max], ∃ s ∈ ([{ start [] with proc := .resetState }, { startMax [] with proc := .resetState }] : List State),
      s.proc = .resetState ∧ s.pins.resLow = false ∧ s.standbySelected = false ∧ s.chip.modeOf s.pins.modePins = m) ∧
    (start []).memAt [0, 1, 2, 3] :=
  ⟨by decide +kernel, fun _ _ => .inl rfl⟩

/-- Double fault; sleep with a request at the mask; a bus request taken, held and ended. -/
theorem witness_WaitingStates :
    let asleep : State := { start [] with proc := .sleep, sr := 0x0300, requests := [.irq 3 0] }
    let asked : State :=
      { start [] with chip := { (start []).chip with hasBreq := true }, pins := { (start []).pins with breq := true } }
    (∀ s ∈ [{ start [] with proc := .doubleFault }, asleep, asked], s.pins.resLow = false ∧ s.standbySelected = false) ∧
      (∀ q ∈ asleep.requests, asleep.acceptable q = false) ∧ asked.proc = .execution ∧ asked.busRequested = true ∧
      ({ start [] with proc := .busReleased } : State).busRequested = false := by
  decide +kernel

/-- STBY Low, hardware standby with RES Low, software standby with maskable requests only and on a chip that NMI does not
wake. -/
theorem witness_WaitingStates_standby :
    let low : State := { start [] with pins := { (start []).pins with stbyLow := true } }
    let wake : State := { start [] with proc := .hardwareStandby, pins := { (start []).pins with resLow := true } }
    let masked : State := { start [] with proc := .softwareStandby, requests := [.irq 7 0] }
    let deaf : State :=
      { start [] with
        proc := .softwareStandby, requests := [.nmi]
        chip := { (start []).chip with nmiLeavesStandby := false } }
    low.standbySelected = true ∧ wake.proc = .hardwareStandby ∧ wake.standbySelected = false ∧ wake.pins.resLow = true ∧
      .nmi ∉ masked.requests ∧ masked.pins.resLow = false ∧ masked.standbySelected = false ∧
      deaf.chip.nmiLeavesStandby = false := by
  decide +kernel

/-- The H8/520: mode 6 while it executes, mode 5 in hardware standby, mode 7 selected there, with RES Low. -/
theorem witness_WaitingStates_mode_pins :
    let at520 := fun (p : ProcState) (m : BitVec 3) => { start [] with
      proc := p, chip := { (start []).chip with standbyByMode := true }
      pins := { (start []).pins with modePins := m, resLow := true } }
    (at520 .execution 6).standbySelected = true ∧ (at520 .hardwareStandby 5).standbySelected = true ∧
      (at520 .execution 5).standbySelected = false ∧ (at520 .hardwareStandby 7).standbySelected = false ∧
      (at520 .hardwareStandby 7).pins.resLow = true := by
  decide +kernel

/-- A request just above the mask in sleep, NMI in software standby with mask 7. -/
theorem witness_WakeUpByRequest :
    let a : State := { start [] with proc := .sleep, sr := 0x0200, requests := [.irq 3 0, .irq 1 5] }
    let b : State := { start [] with proc := .softwareStandby, sr := 0x0700, requests := [.irq 7 0, .nmi] }
    a.canEnter (.interrupt 3 0) ∧ b.canEnter .nmi ∧ topRequest a.requests = some (.irq 3 0) ∧ a.acceptable (.irq 3 0) = true ∧
      .nmi ∉ a.requests.erase (.irq 3 0) ∧ topRequest b.requests = some .nmi ∧ b.acceptable .nmi = true ∧
      .nmi ∉ b.requests.erase .nmi ∧ b.chip.nmiLeavesStandby = true :=
  ⟨allRam_canEnter _ _ rfl (by decide +kernel) (by decide +kernel) (by decide +kernel),
    allRam_canEnter _ _ rfl (by decide +kernel) (by decide +kernel) (by decide +kernel), by decide +kernel⟩

/-- A level one above the mask, NMI with mask 7; a level equal to the mask. -/
theorem witness_InterruptAcceptance :
    let a : State := { start [] with sr := 0x0600, requests := [.irq 7 0] }
    let b : State := { start [] with sr := 0x0700, requests := [.nmi, .irq 7 3] }
    let c : State := { start [] with sr := 0x0700, requests := [.irq 7 0] }
    a.canEnter (.interrupt 7 0) ∧ b.canEnter .nmi ∧ topRequest a.requests = some (.irq 7 0) ∧ a.mask.toNat < (Request.irq 7 0).level ∧
      .nmi ∉ a.requests.erase (.irq 7 0) ∧ topRequest b.requests = some .nmi ∧ Request.nmi.level = 8 ∧
      .nmi ∉ b.requests.erase .nmi ∧ ∀ q ∈ c.requests, q.level ≠ 8 ∧ q.level ≤ c.mask.toNat :=
  ⟨allRam_canEnter _ _ rfl (by decide +kernel) (by decide +kernel) (by decide +kernel),
    allRam_canEnter _ _ rfl (by decide +kernel) (by decide +kernel) (by decide +kernel), by decide +kernel⟩

theorem witness_InhibitHoldsOff :
    let s : State := { start [] with sr := 0x8000, inhibitNext := true, requests := [.nmi] }
    s.inhibitNext = true ∧ s.addrErrPending = false ∧ s.proc ≠ .doubleFault := by
  decide +kernel

theorem witness_TraceTaken :
    let s : State := { start [] with sr := 0x8300, requests := [.irq 3 0] }
    s.canEnter .trace ∧ s.flagT = true ∧ s.inhibitNext = false ∧ s.addrErrPending = false ∧
      ∀ q ∈ s.requests, s.acceptable q = false :=
  ⟨allRam_canEnter _ _ rfl (by decide +kernel) (by decide +kernel) (by decide +kernel), by decide +kernel⟩

/-- After a TRAPA with T = 1: a request at the mask, and one above it. -/
theorem witness_TraceTaken_instruction_exception :
    let a : State := { start [] with sr := 0x8300, requests := [.irq 3 0] }
    let b : State := { start [] with sr := 0x8300, requests := [.irq 4 0] }
    let v := b.exceptionSequence (.trapA 15) 0x1002
    a.canEnter (.trapA 15) ∧ b.canEnter (.trapA 15) ∧ v.canEnter (.interrupt 4 0) ∧
      (∀ q ∈ (a.exceptionSequence (.trapA 15) 0x1002).requests,
        (a.exceptionSequence (.trapA 15) 0x1002).acceptable q = false) ∧
      topRequest v.requests = some (.irq 4 0) ∧ v.acceptable (.irq 4 0) = true ∧
      .nmi ∉ v.requests.erase (.irq 4 0) :=
  ⟨allRam_canEnter _ _ rfl (by decide +kernel) (by decide +kernel) (by decide +kernel), allRam_canEnter _ _ rfl (by decide +kernel) (by decide +kernel) (by decide +kernel),
    allRam_canEnter _ _ rfl (by decide +kernel) (by decide +kernel) (by decide +kernel), by decide +kernel⟩

/-- A level equal to the mask, one above it, and one NMI and two at mask 7 in program execution. -/
theorem witness_InterruptMaskLevels :
    let a : State := { start [] with sr := 0x0500, requests := [.irq 5 0] }
    let b : State := { start [] with sr := 0x0500, requests := [.irq 1 0, .irq 6 0] }
    let c : State := { start [] with sr := 0x0700, requests := [.nmi] }
    let d : State := { start [] with sr := 0x0700, requests := [.nmi, .irq 7 2, .nmi] }
    b.canEnter (.interrupt 6 0) ∧ c.canEnter .nmi ∧ d.canEnter .nmi ∧
      topRequest a.requests = some (.irq 5 0) ∧ (Request.irq 5 0).level = a.mask.toNat ∧
      topRequest b.requests = some (.irq 6 0) ∧ (Request.irq 6 0).level = b.mask.toNat + 1 ∧
      topRequest c.requests = some .nmi ∧ c.requests.count .nmi = 1 ∧ c.proc = .execution ∧
      topRequest d.requests = some .nmi ∧ (d.reg .r7).getLsbD 0 = false ∧ d.proc = .execution ∧
      d.acceptInterrupts.reg .r7 = 0xFDF8 ∧ d.acceptInterrupts.requests = [.irq 7 2] :=
  ⟨allRam_canEnter _ _ rfl (by decide +kernel) (by decide +kernel) (by decide +kernel),
    allRam_canEnter _ _ rfl (by decide +kernel) (by decide +kernel) (by decide +kernel),
    allRam_canEnter _ _ rfl (by decide +kernel) (by decide +kernel) (by decide +kernel), by decide +kernel⟩

theorem witness_AddressErrorTaken :
    let a : State := { start [] with addrErrPending := true, inhibitNext := true, sr := 0x8000, requests := [.nmi] }
    let b : State := { start [] with sr := 0x0700, addrErrPending := true, requests := [.irq 7 0] }
    a.canEnter .addressError ∧ b.canEnter .addressError ∧ a.addrErrPending = true ∧ a.inhibitNext = true ∧ b.addrErrPending = true ∧
      b.flagT = false ∧ ∀ q ∈ b.requests, b.acceptable q = false :=
  ⟨allRam_canEnter _ _ rfl (by decide +kernel) (by decide +kernel) (by decide +kernel),
    allRam_canEnter _ _ rfl (by decide +kernel) (by decide +kernel) (by decide +kernel), by decide +kernel⟩

/-- Address error and trace with a masked request; trace and interrupt. -/
theorem witness_SimultaneousExceptions :
    let a : State := { start [] with sr := 0x8300, addrErrPending := true, requests := [.irq 3 1] }
    let b : State := { start [] with sr := 0x8200, requests := [.irq 3 1] }
    let u := { a with addrErrPending := false, tracePending := true }.exceptionSequence .addressError a.pc
    let v := { b with tracePending := false }.exceptionSequence .trace b.pc
    a.canEnter .addressError ∧ u.canEnter .trace ∧ b.canEnter .trace ∧ v.canEnter (.interrupt 3 1) ∧
      a.addrErrPending = true ∧ a.flagT = true ∧ a.inhibitNext = false ∧ (∀ q ∈ a.requests, a.acceptable q = false) ∧
      b.flagT = true ∧ b.inhibitNext = false ∧ b.addrErrPending = false ∧ topRequest b.requests = some (.irq 3 1) ∧
      b.acceptable (.irq 3 1) = true ∧ .nmi ∉ b.requests.erase (.irq 3 1) :=
  ⟨allRam_canEnter _ _ rfl (by decide +kernel) (by decide +kernel) (by decide +kernel),
    allRam_canEnter _ _ rfl (by decide +kernel) (by decide +kernel) (by decide +kernel),
    allRam_canEnter _ _ rfl (by decide +kernel) (by decide +kernel) (by decide +kernel),
    allRam_canEnter _ _ rfl (by decide +kernel) (by decide +kernel) (by decide +kernel), by decide +kernel⟩

/-- Address error and NMI at mask 7; address error, trace and a request just above the mask. -/
theorem witness_SimultaneousExceptions_addressError :
    let a : State := { start [] with sr := 0x0700, addrErrPending := true, requests := [.nmi] }
    let b : State := { start [] with sr := 0x8200, addrErrPending := true, requests := [.irq 3 1] }
    let u := { a with addrErrPending := false, tracePending := false }.exceptionSequence .addressError a.pc
    let v := { b with addrErrPending := false, tracePending := true }.exceptionSequence .addressError b.pc
    let w := { v with tracePending := false }.exceptionSequence .trace v.pc
    a.canEnter .addressError ∧ u.canEnter .nmi ∧ b.canEnter .addressError ∧ v.canEnter .trace ∧
      w.canEnter (.interrupt 3 1) ∧ a.addrErrPending = true ∧ a.flagT = false ∧ a.inhibitNext = false ∧
      topRequest a.requests = some .nmi ∧ a.acceptable .nmi = true ∧ .nmi ∉ a.requests.erase .nmi ∧
      b.addrErrPending = true ∧ b.flagT = true ∧ b.inhibitNext = false ∧ topRequest b.requests = some (.irq 3 1) ∧
      b.acceptable (.irq 3 1) = true ∧ .nmi ∉ b.requests.erase (.irq 3 1) :=
  ⟨allRam_canEnter _ _ rfl (by decide +kernel) (by decide +kernel) (by decide +kernel),
    allRam_canEnter _ _ rfl (by decide +kernel) (by decide +kernel) (by decide +kernel),
    allRam_canEnter _ _ rfl (by decide +kernel) (by decide +kernel) (by decide +kernel),
    allRam_canEnter _ _ rfl (by decide +kernel) (by decide +kernel) (by decide +kernel),
    allRam_canEnter _ _ rfl (by decide +kernel) (by decide +kernel) (by decide +kernel), by decide +kernel⟩

theorem witness_OddStackDoubleFaults :
    let s : State := (start []).setReg .r7 0xFDFF
    s.proc ≠ .doubleFault ∧ (s.reg .r7).getLsbD 0 = true := by
  decide +kernel

/-- The last word of the address space, and the last address, which is odd. -/
theorem witness_WordAccess :
    (start []).mem.wf = true ∧ (0xFFFFFE : Addr).getLsbD 0 = false ∧
      (start []).ramAt ((start []).wordBytes 0xFFFFFE) ∧ (0xFFFFFF : Addr).getLsbD 0 = true :=
  ⟨by decide +kernel, by decide +kernel, fun _ _ => rfl, by decide +kernel⟩

/-- A byte through @R7+, a byte at an odd address, and a word at an even one. -/
theorem witness_SourceValues :
    let s := (start []).setReg .r1 0xFFFF
    s.memAt (s.operandBytes .byte (.postInc .r7)) ∧ s.misaligned .byte (.postInc .r7) = false ∧
      s.memAt (s.operandBytes .byte (.ind .r1)) ∧ s.misaligned .byte (.ind .r1) = false ∧
      s.memAt (s.operandBytes .word (.preDec .r7)) ∧ s.misaligned .word (.preDec .r7) = false :=
  ⟨fun _ _ => .inl rfl, by decide +kernel, fun _ _ => .inl rfl, by decide +kernel, fun _ _ => .inl rfl,
    by decide +kernel⟩

theorem witness_RegisterWrites : Reg.r7 ≠ .r0 := by decide

/-- MOVFPE and MOVTPE: a chip with an E clock; a store: an aligned operand in RAM. -/
theorem witness_MovesToRegister_MovesToMemory :
    (start []).chip.hasEClock = true ∧ (start []).mem.wf = true ∧ (start []).misaligned .word (.preDec .r7) = false ∧
      (start []).ramAt ((start []).operandBytes .word (.preDec .r7)) :=
  ⟨by decide +kernel, by decide +kernel, by decide +kernel, fun _ _ => rfl⟩

/-- LDM, STM, calls, returns, RTE, LINK and UNLK: RAM, and R7 (R6 for UNLK) even; a listed and an unlisted register. -/
theorem witness_LdmResult_StmResult_ReturnResults_RteResult_LinkResults :
    (∀ n, (start []).memAt ((start []).stackBytes n)) ∧ ((start []).reg .r7).getLsbD 0 = false ∧
      (∀ a, (start []).memAt ((start []).wordBytes a)) ∧ ((start []).reg .r6).getLsbD 0 = false ∧ (0x81 : Byte).getLsbD Reg.r0.num = true ∧
      (0x81 : Byte).getLsbD Reg.r6.num = false :=
  ⟨fun _ _ _ => .inl rfl, by decide +kernel, fun _ _ _ => .inl rfl, by decide +kernel, by decide +kernel, by decide +kernel⟩

theorem witness_TasResult : (start []).busLock = false := by decide +kernel

theorem witness_DecimalResults :
    let s := ((start []).setReg .r0 0x0099).setReg .r1 0xAB00
    bcdValid ((s.reg .r0).setWidth 8) = true ∧ bcdValid ((s.reg .r1).setWidth 8) = true := by
  decide +kernel

/-- A digit of ten; the bit numbers 8 and 15 on a byte. -/
theorem witness_OpenOperandsRunOn :
    let s := ((start []).setReg .r0 0x000A).setReg .r1 0xFFF8
    (bcdValid ((s.reg .r0).setWidth 8) && bcdValid ((s.reg .r1).setWidth 8)) = false ∧ 8 ≤ (15 : BitVec 4).toNat ∧
      8 ≤ (s.reg .r1).toNat % 16 := by
  decide +kernel

theorem witness_MultiplyResults :
    (SrcEA.imm8 0xFF).size = .byte ∧ (SrcEA.mem .word (.postInc .r6)).size = .word ∧ Reg.r6.even = true := by
  decide

/-- The largest quotient that fits a byte and the smallest that does not; a zero divisor. -/
theorem witness_DivideResults :
    let s := (start []).setReg .r0 0xFEFF
    let u := (start []).setReg .r0 0xFF00
    (((s.readSrc (.imm8 0)).2.setFlags ⟨false, true, false, false⟩).finishSrc (.imm8 0) []).canEnter .zeroDivide ∧
      (SrcEA.imm8 0xFF).size ≠ .word ∧ Reg.r0.even = true ∧ ((s.readSrc (.imm8 0xFF)).1.toNat ≠ 0) ∧
      (s.reg .r0).toNat / 255 < 2 ^ 8 ∧ 2 ^ 8 ≤ (u.reg .r0).toNat / 255 ∧ (s.readSrc (.imm8 0)).1.toNat = 0 :=
  ⟨allRam_canEnter _ _ rfl (by decide +kernel) (by decide +kernel) (by decide +kernel), by decide +kernel⟩

/-- The last bit of a byte and of a word. -/
theorem witness_BitResults :
    (7 : BitVec 4).toNat < Size.bits .byte ∧ (15 : BitVec 4).toNat < Size.bits .word ∧
      (((start []).setReg .r0 0xFFFF).reg .r0).toNat % 16 < Size.bits .word := by
  decide +kernel

theorem witness_JumpResults_CallResults_ReturnResults :
    (startMax []).mode = .max ∧ Reg.r6.even = true := by
  decide +kernel

theorem witness_PageCallAndReturn : (startMax []).mode = .max ∧ (startMax []).canPush 2 ∧ Reg.even .r6 = true :=
  ⟨by decide +kernel, ⟨fun _ _ => rfl, by decide +kernel, by decide +kernel⟩, by decide +kernel⟩

theorem witness_LdcResult_ControlRegisterLogic :
    (SrcEA.mem .word (.ind .r0)).size = CtlReg.size .sr ∧ (SrcEA.imm8 0).size = CtlReg.size .tp ∧
      (ImmEA.imm16 0).size = CtlReg.size .sr ∧ (ImmEA.imm8 0).size = CtlReg.size .ccr := by
  decide

theorem witness_TrapResults :
    (∀ v, (start []).canEnter (.trapA v)) ∧ (start []).canEnter .trapVS ∧
      ({ start [] with sr := 0x0002 } : State).flags.v = true ∧ (start []).flags.v = false :=
  ⟨fun _ => start_canEnter _, start_canEnter _, by decide +kernel, by decide +kernel⟩

theorem witness_ExceptionEntryAndReturn :
    let s : State := { startMax [] with sr := 0x870F }
    s.canEnter (.interrupt 7 47) ∧ s.sr &&& 0x78F0 = 0 :=
  ⟨allRam_canEnter _ _ rfl (by decide +kernel) (by decide +kernel) (by decide +kernel), by decide +kernel⟩

theorem witness_InvalidCodesTakeException :
    isInvalidCode .invalidFirst0B = true ∧ isInvalidCode (.invalidThird .word (.mem (.abs16 0)) 0xAF) = true ∧
      (start []).canEnter .invalidInstruction ∧ (start []).mode = .min ∧
      (start []).chip.invalidPc = .afterLastExamined :=
  ⟨by decide, by decide, start_canEnter _, by decide +kernel, by decide +kernel⟩

theorem witness_StopsByName :
    (start [0x08, 0x24]).withoutInstruction = none ∧
      decode (start [0x08, 0x24]).fetchBytes = .error (.undefinedCode 0x08 0x24) ∧
      (SrcEA.imm16 0).size = .word ∧ Reg.r1.even = false ∧ (startMax []).mode = .max ∧
      (SrcEA.imm8 0).size ≠ CtlReg.size .sr ∧ (ImmEA.imm16 0).size ≠ CtlReg.size .ccr ∧
      ({ start [] with chip := { (start []).chip with hasEClock := false } } : State).chip.hasEClock = false := by
  decide +kernel

/-- The last byte of a two-byte instruction was stored to since the fetch before the last. -/
theorem witness_StopsByName_stale :
    let s := { incoherent [0x50, 0x55] with storedBefore := [0x1001] }
    s.withoutInstruction = none ∧ decode s.fetchBytes = .ok (.movE .r0 0x55, [0, 0, 0, 0]) ∧
      s.chip.ifetchCoherent = false ∧ s.phys (s.fetchAddr 1) ∈ s.storedBefore ∧ s.chip.kindAt (s.phys 0x1001) = .ram := by
  decide +kernel

theorem witness_PageOfEveryAccess : (startMax []).mode = .max := by decide +kernel

theorem witness_ModeChangesOnlyInReset : (start [0x00]).proc ≠ .resetState ∧ after (start [0x00]) fun _ => true := by
  decide +kernel

/-- An instruction that neither crosses a page nor traps nor inhibits, in minimum mode; and one that inhibits. -/
theorem witness_PageRegisterChanges_SystemByteChanges :
    isPageCrossing .rts = false ∧ mayTrap .rts = false ∧ isInhibiting .rts = false ∧ isInhibiting .rte = true ∧
      (start [0x19]).mode = .min ∧ (after (start [0x19]) fun _ => true) ∧ (after (start [0x0A]) fun _ => true) := by
  decide +kernel

end Sys2Proof.Tests
end

/-! ## How long an instruction is

The bytes of an instruction are an EA part of 1 to 3 bytes and an operation part of 1 to 3 bytes (general format), or
1 to 4 bytes (special format); the decoder asks for no more than that on any branch of its maps. -/

namespace Sys2Proof

/-! ### The parts of an encoding (R104, R111) -/

@[simp] theorem wordBytes_length (w : Word) : (wordBytes w).length = 2 := rfl

@[simp] theorem encodeRegEA_length (sz : Size) (r : Reg) : (encodeRegEA sz r).length = 1 := rfl

theorem encodeMemEA_length_mem (sz : Size) (m : MemEA) : (encodeMemEA sz m).length ∈ Set.Icc 1 3 := by
  cases m <;> simp [encodeMemEA]

theorem encodeImmEA_length_mem (imm : ImmEA) : (encodeImmEA imm).length ∈ Set.Icc 1 3 := by
  cases imm <;> simp [encodeImmEA]

theorem encodeDst_length_mem (sz : Size) (d : DstEA) : (encodeDst sz d).length ∈ Set.Icc 1 3 := by
  cases d with
  | reg r => simp [encodeDst]
  | mem m => exact encodeMemEA_length_mem sz m

theorem encodeSrc_length_mem (src : SrcEA) : (encodeSrc src).length ∈ Set.Icc 1 3 := by
  cases src with
  | reg sz r => simp [encodeSrc]
  | mem sz m => exact encodeMemEA_length_mem sz m
  | imm8 d => exact encodeImmEA_length_mem (.imm8 d)
  | imm16 d => exact encodeImmEA_length_mem (.imm16 d)

theorem encodeTail_length_mem (t : OpTail) : (encodeTail t).length ∈ Set.Icc 1 3 := by
  cases t <;> simp [encodeTail]

/-- The general format (R101): an EA part, then an operation part. -/
theorem generalFormat_length_mem {ea op : List Byte} (hea : ea.length ∈ Set.Icc 1 3) (hop : op.length ∈ Set.Icc 1 3) :
    (ea ++ op).length ∈ Set.Icc 1 6 := by
  simp only [List.length_append, Set.mem_Icc] at *
  omega

/-- The cases are the EA classes of R126; the last one is the special format. -/
theorem encode_length_mem (i : Instr) : (encode i).length ∈ Set.Icc 1 6 := by
  cases i with
  | eaRn sz r t => exact generalFormat_length_mem (by simp) (encodeTail_length_mem t)
  | eaPreDec _ _ t | eaPostInc _ _ t | eaInd _ _ t | eaDisp8 _ _ _ t | eaDisp16 _ _ _ t | eaAbs8 _ _ t
  | eaAbs16 _ _ t => exact generalFormat_length_mem (encodeMemEA_length_mem ..) (encodeTail_length_mem t)
  | movGLoad | addG | sub | adds | subs | addx | subx | mulxu | divxu | cmpG | logAnd | logOr | logXor | ldc =>
    exact generalFormat_length_mem (encodeSrc_length_mem _) (by simp)
  | addQ1 | addQ2 | addQm1 | addQm2 | tst | neg | clr | tas | logNot | shal | shar | shll | shlr | rotl | rotr | rotxl
  | rotxr | bsetImm | bsetReg | bclrImm | bclrReg | bnotImm | bnotReg | btstImm | btstReg | stc | invalidThird =>
    exact generalFormat_length_mem (encodeDst_length_mem ..) (by simp)
  | movGStore | movGImm8 | movGImm16 | movtpe | movfpe | cmpGImm8 | cmpGImm16 | invalidOpMem =>
    exact generalFormat_length_mem (encodeMemEA_length_mem ..) (by simp)
  | andc | orc | xorc | eaImm8 | eaImm16 | invalidOpImm =>
    exact generalFormat_length_mem (encodeImmEA_length_mem _) (by simp)
  | xch | swap | dadd | dsub | exts | extu | invalidOpReg => exact generalFormat_length_mem (by simp) (by simp)
  | _ => simp [encode]

/-! ### The bytes the decoder asks for (R112 to R116, R124)

Each lemma's premise is the number of bytes after which that part of the decoder always has an answer. -/

theorem withByte_ne_truncated {n : Nat} {bs : List Byte} {k : Byte → List Byte → Decoded} (h : n + 1 ≤ bs.length)
    (hk : ∀ d t, n ≤ t.length → k d t ≠ .error .truncated) : withByte bs k ≠ .error .truncated := by
  cases bs with
  | nil => simp at h
  | cons d t => exact hk d t (by simpa using h)

theorem withWord_ne_truncated {n : Nat} {bs : List Byte} {k : Word → List Byte → Decoded} (h : n + 2 ≤ bs.length)
    (hk : ∀ d t, n ≤ t.length → k d t ≠ .error .truncated) : withWord bs k ≠ .error .truncated := by
  match bs with
  | [] | [_] => simp at h
  | hi :: lo :: t => exact hk (hi ++ lo) t (by simpa using h)

/-- An instruction whose last field is a byte. -/
theorem withByte_ok_ne_truncated {bs : List Byte} {f : Byte → Instr} (h : 1 ≤ bs.length) :
    withByte bs (fun d t => .ok (f d, t)) ≠ .error .truncated :=
  withByte_ne_truncated h fun _ _ _ => nofun

/-- An instruction whose last field is a word. -/
theorem withWord_ok_ne_truncated {bs : List Byte} {f : Word → Instr} (h : 2 ≤ bs.length) :
    withWord bs (fun d t => .ok (f d, t)) ≠ .error .truncated :=
  withWord_ne_truncated h fun _ _ _ => nofun

theorem decodeReg_ne_truncated {sz : Size} {r : Reg} {bs : List Byte} (h : 2 ≤ bs.length) :
    decodeReg sz r bs ≠ .error .truncated := by
  refine withByte_ne_truncated h fun op t ht => ?_
  split
  · exact withByte_ok_ne_truncated ht
  · nofun

theorem decodeMem_ne_truncated {sz : Size} {m : MemEA} {bs : List Byte} (h : 3 ≤ bs.length) :
    decodeMem sz m bs ≠ .error .truncated := by
  refine withByte_ne_truncated h fun op t ht => ?_
  have ht1 : 1 ≤ t.length := by omega
  split
  · exact withByte_ok_ne_truncated ht1
  · split
    · exact withByte_ok_ne_truncated ht1
    · nofun
  · split
    · exact withWord_ok_ne_truncated ht
    · nofun
  · exact withByte_ok_ne_truncated ht1
  · split
    · exact withWord_ok_ne_truncated ht
    · nofun
  · nofun

theorem decodeImm_ne_truncated {imm : ImmEA} {bs : List Byte} (h : 1 ≤ bs.length) :
    decodeImm imm bs ≠ .error .truncated :=
  withByte_ne_truncated h fun _ _ _ => nofun

theorem decodeScb_ne_truncated {first : Byte} {scb : Reg → Byte → Instr} {invalid : Byte → Instr} {bs : List Byte}
    (h : 2 ≤ bs.length) : decodeScb first scb invalid bs ≠ .error .truncated := by
  refine withByte_ne_truncated h fun b t ht => ?_
  split
  · exact withByte_ok_ne_truncated ht
  · split <;> nofun

/-- The branches with operand bytes are PRTD #xx:8 (first), PRTD #xx:16 (second), and JMP and JSR with d:8 (seventh and
eighth) and with d:16 (ninth and tenth). -/
theorem decode11_ne_truncated {bs : List Byte} (h : 3 ≤ bs.length) : decode11 bs ≠ .error .truncated := by
  refine withByte_ne_truncated h fun b t ht => ?_
  have ht1 : 1 ≤ t.length := by omega
  split
  case h_1 =>
    split
    · exact withByte_ok_ne_truncated ht1
    · nofun
  case h_2 =>
    split
    · nofun
    · exact withWord_ok_ne_truncated ht
    · nofun
  case h_7 | h_8 => exact withByte_ok_ne_truncated ht1
  case h_9 | h_10 => exact withWord_ok_ne_truncated ht
  all_goals nofun

/-- The longest case is a memory EA of two bytes, `@aa:8`. -/
theorem decodeRow0_ne_truncated {b1 : Byte} {t : List Byte} (h : 4 ≤ t.length) :
    decodeRow0 b1 t ≠ .error .truncated := by
  have h1 : 1 ≤ t.length := by omega
  have h2 : 2 ≤ t.length := by omega
  unfold decodeRow0
  split
  · nofun
  · exact decodeScb_ne_truncated h2
  · exact withByte_ok_ne_truncated h1
  · exact withByte_ne_truncated h fun _ _ ht => withWord_ok_ne_truncated (by omega)
  · exact withByte_ne_truncated h fun _ _ ht => decodeImm_ne_truncated (by omega)
  · exact withByte_ne_truncated h fun _ _ ht => decodeMem_ne_truncated ht
  · exact decodeScb_ne_truncated h2
  · exact decodeScb_ne_truncated h2
  · refine withByte_ne_truncated h fun _ _ _ => ?_
    split <;> nofun
  · nofun
  · nofun
  · nofun
  · exact withWord_ne_truncated h fun _ _ ht => decodeImm_ne_truncated (by omega)
  · exact withByte_ne_truncated h fun _ _ ht => decodeMem_ne_truncated ht
  · exact withByte_ok_ne_truncated h1
  · nofun

/-- The longest case is a memory EA of three bytes, `@aa:16`. -/
theorem decodeRow1_ne_truncated {b1 : Byte} {t : List Byte} (h : 5 ≤ t.length) :
    decodeRow1 b1 t ≠ .error .truncated := by
  have h1 : 1 ≤ t.length := by omega
  have h2 : 2 ≤ t.length := by omega
  unfold decodeRow1
  split
  · exact withWord_ok_ne_truncated h2
  · exact decode11_ne_truncated (by omega)
  · exact withByte_ok_ne_truncated h1
  · exact withByte_ne_truncated h fun _ _ ht => withWord_ok_ne_truncated (by omega)
  · exact withByte_ok_ne_truncated h1
  · exact withWord_ne_truncated h fun _ _ ht => decodeMem_ne_truncated ht
  · nofun
  · exact withByte_ok_ne_truncated h1
  · exact withWord_ok_ne_truncated h2
  · nofun
  · nofun
  · nofun
  · exact withWord_ok_ne_truncated h2
  · exact withWord_ne_truncated h fun _ _ ht => decodeMem_ne_truncated ht
  · exact withWord_ok_ne_truncated h2
  · exact withWord_ok_ne_truncated h2

/-- The longest case is a memory EA of three bytes, `@(d:16,Rn)`, before a word of immediate data. -/
theorem decode_ne_truncated {bs : List Byte} (h : 6 ≤ bs.length) : decode bs ≠ .error .truncated := by
  obtain _ | ⟨b1, t⟩ := bs
  · simp at h
  have h5 : 5 ≤ t.length := by simpa using h
  have h1 : 1 ≤ t.length := by omega
  have h2 : 2 ≤ t.length := by omega
  have h3 : 3 ≤ t.length := by omega
  rw [decode]
  split
  · exact decodeRow0_ne_truncated (by omega)
  · exact decodeRow1_ne_truncated h5
  · exact withByte_ok_ne_truncated h1
  · exact withWord_ok_ne_truncated h2
  · split
    · exact withByte_ok_ne_truncated h1
    · exact withWord_ok_ne_truncated h2
  · split
    · exact withByte_ok_ne_truncated h1
    · exact withWord_ok_ne_truncated h2
  · exact withByte_ok_ne_truncated h1
  · exact withByte_ok_ne_truncated h1
  · exact withByte_ok_ne_truncated h1
  · exact withByte_ok_ne_truncated h1
  · exact decodeReg_ne_truncated h2
  · exact decodeMem_ne_truncated h3
  · exact decodeMem_ne_truncated h3
  · exact decodeMem_ne_truncated h3
  · exact withByte_ne_truncated h5 fun _ _ ht => decodeMem_ne_truncated (by omega)
  · exact withWord_ne_truncated h5 fun _ _ ht => decodeMem_ne_truncated ht

/-- Settles O3: the parts of an encoding have bounded length, and no branch of the decoder asks for a seventh byte. -/
theorem instructionLength : Obligations.InstructionLength :=
  ⟨encode_length_mem, fun _ h => decode_ne_truncated h⟩

end Sys2Proof

/-! ## What an instruction can change

`KeepsSystem` is the frame of all operand handling; `InstrEffect` lists the few ways in which an instruction can go
beyond it, and `exec_effect` is the one walk over the instruction set. The whole-machine statements about the system
state (the invariant, the page registers, the system byte) are read off these cases. -/

namespace Sys2Proof.Machine

/-- From `s` to `t` at most general registers, N Z V C, PC, memory with the note of its stores, the count of free values
and whether an address error is pending change; a bus lock may be released. -/
structure KeepsSystem (s t : State) : Prop where
  frame : Frame s t
  upper : t.sr.extractLsb' 4 12 = s.sr.extractLsb' 4 12
  rest : t = { s with
    regs := t.regs, pc := t.pc, sr := t.sr, busLock := t.busLock, mem := t.mem, stored := t.stored, free := t.free,
    addrErrPending := t.addrErrPending }
  unlocked : s.busLock = false → t.busLock = false

namespace KeepsSystem

/-! ### What is kept -/

section
variable {s t : State} (h : KeepsSystem s t)
include h

theorem cp_eq : t.cp = s.cp := by rw [h.rest]
theorem dp_eq : t.dp = s.dp := by rw [h.rest]
theorem ep_eq : t.ep = s.ep := by rw [h.rest]
theorem tp_eq : t.tp = s.tp := by rw [h.rest]
theorem br_eq : t.br = s.br := by rw [h.rest]
theorem mode_eq : t.mode = s.mode := by rw [h.rest]
theorem proc_eq : t.proc = s.proc := by rw [h.rest]
theorem inhibitNext_eq : t.inhibitNext = s.inhibitNext := by rw [h.rest]

theorem mask_eq : t.mask = s.mask := by rw [t.mask_eq, s.mask_eq, h.upper]

/-- T is the top bit of the part of SR above the flags. -/
theorem flagT_eq : t.flagT = s.flagT := by
  have top := congrArg (BitVec.getLsbD · 11) h.upper
  simpa [State.flagT, BitVec.getLsbD_extractLsb'] using top

end

/-! ### Composition -/

theorem refl (s : State) : KeepsSystem s s := ⟨.refl s, rfl, rfl, id⟩

theorem trans {s t u : State} (h : KeepsSystem s t) (g : KeepsSystem t u) : KeepsSystem s u where
  frame := h.frame.trans g.frame
  upper := g.upper.trans h.upper
  rest := g.rest.trans (by rw [h.rest])
  unlocked := g.unlocked ∘ h.unlocked

/-- What leaves the system state as `KeepsRest` says, for an operation that stays inside the frame. -/
theorem of_keepsRest {s t : State} (f : Frame s t) (h : KeepsRest s t) : KeepsSystem s t where
  frame := f
  upper := h.1
  rest := by rw [h.2]
  unlocked := fun w => by rw [h.2]; exact w

/-- An operation that leaves SR alone as well. -/
theorem of_eq {s t : State} (f : Frame s t) (h : t = { s with
    regs := t.regs, mem := t.mem, stored := t.stored, free := t.free, addrErrPending := t.addrErrPending }) :
    KeepsSystem s t :=
  of_keepsRest f ⟨by rw [h], by rw [h]⟩

/-! ### The operations of the instructions -/

theorem setReg (s : State) (r : Reg) (v : Word) : KeepsSystem s (s.setReg r v) := of_eq (.setReg s r v) rfl

theorem setRegN (s : State) (sz : Size) (r : Reg) (v : BitVec sz.bits) : KeepsSystem s (s.setRegN sz r v) :=
  setReg s r _

theorem setFlags (s : State) (f : Flags) : KeepsSystem s (s.setFlags f) :=
  of_keepsRest (.setFlags s f) ⟨s.upper_setFlags f, rfl⟩

theorem jump (s : State) (a : Word) : KeepsSystem s (s.jump a) :=
  ⟨.of_eq rfl rfl rfl rfl rfl rfl rfl, rfl, rfl, id⟩

theorem tick (s : State) : KeepsSystem s s.tick := of_eq (.tick s) rfl

theorem loadWord (s : State) (a : Addr) : KeepsSystem s (s.loadWord a).2 := by
  obtain ⟨k, h⟩ := s.loadWord_spec a
  exact of_eq (.loadWord s a) (by rw [h])

theorem storeWord (s : State) (a : Addr) (v : Word) : KeepsSystem s (s.storeWord a v) :=
  of_eq (.storeWord s a v) (by rw [(s.storeWord_spec a v).1])

theorem push16 (s : State) (v : Word) : KeepsSystem s (s.push16 v) := (setReg _ _ _).trans (storeWord _ _ _)

theorem pop16 (s : State) : KeepsSystem s s.pop16.2 := (loadWord _ _).trans (setReg _ _ _)

theorem readSrc (s : State) (src : SrcEA) : KeepsSystem s (s.readSrc src).2 := by
  obtain ⟨k, h⟩ := s.readSrc_spec src
  exact of_eq (.readSrc s src) (by rw [h])

theorem finishSrc (s : State) (src : SrcEA) (written : List Reg) : KeepsSystem s (s.finishSrc src written) := by
  obtain ⟨k, h⟩ := s.finishSrc_spec src written
  exact of_eq (.finishSrc s src written) (by rw [h])

theorem aluSrc (s : State) (src : SrcEA) (rd : Reg)
    (f : BitVec src.size.bits → BitVec src.size.bits → Flags → BitVec src.size.bits × Flags) :
    KeepsSystem s (s.aluSrc src rd f) :=
  of_keepsRest (.aluSrc s src rd f) (s.aluSrc_spec src rd f).1

theorem testSrc (s : State) (src : SrcEA) (rd : Reg)
    (f : BitVec src.size.bits → BitVec src.size.bits → Flags → Flags) : KeepsSystem s (s.testSrc src rd f) :=
  of_keepsRest (.testSrc s src rd f) (s.testSrc_spec src rd f).1

theorem wordSrc (s : State) (src : SrcEA) (rd : Reg) (f : Word → Word → Word) :
    KeepsSystem s (s.wordSrc src rd f) :=
  of_keepsRest (.wordSrc s src rd f) (s.wordSrc_spec src rd f).1

theorem modify (s : State) (sz : Size) (d : DstEA) (f : BitVec sz.bits → Flags → BitVec sz.bits × Flags) :
    KeepsSystem s (s.modify sz d f) := by
  cases d with
  | reg r => exact (setRegN _ _ _ _).trans (setFlags _ _)
  | mem m => exact of_keepsRest (.modify s sz (.mem m) f) (s.modify_spec sz (.mem m) f).1

theorem inspect (s : State) (sz : Size) (d : DstEA) (f : BitVec sz.bits → Flags → Flags) :
    KeepsSystem s (s.inspect sz d f) := by
  cases d with
  | reg r => exact setFlags _ _
  | mem m => exact of_keepsRest (.inspect s sz (.mem m) f) (s.inspect_spec sz (.mem m) f).1

theorem storeMem (s : State) (sz : Size) (m : MemEA) (v : State → BitVec sz.bits) :
    KeepsSystem s (s.storeMem sz m v) :=
  of_keepsRest (.storeMem s sz m v) (s.storeMem_flags sz m v ▸ (s.storeMem_spec sz m v s.flags).1)

theorem writeDst (s : State) (sz : Size) (d : DstEA) (v : BitVec sz.bits) : KeepsSystem s (s.writeDst sz d v) := by
  cases d with
  | reg r => exact setRegN _ _ _ _
  | mem m => exact storeMem s sz m fun _ => v

theorem ldmLoop (l : List Reg) : ∀ (s : State) (off : Word), KeepsSystem s (s.ldmLoop off l) := by
  induction l with
  | nil => exact fun s _ => refl s
  | cons r rest ih =>
    intro s off
    refine trans ?_ (ih _ _)
    by_cases h : r = .r7
    · simp only [if_pos h]; exact loadWord _ _
    · simp only [if_neg h]; exact (loadWord _ _).trans (setReg _ _ _)

theorem stmLoop (l : List Reg) : ∀ s : State, KeepsSystem s (s.stmLoop l) := by
  induction l with
  | nil => exact fun s => refl s
  | cons r rest ih => exact fun s => ((setReg _ _ _).trans (storeWord _ _ _)).trans (ih _)

theorem setRegPair (s : State) (rd : Reg) (v : BitVec 32) : KeepsSystem s (s.setRegPair rd v) :=
  (setReg _ _ _).trans (setReg _ _ _)

/-- Valid digits give register and flags; with a nibble above 9 three free values are drawn first (R209, D18). -/
theorem decimal (s : State) (rs rd : Reg) (f : Byte → Byte → Flags → Byte × Flags) :
    KeepsSystem s (s.decimal rs rd f) := by
  simp only [State.decimal]
  split
  · exact (setRegN _ _ _ _).trans (setFlags _ _)
  · exact ((tick _).trans ((tick _).trans (tick _))).trans ((setRegN _ _ _ _).trans (setFlags _ _))

/-- A bit number beyond the operand draws two free values first (R274, D17). -/
theorem bitModify (s : State) (sz : Size) (b : Nat) (d : DstEA)
    (f : BitVec sz.bits → BitVec sz.bits → BitVec sz.bits) : KeepsSystem s (s.bitModify sz b d f) := by
  simp only [State.bitModify]
  split
  · exact modify _ _ _ _
  · exact ((tick _).trans (tick _)).trans (modify _ _ _ _)

theorem bitTest (s : State) (sz : Size) (b : Nat) (d : DstEA) : KeepsSystem s (s.bitTest sz b d) := by
  simp only [State.bitTest]
  split
  · exact inspect _ _ _ _
  · exact (tick _).trans (inspect _ _ _ _)

/-- TAS takes the bus lock and releases it after its write (R227). -/
theorem tas (s : State) (f : BitVec Size.byte.bits → Flags → BitVec Size.byte.bits × Flags) (d : DstEA) :
    KeepsSystem s { { s with busLock := true }.modify .byte d f with busLock := false } where
  frame := (Frame.of_eq rfl rfl rfl rfl rfl rfl rfl).trans
    ((Frame.modify { s with busLock := true } .byte d f).trans (.of_eq rfl rfl rfl rfl rfl rfl rfl))
  upper := (modify { s with busLock := true } .byte d f).upper
  rest := by rw [(modify { s with busLock := true } .byte d f).rest]
  unlocked := fun _ => rfl

theorem branch (s : State) (c : Cond) (d : Word) : KeepsSystem s (s.branch c d) := by
  simp only [State.branch]
  split
  · exact jump _ _
  · exact refl _

theorem call (s : State) (target : Word) : KeepsSystem s (s.call target) := (push16 _ _).trans (jump _ _)

theorem popPC (s : State) : KeepsSystem s s.popPC := (pop16 s).trans (jump _ _)

theorem countAndBranch (s : State) (leave : Bool) (r : Reg) (d : Word) :
    KeepsSystem s (s.countAndBranch leave r d) := by
  simp only [State.countAndBranch]
  split
  · exact refl _
  · split
    · exact setReg _ _ _
    · exact (setReg _ _ _).trans (jump _ _)

theorem link (s : State) (imm : Word) : KeepsSystem s (s.link imm) :=
  (push16 _ _).trans ((setReg _ _ _).trans (setReg _ _ _))

theorem crFlags (s : State) (cr : CtlReg) (r : Byte) : KeepsSystem s (s.crFlags cr r) := by
  cases cr with
  | sr | ccr => exact refl _
  | br | ep | dp | tp => exact setFlags _ _

end KeepsSystem

/-! ### The ways beyond it -/

/-- What an instruction can do: the system state is kept; or it is kept up to an exception sequence of the instruction,
which is its last act (R386); or CP is written, in maximum mode (R312); or one control register is, with the inhibit
(R395); or RTE; or SLEEP. -/
inductive InstrEffect (i : Instr) (s : State) : State → Prop
  | ordinary {t : State} (hi : isInhibiting i = false) (h : KeepsSystem s t) : InstrEffect i s t
  | trap {u : State} (hi : mayTrap i = true) (h : KeepsSystem s u) (kind : Exc) (hk : kind.newMask = none)
      (p : Word) : InstrEffect i s (u.exceptionSequence kind p)
  | crossPage {u t : State} (hp : isPageCrossing i = true) (hi : isInhibiting i = false) (hm : s.mode = .max)
      (h : KeepsSystem s u) (page : Byte) (g : KeepsSystem { u with cp := page } t) : InstrEffect i s t
  | control {u t : State} (hi : writesControl i = true) (h : KeepsSystem s u) (cr : CtlReg) (v : Word)
      (g : KeepsSystem (u.crWrite cr v) t) : InstrEffect i s t.inhibit
  | exceptionReturn (hi : i = .rte) : InstrEffect i s s.returnFromException
  | sleep (hi : i = .sleep) (p : ProcState) (hp : p = .sleep ∨ p = .softwareStandby) :
      InstrEffect i s { s with proc := p }

/-- Every next state among the outcomes is one the instruction can lead to. -/
def Yields (i : Instr) (s : State) (r : Result) : Prop := ∀ t, r = .next t → InstrEffect i s t

namespace Yields

variable {i : Instr} {s : State}

theorem next {t : State} (h : InstrEffect i s t) : Yields i s (.next t) := by
  rintro _ ⟨⟩
  exact h

theorem refused (r : Refusal) : Yields i s (.refused r) := fun _ h => by cases h

theorem ordinary {t : State} (h : KeepsSystem s t) (hi : isInhibiting i = false) : Yields i s (.next t) :=
  next (.ordinary hi h)

theorem takeInvalid (hi : mayTrap i = true) (examined : List Byte) (after : Word) :
    Yields i s (.next (s.takeInvalid examined after)) :=
  next (.trap hi (.refl s) .invalidInstruction rfl _)

theorem pageJump (hp : isPageCrossing i = true) (hi : isInhibiting i = false) (hm : s.mode = .max) (page : Byte)
    (a : Word) : Yields i s (.next (s.pageJump page a)) :=
  next (.crossPage hp hi hm (.refl s) page (.jump _ a))

theorem pageCall (hp : isPageCrossing i = true) (hi : isInhibiting i = false) (hm : s.mode = .max) (page : Byte)
    (a : Word) : Yields i s (.next (s.pageCall page a)) :=
  next (.crossPage hp hi hm ((KeepsSystem.push16 _ _).trans (.push16 _ _)) page (.jump _ a))

theorem popCPPC (hp : isPageCrossing i = true) (hi : isInhibiting i = false) (hm : s.mode = .max) :
    Yields i s (.next s.popCPPC) :=
  next (.crossPage hp hi hm (.pop16 s) _ (.popPC _))

theorem popCPPC_release (hp : isPageCrossing i = true) (hi : isInhibiting i = false) (hm : s.mode = .max)
    (imm : Word) : Yields i s (.next (s.popCPPC.releaseStack imm)) :=
  next (.crossPage hp hi hm (.pop16 s) _ ((KeepsSystem.popPC _).trans (.setReg _ _ _)))

theorem crModify (hi : writesControl i = true) (imm : ImmEA) (cr : CtlReg) (f : Word → Word → Word) :
    Yields i s (s.crModify imm cr f) := by
  simp only [State.crModify]
  split
  · exact next (.control hi (.refl s) cr _ (.crFlags _ _ _))
  · exact refused _

/-- The three cases of a division: by zero, overflow, performed (R218). -/
theorem divide {u : State} (hi : mayTrap i = true) (hn : isInhibiting i = false) (h : KeepsSystem s u) (src : SrcEA)
    (n dvd dvs : Nat) (put : Nat → Nat → State) (hput : ∀ q r, KeepsSystem u (put q r)) (written : List Reg) :
    Yields i s (.next (u.divide src n dvd dvs put written)) := by
  refine next ?_
  simp only [State.divide]
  split
  · exact .trap hi (h.trans ((KeepsSystem.setFlags _ _).trans (.finishSrc _ _ _))) .zeroDivide rfl _
  · split
    · exact .ordinary hn (h.trans ((KeepsSystem.setFlags _ _).trans (.finishSrc _ _ _)))
    · exact .ordinary hn (h.trans ((hput _ _).trans ((KeepsSystem.setFlags _ _).trans (.finishSrc _ _ _))))

end Yields

theorem execMulxu_effect (src : SrcEA) (rd : Reg) (s : State) : Yields (.mulxu src rd) s (execMulxu src rd s) := by
  have read := KeepsSystem.readSrc s src
  simp only [execMulxu]
  split
  · exact .ordinary (((read.trans (.setReg _ _ _)).trans (.setFlags _ _)).trans (.finishSrc _ _ _)) rfl
  · split
    · exact .ordinary (((read.trans (.setRegPair _ _ _)).trans (.setFlags _ _)).trans (.finishSrc _ _ _)) rfl
    · exact .refused _

theorem execDivxu_effect (src : SrcEA) (rd : Reg) (s : State) : Yields (.divxu src rd) s (execDivxu src rd s) := by
  have read := KeepsSystem.readSrc s src
  simp only [execDivxu]
  split
  · exact .divide rfl rfl read src _ _ _ _ (fun _ _ => .setReg _ _ _) _
  · split
    · exact .divide rfl rfl read src _ _ _ _ (fun _ _ => .setRegPair _ _ _) _
    · exact .refused _

theorem execLdc_effect (src : SrcEA) (cr : CtlReg) (s : State) : Yields (.ldc src cr) s (execLdc src cr s) := by
  simp only [execLdc]
  split
  · exact .next (.control rfl (.readSrc s src) cr _ (.finishSrc _ _ _))
  · exact .refused _

/-- The page-crossing instructions run in maximum mode and are invalid codes in minimum mode (R120, R303, R306, R308,
R310). -/
theorem pageCrossing_effect {i : Instr} {s : State} (hi : isPageCrossing i = true) (hn : i ≠ .rte) :
    Yields i s (exec i s) := by
  cases i with
  | pjmpAbs24 page a =>
    simp only [exec, execPjmpAbs24]
    split
    · exact .pageJump rfl rfl ‹_› _ _
    · exact .takeInvalid rfl _ _
  | pjsrAbs24 page a =>
    simp only [exec, execPjsrAbs24]
    split
    · exact .pageCall rfl rfl ‹_› _ _
    · exact .takeInvalid rfl _ _
  | pjmpInd r =>
    simp only [exec, execPjmpInd]
    split
    · split
      · exact .pageJump rfl rfl ‹_› _ _
      · exact .refused _
    · exact .takeInvalid rfl _ _
  | pjsrInd r =>
    simp only [exec, execPjsrInd]
    split
    · split
      · exact .pageCall rfl rfl ‹_› _ _
      · exact .refused _
    · exact .takeInvalid rfl _ _
  | prts =>
    simp only [exec, execPrts]
    split
    · exact .popCPPC rfl rfl ‹_›
    · exact .takeInvalid rfl _ _
  | prtd8 data =>
    simp only [exec, execPrtd8]
    split
    · exact .popCPPC_release rfl rfl ‹_› _
    · exact .takeInvalid rfl _ _
  | prtd16 data =>
    simp only [exec, execPrtd16]
    split
    · exact .popCPPC_release rfl rfl ‹_› _
    · exact .takeInvalid rfl _ _
  | rte => exact absurd rfl hn
  | _ => cases hi

/-- The walk over the instruction set, by the shape of the meaning. -/
theorem exec_yields (i : Instr) (s : State) : Yields i s (exec i s) := by
  cases i with
  | eaRn | eaPreDec | eaPostInc | eaInd | eaDisp8 | eaDisp16 | eaAbs8 | eaAbs16 | eaImm8 | eaImm16 =>
    exact .refused _
  | movGLoad | addG | sub | addx | subx | logAnd | logOr | logXor | movE | movI | movL | movFLoad =>
    exact .ordinary (.aluSrc _ _ _ _) rfl
  | adds | subs => exact .ordinary (.wordSrc _ _ _ _) rfl
  | cmpG | cmpE | cmpI => exact .ordinary (.testSrc _ _ _ _) rfl
  | addQ1 | addQ2 | addQm1 | addQm2 | neg | logNot | shal | shar | shll | shlr | rotl | rotr | rotxl | rotxr =>
    exact .ordinary (.modify _ _ _ _) rfl
  | bsetImm | bsetReg | bclrImm | bclrReg | bnotImm | bnotReg => exact .ordinary (.bitModify _ _ _ _ _) rfl
  | btstImm | btstReg => exact .ordinary (.bitTest _ _ _ _) rfl
  | cmpGImm8 | cmpGImm16 | tst => exact .ordinary (.inspect _ _ _ _) rfl
  | movGStore | movGImm8 | movGImm16 | movS | movFStore =>
    exact .ordinary ((KeepsSystem.storeMem _ _ _ _).trans (.setFlags _ _)) rfl
  | clr => exact .ordinary ((KeepsSystem.writeDst _ _ _ _).trans (.setFlags _ _)) rfl
  | stc => exact .ordinary (.writeDst _ _ _ _) rfl
  | movtpe rs m =>
    simp only [exec, execMovtpe]
    split
    · exact .ordinary (.storeMem _ _ _ _) rfl
    · exact .refused _
  | movfpe m rd =>
    simp only [exec, execMovfpe]
    split
    · exact .ordinary (.aluSrc _ _ _ _) rfl
    · exact .refused _
  | xch => exact .ordinary ((KeepsSystem.setReg _ _ _).trans (.setReg _ _ _)) rfl
  | swap | exts | extu => exact .ordinary ((KeepsSystem.setReg _ _ _).trans (.setFlags _ _)) rfl
  | dadd | dsub => exact .ordinary (.decimal _ _ _ _) rfl
  | mulxu src rd => exact execMulxu_effect src rd s
  | divxu src rd => exact execDivxu_effect src rd s
  | tas d => exact .ordinary (.tas s _ d) rfl
  | ldc src cr => exact execLdc_effect src cr s
  | andc imm cr | orc imm cr | xorc imm cr => exact .crModify rfl imm cr _
  | ldm => exact .ordinary ((KeepsSystem.ldmLoop _ _ _).trans (.setReg _ _ _)) rfl
  | stm => exact .ordinary (.stmLoop _ _) rfl
  | bra8 | brn8 | bhi8 | bls8 | bcc8 | bcs8 | bne8 | beq8 | bvc8 | bvs8 | bpl8 | bmi8 | bge8 | blt8 | bgt8 | ble8
  | bra16 | brn16 | bhi16 | bls16 | bcc16 | bcs16 | bne16 | beq16 | bvc16 | bvs16 | bpl16 | bmi16 | bge16 | blt16
  | bgt16 | ble16 => exact .ordinary (.branch _ _ _) rfl
  | jmpInd | jmpAbs16 | jmpDisp8 | jmpDisp16 => exact .ordinary (.jump _ _) rfl
  | bsr8 | bsr16 | jsrInd | jsrAbs16 | jsrDisp8 | jsrDisp16 => exact .ordinary (.call _ _) rfl
  | pjmpAbs24 | pjmpInd | pjsrAbs24 | pjsrInd | prts | prtd8 | prtd16 => exact pageCrossing_effect rfl nofun
  | rts => exact .ordinary (.popPC _) rfl
  | rtd8 | rtd16 => exact .ordinary ((KeepsSystem.popPC _).trans (.setReg _ _ _)) rfl
  | scbF | scbNE | scbEQ => exact .ordinary (.countAndBranch _ _ _ _) rfl
  | trapa v => exact .next (.trap rfl (.refl s) (.trapA v) rfl _)
  | trapvs =>
    simp only [exec, execTrapvs]
    split
    · exact .next (.trap rfl (.refl s) .trapVS rfl _)
    · exact .ordinary (.refl s) rfl
  | rte => exact .next (.exceptionReturn rfl)
  | sleep => exact .next (.sleep rfl _ (by split <;> simp))
  | nop => exact .ordinary (.refl s) rfl
  | link8 | link16 => exact .ordinary (.link _ _) rfl
  | unlk => exact .ordinary ((KeepsSystem.setReg _ _ _).trans ((KeepsSystem.pop16 _).trans (.setReg _ _ _))) rfl
  | invalidFirst0B | invalidFirst16 | invalidFirst1B | invalidOpReg | invalidOpMem | invalidOpImm | invalidSecond01
  | invalidSecond06 | invalidSecond07 | invalidSecond11 | invalidThird => exact .takeInvalid rfl _ _

theorem exec_effect {i : Instr} {s t : State} (h : exec i s = .next t) : InstrEffect i s t := exec_yields i s t h

end Sys2Proof.Machine

/-! ## The system state after an instruction

What each way of `InstrEffect` does to the fields that only system instructions and exceptions may write. -/

namespace Sys2Proof.Machine

/-! ### Control registers, exception sequences and RTE, field by field -/

theorem State.crWrite_eq (s : State) (cr : CtlReg) (v : Word) : s.crWrite cr v = { s with
    sr := (s.crWrite cr v).sr, br := (s.crWrite cr v).br, ep := (s.crWrite cr v).ep, dp := (s.crWrite cr v).dp,
    tp := (s.crWrite cr v).tp } := by
  cases cr <;> rfl

theorem State.exceptionSequence_pages (s : State) (kind : Exc) (p : Word) :
    (s.mode = .min → (s.exceptionSequence kind p).cp = s.cp) ∧ (s.exceptionSequence kind p).dp = s.dp ∧
      (s.exceptionSequence kind p).ep = s.ep ∧ (s.exceptionSequence kind p).tp = s.tp ∧
      (s.exceptionSequence kind p).br = s.br := by
  obtain ⟨-, h⟩ | ⟨-, -, h⟩ | ⟨-, -, ⟨k, h⟩, hcp, -⟩ := s.exceptionSequence_cases kind p
  · simp [h]
  · simp [h]
  · exact ⟨hcp, by rw [h], by rw [h], by rw [h], by rw [h]⟩

/-- An entry clears T; where none takes place SR is kept. -/
theorem State.exceptionSequence_flagT (s : State) (kind : Exc) (p : Word) :
    (s.exceptionSequence kind p).flagT = s.flagT ∨ (s.exceptionSequence kind p).flagT = false := by
  obtain ⟨-, h⟩ | ⟨-, -, h⟩ | ⟨-, -, -, -, -, hT, -⟩ := s.exceptionSequence_cases kind p
  · exact .inl (by rw [h])
  · exact .inl (by rw [h]; rfl)
  · exact .inr hT

/-- An exception that is no interrupt leaves the mask (R390). -/
theorem State.exceptionSequence_mask (s : State) {kind : Exc} (hk : kind.newMask = none) (p : Word) :
    (s.exceptionSequence kind p).mask = s.mask := by
  obtain ⟨-, h⟩ | ⟨-, -, h⟩ | ⟨-, -, -, -, -, -, hm, -⟩ := s.exceptionSequence_cases kind p
  · rw [h]
  · rw [h]; rfl
  · rw [hm, hk]; rfl

/-- An exception sequence makes nothing pending. -/
theorem State.exceptionSequence_pending (s : State) (kind : Exc) (p : Word) :
    ((s.exceptionSequence kind p).addrErrPending = true → s.addrErrPending = true) ∧
      ((s.exceptionSequence kind p).tracePending = true → s.tracePending = true) ∧
      ((s.exceptionSequence kind p).inhibitNext = true → s.inhibitNext = true) := by
  obtain ⟨-, h⟩ | ⟨-, -, h⟩ | ⟨-, -, ⟨k, h⟩, -⟩ := s.exceptionSequence_cases kind p
  · simp [h]
  · simp [h]
  · rw [h]
    exact ⟨id, id, id⟩

/-- In minimum mode RTE pops no CP (R342). -/
theorem State.returnFromException_cp (s : State) (hm : s.mode = .min) : s.returnFromException.cp = s.cp := by
  obtain ⟨k, h⟩ := s.pop16_spec
  simp only [State.returnFromException, hm]
  rw [(KeepsSystem.pop16 _).cp_eq, State.writeSR_cp, h]

/-! ### Which instructions inhibit -/

theorem isInhibiting_of_mayTrap {i : Instr} (h : mayTrap i = true) : isInhibiting i = false := by
  cases i with
  | ldc | andc | orc | xorc | rte => cases h
  | _ => rfl

theorem isInhibiting_of_writesControl {i : Instr} (h : writesControl i = true) : isInhibiting i = true := by
  cases i with
  | ldc | andc | orc | xorc => rfl
  | _ => cases h

theorem not_pageCrossing_not_mayTrap_of_writesControl {i : Instr} (h : writesControl i = true) :
    isPageCrossing i = false ∧ mayTrap i = false := by
  cases i with
  | ldc | andc | orc | xorc => exact ⟨rfl, rfl⟩
  | _ => cases h

/-! ### The effect of an instruction -/

namespace InstrEffect

variable {i : Instr} {s t : State}

theorem frame (h : InstrEffect i s t) : Frame s t := by
  cases h with
  | ordinary _ h => exact h.frame
  | trap _ h kind _ p => exact h.frame.trans (.exceptionSequence _ kind p)
  | crossPage _ _ _ h _ g => exact (h.frame.trans (.of_eq rfl rfl rfl rfl rfl rfl rfl)).trans g.frame
  | control _ h cr v g =>
    exact ((h.frame.trans (.crWrite _ cr v)).trans g.frame).trans (.of_eq rfl rfl rfl rfl rfl rfl rfl)
  | exceptionReturn => exact .returnFromException s
  | sleep => exact .of_eq rfl rfl rfl rfl rfl rfl rfl

theorem cp_eq (h : InstrEffect i s t) (hp : isPageCrossing i = false) (ht : mayTrap i = false) : t.cp = s.cp := by
  cases h with
  | ordinary _ h => exact h.cp_eq
  | trap hi => exact absurd hi (by simp [ht])
  | crossPage hi => exact absurd hi (by simp [hp])
  | control _ h cr v g =>
    rw [State.inhibit_cp, g.cp_eq, State.crWrite_eq]
    exact h.cp_eq
  | exceptionReturn hi =>
    subst hi
    cases hp
  | sleep => rfl

theorem cp_eq_of_min (h : InstrEffect i s t) (hm : s.mode = .min) : t.cp = s.cp := by
  cases h with
  | ordinary _ h => exact h.cp_eq
  | trap _ h kind _ p => exact ((State.exceptionSequence_pages _ kind p).1 (h.mode_eq.trans hm)).trans h.cp_eq
  | crossPage _ _ hmax => exact absurd hmax (by simp [hm])
  | control hi h cr v g =>
    obtain ⟨hp, ht⟩ := not_pageCrossing_not_mayTrap_of_writesControl hi
    exact (InstrEffect.control hi h cr v g).cp_eq hp ht
  | exceptionReturn => exact s.returnFromException_cp hm
  | sleep => rfl

/-- The data page registers and BR have their number as the only way to them (R36, R38). -/
theorem pages_eq (h : InstrEffect i s t) (hw : writesControl i = false) :
    t.dp = s.dp ∧ t.ep = s.ep ∧ t.tp = s.tp ∧ t.br = s.br := by
  cases h with
  | ordinary _ h => exact ⟨h.dp_eq, h.ep_eq, h.tp_eq, h.br_eq⟩
  | trap _ h kind _ p =>
    obtain ⟨-, hdp, hep, htp, hbr⟩ := State.exceptionSequence_pages _ kind p
    exact ⟨hdp.trans h.dp_eq, hep.trans h.ep_eq, htp.trans h.tp_eq, hbr.trans h.br_eq⟩
  | crossPage _ _ _ h _ g =>
    exact ⟨g.dp_eq.trans h.dp_eq, g.ep_eq.trans h.ep_eq, g.tp_eq.trans h.tp_eq, g.br_eq.trans h.br_eq⟩
  | control hi => exact absurd hi (by simp [hw])
  | exceptionReturn =>
    obtain ⟨k, h⟩ := s.returnFromException_spec
    rw [h]
    exact ⟨rfl, rfl, rfl, rfl⟩
  | sleep => exact ⟨rfl, rfl, rfl, rfl⟩

theorem systemByte (h : InstrEffect i s t) (hn : isInhibiting i = false) :
    t.mask = s.mask ∧ (t.flagT = s.flagT ∨ mayTrap i = true ∧ t.flagT = false) ∧
      (t.inhibitNext = true → s.inhibitNext = true) := by
  cases h with
  | ordinary _ h => exact ⟨h.mask_eq, .inl h.flagT_eq, h.inhibitNext_eq.symm.trans⟩
  | trap hi h kind hk p =>
    refine ⟨(State.exceptionSequence_mask _ hk p).trans h.mask_eq, ?_, fun w => ?_⟩
    · exact (State.exceptionSequence_flagT _ kind p).imp (·.trans h.flagT_eq) fun hT => ⟨hi, hT⟩
    · exact h.inhibitNext_eq.symm.trans ((State.exceptionSequence_pending _ kind p).2.2 w)
  | crossPage _ _ _ h _ g =>
    exact ⟨g.mask_eq.trans h.mask_eq, .inl (g.flagT_eq.trans h.flagT_eq),
      (g.inhibitNext_eq.trans h.inhibitNext_eq).symm.trans⟩
  | control hi => exact absurd (isInhibiting_of_writesControl hi) (by simp [hn])
  | exceptionReturn hi =>
    subst hi
    cases hn
  | sleep => exact ⟨rfl, .inl rfl, id⟩

theorem inhibitNext_eq (h : InstrEffect i s t) (hi : isInhibiting i = true) : t.inhibitNext = true := by
  cases h with
  | ordinary hn | crossPage _ hn => exact absurd hi (by simp [hn])
  | trap ht => exact absurd hi (by simp [isInhibiting_of_mayTrap ht])
  | control => rfl
  | exceptionReturn => rfl
  | sleep hs =>
    subst hs
    cases hi

end InstrEffect

/-- Settles O59: of the ways in `InstrEffect` only page crossings, exception sequences, RTE and control-register writes
reach the registers named. -/
theorem pageRegisterChanges : Obligations.PageRegisterChanges := by
  intro i s t h
  have effect := exec_effect h
  obtain ⟨⟨-, -, -, -, requests⟩, -⟩ := effect.frame
  exact ⟨effect.cp_eq, effect.cp_eq_of_min, effect.pages_eq, requests⟩

/-- Settles O60, from the same effects. -/
theorem systemByteChanges : Obligations.SystemByteChanges := fun _ _ _ h =>
  ⟨(exec_effect h).systemByte, (exec_effect h).inhibitNext_eq⟩

end Sys2Proof.Machine

/-! ## The invariant

`State.Coherent` is the part of the invariant that holds inside a step as well; what is pending is cleared by the check
point, and by a double fault where there is none. -/

namespace Sys2Proof.Machine

/-- The invariant but for what is pending. -/
structure State.Coherent (s : State) : Prop where
  mem : s.mem.wf = true
  reserved : s.sr &&& 0x78F0 = 0
  mode : s.mode = s.chip.modeOf s.mds
  busLock : s.busLock = false
  proc : s.proc ≠ .exceptionHandling

theorem State.inv_iff (s : State) :
    s.Inv ↔ s.Coherent ∧ s.addrErrPending = false ∧ s.tracePending = false ∧ s.inhibitNext = false := by
  constructor
  · rintro ⟨mem, reserved, mode, addrErr, trace, inhibit, busLock, proc⟩
    exact ⟨⟨mem, reserved, mode, busLock, proc⟩, addrErr, trace, inhibit⟩
  · rintro ⟨⟨mem, reserved, mode, busLock, proc⟩, addrErr, trace, inhibit⟩
    exact ⟨mem, reserved, mode, addrErr, trace, inhibit, busLock, proc⟩

theorem State.Coherent.of_frame {s t : State} (h : s.Coherent) (f : Frame s t) (busLock : t.busLock = false)
    (proc : t.proc ≠ .exceptionHandling) : t.Coherent := by
  obtain ⟨⟨hmode, hmds, hchip, -, -⟩, hmem, hreserved⟩ := f
  exact ⟨hmem h.mem, hreserved h.reserved, by rw [hmode, hmds, hchip]; exact h.mode, busLock, proc⟩

/-! ### Exception sequences and the check point -/

theorem State.exceptionSequence_busLock (s : State) (kind : Exc) (p : Word) :
    (s.exceptionSequence kind p).busLock = s.busLock := by
  obtain ⟨-, h⟩ | ⟨-, -, h⟩ | ⟨-, -, ⟨k, h⟩, -⟩ := s.exceptionSequence_cases kind p
  · rw [h]
  · rw [h]; rfl
  · rw [h]

/-- A sequence ends in program execution or in the double fault state, which nothing leaves (R397). -/
theorem State.exceptionSequence_proc (s : State) (kind : Exc) (p : Word) :
    (s.exceptionSequence kind p).proc = .execution ∨ (s.exceptionSequence kind p).proc = .doubleFault := by
  obtain ⟨hd, h⟩ | ⟨-, -, h⟩ | ⟨-, -, ⟨k, h⟩, -⟩ := s.exceptionSequence_cases kind p
  · exact .inr (by rw [h, hd])
  · exact .inr (by rw [h]; rfl)
  · exact .inl (by rw [h])

/-- A sequence that double faults drops everything pending (R397). -/
theorem State.exceptionSequence_doubleFault {s : State} (hs : s.proc ≠ .doubleFault) (kind : Exc) (p : Word)
    (h : (s.exceptionSequence kind p).proc = .doubleFault) : s.exceptionSequence kind p = s.enterDoubleFault := by
  obtain ⟨hd, -⟩ | ⟨-, -, e⟩ | ⟨-, -, ⟨k, e⟩, -⟩ := s.exceptionSequence_cases kind p
  · exact absurd hd hs
  · exact e
  · rw [e] at h
    cases h

theorem State.Coherent.exceptionSequence {s : State} (h : s.Coherent) (kind : Exc) (p : Word) :
    (s.exceptionSequence kind p).Coherent := by
  refine h.of_frame (.exceptionSequence s kind p) ((s.exceptionSequence_busLock kind p).trans h.busLock) ?_
  rcases s.exceptionSequence_proc kind p with e | e <;> simp [e]

theorem State.Inv.exceptionSequence {s : State} (h : s.Inv) (kind : Exc) (p : Word) :
    (s.exceptionSequence kind p).Inv := by
  obtain ⟨coherent, addrErr, trace, inhibit⟩ := s.inv_iff.1 h
  obtain ⟨hA, hT, hI⟩ := s.exceptionSequence_pending kind p
  refine (State.inv_iff _).2 ⟨coherent.exceptionSequence kind p, ?_, ?_, ?_⟩
  · simpa [addrErr] using hA
  · simpa [trace] using hT
  · simpa [inhibit] using hI

theorem State.Inv.acceptLoop {s : State} (h : s.Inv) (fuel : Nat) : (State.acceptLoop fuel s).Inv := by
  induction fuel generalizing s with
  | zero => exact h
  | succ fuel ih =>
    rw [State.acceptLoop]
    split
    · exact h
    · split
      · exact h
      · split
        · exact ih (State.Inv.exceptionSequence (s := { s with requests := s.requests.erase _ }) h _ _)
        · exact h

theorem State.Inv.acceptInterrupts {s : State} (h : s.Inv) : s.acceptInterrupts.Inv := h.acceptLoop _

/-- Handling an address error leaves none pending; a trace request may wait behind it (R398). -/
theorem State.Coherent.handleAddrErr {s : State} (h : s.Coherent) (hi : s.inhibitNext = false) :
    s.handleAddrErr.Coherent ∧ s.handleAddrErr.addrErrPending = false ∧ s.handleAddrErr.inhibitNext = false := by
  rw [State.handleAddrErr]
  split
  · have cleared : State.Coherent { s with addrErrPending := false } :=
      ⟨h.mem, h.reserved, h.mode, h.busLock, h.proc⟩
    obtain ⟨hA, -, hI⟩ := State.exceptionSequence_pending { s with addrErrPending := false } .addressError s.pc
    exact ⟨cleared.exceptionSequence _ _, by simpa using hA, by simpa [hi] using hI⟩
  · exact ⟨h, by simpa using ‹¬ s.addrErrPending = true›, hi⟩

theorem State.Coherent.handleTrace_inv {s : State} (h : s.Coherent) (ha : s.addrErrPending = false)
    (hi : s.inhibitNext = false) : s.handleTrace.Inv := by
  rw [State.handleTrace]
  split
  · have cleared : State.Coherent { s with tracePending := false } :=
      ⟨h.mem, h.reserved, h.mode, h.busLock, h.proc⟩
    exact State.Inv.exceptionSequence (s := { s with tracePending := false })
      ((State.inv_iff _).2 ⟨cleared, ha, rfl, hi⟩) _ _
  · exact s.inv_iff.2 ⟨h, ha, by simpa using ‹¬ s.tracePending = true›, hi⟩

/-- The check point clears what is pending; in the double fault state, which has none, nothing may be pending. -/
theorem State.Coherent.checkPoint_inv {s : State} (h : s.Coherent) (hd : s.proc = .doubleFault → s.Inv) :
    s.checkPoint.Inv := by
  rw [State.checkPoint]
  split
  · exact hd ‹_›
  · have latched : State.Coherent { s with inhibitNext := false, tracePending := s.flagT && !s.inhibitNext } :=
      ⟨h.mem, h.reserved, h.mode, h.busLock, h.proc⟩
    obtain ⟨coherent, addrErr, inhibit⟩ := latched.handleAddrErr rfl
    have handled := coherent.handleTrace_inv addrErr inhibit
    dsimp only
    split
    · exact handled
    · exact handled.acceptInterrupts

/-! ### Instructions -/

/-- An instruction leaves the bus unlocked and no exception sequence half done (R82, R422). -/
theorem InstrEffect.busLock_proc {i : Instr} {s t : State} (h : InstrEffect i s t) (hl : s.busLock = false)
    (hp : s.proc = .execution) : t.busLock = false ∧ t.proc ≠ .exceptionHandling := by
  cases h with
  | ordinary _ h => exact ⟨h.unlocked hl, by simp [h.proc_eq, hp]⟩
  | @trap u _ h kind _ p =>
    refine ⟨(u.exceptionSequence_busLock kind p).trans (h.unlocked hl), ?_⟩
    rcases u.exceptionSequence_proc kind p with e | e <;> simp [e]
  | crossPage _ _ _ h _ g => exact ⟨g.unlocked (h.unlocked hl), by simp [g.proc_eq, h.proc_eq, hp]⟩
  | @control u t _ h cr v g =>
    refine ⟨g.unlocked ?_, ?_⟩
    · rw [State.crWrite_eq]
      exact h.unlocked hl
    · rw [State.inhibit_proc, g.proc_eq, State.crWrite_eq, show u.proc = .execution from h.proc_eq.trans hp]
      simp
  | exceptionReturn =>
    obtain ⟨k, h⟩ := s.returnFromException_spec
    rw [h]
    exact ⟨hl, by simp [hp]⟩
  | sleep _ p hs => exact ⟨hl, by rcases hs with rfl | rfl <;> simp⟩

theorem InstrEffect.coherent {i : Instr} {s t : State} (h : InstrEffect i s t) (hs : s.Coherent)
    (hp : s.proc = .execution) : t.Coherent :=
  hs.of_frame h.frame (h.busLock_proc hs.busLock hp).1 (h.busLock_proc hs.busLock hp).2

/-- The one way to a double fault inside an instruction is its exception sequence. -/
theorem InstrEffect.doubleFault {i : Instr} {s t : State} (h : InstrEffect i s t) (hp : s.proc = .execution)
    (hd : t.proc = .doubleFault) : ∃ u : State, t = u.enterDoubleFault := by
  cases h with
  | ordinary _ h => simp [h.proc_eq, hp] at hd
  | @trap u _ h kind _ p =>
    exact ⟨u, State.exceptionSequence_doubleFault (by simp [h.proc_eq, hp]) kind p hd⟩
  | crossPage _ _ _ h _ g => simp [g.proc_eq, h.proc_eq, hp] at hd
  | @control u t _ h cr v g =>
    rw [State.inhibit_proc, g.proc_eq, State.crWrite_eq] at hd
    exact absurd hd (by simp [h.proc_eq, hp])
  | exceptionReturn =>
    obtain ⟨k, h⟩ := s.returnFromException_spec
    rw [h] at hd
    exact absurd hd (by simp [hp])
  | sleep _ p hs => rcases hs with rfl | rfl <;> cases hd

theorem InstrEffect.checkPoint_inv {i : Instr} {s t : State} (h : InstrEffect i s t) (hs : s.Coherent)
    (hp : s.proc = .execution) : t.checkPoint.Inv := by
  have coherent := h.coherent hs hp
  refine coherent.checkPoint_inv fun hd => ?_
  obtain ⟨u, rfl⟩ := h.doubleFault hp hd
  exact (State.inv_iff _).2 ⟨coherent, rfl, rfl, rfl⟩

/-! ### Steps -/

/-- The state in which a fetched instruction is executed is the one with PC past some number of bytes (R124). -/
theorem State.fetch_ok {s : State} {p : Instr × State} (h : s.fetch = .ok p) : ∃ n, p.2 = s.advance n := by
  rw [State.fetch] at h
  split at h
  · cases h
    exact ⟨_, rfl⟩
  · cases h

/-- What a step can be (R420, R387). -/
theorem step_cases {s t : State} (h : step s = .next t) :
    s.withoutInstruction = some t ∨
      s.withoutInstruction = none ∧ ∃ i n u, exec i (s.advance n) = .next u ∧ t = u.checkPoint := by
  rw [step] at h
  split at h
  · cases h
    exact .inl ‹_›
  · refine .inr ⟨‹_›, ?_⟩
    split at h
    · cases h
    · split at h
      · cases h
      · next p hf =>
        obtain ⟨n, hn⟩ := State.fetch_ok hf
        split at h
        · next u hu =>
          cases h
          exact ⟨p.1, n, u, hn ▸ hu, rfl⟩
        · cases h
        · cases h

theorem State.proc_of_withoutInstruction_none {s : State} (h : s.withoutInstruction = none) :
    s.proc = .execution ∨ s.proc = .exceptionHandling := by
  rw [State.withoutInstruction] at h
  split at h
  · cases h
  split at h
  · cases h
  cases hp : s.proc with
  | execution => exact .inl rfl
  | exceptionHandling => exact .inr rfl
  | busReleased =>
    rw [hp] at h
    dsimp only at h
    split at h <;> cases h
  | resetState | sleep | softwareStandby | hardwareStandby | doubleFault =>
    rw [hp] at h
    cases h

/-- SR is H'070x after a reset (R442). -/
theorem State.reserved_resetRegisters (s : State) : s.resetRegisters.sr &&& 0x78F0 = 0 := by
  show (0x0700 ||| Config.freeWord (s.free + 8) &&& 0x000F) &&& 0x78F0 = 0
  rw [BitVec.and_or_distrib_right, BitVec.and_assoc]
  simp

theorem State.Inv.resetSequence {s : State} (h : s.Inv) : s.resetSequence.Inv := by
  obtain ⟨coherent, -⟩ := s.inv_iff.1 h
  obtain ⟨⟨k, fetched⟩, -⟩ := s.resetRegisters.vectorFetch_spec 0
  rw [State.resetSequence, fetched]
  exact (State.inv_iff _).2 ⟨⟨coherent.mem, s.reserved_resetRegisters, rfl, rfl, by simp⟩, rfl, rfl, rfl⟩

theorem State.Inv.enterReset {s : State} (h : s.Inv) : s.enterReset.Inv :=
  (State.inv_iff _).2
    ⟨(s.inv_iff.1 h).1.of_frame (.enterReset s) rfl (by simp [State.enterReset]), rfl, rfl, rfl⟩

theorem State.Inv.enterHardwareStandby {s : State} (h : s.Inv) : s.enterHardwareStandby.Inv := by
  obtain ⟨coherent, -⟩ := s.inv_iff.1 h
  refine (State.inv_iff _).2 ⟨⟨Memory.wf_losePower _ _ coherent.mem, coherent.reserved, coherent.mode, rfl, ?_⟩, rfl,
    rfl, rfl⟩
  simp [State.enterHardwareStandby]

/-- A change of the processing state, but into the middle of an exception sequence (R422). -/
theorem State.Inv.setProc {s : State} (h : s.Inv) {p : ProcState} (hp : p ≠ .exceptionHandling) :
    State.Inv { s with proc := p } := by
  obtain ⟨⟨mem, reserved, mode, busLock, -⟩, pending⟩ := s.inv_iff.1 h
  exact (State.inv_iff _).2 ⟨⟨mem, reserved, mode, busLock, hp⟩, pending⟩

theorem State.Inv.withoutInstruction {s t : State} (h : s.Inv) (hw : s.withoutInstruction = some t) : t.Inv := by
  rw [State.withoutInstruction] at hw
  split at hw
  · cases hw
    exact h.enterHardwareStandby
  split at hw
  · cases hw
    exact h.enterReset
  split at hw
  · cases hw
    exact h
  · cases hw
    exact h
  · cases hw
    exact h.resetSequence
  · cases hw
    exact h.acceptInterrupts
  · cases hw
    rw [State.idleInStandby]
    split
    · exact h.acceptInterrupts
    · exact h
  · split at hw
    · cases hw
      exact h
    · cases hw
      exact h.setProc (by simp)
  · split at hw
    · cases hw
      exact h.setProc (by simp)
    · cases hw
  · split at hw
    · cases hw
      exact h.setProc (by simp)
    · cases hw

theorem State.Coherent.advance {s : State} (h : s.Coherent) (n : Nat) : (s.advance n).Coherent :=
  ⟨h.mem, h.reserved, h.mode, h.busLock, h.proc⟩

/-- Settles O7: a step without an instruction keeps the invariant; an instruction keeps its coherent part, and the check
point after it clears what is pending. -/
theorem invKeptByStep : Obligations.InvKeptByStep := by
  intro s t h hstep
  obtain hw | ⟨hw, i, n, u, hexec, rfl⟩ := step_cases hstep
  · exact h.withoutInstruction hw
  · obtain ⟨coherent, -⟩ := s.inv_iff.1 h
    have proc : s.proc = .execution := (State.proc_of_withoutInstruction_none hw).resolve_right coherent.proc
    exact (exec_effect hexec).checkPoint_inv (coherent.advance n) proc

end Sys2Proof.Machine

/-! ## Writes of SR and CCR -/

namespace Sys2Proof.Machine

theorem State.writeSR_getLsbD (s : State) (v : Word) (i : Nat) :
    (s.writeSR v).sr.getLsbD i = (v.getLsbD i && srBits.getLsbD i) :=
  BitVec.getLsbD_and

/-- The mask is among the bits of SR that exist (R27). -/
theorem srBits_getLsbD_mask : ∀ i < 3, srBits.getLsbD (8 + i) = true := by decide

@[simp] theorem State.flagT_writeSR (s : State) (v : Word) : (s.writeSR v).flagT = v.getLsbD 15 := by
  rw [State.flagT, State.writeSR_getLsbD, show srBits.getLsbD 15 = true by decide, Bool.and_true]

@[simp] theorem State.mask_writeSR (s : State) (v : Word) : (s.writeSR v).mask = v.extractLsb' 8 3 := by
  apply BitVec.eq_of_getLsbD_eq
  intro i hi
  simp only [State.mask, BitVec.getLsbD_extractLsb', State.writeSR_getLsbD, srBits_getLsbD_mask i hi, Bool.and_true]

theorem State.flags_writeSR (s : State) (v : Word) :
    (s.writeSR v).flags = ⟨v.getLsbD 3, v.getLsbD 2, v.getLsbD 1, v.getLsbD 0⟩ := by
  have exist : ∀ i < 4, srBits.getLsbD i = true := by decide
  simp only [State.flags, State.writeSR_getLsbD, exist 0, exist 1, exist 2, exist 3, Nat.reduceLT, Bool.and_true]

/-- CCR is the low byte; the system byte above it is kept. -/
theorem State.upper_writeCCR (s : State) (v : Byte) :
    (s.writeCCR v).sr.extractLsb' 8 8 = s.sr.extractLsb' 8 8 := by
  apply BitVec.eq_of_getLsbD_eq
  intro i hi
  simp only [BitVec.getLsbD_extractLsb', State.writeCCR_getLsbD, show ¬ 8 + i < 8 by omega, if_false]

/-- Bits 7 to 4 of SR are 0 after any write of CCR, whatever they were. -/
theorem State.ccrReserved_writeCCR (s : State) (v : Byte) : (s.writeCCR v).sr &&& 0x00F0 = 0 := by
  have reserved : ∀ i < 16, (0x00F0 : Word).getLsbD i = (decide (4 ≤ i) && decide (i < 8)) := by decide
  apply word_ext
  intro i hi
  rw [BitVec.getLsbD_and, State.writeCCR_getLsbD, ccr_getLsbD, reserved i hi]
  by_cases h4 : 4 ≤ i
  · by_cases h8 : i < 8 <;> simp [h8, show ¬ i < 4 by omega]
  · simp [h4]

theorem State.flags_writeCCR (s : State) (v : Byte) :
    (s.writeCCR v).flags = ⟨v.getLsbD 3, v.getLsbD 2, v.getLsbD 1, v.getLsbD 0⟩ := by
  simp only [State.flags, State.writeCCR_getLsbD, ccr_getLsbD, Nat.reduceLT, if_true, decide_true, Bool.and_true]

/-- Settles O24, from the rules of each write. -/
theorem registerWrites : Obligations.RegisterWrites := by
  intro s r q b w f
  have byte := s.reg_setRegN .byte r
  have word := s.reg_setRegN .word r
  refine ⟨?_, ?_, fun hq => ⟨?_, ?_⟩, s.flags_setFlags f, s.upper_setFlags f, s.reserved_writeSR w, s.flagT_writeSR w,
    s.mask_writeSR w, s.flags_writeSR w, s.upper_writeCCR b, s.ccrReserved_writeCCR b, s.flags_writeCCR b⟩
  · rw [byte, if_pos rfl]; rfl
  · rw [word, if_pos rfl]; rfl
  · rw [byte, if_neg hq]
  · rw [word, if_neg hq]

/-- A memory nothing was written to, and that was never without power, reads 0 (log entry 1). -/
theorem Memory.read_empty (a : Nat) : Memory.read ⟨[], []⟩ a = 0 := rfl

/-- Settles O8: the fields of `State.reset` by evaluation, its PC and CP from an empty vector table. -/
theorem resetValues : Obligations.ResetValues := by
  have vector : ∀ a, State.reset.wordAt a = 0 := fun a => by
    rw [State.wordAt, show State.reset.mem = ⟨[], []⟩ from rfl, Memory.read_empty, Memory.read_empty]
    rfl
  exact ⟨by decide, by decide, by decide, rfl, rfl, rfl, rfl, (vector 2).symm, by rw [vector]; rfl⟩

end Sys2Proof.Machine

/-! ## Interrupt acceptance

One acceptance at a time: the highest request is looked at; accepting it is an entry with one frame; after it only an NMI
can be above the mask, so that a chain of acceptances is a chain of NMI entries (R394, D13). -/

namespace Sys2Proof.Machine

/-! ### Requests -/

theorem Request.level_eq_eight {q : Request} : q.level = 8 ↔ q = .nmi := by
  cases q with
  | nmi => simp [Request.level]
  | irq l k =>
    have := l.isLt
    simp only [Request.level, reduceCtorEq, iff_false]
    omega

theorem Request.level_le_seven {q : Request} (h : q ≠ .nmi) : q.level ≤ 7 := by
  cases q with
  | nmi => exact absurd rfl h
  | irq l k =>
    have := l.isLt
    simp only [Request.level]
    omega

/-- The mask that acceptance sets (R394). -/
theorem Request.newMask_exc (q : Request) (m : BitVec 3) : (q.exc.newMask.getD m).toNat = min q.level 7 := by
  cases q with
  | nmi => rfl
  | irq l k =>
    have := l.isLt
    simp only [Request.exc, Exc.newMask, Option.getD_some, Request.level]
    omega

theorem topRequest_eq_none {l : List Request} : topRequest l = none ↔ l = [] := by
  cases l with
  | nil => simp [topRequest]
  | cons q rest =>
    simp only [topRequest, reduceCtorEq, iff_false]
    split
    · simp
    · split <;> simp

/-- The request looked at is pending, and none has a higher level (R394). -/
theorem topRequest_spec {l : List Request} {q : Request} (h : topRequest l = some q) :
    q ∈ l ∧ ∀ p ∈ l, p.level ≤ q.level := by
  induction l generalizing q with
  | nil => cases h
  | cons a rest ih =>
    rw [topRequest] at h
    split at h
    · next hn =>
      cases h
      simp [topRequest_eq_none.1 hn]
    · next p hp =>
      obtain ⟨hmem, hmax⟩ := ih hp
      split at h
      · next hlt =>
        cases h
        refine ⟨.tail _ hmem, List.forall_mem_cons.2 ⟨hlt.le, hmax⟩⟩
      · next hge =>
        cases h
        exact ⟨.head _, List.forall_mem_cons.2 ⟨le_rfl, fun p' hp' => (hmax p' hp').trans (not_lt.1 hge)⟩⟩

/-- A pending NMI is the request looked at. -/
theorem topRequest_of_nmi_mem {l : List Request} (h : .nmi ∈ l) : topRequest l = some .nmi := by
  cases hq : topRequest l with
  | none => simp [topRequest_eq_none.1 hq] at h
  | some q =>
    have top : q.level ≥ 8 := (topRequest_spec hq).2 _ h
    have : q = .nmi := by
      by_contra hn
      have := Request.level_le_seven hn
      omega
    rw [this]

theorem filter_erase_nmi (l : List Request) : (l.erase .nmi).filter (· ≠ .nmi) = l.filter (· ≠ .nmi) := by
  induction l with
  | nil => rfl
  | cons q rest ih =>
    by_cases hq : q = .nmi
    · simp [hq]
    · rw [List.erase_cons_tail (by simpa using hq), List.filter_cons, List.filter_cons, ih]

/-! ### The loop -/

theorem State.acceptable_iff (s : State) (q : Request) : s.acceptable q = true ↔ q = .nmi ∨ s.mask.toNat < q.level := by
  simp [State.acceptable, Request.level_eq_eight]

theorem State.acceptRequest_requests (s : State) (q : Request) :
    (s.acceptRequest q).requests = s.requests.erase q := by
  obtain ⟨⟨-, -, -, -, h⟩, -⟩ := Frame.exceptionSequence { s with requests := s.requests.erase q } q.exc s.pc
  exact h

theorem State.acceptInterrupts_of_not_acceptable {s : State} (h : ∀ q, topRequest s.requests = some q →
    s.acceptable q = false) : s.acceptInterrupts = s := by
  rw [State.acceptInterrupts]
  cases s.requests.length with
  | zero => rfl
  | succ fuel =>
    rw [State.acceptLoop]
    split
    · rfl
    · split
      · rfl
      · simp [h _ ‹_›]

/-- An acceptable request is accepted, and the chain goes on from the state its entry leaves (R394). -/
theorem State.acceptInterrupts_of_acceptable {s : State} {q : Request} (hq : topRequest s.requests = some q)
    (ha : s.acceptable q = true) (hp : s.proc ≠ .doubleFault) :
    s.acceptInterrupts = (s.acceptRequest q).acceptInterrupts := by
  have length : s.requests.length = (s.acceptRequest q).requests.length + 1 := by
    have mem := (topRequest_spec hq).1
    have := List.length_pos_of_mem mem
    rw [s.acceptRequest_requests, List.length_erase_of_mem mem]
    omega
  rw [State.acceptInterrupts, State.acceptInterrupts, length, State.acceptLoop, if_neg hp, hq]
  simp [ha]

/-! ### Frames on the stack -/

/-- The bytes of an exception frame (R391). -/
def Mode.frameSize : Mode → Word
  | .min => 4
  | .max => 6

/-- Frames keep the stack pointer even (R391). -/
theorem lsb_sub_frames (x : Word) (n : Nat) (m : Mode) :
    (x - BitVec.ofNat 16 n * m.frameSize).getLsbD 0 = x.getLsbD 0 := by
  have even : (BitVec.ofNat 16 n * m.frameSize).toNat % 2 = 0 := by
    rw [BitVec.toNat_mul, BitVec.toNat_ofNat]
    cases m with
    | min => rw [show Mode.min.frameSize.toNat = 4 from rfl]; omega
    | max => rw [show Mode.max.frameSize.toNat = 6 from rfl]; omega
  rw [lsb_eq, lsb_eq, BitVec.toNat_sub]
  congr 1
  apply propext
  omega

/-- Under the ordinary conditions an exception sequence is an entry (R390). -/
theorem State.exceptionSequence_entry {s : State} {kind : Exc} (h : s.canEnter kind) (p : Word) :
    EntryEffect s kind p (s.exceptionSequence kind p) := by
  obtain ⟨⟨-, -, even⟩, vector, running⟩ := h
  obtain ⟨hd, -⟩ | ⟨-, odd, -⟩ | ⟨-, -, -, -, -, -, -, -, -, -, -, entry⟩ := s.exceptionSequence_cases kind p
  · exact absurd hd running
  · exact absurd (even.symm.trans odd) (by simp)
  · exact entry vector

/-- From `s` to `t` exceptions have been entered, `n` of them: T is clear, R7 lower by the frames, the other general
registers are kept. -/
structure Entered (s t : State) (n : Nat) : Prop where
  proc : t.proc = .execution
  flagT : t.flagT = false
  mode : t.mode = s.mode
  r7 : t.reg .r7 = s.reg .r7 - BitVec.ofNat 16 n * s.mode.frameSize
  regs : KeepsRegs s t [.r7]

theorem Entered.zero {s : State} (hp : s.proc = .execution) (hT : s.flagT = false) : Entered s s 0 :=
  ⟨hp, hT, rfl, by simp, fun _ _ => rfl⟩

theorem Entered.trans {s t u : State} {n m : Nat} (h : Entered s t n) (g : Entered t u m) : Entered s u (n + m) where
  proc := g.proc
  flagT := g.flagT
  mode := g.mode.trans h.mode
  r7 := by rw [g.r7, h.r7, h.mode, BitVec.ofNat_add, add_mul, sub_sub]
  regs := fun r hr => (g.regs r hr).trans (h.regs r hr)

theorem Entered.even {s t : State} {n : Nat} (h : Entered s t n) : (t.reg .r7).getLsbD 0 = (s.reg .r7).getLsbD 0 := by
  rw [h.r7, lsb_sub_frames]

/-- Accepting a request with R7 even is one entry, which sets the mask (R390, R394). -/
theorem State.acceptRequest_entered {s : State} (q : Request) (hp : s.proc ≠ .doubleFault)
    (he : (s.reg .r7).getLsbD 0 = false) :
    Entered s (s.acceptRequest q) 1 ∧ (s.acceptRequest q).mask.toNat = min q.level 7 := by
  obtain ⟨hd, -⟩ | ⟨-, ho, -⟩ | ⟨-, -, ⟨k, h⟩, -, -, flagT, mask, -, -, regs, r7, -⟩ :=
    State.exceptionSequence_cases { s with requests := s.requests.erase q } q.exc s.pc
  · exact absurd hd hp
  · exact absurd (he.symm.trans ho) (by simp)
  · refine ⟨⟨?_, flagT, ?_, ?_, fun r hr => regs r (by simpa using hr)⟩, ?_⟩
    · rw [State.acceptRequest, h]
    · rw [State.acceptRequest, h]
    · rw [BitVec.one_mul]
      exact r7
    · exact (congrArg BitVec.toNat mask).trans (q.newMask_exc _)

/-! ### The chain -/

/-- With no NMI pending and the others at or below the mask nothing is accepted (R394). -/
theorem State.acceptInterrupts_of_low {s : State} (h : ∀ p ∈ s.requests, p ≠ .nmi ∧ p.level ≤ s.mask.toNat) :
    s.acceptInterrupts = s := by
  refine State.acceptInterrupts_of_not_acceptable fun q hq => ?_
  obtain ⟨hn, hl⟩ := h q (topRequest_spec hq).1
  rw [Bool.eq_false_iff, ne_eq, State.acceptable_iff]
  exact not_or.2 ⟨hn, not_lt.2 hl⟩

/-- At mask 7 the pending NMIs are accepted one after the other, and nothing else is (R394, R402). -/
theorem State.acceptInterrupts_nmis (n : Nat) : ∀ {s : State}, s.requests.count .nmi = n → s.mask.toNat = 7 →
    s.proc = .execution → s.flagT = false → (s.reg .r7).getLsbD 0 = false →
    Entered s s.acceptInterrupts n ∧ s.acceptInterrupts.mask.toNat = 7 ∧
      s.acceptInterrupts.requests = s.requests.filter (· ≠ .nmi) := by
  induction n with
  | zero =>
    intro s hn hm hp hT he
    have other : ∀ p ∈ s.requests, p ≠ .nmi := fun p hp e => List.count_eq_zero.1 hn (e ▸ hp)
    rw [State.acceptInterrupts_of_low fun p hp => ⟨other p hp, hm ▸ Request.level_le_seven (other p hp)⟩]
    exact ⟨.zero hp hT, hm, (List.filter_eq_self.2 (by simpa using other)).symm⟩
  | succ n ih =>
    intro s hn hm hp hT he
    have mem : Request.nmi ∈ s.requests := List.count_pos_iff.1 (by omega)
    have running : s.proc ≠ .doubleFault := by simp [hp]
    obtain ⟨entered, mask⟩ := State.acceptRequest_entered .nmi running he
    have left : (s.acceptRequest .nmi).requests.count .nmi = n := by
      rw [State.acceptRequest_requests, List.count_erase_self, hn]
      rfl
    obtain ⟨rest, mask', requests⟩ := ih left mask entered.proc entered.flagT (entered.even.trans he)
    rw [State.acceptInterrupts_of_acceptable (topRequest_of_nmi_mem mem) ((s.acceptable_iff _).2 (.inl rfl)) running]
    refine ⟨Nat.add_comm 1 n ▸ entered.trans rest, mask', ?_⟩
    rw [requests, State.acceptRequest_requests, filter_erase_nmi]

/-- The chain ends where no NMI is left: the other requests are at or below the level just accepted (R394). -/
theorem State.acceptInterrupts_acceptRequest {s : State} {q : Request} (hq : topRequest s.requests = some q)
    (hn : .nmi ∉ s.requests.erase q) (hm : (s.acceptRequest q).mask.toNat = min q.level 7) :
    (s.acceptRequest q).acceptInterrupts = s.acceptRequest q := by
  refine State.acceptInterrupts_of_low fun p hp => ?_
  rw [State.acceptRequest_requests] at hp
  have other : p ≠ .nmi := fun e => hn (e ▸ hp)
  have highest := (topRequest_spec hq).2 p (List.mem_of_mem_erase hp)
  have := Request.level_le_seven other
  exact ⟨other, by omega⟩

/-- How many frames the chain from an accepted request pushes: one for each pending NMI, or the one of a lower request
(R394). -/
def framesFor (s : State) (q : Request) : Nat := if q = .nmi then s.requests.count .nmi else 1

/-- The whole chain, from a request that is accepted. -/
theorem State.acceptInterrupts_entered {s : State} {q : Request} (hq : topRequest s.requests = some q)
    (hp : s.proc ≠ .doubleFault) (he : (s.reg .r7).getLsbD 0 = false) :
    let t := (s.acceptRequest q).acceptInterrupts
    Entered s t (framesFor s q) ∧ (framesFor s q = 1 → t = s.acceptRequest q) ∧ t.mask.toNat = min q.level 7 ∧
      t.requests = if q = .nmi then s.requests.filter (· ≠ .nmi) else s.requests.erase q := by
  obtain ⟨entered, mask⟩ := State.acceptRequest_entered q hp he
  obtain ⟨mem, highest⟩ := topRequest_spec hq
  by_cases hn : q = .nmi
  · subst hn
    have count : (s.acceptRequest .nmi).requests.count .nmi + 1 = s.requests.count .nmi := by
      rw [State.acceptRequest_requests, List.count_erase_self]
      exact Nat.sub_add_cancel (List.count_pos_iff.2 mem)
    obtain ⟨rest, mask', requests⟩ :=
      State.acceptInterrupts_nmis _ rfl mask entered.proc entered.flagT (entered.even.trans he)
    simp only [framesFor, if_pos, ← count]
    refine ⟨Nat.add_comm 1 _ ▸ entered.trans rest, fun one => ?_, mask', ?_⟩
    · refine State.acceptInterrupts_acceptRequest hq ?_ mask
      rw [← s.acceptRequest_requests]
      exact List.count_eq_zero.1 (by omega)
    · rw [requests, State.acceptRequest_requests, filter_erase_nmi]
  · have none : .nmi ∉ s.requests.erase q := fun h => by
      have := highest _ (List.mem_of_mem_erase h)
      have := Request.level_le_seven hn
      simp only [Request.level] at *
      omega
    have last := State.acceptInterrupts_acceptRequest hq none mask
    simp only [framesFor, if_neg hn, last]
    exact ⟨entered, fun _ => trivial, mask, s.acceptRequest_requests q⟩

/-- Settles O14: the highest request decides; the chain after its acceptance is `acceptInterrupts_entered`. -/
theorem interruptMaskLevels : Obligations.InterruptMaskLevels := by
  intro s q
  refine ⟨fun hq => ⟨fun h8 hlow => ?_, fun ha hp he => ?_⟩, rfl, fun hstandby hres => ?_⟩
  · refine State.acceptInterrupts_of_not_acceptable fun p hp => ?_
    obtain rfl : q = p := by simpa [hq] using hp
    simp [State.acceptable, h8, hlow]
  · have chain := State.acceptInterrupts_of_acceptable hq (by simpa [State.acceptable] using ha) hp
    obtain ⟨entered, single, mask, requests⟩ := State.acceptInterrupts_entered hq hp he
    rw [← chain] at entered single mask requests
    exact ⟨fun enter => State.exceptionSequence_entry (s := { s with requests := s.requests.erase q }) enter s.pc, chain,
      single, mask, entered.flagT, entered.proc, requests, entered.r7, entered.regs⟩
  · refine ⟨s.enterReset, ?_, State.mask_setMask s.clearT 7⟩
    simp [step, State.withoutInstruction, hstandby, hres]

end Sys2Proof.Machine

/-! ## Memory accesses

Words are the two bytes at an even address; an operand form adds an address in a page and the step of its pointer. -/

namespace Sys2Proof.Machine

/-! ### Words and their halves -/

/-- The word at an address is read from memory and the address lines of the chip alone. -/
theorem State.wordAt_congr {s t : State} (hm : t.mem = s.mem) (hc : t.chip = s.chip) (a : Addr) :
    t.wordAt a = s.wordAt a := by
  simp [State.wordAt, State.phys_congr hc, hm]

theorem State.memAt_congr {s t : State} (hc : t.chip = s.chip) (l : List Nat) : t.memAt l ↔ s.memAt l := by
  simp [State.memAt, hc]

theorem State.storeWord_chip (s : State) (a : Addr) (v : Word) : (s.storeWord a v).chip = s.chip := by
  rw [(s.storeWord_spec a v).1]

/-- Where a word can be read, so can its bytes, and they are its halves, the high one first (R63, D1). -/
theorem State.loadByte_halves {s : State} {a : Addr} (hm : s.memAt (s.wordBytes a)) :
    (s.loadByte a).1 = (s.wordAt a).extractLsb' 8 8 ∧ (s.loadByte (a + 1)).1 = (s.wordAt a).extractLsb' 0 8 := by
  rw [s.loadByte_mem a (hm _ (by simp [State.wordBytes])), s.loadByte_mem (a + 1) (hm _ (by simp [State.wordBytes]))]
  exact ⟨BitVec.extractLsb'_append_eq_left.symm, BitVec.extractLsb'_append_eq_right.symm⟩

/-- An aligned word load is the two byte loads (R63). -/
theorem State.loadWord_eq_append {s : State} {a : Addr} (ha : a.getLsbD 0 = false) (hm : s.memAt (s.wordBytes a)) :
    (s.loadWord a).1 = (s.loadByte a).1 ++ (s.loadByte (a + 1)).1 := by
  rw [s.loadWord_mem a ha hm, s.loadByte_mem a (hm _ (by simp [State.wordBytes])),
    s.loadByte_mem (a + 1) (hm _ (by simp [State.wordBytes]))]
  rfl

/-- What an aligned word written to RAM is read back as: as a word and by halves (R63). -/
theorem State.load_storeWord {s : State} {a : Addr} (v : Word) (hw : s.mem.wf = true) (ha : a.getLsbD 0 = false)
    (hr : s.ramAt (s.wordBytes a)) :
    ((s.storeWord a v).loadWord a).1 = v ∧ ((s.storeWord a v).loadByte a).1 = v.extractLsb' 8 8 ∧
      ((s.storeWord a v).loadByte (a + 1)).1 = v.extractLsb' 0 8 := by
  obtain ⟨-, -, -, stored⟩ := s.storeWord_spec a v
  have hc := s.storeWord_chip a v
  have readable : (s.storeWord a v).memAt ((s.storeWord a v).wordBytes a) := by
    rw [State.wordBytes_congr hc, State.memAt_congr hc]
    exact hr.memAt
  rw [State.loadWord_mem _ a ha readable, (State.loadByte_halves readable).1, (State.loadByte_halves readable).2,
    stored hw ha hr]
  exact ⟨rfl, rfl, rfl⟩

theorem State.storeWord_odd {s : State} {a : Addr} (ha : a.getLsbD 0 = true) (v : Word) :
    s.storeWord a v = { s with addrErrPending := true } := by
  rw [State.storeWord, if_pos ha]
  rfl

theorem State.loadWord_odd {s : State} {a : Addr} (ha : a.getLsbD 0 = true) :
    ∃ k, (s.loadWord a).2 = { s with addrErrPending := true, free := k } := by
  obtain ⟨k, h⟩ := s.loadWord_spec a
  rw [ha, Bool.or_true] at h
  exact ⟨k, h⟩

/-- Settles O20: the word at an even address is its two bytes, an odd one only marks the address error
(the obligation's own name is the model's `wordAccess`). -/
theorem wordAccess_bigEndian : Obligations.WordAccess := by
  refine ⟨fun s a v hw ha hr => ?_, fun s a v b => ⟨fun ha => ?_, ?_, ?_⟩⟩
  · obtain ⟨word, high, low⟩ := State.load_storeWord v hw ha hr
    exact ⟨State.loadWord_eq_append ha hr.memAt, word, high, low,
      fun b hb => (s.storeWord_spec a v).2.1 b fun _ => hb⟩
  · exact ⟨State.storeWord_odd ha v, State.loadWord_odd ha⟩
  · obtain ⟨-, k, h⟩ := s.loadByte_spec a
    rw [h]
  · rw [(s.storeByte_spec a b).1]

/-! ### Addresses and pointer steps -/

/-- Settles O21: each mode's equation for its address, and a register read after the pointer's step. -/
theorem effectiveAddresses : Obligations.EffectiveAddresses := by
  intro s sz r q d w place page k
  refine ⟨⟨rfl, rfl⟩, ⟨rfl, rfl⟩, ⟨rfl, rfl⟩, ⟨?_, ?_⟩, ⟨rfl, ?_⟩, ⟨rfl, rfl⟩, ⟨rfl, rfl⟩⟩
  · show (s.setReg r (s.reg r - k)).addr _ ((s.setReg r (s.reg r - k)).reg r) = _
    rw [State.reg_setReg_self]
    rfl
  · exact s.reg_setReg r q _
  · exact s.reg_setReg r q _

/-- In maximum mode the page stands above the offset (R62). -/
theorem State.addr_page {s : State} (h : s.mode = .max) (page : Byte) (off : Word) :
    (s.addr page off).extractLsb' 16 8 = page := by
  simp only [State.addr, h]
  exact BitVec.extractLsb'_append_eq_left

/-- Settles O22: every one of these addresses is `State.addr` of its page (R61). -/
theorem pageOfEveryAccess : Obligations.PageOfEveryAccess := by
  intro s sz r d w k hm pageOf page
  have max : ∀ p off, pageOf (s.addr p off) = p := State.addr_page hm
  refine ⟨max _ _, max _ _, max _ _, fun m h => ?_, max _ _, max _ _, ?_⟩
  · have byReg : ∀ off, pageOf (s.addr (s.pageOf r) off) = page := max _
    have preDec : pageOf (s.effAddr sz (.preDec r)) = page :=
      State.addr_page (s := s.setReg r (s.reg r - stride sz r)) hm _ _
    simp only [List.mem_cons, List.not_mem_nil, or_false] at h
    obtain rfl | rfl | rfl | rfl | rfl := h
    · exact byReg _
    · exact byReg _
    · exact byReg _
    · exact preDec
    · exact byReg _
  · show (s.addr 0 (s.br ++ d)).extractLsb' 8 8 = s.br
    simp only [State.addr, hm]
    rw [BitVec.extractLsb'_append_eq_of_add_le le_rfl, BitVec.extractLsb'_append_eq_left]

/-! ### Source values -/

theorem State.preStep_mem (s : State) (sz : Size) (m : MemEA) : (s.preStep sz m).mem = s.mem := by
  rw [s.preStep_spec]

theorem State.preStep_chip (s : State) (sz : Size) (m : MemEA) : (s.preStep sz m).chip = s.chip := by
  rw [s.preStep_spec]

/-- A memory source is one load at its effective address (R91). -/
theorem State.readSrc_mem (s : State) (sz : Size) (m : MemEA) :
    s.readSrc (.mem sz m) = (s.preStep sz m).loadAt sz (viaStack m) (s.effAddr sz m) := rfl

/-- An aligned word operand in RAM or ROM is the word at its address (R63). -/
theorem State.loadWord_operand {s : State} {sz : Size} {m : MemEA} (hw : wordAccess sz m = true)
    (hm : s.memAt (s.operandBytes sz m)) (ha : s.misaligned sz m = false) :
    ((s.preStep sz m).loadWord (s.effAddr sz m)).1 = s.wordAt (s.effAddr sz m) := by
  have hc := s.preStep_chip sz m
  rw [State.misaligned, hw, Bool.true_and] at ha
  rw [State.operandBytes, if_pos hw] at hm
  rw [State.loadWord_mem _ _ ha (by rwa [State.wordBytes_congr hc, State.memAt_congr hc])]
  exact State.wordAt_congr (s.preStep_mem sz m) hc _

/-- A byte operand in RAM or ROM that is not on the stack is the byte at its address. -/
theorem State.loadByte_operand {s : State} {m : MemEA} (hv : viaStack m = false)
    (hm : s.memAt (s.operandBytes .byte m)) :
    ((s.preStep .byte m).loadByte (s.effAddr .byte m)).1 = Memory.read s.mem (s.phys (s.effAddr .byte m)) := by
  have hc := s.preStep_chip .byte m
  have one : s.operandBytes .byte m = [s.phys (s.effAddr .byte m)] := by
    simp [State.operandBytes, wordAccess, hv]
  have readable := hm (s.phys (s.effAddr .byte m)) (by simp [one])
  rw [State.loadByte_mem _ _ (by rwa [State.phys_congr hc, hc]), State.phys_congr hc, s.preStep_mem]

/-- Settles O23: a register or an immediate by definition; in memory by the kind of the access. -/
theorem sourceValues : Obligations.SourceValues := by
  intro s sz r m d w
  refine ⟨rfl, rfl, rfl, fun hm ha => ?_, fun hm ha => State.loadWord_operand rfl hm ha⟩
  rw [State.readSrc_mem]
  cases hv : viaStack m with
  | true =>
    have hw : wordAccess .byte m = true := by simp [wordAccess, hv]
    exact congrArg (BitVec.setWidth 8) (State.loadWord_operand hw hm ha)
  | false => exact State.loadByte_operand hv hm

end Sys2Proof.Machine

/-! ## Destination operands

Stores and read-modify-writes are the shapes `State.storeMem` and `State.modify`, whose effects `State.storeMem_spec` and
`State.modify_spec` say; here each instruction is put in its shape. -/

namespace Sys2Proof.Machine

/-! ### Moves into memory -/

/-- The effect of a store without flags. -/
theorem State.storeMem_keepsFlags (s : State) (sz : Size) (m : MemEA) (v : State → BitVec sz.bits) :
    StoreEffect s sz m (v (s.preStep sz m)) s.flags (s.storeMem sz m v) := by
  have effect := s.storeMem_spec sz m v s.flags
  rwa [State.storeMem_flags] at effect

theorem State.moveToMem_spec (s : State) (sz : Size) (rs : Reg) (m : MemEA) :
    StoreEffect s sz m ((s.preStep sz m).regN sz rs) (moveFlags ((s.preStep sz m).regN sz rs) s.flags)
      (s.moveToMem sz rs m) :=
  s.storeMem_spec sz m (·.regN sz rs) _

theorem State.moveImm_spec (s : State) (sz : Size) (m : MemEA) (v : BitVec sz.bits) :
    StoreEffect s sz m v (moveFlags v s.flags) (s.moveImm sz m v) :=
  s.storeMem_spec sz m (fun _ => v) _

theorem exec_movtpe {s : State} (h : s.chip.hasEClock = true) (rs : Reg) (m : MemEA) :
    exec (.movtpe rs m) s = .next (s.storeMem .byte m (·.regN .byte rs)) :=
  if_pos h

/-- Settles O29: MOV:S and MOV:F address memory without a pre-decrement, so that their register is read as it was. -/
theorem movesToMemory : Obligations.MovesToMemory := by
  intro s sz m rs data word a store
  exact ⟨⟨_, rfl, s.moveToMem_spec sz rs m⟩, ⟨_, rfl, s.moveToMem_spec sz rs (.abs8 a)⟩,
    ⟨_, rfl, s.moveToMem_spec sz rs (.disp8 .r6 a)⟩, ⟨_, rfl, s.moveImm_spec sz m _⟩,
    ⟨_, rfl, s.moveImm_spec .word m word⟩,
    fun h => ⟨_, exec_movtpe h rs m, s.storeMem_keepsFlags .byte m (·.regN .byte rs)⟩⟩

/-! ### Read-modify-write -/

/-- A negative immediate of ADD:Q (R202). -/
theorem neg_ofNat_eq_ofInt (n k : Nat) : -BitVec.ofNat n k = BitVec.ofInt n (-k) := by
  rw [BitVec.ofInt_neg, BitVec.ofInt_natCast]

theorem exec_addQm1 (s : State) (sz : Size) (d : DstEA) :
    exec (.addQm1 sz d) s = .next (s.modify sz d fun v _ => addN v (BitVec.ofInt _ (-1)) false) := by
  have imm : (-1 : BitVec sz.bits) = BitVec.ofInt _ (-1) := neg_ofNat_eq_ofInt _ 1
  rw [← imm]
  rfl

theorem exec_addQm2 (s : State) (sz : Size) (d : DstEA) :
    exec (.addQm2 sz d) s = .next (s.modify sz d fun v _ => addN v (BitVec.ofInt _ (-2)) false) := by
  have imm : (-2 : BitVec sz.bits) = BitVec.ofInt _ (-2) := neg_ofNat_eq_ofInt _ 2
  rw [← imm]
  rfl

/-- Settles O34: each of the fourteen is `State.modify` with its own function. -/
theorem modifyResults : Obligations.ModifyResults := by
  intro s sz d
  have modify : ∀ {i : Instr} {f : BitVec sz.bits → Flags → BitVec sz.bits × Flags},
      exec i s = .next (s.modify sz d f) → ∃ t, exec i s = .next t ∧ ModifyEffect s sz d f t :=
    fun h => ⟨_, h, s.modify_spec sz d _⟩
  repeat rw [List.forall_mem_cons]
  exact ⟨modify rfl, modify rfl, modify (exec_addQm1 s sz d), modify (exec_addQm2 s sz d), modify rfl, modify rfl,
    modify rfl, modify rfl, modify rfl, modify rfl, modify rfl, modify rfl, modify rfl, modify rfl,
    List.forall_mem_nil _⟩

/-! ### The bus lock of TAS

No load looks at the bus lock, so that TAS reads what it would read without it. -/

/-- The bus lock taken or released (R82). -/
def State.setBusLock (s : State) (b : Bool) : State := { s with busLock := b }

theorem State.setBusLock_self {s : State} {b : Bool} (h : s.busLock = b) : s.setBusLock b = s := by
  subst h
  rfl

section
variable (s : State) (b : Bool)

theorem State.preStep_setBusLock (sz : Size) (m : MemEA) :
    (s.setBusLock b).preStep sz m = (s.preStep sz m).setBusLock b := by
  cases m <;> rfl

theorem State.effAddr_setBusLock (sz : Size) (m : MemEA) : (s.setBusLock b).effAddr sz m = s.effAddr sz m := by
  cases m <;> rfl

theorem State.stepped_setBusLock (sz : Size) (m : MemEA) :
    (s.setBusLock b).stepped sz m = (s.stepped sz m).setBusLock b := by
  cases m <;> rfl

theorem State.misaligned_setBusLock (sz : Size) (m : MemEA) :
    (s.setBusLock b).misaligned sz m = s.misaligned sz m := by
  rw [State.misaligned, State.effAddr_setBusLock]
  rfl

theorem State.operandBytes_setBusLock (sz : Size) (m : MemEA) :
    (s.setBusLock b).operandBytes sz m = s.operandBytes sz m := by
  rw [State.operandBytes, State.effAddr_setBusLock]
  rfl

theorem State.loadByte_setBusLock (a : Addr) :
    (s.setBusLock b).loadByte a = ((s.loadByte a).1, (s.loadByte a).2.setBusLock b) := by
  have kind : (s.setBusLock b).chip.kindAt ((s.setBusLock b).phys a) = s.chip.kindAt (s.phys a) := rfl
  simp only [State.loadByte, State.peek, kind]
  cases s.chip.kindAt (s.phys a) with
  | ram | rom | empty => rfl
  | registerField effects => cases effects <;> rfl

theorem State.loadWord_setBusLock (a : Addr) :
    (s.setBusLock b).loadWord a = ((s.loadWord a).1, (s.loadWord a).2.setBusLock b) := by
  simp only [State.loadWord, State.loadByte_setBusLock]
  split <;> rfl

theorem State.loadAt_setBusLock (sz : Size) (stack : Bool) (a : Addr) :
    ((s.setBusLock b).loadAt sz stack a).1 = (s.loadAt sz stack a).1 := by
  cases sz with
  | word => simp only [State.loadAt, State.loadWord_setBusLock]
  | byte => cases stack <;> simp only [State.loadAt, State.loadWord_setBusLock, State.loadByte_setBusLock] <;> rfl

end

/-- A store while the bus is locked has, once the bus is released, the effect of a store. -/
theorem StoreEffect.of_setBusLock {s t : State} {sz : Size} {m : MemEA} {v : BitVec sz.bits} {f : Flags}
    (hl : s.busLock = false) (h : StoreEffect (s.setBusLock true) sz m v f t) :
    StoreEffect s sz m v f (t.setBusLock false) := by
  simp only [StoreEffect, State.misaligned_setBusLock, State.operandBytes_setBusLock, State.stepped_setBusLock,
    State.effAddr_setBusLock] at h
  obtain ⟨⟨upper, rest⟩, flags, regs, bytes, err, holds⟩ := h
  have released : t.setBusLock false = { s.setBusLock false with
      regs := t.regs, sr := t.sr, mem := t.mem, stored := t.stored, free := t.free,
      addrErrPending := t.addrErrPending } := by
    rw [rest]
    rfl
  rw [State.setBusLock_self hl] at released
  exact ⟨⟨upper, released⟩, flags, regs, bytes, err, holds⟩

/-- TAS is a read-modify-write under the bus lock (R227). -/
theorem exec_tas (s : State) (d : DstEA) :
    exec (.tas d) s =
      .next (((s.setBusLock true).modify .byte d fun v _ => (v ||| 0x80, testFlags v)).setBusLock false) := rfl

/-- A read-modify-write under the bus lock has the effect of one without it. -/
theorem ModifyEffect.of_setBusLock {s t : State} {sz : Size} {d : DstEA}
    {f : BitVec sz.bits → Flags → BitVec sz.bits × Flags} (hl : s.busLock = false)
    (h : ModifyEffect (s.setBusLock true) sz d f t) : ModifyEffect s sz d f (t.setBusLock false) := by
  cases d with
  | reg r =>
    simp only [ModifyEffect] at h ⊢
    rw [h]
    exact State.setBusLock_self (s := (s.setRegN sz r _).setFlags _) hl
  | mem m =>
    simp only [ModifyEffect, State.preStep_setBusLock, State.effAddr_setBusLock, State.loadAt_setBusLock] at h ⊢
    exact .of_setBusLock hl h

/-- Settles O36: the bus lock is held from the read to the write and released after it. -/
theorem tasResult : Obligations.TasResult := fun s d hl =>
  ⟨_, exec_tas s d, .of_setBusLock hl (State.modify_spec _ .byte d _)⟩

end Sys2Proof.Machine

/-! ## Conditional branches

The conditions of R301 as comparisons: after a subtraction C is the unsigned order, Z equality, and N and V together the
signed order. -/

namespace Sys2Proof.Machine

/-! ### Flags of a compare -/

section
variable {n : Nat} (x y : BitVec n)

/-- A compare: its V is the signed overflow of the library. -/
theorem subN_compare : (subN x y false).2 =
    { n := (x - y).msb, z := x - y == 0#n, v := x.ssubOverflow y, c := decide (x.toNat < y.toNat) } := by
  have overflow := BitVec.ssubOverflow_eq x y
  simp only [subN, Bool.toNat_false, BitVec.sub_zero, Nat.add_zero, overflow]
  rw [Bool.or_comm, Bool.and_comm y.msb, Bool.and_comm (!y.msb)]

/-- Z after a compare is equality (R200). -/
theorem subN_z_iff : (subN x y false).2.z = true ↔ x = y := by
  rw [subN_compare, beq_iff_eq]
  exact sub_eq_zero

/-- C after a compare is the unsigned order (R200). -/
theorem subN_c_iff : (subN x y false).2.c = true ↔ x.toNat < y.toNat := by
  rw [subN_compare, decide_eq_true_iff]

/-- N and V differ after a compare exactly in the signed order: without overflow N is the sign of the difference; with it
the operands have different signs, and N is that of the second (R200, R301). -/
theorem subN_n_xor_v_iff : ((subN x y false).2.n ^^ (subN x y false).2.v) = true ↔ x.toInt < y.toInt := by
  rw [subN_compare]
  dsimp only
  cases overflow : x.ssubOverflow y with
  | false =>
    rw [Bool.xor_false, BitVec.msb_eq_toInt, BitVec.toInt_sub_of_not_ssubOverflow (by simp [overflow]),
      decide_eq_true_iff, sub_neg]
  | true =>
    rw [BitVec.ssubOverflow_eq] at overflow
    obtain ⟨sign, opposite⟩ : (x - y).msb = y.msb ∧ x.msb = !y.msb := by
      revert overflow
      cases x.msb <;> cases y.msb <;> simp
    rw [BitVec.msb_eq_toInt, BitVec.msb_eq_toInt, ← decide_not, decide_eq_decide] at opposite
    rw [sign, Bool.xor_true, BitVec.msb_eq_toInt, ← decide_not, decide_eq_true_iff]
    omega

end

/-! ### Branches -/

/-- A branch changes PC, and that only where its condition holds (R300). -/
theorem State.branch_eq {s : State} {c : Cond} {taken : Bool} (h : c.holds s.flags = taken) (d : Word) :
    s.branch c d = { s with pc := if taken then s.pc + d else s.pc } := by
  subst h
  rw [State.branch]
  split <;> rfl

/-- The two forms of a branch on one condition (R300). -/
theorem exec_branch {i j : Instr} {s : State} {c : Cond} {taken : Bool} {b : Byte} {w : Word}
    (short : exec i s = .next (s.branch c (sext16 b))) (long : exec j s = .next (s.branch c w))
    (h : c.holds s.flags = taken) :
    exec i s = .next { s with pc := if taken then s.pc + b.signExtend 16 else s.pc } ∧
      exec j s = .next { s with pc := if taken then s.pc + w else s.pc } := by
  rw [short, long, State.branch_eq h, State.branch_eq h]
  exact ⟨rfl, rfl⟩

/-- A branch whose condition decides a proposition (R301). -/
theorem exec_branch_of_iff {i : Instr} {t : State} {c : Cond} {P : Prop} {d : Byte}
    (exec_eq : exec i t = .next (t.branch c (sext16 d))) (h : c.holds t.flags = true ↔ P) :
    (P → exec i t = .next { t with pc := t.pc + d.signExtend 16 }) ∧ (¬P → exec i t = .next t) := by
  rw [exec_eq, State.branch]
  exact ⟨fun hP => by rw [if_pos (h.2 hP)]; rfl, fun hP => by rw [if_neg (mt h.1 hP)]⟩

section
variable {n : Nat} {x y : BitVec n} {f : Flags} (h : f = (subN x y false).2)
include h

/-- The unsigned conditions after a compare (R301). -/
theorem Cond.holds_unsigned :
    (Cond.hi.holds f = true ↔ y.toNat < x.toNat) ∧ (Cond.ls.holds f = true ↔ x.toNat ≤ y.toNat) ∧
      (Cond.cc.holds f = true ↔ y.toNat ≤ x.toNat) ∧ (Cond.cs.holds f = true ↔ x.toNat < y.toNat) := by
  subst h
  simp only [Cond.holds, Bool.not_eq_true', ← Bool.not_eq_true, Bool.or_eq_true, subN_z_iff, subN_c_iff,
    ← BitVec.toNat_inj]
  exact ⟨by omega, by omega, by omega, trivial⟩

/-- Equality after a compare (R301). -/
theorem Cond.holds_equality : (Cond.ne.holds f = true ↔ x ≠ y) ∧ (Cond.eq.holds f = true ↔ x = y) := by
  subst h
  simp only [Cond.holds, Bool.not_eq_true', ← Bool.not_eq_true, subN_z_iff, ne_eq, and_self]

/-- The signed conditions after a compare (R301). -/
theorem Cond.holds_signed :
    (Cond.ge.holds f = true ↔ y.toInt ≤ x.toInt) ∧ (Cond.lt.holds f = true ↔ x.toInt < y.toInt) ∧
      (Cond.gt.holds f = true ↔ y.toInt < x.toInt) ∧ (Cond.le.holds f = true ↔ x.toInt ≤ y.toInt) := by
  subst h
  simp only [Cond.holds, Bool.not_eq_true', ← Bool.not_eq_true, Bool.or_eq_true, subN_z_iff, subN_n_xor_v_iff,
    ← BitVec.toInt_inj]
  exact ⟨by omega, trivial, by omega, by omega⟩

end

/-- CMP:G of two registers sets the flags of their difference and nothing else (R211). -/
theorem exec_cmpG_reg (s : State) (sz : Size) (rs rd : Reg) :
    exec (.cmpG (.reg sz rs) rd) s = .next (s.setFlags (subN (s.regN sz rd) (s.regN sz rs) false).2) := rfl

/-- Settles O43: each branch is `State.branch` on its condition; after a compare the condition is an order. -/
theorem conditionalBranch : Obligations.ConditionalBranch := by
  refine ⟨?_, fun s sz rs rd d => ⟨_, exec_cmpG_reg s sz rs rd, rfl, ?_⟩⟩
  · intro s b w f
    have same : ∀ n v : Bool, (!(n ^^ v)) = (n == v) := by decide
    have greater : ∀ z n v : Bool, (!(z || (n ^^ v))) = (!z && n == v) := by decide
    repeat rw [List.forall_mem_cons]
    exact ⟨exec_branch rfl rfl rfl, exec_branch rfl rfl rfl, exec_branch rfl rfl rfl, exec_branch rfl rfl rfl,
      exec_branch rfl rfl rfl, exec_branch rfl rfl rfl, exec_branch rfl rfl rfl, exec_branch rfl rfl rfl,
      exec_branch rfl rfl rfl, exec_branch rfl rfl rfl, exec_branch rfl rfl rfl, exec_branch rfl rfl rfl,
      exec_branch rfl rfl (same _ _), exec_branch rfl rfl rfl, exec_branch rfl rfl (greater _ _ _),
      exec_branch rfl rfl rfl, List.forall_mem_nil _⟩
  · have compared := s.flags_setFlags (subN (s.regN sz rd) (s.regN sz rs) false).2
    obtain ⟨hi, ls, cc, cs⟩ := Cond.holds_unsigned compared
    obtain ⟨ne, eq⟩ := Cond.holds_equality compared
    obtain ⟨ge, lt, gt, le⟩ := Cond.holds_signed compared
    repeat rw [List.forall_mem_cons]
    exact ⟨exec_branch_of_iff rfl hi, exec_branch_of_iff rfl ls, exec_branch_of_iff rfl cc, exec_branch_of_iff rfl cs,
      exec_branch_of_iff rfl ne, exec_branch_of_iff rfl eq, exec_branch_of_iff rfl ge, exec_branch_of_iff rfl lt,
      exec_branch_of_iff rfl gt, exec_branch_of_iff rfl le, List.forall_mem_nil _⟩

end Sys2Proof.Machine

/-! ## Stops

`step` stops before it executes, for bytes without an instruction or an incoherent fetch; `exec` refuses by name. -/

namespace Sys2Proof.Machine

/-! ### Before an instruction is executed -/

theorem State.fetch_of_error {s : State} {e : DecodeError} (h : decode s.fetchBytes = .error e) :
    s.fetch = .error e := by
  rw [State.fetch, h]

theorem State.staleFetch_of_error {s : State} {e : DecodeError} (h : decode s.fetchBytes = .error e) :
    s.staleFetch = false := by
  rw [State.staleFetch, h]
  exact Bool.and_false _

/-- Bytes that are no instruction stop the step (R121 (a), (e); log entry 9). -/
theorem step_of_decode_error {s : State} {e : DecodeError} (hw : s.withoutInstruction = none)
    (h : decode s.fetchBytes = .error e) : step s = .fault (.undecodable e) := by
  simp only [step, hw, State.staleFetch_of_error h, State.fetch_of_error h, Bool.false_eq_true, if_false]

/-- A byte of the instruction noted as stored to is enough (R89, D4). -/
theorem State.storedAhead_of_mem {s : State} {len k : Nat} (hk : k < len)
    (h : s.phys (s.fetchAddr k) ∈ s.stored ∨ s.phys (s.fetchAddr k) ∈ s.storedBefore) : s.storedAhead len = true :=
  List.any_eq_true.2 ⟨k, List.mem_range.2 hk, List.contains_iff_mem.2 (List.mem_append.2 h)⟩

theorem State.staleFetch_of_storedAhead {s : State} {i : Instr} {rest : List Byte}
    (h : decode s.fetchBytes = .ok (i, rest)) (hc : s.chip.ifetchCoherent = false)
    (hs : s.storedAhead (maxLength - rest.length) = true) : s.staleFetch = true := by
  simp only [State.staleFetch, h, hc, hs, Bool.not_false, Bool.and_self]

theorem step_of_staleFetch {s : State} (hw : s.withoutInstruction = none) (h : s.staleFetch = true) :
    step s = .refused .storeAheadOfFetch := by
  simp only [step, hw, h, if_true]

/-- A store to RAM is noted where the chip's fetch may miss it (R89; log entry 24). -/
theorem State.storeByte_stored {s : State} {a : Addr} (hc : s.chip.ifetchCoherent = false)
    (hr : s.chip.kindAt (s.phys a) = .ram) (v : Byte) : (s.storeByte a v).stored = s.phys a :: s.stored := by
  simp only [State.storeByte, hr, State.noteStore, hc, Bool.false_eq_true, if_false]

/-! ### Refusals of `exec` -/

section
variable {s : State} {src : SrcEA} {rd : Reg}

/-- A word multiplication or division names a pair (R24, U6). -/
theorem exec_oddPair (hw : src.size = .word) (ho : rd.even = false) :
    exec (.mulxu src rd) s = .refused .oddRegisterPair ∧ exec (.divxu src rd) s = .refused .oddRegisterPair := by
  cases src with
  | imm8 data => cases hw
  | imm16 data => simp [exec, execMulxu, execDivxu, ho]
  | reg sz r | mem sz m =>
    obtain rfl : sz = .word := hw
    simp [exec, execMulxu, execDivxu, ho]

/-- A page jump through a register names a pair (R303, R306, U6). -/
theorem exec_oddPagePair (hm : s.mode = .max) (ho : rd.even = false) :
    exec (.pjmpInd rd) s = .refused .oddRegisterPair ∧ exec (.pjsrInd rd) s = .refused .oddRegisterPair := by
  simp [exec, execPjmpInd, execPjsrInd, hm, ho]

theorem exec_noEClock (h : s.chip.hasEClock = false) (m : MemEA) :
    exec (.movtpe rd m) s = .refused .noEClock ∧ exec (.movfpe m rd) s = .refused .noEClock := by
  simp [exec, execMovtpe, execMovfpe, h]

theorem exec_ldc_of_size_ne {cr : CtlReg} (h : src.size ≠ cr.size) :
    exec (.ldc src cr) s = .refused .controlRegisterNotAllowed :=
  if_neg h

theorem State.crModify_of_size_ne {imm : ImmEA} {cr : CtlReg} (h : imm.size ≠ cr.size) (f : Word → Word → Word) :
    s.crModify imm cr f = .refused .controlRegisterNotAllowed :=
  if_neg h

end

/-- Settles O57: the two stops of `step`, the note of a store, and the refusals of `exec`. -/
theorem stopsByName : Obligations.StopsByName := by
  refine ⟨fun s e => step_of_decode_error, fun s i rest k hw hd hc hk hs => ?_,
    fun s a v hc hr => State.storeByte_stored hc hr v, fun s sz r b w t op => ?_, fun s src rd m imm cr => ?_⟩
  · exact step_of_staleFetch hw (State.staleFetch_of_storedAhead hd hc (State.storedAhead_of_mem hk hs))
  · repeat rw [List.forall_mem_cons]
    exact ⟨rfl, rfl, rfl, rfl, rfl, rfl, rfl, rfl, rfl, rfl, List.forall_mem_nil _⟩
  · refine ⟨exec_oddPair, exec_oddPagePair, fun h => exec_noEClock h m, exec_ldc_of_size_ne, fun h => ?_⟩
    repeat rw [List.forall_mem_cons]
    exact ⟨State.crModify_of_size_ne h _, State.crModify_of_size_ne h _, State.crModify_of_size_ne h _,
      List.forall_mem_nil _⟩

end Sys2Proof.Machine

/-! ## The fields of a code

Each field is put into the low bits of a byte in which they are clear (its base), so that base and field are read back.
A row of R113 to R116 is the eight bytes with one base. -/

namespace Sys2Proof

/-! ### Register numbers (R105) -/

/-- A field of `k` bits adds its value to its base. -/
theorem toNat_or_lowField {base x : Byte} {k : Nat} (hb : base.toNat % 2 ^ k = 0) (hx : x.toNat < 2 ^ k) :
    (base ||| x).toNat = base.toNat + x.toNat := by
  rw [BitVec.toNat_or, ← Nat.div_add_mod base.toNat (2 ^ k), hb, Nat.add_zero, Nat.two_pow_add_eq_or_of_lt hx]

theorem Reg.num_lt (r : Reg) : r.num < 8 := by cases r <;> decide

@[simp] theorem Reg.ofNum_num (r : Reg) : Reg.ofNum r.num = r := by cases r <;> rfl

theorem Reg.num_ofNum {n : Nat} (h : n < 8) : (Reg.ofNum n).num = n := by
  interval_cases n <;> rfl

theorem withReg_toNat {base : Byte} (hb : base.toNat % 8 = 0) (r : Reg) :
    (withReg base r).toNat = base.toNat + r.num := by
  have hr : (BitVec.ofNat 8 r.num).toNat = r.num := Nat.mod_eq_of_lt (r.num_lt.trans (by decide))
  rw [withReg, toNat_or_lowField (k := 3) hb (hr.trans_lt r.num_lt), hr]

theorem le_toNat_withReg (base : Byte) (r : Reg) : base.toNat ≤ (withReg base r).toNat := by
  rw [withReg, BitVec.toNat_or]
  exact Nat.left_le_or

@[simp] theorem withReg_row {base : Byte} (hb : base.toNat % 8 = 0) (r : Reg) :
    (withReg base r).toNat / 8 = base.toNat / 8 := by
  have := r.num_lt
  rw [withReg_toNat hb]
  omega

@[simp] theorem withReg_highHalf {base : Byte} (hb : base.toNat % 8 = 0) (r : Reg) :
    (withReg base r).toNat / 16 = base.toNat / 16 := by
  have := withReg_row hb r
  omega

@[simp] theorem regOf_withReg {base : Byte} (hb : base.toNat % 8 = 0) (r : Reg) : regOf (withReg base r) = r := by
  have := r.num_lt
  rw [regOf, withReg_toNat hb, show (base.toNat + r.num) % 8 = r.num by omega, Reg.ofNum_num]

theorem withReg_regOf {base b : Byte} (hb : base.toNat % 8 = 0) (row : b.toNat / 8 = base.toNat / 8) :
    withReg base (regOf b) = b := by
  apply BitVec.eq_of_toNat_eq
  rw [withReg_toNat hb, regOf, Reg.num_ofNum (Nat.mod_lt _ (by decide))]
  omega

theorem exists_eq_withReg {base b : Byte} (hb : base.toNat % 8 = 0) (row : b.toNat / 8 = base.toNat / 8) :
    ∃ r, b = withReg base r :=
  ⟨regOf b, (withReg_regOf hb row).symm⟩

/-! ### The size bit (R106) -/

theorem sizeOf_eq (b : Byte) : sizeOf b = if b.toNat / 8 % 2 = 1 then .word else .byte := by
  simp [sizeOf, BitVec.getLsbD, Nat.testBit_eq_decide_div_mod_eq]

@[simp] theorem sizeOf_withReg {base : Byte} (hb : base.toNat % 8 = 0) (r : Reg) :
    sizeOf (withReg base r) = sizeOf base := by
  rw [sizeOf_eq, sizeOf_eq, withReg_row hb]

theorem toNat_or_sizeBit {base : Byte} (hb : base.toNat % 16 = 0) : (base ||| 0x08).toNat = base.toNat + 8 :=
  toNat_or_lowField (k := 4) hb (by decide)

@[simp] theorem withSizeReg_highHalf {base : Byte} (hb : base.toNat % 16 = 0) (sz : Size) (r : Reg) :
    (withSizeReg base sz r).toNat / 16 = base.toNat / 16 := by
  have := toNat_or_sizeBit hb
  cases sz with
  | byte => exact withReg_highHalf (by omega) r
  | word => exact (withReg_highHalf (by omega) r).trans (by omega)

@[simp] theorem sizeOf_withSizeReg {base : Byte} (hb : base.toNat % 16 = 0) (sz : Size) (r : Reg) :
    sizeOf (withSizeReg base sz r) = sz := by
  have := toNat_or_sizeBit hb
  cases sz with
  | byte => rw [withSizeReg, sizeOf_withReg (by omega), sizeOf_eq, if_neg (by omega)]
  | word => rw [withSizeReg, sizeOf_withReg (by omega), sizeOf_eq, if_pos (by omega)]

@[simp] theorem regOf_withSizeReg {base : Byte} (hb : base.toNat % 16 = 0) (sz : Size) (r : Reg) :
    regOf (withSizeReg base sz r) = r := by
  have := toNat_or_sizeBit hb
  cases sz with
  | byte => exact regOf_withReg (by omega) r
  | word => exact regOf_withReg (by omega) r

theorem withSizeReg_sizeOf_regOf {base b : Byte} (hb : base.toNat % 16 = 0) (h : b.toNat / 16 = base.toNat / 16) :
    withSizeReg base (sizeOf b) (regOf b) = b := by
  have := toNat_or_sizeBit hb
  rw [sizeOf_eq]
  split
  · exact withReg_regOf (by omega) (by omega)
  · exact withReg_regOf (by omega) (by omega)

/-! ### Bit and vector numbers (R110) -/

theorem withBit_toNat {base : Byte} (hb : base.toNat % 16 = 0) (v : BitVec 4) :
    (withBit base v).toNat = base.toNat + v.toNat := by
  have hv : (v.setWidth 8).toNat = v.toNat := BitVec.toNat_setWidth_of_le (by decide)
  rw [withBit, toNat_or_lowField (k := 4) hb (hv.trans_lt v.isLt), hv]

theorem le_toNat_withBit (base : Byte) (v : BitVec 4) : base.toNat ≤ (withBit base v).toNat := by
  rw [withBit, BitVec.toNat_or]
  exact Nat.left_le_or

@[simp] theorem withBit_highHalf {base : Byte} (hb : base.toNat % 16 = 0) (v : BitVec 4) :
    (withBit base v).toNat / 16 = base.toNat / 16 := by
  have := v.isLt
  rw [withBit_toNat hb]
  omega

@[simp] theorem bitOf_withBit {base : Byte} (hb : base.toNat % 16 = 0) (v : BitVec 4) :
    bitOf (withBit base v) = v := by
  have := v.isLt
  apply BitVec.eq_of_toNat_eq
  rw [bitOf, BitVec.toNat_setWidth, withBit_toNat hb]
  omega

theorem withBit_bitOf {base b : Byte} (hb : base.toNat % 16 = 0) (h : b.toNat / 16 = base.toNat / 16) :
    withBit base (bitOf b) = b := by
  apply BitVec.eq_of_toNat_eq
  rw [withBit_toNat hb, bitOf, BitVec.toNat_setWidth]
  omega

/-! ### Control register numbers (R37, R107) -/

theorem withCtl_eq_withReg (base : Byte) (cr : CtlReg) : withCtl base cr = withReg base (Reg.ofNum cr.num) := by
  cases cr <;> rfl

@[simp] theorem withCtl_row {base : Byte} (hb : base.toNat % 8 = 0) (cr : CtlReg) :
    (withCtl base cr).toNat / 8 = base.toNat / 8 := by
  rw [withCtl_eq_withReg, withReg_row hb]

theorem ctlOf_eq_some {sz : Size} {b : Byte} {cr : CtlReg} :
    ctlOf sz b = some cr ↔ cr.size = sz ∧ b.toNat % 8 = cr.num := by
  unfold ctlOf
  cases cr <;> split <;> simp_all [CtlReg.size, CtlReg.num]

/-- The map of R37 that the decoder reads and the list of R107 agree. -/
theorem isSome_ctlOf (sz : Size) (b : Byte) : (ctlOf sz b).isSome = ctlAllowed sz b := by
  have : b.toNat % 8 < 8 := Nat.mod_lt _ (by decide)
  unfold ctlAllowed ctlOf
  generalize b.toNat % 8 = n at this ⊢
  cases sz <;> interval_cases n <;> rfl

theorem ctlOf_eq_none {sz : Size} {b : Byte} : ctlOf sz b = none ↔ ctlAllowed sz b = false := by
  rw [← isSome_ctlOf, Option.isSome_eq_false_iff, Option.isNone_iff_eq_none]

theorem ctlOf_withCtl {base : Byte} (hb : base.toNat % 8 = 0) {sz : Size} {cr : CtlReg} (h : cr.size = sz) :
    ctlOf sz (withCtl base cr) = some cr := by
  refine ctlOf_eq_some.2 ⟨h, ?_⟩
  rw [withCtl_eq_withReg, withReg_toNat hb, Reg.num_ofNum (by cases cr <;> decide)]
  cases cr <;> simp only [CtlReg.num] <;> omega

theorem withCtl_of_ctlOf {base b : Byte} {sz : Size} {cr : CtlReg} (hb : base.toNat % 8 = 0)
    (row : b.toNat / 8 = base.toNat / 8) (h : ctlOf sz b = some cr) : withCtl base cr = b := by
  rw [withCtl_eq_withReg, ← (ctlOf_eq_some.1 h).2]
  exact withReg_regOf hb row

/-! ### Words (R111) -/

@[simp] theorem withWord_wordBytes (w : Word) (t : List Byte) (k : Word → List Byte → Decoded) :
    withWord (wordBytes w ++ t) k = k w t := by
  have halves : w.extractLsb' 8 8 ++ w.extractLsb' 0 8 = w :=
    (BitVec.extractLsb'_append_extractLsb'_eq_extractLsb' rfl).trans BitVec.extractLsb'_eq_self
  simp only [wordBytes, List.cons_append, List.nil_append, withWord, halves]

theorem wordBytes_append (h l : Byte) : wordBytes (h ++ l) = [h, l] := by
  rw [wordBytes, BitVec.extractLsb'_append_eq_of_le (by decide), BitVec.extractLsb'_append_eq_of_add_le (by decide)]
  simp

/-! ## The lists of R117 to R121 and the operation code maps

The lists of invalid and of undefined codes, and what the maps R113 to R116 hold at their members. -/

theorem inRange_iff {b : Byte} {lo hi : Nat} : inRange b lo hi = true ↔ lo ≤ b.toNat ∧ b.toNat ≤ hi := by
  simp [inRange]

/-! ### The lists by rows -/

theorem invalidFollowing_iff {b : Byte} : invalidFollowing b = true ↔
    b.toNat < 0x80 ∧ b.toNat ≠ 0x14 ∧ b.toNat ≠ 0x19 ∧ b.toNat ≠ 0x1C ∨
      b.toNat / 8 = 17 ∨ b.toNat / 8 = 19 ∨ b.toNat / 8 = 21 := by
  simp only [invalidFollowing, Bool.or_eq_true, inRange_iff]
  omega

theorem invalidAfterReg_iff {op : Byte} : invalidAfterReg op = true ↔
    op.toNat ≠ 0 ∧ (op.toNat / 8 = 0 ∨ op.toNat / 8 = 1 ∧ op.toNat ∉ [0x08, 0x09, 0x0C, 0x0D]) := by
  simp only [invalidAfterReg, Bool.or_eq_true, inRange_iff, List.mem_cons, List.not_mem_nil, or_false]
  omega

theorem invalidAfterMem_iff {op : Byte} : invalidAfterMem op = true ↔ op.toNat ∉ [0x00, 0x04, 0x05, 0x06, 0x07] ∧
    (op.toNat / 8 = 0 ∨ op.toNat / 8 = 1 ∧ op.toNat ∉ [0x08, 0x09, 0x0C, 0x0D] ∨ op.toNat ∈ [0x10, 0x11, 0x12]) := by
  simp only [invalidAfterMem, Bool.or_eq_true, inRange_iff, List.mem_cons, List.not_mem_nil, or_false]
  omega

theorem invalidAfterImm_iff {op : Byte} : invalidAfterImm op = true ↔
    op.toNat / 8 ∉ [4, 5, 6, 7, 8, 9, 10, 11, 12, 13, 14, 16, 17, 20, 21, 22, 23] := by
  have := op.isLt
  simp only [invalidAfterImm, Bool.or_eq_true, inRange_iff, List.mem_cons, List.not_mem_nil, or_false]
  omega

/-- The third bytes that have no row: not invalid, and neither DADD nor DSUB. -/
theorem undefinedAfterReg_prefixed {sz : Size} {b : Byte} : undefinedAfterReg sz (.prefixed b) = true ↔
    ¬invalidFollowing b = true ∧ ¬(sz = .byte ∧ b.toNat / 8 = 20) ∧ ¬(sz = .byte ∧ b.toNat / 8 = 22) := by
  have := b.isLt
  cases sz <;> simp [undefinedAfterReg, undefinedThird, invalidFollowing_iff, inRange_iff] <;> omega

/-- The third bytes that have no row: not invalid, and neither MOVFPE nor MOVTPE. -/
theorem undefinedAfterMem_prefixed {sz : Size} {b : Byte} : undefinedAfterMem sz (.prefixed b) = true ↔
    ¬invalidFollowing b = true ∧ ¬(sz = .byte ∧ b.toNat / 8 = 16) ∧ ¬(sz = .byte ∧ b.toNat / 8 = 18) := by
  have := b.isLt
  cases sz <;> simp [undefinedAfterMem, undefinedThird, invalidFollowing_iff, inRange_iff] <;> omega

end Sys2Proof

namespace Sys2Proof

/-! ### Third and second bytes (R116) -/

theorem secondIsInvalid_eq (b : Byte) : secondIsInvalid b = invalidFollowing b := by
  rw [Bool.eq_iff_iff, invalidFollowing_iff]
  unfold secondIsInvalid
  split
  case h_20 =>
    simp only [imp_false, Bool.false_eq_true, false_iff] at *
    omega
  all_goals
    simp only [bne_iff_ne, Bool.and_eq_true, true_iff, ne_eq]
    omega

/-- The map R116 after a register EA, read off the list of R119. -/
theorem decodeRegThird_eq (sz : Size) (r : Reg) (b : Byte) : decodeRegThird sz r b =
    if invalidFollowing b then .invalidThird sz (.reg r) b
    else if sz = .byte ∧ b.toNat / 8 = 20 then .dadd r (regOf b)
    else if sz = .byte ∧ b.toNat / 8 = 22 then .dsub r (regOf b)
    else .eaRn sz r (.prefixed b) := by
  rw [← secondIsInvalid_eq]
  unfold decodeRegThird secondIsInvalid
  generalize b.toNat / 8 = row
  split <;> simp_all [← not_or]

/-- The map R116 after a memory EA, read off the list of R119. -/
theorem decodeMemThird_eq (sz : Size) (m : MemEA) (b : Byte) : decodeMemThird sz m b =
    if invalidFollowing b then .invalidThird sz (.mem m) b
    else if sz = .byte ∧ b.toNat / 8 = 16 then .movfpe m (regOf b)
    else if sz = .byte ∧ b.toNat / 8 = 18 then .movtpe (regOf b) m
    else eaMem sz m (.prefixed b) := by
  rw [← secondIsInvalid_eq]
  unfold decodeMemThird secondIsInvalid
  generalize b.toNat / 8 = row
  split <;> simp_all [← not_or]

theorem decodeScb_of_invalid {first b : Byte} {scb : Reg → Byte → Instr} {invalid : Byte → Instr}
    (h : invalidFollowing b = true) (t : List Byte) : decodeScb first scb invalid (b :: t) = .ok (invalid b, t) := by
  have row : b.toNat / 8 ≠ 23 := by
    rw [invalidFollowing_iff] at h
    omega
  simp only [decodeScb, withByte, if_neg row, secondIsInvalid_eq, if_pos h]

theorem decode11_of_invalid {b : Byte} (h : invalidFollowing b = true) (t : List Byte) :
    decode11 (b :: t) = .ok (.invalidSecond11 b, t) := by
  rw [invalidFollowing_iff] at h
  simp only [decode11, withByte]
  split
  case h_1 => exact if_neg (by omega)
  case h_2 =>
    split
    case h_3 => rfl
    all_goals omega
  case h_16 => rfl
  all_goals omega

/-! ### OP bytes (R113 to R115) -/

theorem decodeAddQ_of_not_mem {sz : Size} {d : DstEA} {op : Byte} {bad : Instr}
    (h : op.toNat ∉ [0x08, 0x09, 0x0C, 0x0D]) : decodeAddQ sz d op bad = bad := by
  unfold decodeAddQ
  split <;> simp_all

theorem decodeRegOp_of_invalid {sz : Size} {r : Reg} {op : Byte} (h : invalidAfterReg op = true) :
    decodeRegOp sz r op = .invalidOpReg sz r op := by
  obtain ⟨-, row | ⟨row, hq⟩⟩ := invalidAfterReg_iff.1 h
  · simp only [decodeRegOp, row]
  · simp only [decodeRegOp, row, decodeAddQ_of_not_mem hq]

theorem decodeMemOp_of_invalid {sz : Size} {m : MemEA} {op : Byte} (h : invalidAfterMem op = true) :
    decodeMemOp sz m op = .invalidOpMem sz m op := by
  obtain ⟨-, row | ⟨row, hq⟩ | hop⟩ := invalidAfterMem_iff.1 h
  · simp only [decodeMemOp, row]
  · simp only [decodeMemOp, row, decodeAddQ_of_not_mem hq]
  · rw [List.mem_cons, List.mem_cons, List.mem_singleton] at hop
    rcases hop with hop | hop | hop <;> simp [decodeMemOp, hop]

theorem decodeImmOp_of_invalid {imm : ImmEA} {op : Byte} (h : invalidAfterImm op = true) :
    decodeImmOp imm op = .invalidOpImm imm op := by
  have row := invalidAfterImm_iff.1 h
  unfold decodeImmOp
  generalize op.toNat / 8 = n at row
  split <;> simp_all

theorem decodeRegOp_of_undefined {sz : Size} {r : Reg} {op : Byte} (h : undefinedAfterReg sz (.op op) = true) :
    decodeRegOp sz r op = .eaRn sz r (.op op) := by
  simp only [undefinedAfterReg, Bool.or_eq_true, Bool.and_eq_true, Bool.not_eq_true', beq_iff_eq, inRange_iff] at h
  obtain (⟨rfl, hop⟩ | ⟨rfl, hop⟩) | ⟨hop, hc⟩ := h
  · have hop : op.toNat = 0x10 ∨ op.toNat = 0x11 ∨ op.toNat = 0x12 ∨ op.toNat = 0x17 := by omega
    rcases hop with hop | hop | hop | hop <;> simp [decodeRegOp, hop]
  · have row : op.toNat / 8 = 18 := by omega
    simp [decodeRegOp, row]
  · have row : op.toNat / 8 = 17 ∨ op.toNat / 8 = 19 := by omega
    rcases row with row | row <;> simp only [decodeRegOp, row, ctlOf_eq_none.2 hc]

theorem decodeRegOp_bitImm {sz : Size} {r : Reg} {op : Byte} (h : 0xC0 ≤ op.toNat) :
    decodeRegOp sz r op = decodeBitImm sz (.reg r) op := by
  unfold decodeRegOp
  split
  case h_25 => rfl
  all_goals omega

theorem decodeMemOp_bitImm {sz : Size} {m : MemEA} {op : Byte} (h : 0xC0 ≤ op.toNat) :
    decodeMemOp sz m op = decodeBitImm sz (.mem m) op := by
  unfold decodeMemOp
  split
  case h_25 => rfl
  all_goals omega

end Sys2Proof

/-! ## Decoding what was encoded

First the EA part of a code (R104), then what may follow it, then each instruction. -/

namespace Sys2Proof

/-! ### After an EA part -/

theorem decode_encodeRegEA (sz : Size) (r : Reg) (bs : List Byte) :
    decode (encodeRegEA sz r ++ bs) = decodeReg sz r bs := by
  simp [encodeRegEA, decode]

theorem decode_encodeMemEA (sz : Size) (m : MemEA) (bs : List Byte) :
    decode (encodeMemEA sz m ++ bs) = decodeMem sz m bs := by
  cases m with
  | abs8 | abs16 => cases sz <;> simp [encodeMemEA, decode, decodeRow0, decodeRow1, withByte]
  | ind | disp8 | disp16 | preDec | postInc => simp [encodeMemEA, decode, withByte]

theorem decode_encodeImmEA (imm : ImmEA) (bs : List Byte) : decode (encodeImmEA imm ++ bs) = decodeImm imm bs := by
  cases imm <;> simp [encodeImmEA, decode, decodeRow0, withByte]

theorem decode_reg_op {op : Byte} (h : op.toNat ≠ 0) (sz : Size) (r : Reg) (rest : List Byte) :
    decode (encodeRegEA sz r ++ [op] ++ rest) = .ok (decodeRegOp sz r op, rest) := by
  rw [List.append_assoc, decode_encodeRegEA]
  exact if_neg fun h0 => h (congrArg BitVec.toNat h0)

theorem decode_reg_third (sz : Size) (r : Reg) (b : Byte) (rest : List Byte) :
    decode (encodeRegEA sz r ++ [0x00, b] ++ rest) = .ok (decodeRegThird sz r b, rest) := by
  rw [List.append_assoc, decode_encodeRegEA]
  rfl

/-- The OP bytes left out are H'00 and those that operand bytes may follow (R114). -/
theorem decode_mem_op {op : Byte} (h : op.toNat ∉ [0x00, 0x04, 0x05, 0x06, 0x07]) (sz : Size) (m : MemEA)
    (rest : List Byte) : decode (encodeMemEA sz m ++ [op] ++ rest) = .ok (decodeMemOp sz m op, rest) := by
  rw [List.append_assoc, decode_encodeMemEA]
  simp only [List.mem_cons, not_or] at h
  simp only [decodeMem, withByte, List.cons_append, List.nil_append]
  split
  case h_6 => rfl
  all_goals omega

theorem decode_mem_third (sz : Size) (m : MemEA) (b : Byte) (rest : List Byte) :
    decode (encodeMemEA sz m ++ [0x00, b] ++ rest) = .ok (decodeMemThird sz m b, rest) := by
  rw [List.append_assoc, decode_encodeMemEA]
  rfl

theorem decode_imm_op (imm : ImmEA) (op : Byte) (rest : List Byte) :
    decode (encodeImmEA imm ++ [op] ++ rest) = .ok (decodeImmOp imm op, rest) := by
  rw [List.append_assoc, decode_encodeImmEA]
  rfl

/-! ### Operations that R113 to R115 hold in one row for all their operand classes -/

theorem decode_dst_op {f : DstEA → Instr} {op : Byte} {sz : Size} (h : 8 ≤ op.toNat)
    (hreg : ∀ r, decodeRegOp sz r op = f (.reg r)) (hmem : ∀ m, decodeMemOp sz m op = f (.mem m)) (d : DstEA)
    (rest : List Byte) : decode (encodeDst sz d ++ [op] ++ rest) = .ok (f d, rest) := by
  cases d with
  | reg r => exact (decode_reg_op (by omega) sz r rest).trans (by rw [hreg])
  | mem m => exact (decode_mem_op (by simp; omega) sz m rest).trans (by rw [hmem])

theorem decode_src_op {f : SrcEA → Instr} {op : Byte} {src : SrcEA} (h : 8 ≤ op.toNat)
    (hreg : ∀ r, decodeRegOp src.size r op = f (.reg src.size r))
    (hmem : ∀ m, decodeMemOp src.size m op = f (.mem src.size m))
    (himm : ∀ imm : ImmEA, imm.size = src.size → decodeImmOp imm op = f imm.src) (rest : List Byte) :
    decode (encodeSrc src ++ [op] ++ rest) = .ok (f src, rest) := by
  cases src with
  | reg sz r => exact (decode_reg_op (by omega) sz r rest).trans (by rw [hreg])
  | mem sz m => exact (decode_mem_op (by simp; omega) sz m rest).trans (by rw [hmem])
  | imm8 d => exact (decode_imm_op (.imm8 d) op rest).trans (by rw [himm _ rfl]; rfl)
  | imm16 d => exact (decode_imm_op (.imm16 d) op rest).trans (by rw [himm _ rfl]; rfl)

/-- A destination operand and a register in the OP byte. -/
theorem decode_dst_row {f : Reg → DstEA → Instr} {base : Byte} {sz : Size} (hb : 8 ≤ base.toNat)
    (hreg : ∀ r rs, decodeRegOp sz r (withReg base rs) = f rs (.reg r))
    (hmem : ∀ m rs, decodeMemOp sz m (withReg base rs) = f rs (.mem m)) (rs : Reg) (d : DstEA) (rest : List Byte) :
    decode (encodeDst sz d ++ [withReg base rs] ++ rest) = .ok (f rs d, rest) :=
  decode_dst_op (hb.trans (le_toNat_withReg ..)) (fun _ => hreg ..) (fun _ => hmem ..) d rest

/-- A source operand and a register in the OP byte. -/
theorem decode_src_row {f : SrcEA → Reg → Instr} {base : Byte} (hb : 8 ≤ base.toNat)
    (hreg : ∀ sz r rd, decodeRegOp sz r (withReg base rd) = f (.reg sz r) rd)
    (hmem : ∀ sz m rd, decodeMemOp sz m (withReg base rd) = f (.mem sz m) rd)
    (himm : ∀ imm rd, decodeImmOp imm (withReg base rd) = f imm.src rd) (src : SrcEA) (rd : Reg) (rest : List Byte) :
    decode (encodeSrc src ++ [withReg base rd] ++ rest) = .ok (f src rd, rest) :=
  decode_src_op (f := (f · rd)) (hb.trans (le_toNat_withReg ..)) (fun _ => hreg ..) (fun _ => hmem ..)
    (fun _ _ => himm ..) rest

/-- A destination operand and a bit number in the OP byte. -/
theorem decode_dst_bitImm {f : Size → BitVec 4 → DstEA → Instr} {base : Byte} (hb : 0xC0 ≤ base.toNat)
    (hf : ∀ sz d v, decodeBitImm sz d (withBit base v) = f sz v d) (sz : Size) (v : BitVec 4) (d : DstEA)
    (rest : List Byte) : decode (encodeDst sz d ++ [withBit base v] ++ rest) = .ok (f sz v d, rest) := by
  have h := hb.trans (le_toNat_withBit base v)
  exact decode_dst_op (by omega) (fun r => (decodeRegOp_bitImm h).trans (hf ..))
    (fun m => (decodeMemOp_bitImm h).trans (hf ..)) d rest

/-! ### Codes without a row (R119, R121) -/

theorem decode_dst_invalidThird {sz : Size} {b : Byte} (h : invalidFollowing b = true) (d : DstEA) (rest : List Byte) :
    decode (encodeDst sz d ++ [0x00, b] ++ rest) = .ok (.invalidThird sz d b, rest) := by
  cases d with
  | reg r => exact (decode_reg_third sz r b rest).trans (by rw [decodeRegThird_eq, if_pos h])
  | mem m => exact (decode_mem_third sz m b rest).trans (by rw [decodeMemThird_eq, if_pos h])

theorem decode_reg_undefined {sz : Size} {t : OpTail} (h : undefinedAfterReg sz t = true) (r : Reg)
    (rest : List Byte) : decode (encodeRegEA sz r ++ encodeTail t ++ rest) = .ok (.eaRn sz r t, rest) := by
  cases t with
  | op b =>
    refine (decode_reg_op (fun h0 => ?_) sz r rest).trans (by rw [decodeRegOp_of_undefined h])
    simp [undefinedAfterReg, inRange, h0] at h
  | prefixed b =>
    obtain ⟨h1, h2, h3⟩ := undefinedAfterReg_prefixed.1 h
    refine (decode_reg_third sz r b rest).trans ?_
    rw [decodeRegThird_eq, if_neg h1, if_neg h2, if_neg h3]

theorem decode_mem_undefined {sz : Size} {t : OpTail} (h : undefinedAfterMem sz t = true) (m : MemEA)
    (rest : List Byte) : decode (encodeMemEA sz m ++ encodeTail t ++ rest) = .ok (eaMem sz m t, rest) := by
  cases t with
  | op b =>
    simp only [undefinedAfterMem, Bool.or_eq_true, Bool.and_eq_true, Bool.not_eq_true', beq_iff_eq, inRange_iff] at h
    obtain (⟨rfl, hop⟩ | ⟨rfl, hop⟩) | ⟨hop, hc⟩ := h
    · have hop : b.toNat = 0x04 ∨ b.toNat = 0x17 := by omega
      rw [List.append_assoc, decode_encodeMemEA]
      rcases hop with hop | hop <;> simp [decodeMem, withByte, encodeTail, decodeMemOp, hop]
    · have hop : b.toNat = 0x05 ∨ b.toNat = 0x07 := by omega
      rw [List.append_assoc, decode_encodeMemEA]
      rcases hop with hop | hop <;> simp [decodeMem, withByte, encodeTail, hop]
    · have row : b.toNat / 8 = 17 ∨ b.toNat / 8 = 19 := by omega
      refine (decode_mem_op (by simp; omega) sz m rest).trans ?_
      rcases row with row | row <;> simp only [decodeMemOp, row, ctlOf_eq_none.2 hc]
  | prefixed b =>
    obtain ⟨h1, h2, h3⟩ := undefinedAfterMem_prefixed.1 h
    refine (decode_mem_third sz m b rest).trans ?_
    rw [decodeMemThird_eq, if_neg h1, if_neg h2, if_neg h3]

theorem decode_imm_undefined {imm : ImmEA} {op : Byte} (h : undefinedAfterImm imm.size op = true) (rest : List Byte) :
    decode (encodeImmEA imm ++ [op] ++ rest) = .ok (eaImm imm op, rest) := by
  simp only [undefinedAfterImm, Bool.or_eq_true, Bool.and_eq_true, Bool.not_eq_true', inRange_iff] at h
  obtain ⟨hop, hc⟩ := h
  have row : op.toNat / 8 = 9 ∨ op.toNat / 8 = 11 ∨ op.toNat / 8 = 13 ∨ op.toNat / 8 = 17 := by omega
  refine (decode_imm_op imm op rest).trans ?_
  rcases row with row | row | row | row <;> simp only [decodeImmOp, row, ctlOf_eq_none.2 hc]

/-! ### Every instruction -/

/-- The cases are grouped by operand class (R126) and by the map that holds them; in the last one, the special format
with a fixed first byte, the maps R112 and R116 are evaluated. -/
theorem decode_encode {i : Instr} (h : i.encodable = true) (rest : List Byte) :
    decode (encode i ++ rest) = .ok (i, rest) := by
  cases i with
  | eaRn sz r t => exact decode_reg_undefined h r rest
  | eaPreDec | eaPostInc | eaInd | eaDisp8 | eaDisp16 | eaAbs8 | eaAbs16 => exact decode_mem_undefined h _ rest
  | eaImm8 d op => exact decode_imm_undefined (imm := .imm8 d) h rest
  | eaImm16 d op => exact decode_imm_undefined (imm := .imm16 d) h rest
  | invalidOpReg sz r op =>
    exact (decode_reg_op (invalidAfterReg_iff.1 h).1 sz r rest).trans (by rw [decodeRegOp_of_invalid h])
  | invalidOpMem sz m op =>
    exact (decode_mem_op (invalidAfterMem_iff.1 h).1 sz m rest).trans (by rw [decodeMemOp_of_invalid h])
  | invalidOpImm imm op => exact (decode_imm_op imm op rest).trans (by rw [decodeImmOp_of_invalid h])
  | invalidSecond01 | invalidSecond06 | invalidSecond07 => exact decodeScb_of_invalid h rest
  | invalidSecond11 => exact decode11_of_invalid h rest
  | invalidThird sz d b => exact decode_dst_invalidThird h d rest
  | movGLoad | addG | sub | adds | subs | addx | subx | mulxu | divxu | cmpG | logAnd | logOr | logXor =>
    exact decode_src_row (by decide) (by simp [decodeRegOp]) (by simp [decodeMemOp]) (by simp [decodeImmOp]) _ _ rest
  | ldc src cr =>
    have hs : cr.size = src.size := (beq_iff_eq.1 h).symm
    exact decode_src_op (f := (.ldc · cr)) (by cases cr <;> decide) (by simp [decodeRegOp, ctlOf_withCtl, hs])
      (by simp [decodeMemOp, ctlOf_withCtl, hs]) (by simp +contextual [decodeImmOp, ctlOf_withCtl, hs]) rest
  | andc imm cr | orc imm cr | xorc imm cr =>
    have hs : cr.size = imm.size := (beq_iff_eq.1 h).symm
    exact (decode_imm_op imm _ rest).trans (by simp [decodeImmOp, ctlOf_withCtl, hs])
  | stc cr d =>
    exact decode_dst_op (by cases cr <;> decide) (by simp [decodeRegOp, ctlOf_withCtl])
      (by simp [decodeMemOp, ctlOf_withCtl]) d rest
  | addQ1 | addQ2 | addQm1 | addQm2 | tst | neg | clr | tas | logNot | shal | shar | shll | shlr | rotl | rotr | rotxl
  | rotxr => exact decode_dst_op (by decide) (fun _ => rfl) (fun _ => rfl) _ rest
  | bsetReg | bclrReg | bnotReg | btstReg =>
    exact decode_dst_row (by decide) (by simp [decodeRegOp]) (by simp [decodeMemOp]) _ _ rest
  | bsetImm | bclrImm | bnotImm | btstImm =>
    exact decode_dst_bitImm (by decide) (by simp [decodeBitImm]) _ _ _ rest
  | xch rs rd => exact (decode_reg_op (by cases rd <;> decide) .word rs rest).trans (by simp [decodeRegOp])
  | swap rd | exts rd | extu rd => exact decode_reg_op (by decide) .byte rd rest
  | dadd rs rd | dsub rs rd => exact (decode_reg_third .byte rs _ rest).trans (by simp [decodeRegThird])
  | movGStore sz rs m => exact (decode_mem_op (by cases rs <;> decide) sz m rest).trans (by simp [decodeMemOp])
  | movtpe rs m => exact (decode_mem_third .byte m _ rest).trans (by simp [decodeMemThird])
  | movfpe m rd => exact (decode_mem_third .byte m _ rest).trans (by simp [decodeMemThird])
  | movGImm8 | cmpGImm8 | movGImm16 | cmpGImm16 =>
    rw [encode, List.append_assoc, decode_encodeMemEA]
    simp [decodeMem, withByte]
  | movE | movI | cmpE | cmpI => simp [encode, decode, sizeOf_eq, withByte]
  | movL | movS | movFLoad | movFStore => simp [encode, decode, withByte]
  | trapa => simp [encode, decode, decodeRow0, withByte]
  | scbF | scbNE | scbEQ => simp [encode, decode, decodeRow0, decodeScb, withByte]
  | jmpInd | jsrInd | pjmpInd | pjsrInd | jmpDisp8 | jsrDisp8 | jmpDisp16 | jsrDisp16 =>
    simp [encode, decode, decodeRow1, decode11, withByte]
  | _ => simp [encode, decode, decodeRow0, decodeRow1, decode11, bcc8Of, bcc16Of, withByte]

/-- Settles O1: each field and each map gives back what `encode` wrote. -/
theorem decodeEncode : Obligations.DecodeEncode := fun _ rest h => decode_encode h rest

/-- Settles O4: each word is the code of its instruction. -/
theorem sampleWordsDecode : Obligations.SampleWordsDecode :=
  ⟨decode_encode (i := .addG (.mem .byte (.ind .r0)) .r1) rfl [],
    decode_encode (i := .addG (.mem .word (.abs8 0x11)) .r1) rfl [],
    decode_encode (i := .jsrInd .r0) rfl [],
    decode_encode (i := .movfpe (.abs16 0xF000) .r0) rfl [],
    decode_encode (i := .orc (.imm16 0x0700) .sr) rfl [],
    decode_encode (i := .invalidFirst0B) rfl []⟩

end Sys2Proof

/-! ## Encoding what was decoded

`HasCode` is the round trip for one instruction; `Faithful` is its form for the decoder in the middle of a code, with
the bytes it has read so far. -/

namespace Sys2Proof

/-- `bs` is the code of `i`, and `i` is a term that has one. -/
def Instr.HasCode (i : Instr) (bs : List Byte) : Prop := encode i = bs ∧ i.encodable = true

/-! ### The maps after an EA part (R113 to R116) -/

theorem encodeSrc_src (imm : ImmEA) : encodeSrc imm.src = encodeImmEA imm := by cases imm <;> rfl

theorem size_src (imm : ImmEA) : imm.src.size = imm.size := by cases imm <;> rfl

theorem hasCode_eaMem {sz : Size} {m : MemEA} {t : OpTail} (h : undefinedAfterMem sz t = true) :
    (eaMem sz m t).HasCode (encodeMemEA sz m ++ encodeTail t) := by
  cases m <;> exact ⟨rfl, h⟩

theorem hasCode_eaImm {imm : ImmEA} {op : Byte} (h : undefinedAfterImm imm.size op = true) :
    (eaImm imm op).HasCode (encodeImmEA imm ++ [op]) := by
  cases imm <;> exact ⟨rfl, h⟩

/-- LDC and STC where the size allows no such control register (R121 (b)). -/
theorem undefined_of_ctlOf_eq_none {sz : Size} {op : Byte} (row : op.toNat / 8 = 17 ∨ op.toNat / 8 = 19)
    (h : ctlOf sz op = none) : undefinedAfterReg sz (.op op) = true ∧ undefinedAfterMem sz (.op op) = true := by
  simp only [undefinedAfterReg, undefinedAfterMem, ctlOf_eq_none.1 h, Bool.not_false, Bool.and_true, Bool.or_eq_true,
    inRange_iff]
  omega

theorem undefinedAfterImm_of_ctlOf_eq_none {sz : Size} {op : Byte}
    (row : op.toNat / 8 = 9 ∨ op.toNat / 8 = 11 ∨ op.toNat / 8 = 13 ∨ op.toNat / 8 = 17) (h : ctlOf sz op = none) :
    undefinedAfterImm sz op = true := by
  simp only [undefinedAfterImm, ctlOf_eq_none.1 h, Bool.not_false, Bool.and_true, Bool.or_eq_true, inRange_iff]
  omega

theorem hasCode_ldc {src : SrcEA} {op : Byte} {cr : CtlReg} (row : op.toNat / 8 = 17)
    (h : ctlOf src.size op = some cr) : (Instr.ldc src cr).HasCode (encodeSrc src ++ [op]) := by
  simp [Instr.HasCode, encode, Instr.encodable, row, withCtl_of_ctlOf _ _ h, (ctlOf_eq_some.1 h).1]

theorem hasCode_stc {sz : Size} {d : DstEA} {op : Byte} {cr : CtlReg} (row : op.toNat / 8 = 19)
    (h : ctlOf sz op = some cr) : (Instr.stc cr d).HasCode (encodeDst sz d ++ [op]) := by
  simp [Instr.HasCode, encode, Instr.encodable, row, withCtl_of_ctlOf _ _ h, (ctlOf_eq_some.1 h).1]

theorem hasCode_decodeAddQ {sz : Size} {d : DstEA} {op : Byte} {bad : Instr} (row : op.toNat / 8 = 1)
    (hbad : op.toNat ∉ [0x08, 0x09, 0x0C, 0x0D] → bad.HasCode (encodeDst sz d ++ [op])) :
    (decodeAddQ sz d op bad).HasCode (encodeDst sz d ++ [op]) := by
  obtain ⟨n, rfl⟩ := exists_eq_withReg (base := 0x08) rfl row
  cases n with
  | r0 | r1 | r4 | r5 => exact ⟨rfl, rfl⟩
  | r2 | r3 | r6 | r7 => exact hbad (by decide)

theorem hasCode_decodeShift {sz : Size} {d : DstEA} {op : Byte} (row : op.toNat / 8 = 3) :
    (decodeShift sz d op).HasCode (encodeDst sz d ++ [op]) := by
  obtain ⟨n, rfl⟩ := exists_eq_withReg (base := 0x18) rfl row
  cases n <;> exact ⟨rfl, rfl⟩

theorem hasCode_decodeBitImm {sz : Size} {d : DstEA} {op : Byte} (h : 0xC0 ≤ op.toNat) :
    (decodeBitImm sz d op).HasCode (encodeDst sz d ++ [op]) := by
  have half : op.toNat / 16 = 12 ∨ op.toNat / 16 = 13 ∨ op.toNat / 16 = 14 ∨ op.toNat / 16 = 15 := by omega
  rcases half with half | half | half | half <;>
    simp [decodeBitImm, half, Instr.HasCode, encode, Instr.encodable, withBit_bitOf]

/-- The cases with a name are the rows in which more than a register is decided: 0 to 3, LDC (17), XCH (18), STC (19)
and the bit instructions (24 on). -/
theorem hasCode_decodeRegOp {op : Byte} (h0 : op.toNat ≠ 0) (sz : Size) (r : Reg) :
    (decodeRegOp sz r op).HasCode (encodeRegEA sz r ++ [op]) := by
  unfold decodeRegOp
  split
  case h_1 row => exact ⟨rfl, invalidAfterReg_iff.2 ⟨h0, .inl row⟩⟩
  case h_2 row => exact hasCode_decodeAddQ row fun hq => ⟨rfl, invalidAfterReg_iff.2 ⟨h0, .inr ⟨row, hq⟩⟩⟩
  case h_3 row =>
    obtain ⟨n, rfl⟩ := exists_eq_withReg (base := 0x10) rfl row
    cases n <;> cases sz <;> exact ⟨rfl, rfl⟩
  case h_4 row => exact hasCode_decodeShift row
  case h_18 row =>
    split
    · next hc => exact hasCode_ldc row hc
    · next hc => exact ⟨rfl, (undefined_of_ctlOf_eq_none (.inl row) hc).1⟩
  case h_19 row =>
    cases sz with
    | byte => exact ⟨rfl, by simp [Instr.encodable, undefinedAfterReg, inRange_iff]; omega⟩
    | word => simp [Instr.HasCode, encode, Instr.encodable, withReg_regOf, row]
  case h_20 row =>
    split
    · next hc => exact hasCode_stc row hc
    · next hc => exact ⟨rfl, (undefined_of_ctlOf_eq_none (.inr row) hc).1⟩
  case h_25 => exact hasCode_decodeBitImm (by simp only [imp_false] at *; omega)
  all_goals simp [Instr.HasCode, encode, encodeSrc, encodeDst, withReg_regOf, Instr.encodable, *]

/-- The cases with a name are the rows in which more than a register is decided: 0 to 3, LDC (17), STC (19) and the bit
instructions (24 on). -/
theorem hasCode_decodeMemOp {op : Byte} (h0 : op.toNat ∉ [0x00, 0x04, 0x05, 0x06, 0x07]) (sz : Size) (m : MemEA) :
    (decodeMemOp sz m op).HasCode (encodeMemEA sz m ++ [op]) := by
  unfold decodeMemOp
  split
  case h_1 row => exact ⟨rfl, invalidAfterMem_iff.2 ⟨h0, .inl row⟩⟩
  case h_2 row => exact hasCode_decodeAddQ row fun hq => ⟨rfl, invalidAfterMem_iff.2 ⟨h0, .inr (.inl ⟨row, hq⟩)⟩⟩
  case h_3 row =>
    obtain ⟨n, rfl⟩ := exists_eq_withReg (base := 0x10) rfl row
    cases n with
    | r7 =>
      cases sz with
      | byte => exact ⟨rfl, rfl⟩
      | word => exact hasCode_eaMem (t := .op 0x17) rfl
    | _ => exact ⟨rfl, rfl⟩
  case h_4 row => exact hasCode_decodeShift row
  case h_18 row =>
    split
    · next hc => exact hasCode_ldc row hc
    · next hc => exact hasCode_eaMem (undefined_of_ctlOf_eq_none (.inl row) hc).2
  case h_20 row =>
    split
    · next hc => exact hasCode_stc row hc
    · next hc => exact hasCode_eaMem (undefined_of_ctlOf_eq_none (.inr row) hc).2
  case h_25 => exact hasCode_decodeBitImm (by simp only [imp_false] at *; omega)
  all_goals simp [Instr.HasCode, encode, encodeSrc, encodeDst, withReg_regOf, Instr.encodable, *]

/-- The cases with a name are the rows of the control registers (9, 11, 13, 17) and the codes of R117. -/
theorem hasCode_decodeImmOp (imm : ImmEA) (op : Byte) : (decodeImmOp imm op).HasCode (encodeImmEA imm ++ [op]) := by
  unfold decodeImmOp
  split
  case h_6 row | h_8 row | h_10 row =>
    split
    · next hc =>
      simp [Instr.HasCode, encode, Instr.encodable, row, withCtl_of_ctlOf _ _ hc, (ctlOf_eq_some.1 hc).1]
    · next hc => exact hasCode_eaImm (undefinedAfterImm_of_ctlOf_eq_none (by omega) hc)
  case h_13 row =>
    split
    · next hc => exact encodeSrc_src imm ▸ hasCode_ldc row (size_src imm ▸ hc)
    · next hc => exact hasCode_eaImm (undefinedAfterImm_of_ctlOf_eq_none (by omega) hc)
  case h_18 => exact ⟨rfl, invalidAfterImm_iff.2 (by simp_all)⟩
  all_goals simp [Instr.HasCode, encode, encodeSrc_src, withReg_regOf, Instr.encodable, *]

theorem hasCode_decodeRegThird (sz : Size) (r : Reg) (b : Byte) :
    (decodeRegThird sz r b).HasCode (encodeRegEA sz r ++ [0x00, b]) := by
  rw [decodeRegThird_eq]
  split_ifs with h1 h2 h3
  · exact ⟨rfl, h1⟩
  · obtain ⟨rfl, row⟩ := h2
    simp [Instr.HasCode, encode, Instr.encodable, withReg_regOf, row]
  · obtain ⟨rfl, row⟩ := h3
    simp [Instr.HasCode, encode, Instr.encodable, withReg_regOf, row]
  · exact ⟨rfl, undefinedAfterReg_prefixed.2 ⟨h1, h2, h3⟩⟩

theorem hasCode_decodeMemThird (sz : Size) (m : MemEA) (b : Byte) :
    (decodeMemThird sz m b).HasCode (encodeMemEA sz m ++ [0x00, b]) := by
  rw [decodeMemThird_eq]
  split_ifs with h1 h2 h3
  · exact ⟨rfl, h1⟩
  · obtain ⟨rfl, row⟩ := h2
    simp [Instr.HasCode, encode, Instr.encodable, withReg_regOf, row]
  · obtain ⟨rfl, row⟩ := h3
    simp [Instr.HasCode, encode, Instr.encodable, withReg_regOf, row]
  · exact hasCode_eaMem (undefinedAfterMem_prefixed.2 ⟨h1, h2, h3⟩)

/-! ### Reading on -/

/-- What the decoder answers on `bs`, after it has read `read`, is an instruction with the code that was read, or a
reason. -/
def Faithful (read bs : List Byte) (d : Decoded) : Prop :=
  ∀ i rest, d = .ok (i, rest) → read ++ bs = encode i ++ rest ∧ i.encodable = true

theorem faithful_ok {read t : List Byte} {i : Instr} (h : i.HasCode read) : Faithful read t (.ok (i, t)) := by
  obtain ⟨rfl, enc⟩ := h
  rintro _ _ ⟨⟩
  exact ⟨rfl, enc⟩

theorem faithful_error {read t : List Byte} {e : DecodeError} : Faithful read t (.error e) :=
  fun _ _ h => by cases h

theorem faithful_withByte {read bs : List Byte} {k : Byte → List Byte → Decoded}
    (h : ∀ d t, Faithful (read ++ [d]) t (k d t)) : Faithful read bs (withByte bs k) := by
  cases bs with
  | nil => exact faithful_error
  | cons d t =>
    intro i rest hd
    simpa using h d t i rest hd

theorem faithful_withWord {read bs : List Byte} {k : Word → List Byte → Decoded}
    (h : ∀ d t, Faithful (read ++ wordBytes d) t (k d t)) : Faithful read bs (withWord bs k) := by
  match bs with
  | [] | [_] => exact faithful_error
  | hi :: lo :: t =>
    intro i rest hd
    simpa [wordBytes_append] using h (hi ++ lo) t i rest hd

/-- An instruction whose last field is a byte. -/
theorem faithful_lastByte {read bs : List Byte} {f : Byte → Instr} (h : ∀ d, (f d).HasCode (read ++ [d])) :
    Faithful read bs (withByte bs fun d t => .ok (f d, t)) :=
  faithful_withByte fun d _ => faithful_ok (h d)

/-- An instruction whose last field is a word. -/
theorem faithful_lastWord {read bs : List Byte} {f : Word → Instr} (h : ∀ d, (f d).HasCode (read ++ wordBytes d)) :
    Faithful read bs (withWord bs fun d t => .ok (f d, t)) :=
  faithful_withWord fun d _ => faithful_ok (h d)

/-! ### General format -/

/-- A byte that a map compares with a numeral. -/
theorem eq_ofNat_of_toNat {b : Byte} {n : Nat} (h : b.toNat = n) : b = BitVec.ofNat 8 n := by
  rw [← h, BitVec.ofNat_toNat, BitVec.setWidth_eq]

theorem faithful_decodeReg {read : List Byte} {sz : Size} {r : Reg} (h : encodeRegEA sz r = read) (bs : List Byte) :
    Faithful read bs (decodeReg sz r bs) := by
  subst h
  refine faithful_withByte fun op t => ?_
  split_ifs with h0
  · subst h0
    exact faithful_lastByte fun b => by simpa using hasCode_decodeRegThird sz r b
  · exact faithful_ok (hasCode_decodeRegOp (fun h => h0 (BitVec.eq_of_toNat_eq h)) sz r)

/-- The cases are H'00, CMP:G with a byte and a word (04, 05), MOV:G with a byte and a word (06, 07), the rest. -/
theorem faithful_decodeMem {read : List Byte} {sz : Size} {m : MemEA} (h : encodeMemEA sz m = read) (bs : List Byte) :
    Faithful read bs (decodeMem sz m bs) := by
  subst h
  refine faithful_withByte fun op t => ?_
  split
  case h_1 hop =>
    obtain rfl := eq_ofNat_of_toNat hop
    exact faithful_lastByte fun b => by simpa using hasCode_decodeMemThird sz m b
  case h_2 hop =>
    obtain rfl := eq_ofNat_of_toNat hop
    cases sz with
    | byte => exact faithful_lastByte fun d => ⟨by simp [encode], rfl⟩
    | word => exact faithful_ok (hasCode_eaMem (t := .op 0x04) rfl)
  case h_3 hop =>
    obtain rfl := eq_ofNat_of_toNat hop
    cases sz with
    | byte => exact faithful_ok (hasCode_eaMem (t := .op 0x05) rfl)
    | word => exact faithful_lastWord fun d => ⟨by simp [encode], rfl⟩
  case h_4 hop =>
    obtain rfl := eq_ofNat_of_toNat hop
    exact faithful_lastByte fun d => ⟨by simp [encode], rfl⟩
  case h_5 hop =>
    obtain rfl := eq_ofNat_of_toNat hop
    cases sz with
    | byte => exact faithful_ok (hasCode_eaMem (t := .op 0x07) rfl)
    | word => exact faithful_lastWord fun d => ⟨by simp [encode], rfl⟩
  case h_6 => exact faithful_ok (hasCode_decodeMemOp (by simp_all) sz m)

theorem faithful_decodeImm {read : List Byte} {imm : ImmEA} (h : encodeImmEA imm = read) (bs : List Byte) :
    Faithful read bs (decodeImm imm bs) := by
  subst h
  exact faithful_withByte fun op _ => faithful_ok (hasCode_decodeImmOp imm op)

/-! ### Special format (R112, R116) -/

theorem faithful_decodeScb {first : Byte} {scb : Reg → Byte → Instr} {invalid : Byte → Instr}
    (hscb : ∀ r d, (scb r d).HasCode [first, withReg 0xB8 r, d])
    (hinvalid : ∀ b, invalidFollowing b = true → (invalid b).HasCode [first, b]) (bs : List Byte) :
    Faithful [first] bs (decodeScb first scb invalid bs) := by
  refine faithful_withByte fun b t => ?_
  split_ifs with row hb
  · exact faithful_lastByte fun d => by simpa [withReg_regOf, row] using hscb (regOf b) d
  · exact faithful_ok (hinvalid b (secondIsInvalid_eq b ▸ hb))
  · exact faithful_error

/-- The rows are those of PRTD #xx:8 (2), of PRTS and PRTD #xx:16 (3), of the jumps and calls (24 to 31), of R121, and
the others, of R118. -/
theorem faithful_decode11 (bs : List Byte) : Faithful [0x11] bs (decode11 bs) := by
  refine faithful_withByte fun b t => ?_
  split
  case h_1 row =>
    split_ifs with hb
    · obtain rfl := eq_ofNat_of_toNat hb
      exact faithful_lastByte fun _ => ⟨rfl, rfl⟩
    · exact faithful_ok ⟨rfl, invalidFollowing_iff.2 (by omega)⟩
  case h_2 row =>
    split
    case h_1 hb =>
      obtain rfl := eq_ofNat_of_toNat hb
      exact faithful_ok ⟨rfl, rfl⟩
    case h_2 hb =>
      obtain rfl := eq_ofNat_of_toNat hb
      exact faithful_lastWord fun _ => ⟨rfl, rfl⟩
    case h_3 =>
      simp only [imp_false] at *
      exact faithful_ok ⟨rfl, invalidFollowing_iff.2 (by omega)⟩
  case h_3 row | h_4 row | h_5 row | h_6 row =>
    exact faithful_ok (by simp [Instr.HasCode, encode, Instr.encodable, withReg_regOf, row])
  case h_7 row | h_8 row =>
    exact faithful_lastByte (by simp [Instr.HasCode, encode, Instr.encodable, withReg_regOf, row])
  case h_9 row | h_10 row =>
    exact faithful_lastWord (by simp [Instr.HasCode, encode, Instr.encodable, withReg_regOf, row])
  case h_11 | h_12 | h_13 | h_14 | h_15 => exact faithful_error
  case h_16 =>
    simp only [imp_false] at *
    exact faithful_ok ⟨rfl, invalidFollowing_iff.2 (by omega)⟩

theorem hasCode_trapa {b : Byte} (h : b.toNat / 16 = 1) : (Instr.trapa (bitOf b)).HasCode [0x08, b] := by
  simp [Instr.HasCode, encode, Instr.encodable, withBit_bitOf, h]

/-- The cases are grouped by what follows the first byte. -/
theorem faithful_decodeRow0 {b1 : Byte} (half : b1.toNat / 16 = 0) (bs : List Byte) :
    Faithful [b1] bs (decodeRow0 b1 bs) := by
  unfold decodeRow0
  split
  case h_1 h | h_10 h | h_11 h | h_12 h =>
    obtain rfl := eq_ofNat_of_toNat h
    exact faithful_ok ⟨rfl, rfl⟩
  case h_2 h | h_7 h | h_8 h =>
    obtain rfl := eq_ofNat_of_toNat h
    exact faithful_decodeScb (fun _ _ => ⟨rfl, rfl⟩) (fun _ hb => by exact ⟨rfl, hb⟩) bs
  case h_3 h | h_15 h =>
    obtain rfl := eq_ofNat_of_toNat h
    exact faithful_lastByte fun _ => ⟨rfl, rfl⟩
  case h_4 h =>
    obtain rfl := eq_ofNat_of_toNat h
    exact faithful_withByte fun _ _ => faithful_lastWord fun _ => ⟨rfl, rfl⟩
  case h_5 h =>
    obtain rfl := eq_ofNat_of_toNat h
    exact faithful_withByte fun _ _ => faithful_decodeImm rfl _
  case h_6 h | h_14 h =>
    obtain rfl := eq_ofNat_of_toNat h
    exact faithful_withByte fun _ _ => faithful_decodeMem rfl _
  case h_9 h =>
    obtain rfl := eq_ofNat_of_toNat h
    refine faithful_withByte fun b t => ?_
    split_ifs with hb
    · exact faithful_ok (hasCode_trapa hb)
    · exact faithful_error
  case h_13 h =>
    obtain rfl := eq_ofNat_of_toNat h
    exact faithful_withWord fun _ _ => faithful_decodeImm rfl _
  case h_16 =>
    obtain rfl := eq_ofNat_of_toNat (show b1.toNat = 0x0F by simp only [imp_false] at *; omega)
    exact faithful_ok ⟨rfl, rfl⟩

/-- The cases are grouped by what follows the first byte. -/
theorem faithful_decodeRow1 {b1 : Byte} (half : b1.toNat / 16 = 1) (bs : List Byte) :
    Faithful [b1] bs (decodeRow1 b1 bs) := by
  unfold decodeRow1
  split
  case h_7 h | h_10 h | h_11 h | h_12 h =>
    obtain rfl := eq_ofNat_of_toNat h
    exact faithful_ok ⟨rfl, rfl⟩
  case h_3 h | h_5 h | h_8 h =>
    obtain rfl := eq_ofNat_of_toNat h
    exact faithful_lastByte fun _ => ⟨rfl, rfl⟩
  case h_1 h | h_9 h | h_13 h | h_15 h =>
    obtain rfl := eq_ofNat_of_toNat h
    exact faithful_lastWord fun _ => ⟨rfl, rfl⟩
  case h_2 h =>
    obtain rfl := eq_ofNat_of_toNat h
    exact faithful_decode11 bs
  case h_4 h =>
    obtain rfl := eq_ofNat_of_toNat h
    exact faithful_withByte fun _ _ => faithful_lastWord fun _ => ⟨rfl, rfl⟩
  case h_6 h | h_14 h =>
    obtain rfl := eq_ofNat_of_toNat h
    exact faithful_withWord fun _ _ => faithful_decodeMem rfl _
  case h_16 =>
    obtain rfl := eq_ofNat_of_toNat (show b1.toNat = 0x1F by simp only [imp_false] at *; omega)
    exact faithful_lastWord fun _ => ⟨rfl, rfl⟩

theorem hasCode_bcc8Of {c : Nat} (hc : c < 16) (d : Byte) : (bcc8Of c d).HasCode [BitVec.ofNat 8 (0x20 + c), d] := by
  interval_cases c <;> exact ⟨rfl, rfl⟩

theorem hasCode_bcc16Of {c : Nat} (hc : c < 16) (d : Word) :
    (bcc16Of c d).HasCode (BitVec.ofNat 8 (0x30 + c) :: wordBytes d) := by
  interval_cases c <;> exact ⟨rfl, rfl⟩

/-- CMP:E and CMP:I, MOV:E and MOV:I: the size bit says how long the data is (R116). -/
theorem faithful_sizedData {base b1 : Byte} {f : Reg → Byte → Instr} {g : Reg → Word → Instr}
    (hb : base.toNat % 16 = 0) (half : b1.toNat / 16 = base.toNat / 16)
    (hf : ∀ r d, (f r d).HasCode [withSizeReg base .byte r, d])
    (hg : ∀ r d, (g r d).HasCode (withSizeReg base .word r :: wordBytes d)) (bs : List Byte) :
    Faithful [b1] bs (if sizeOf b1 = .byte then withByte bs fun d t => .ok (f (regOf b1) d, t)
      else withWord bs fun d t => .ok (g (regOf b1) d, t)) := by
  have fields := withSizeReg_sizeOf_regOf hb half
  cases hs : sizeOf b1 with
  | byte =>
    rw [hs] at fields
    exact faithful_lastByte fun d => by simpa [fields] using hf (regOf b1) d
  | word =>
    rw [hs] at fields
    exact faithful_lastWord fun d => by simpa [fields] using hg (regOf b1) d

/-- The cases are the high halves of the first byte (R112). -/
theorem faithful_decode (bs : List Byte) : Faithful [] bs (decode bs) := by
  obtain _ | ⟨b1, t⟩ := bs
  · exact faithful_error
  change Faithful [b1] t (decode (b1 :: t))
  have hb := b1.isLt
  rw [decode]
  split
  case h_1 half => exact faithful_decodeRow0 half t
  case h_2 half => exact faithful_decodeRow1 half t
  case h_3 half =>
    have code := hasCode_bcc8Of (Nat.mod_lt b1.toNat (by decide : 0 < 16))
    rw [← eq_ofNat_of_toNat (by omega : b1.toNat = 0x20 + b1.toNat % 16)] at code
    exact faithful_lastByte code
  case h_4 half =>
    have code := hasCode_bcc16Of (Nat.mod_lt b1.toNat (by decide : 0 < 16))
    rw [← eq_ofNat_of_toNat (by omega : b1.toNat = 0x30 + b1.toNat % 16)] at code
    exact faithful_lastWord code
  case h_5 half =>
    exact faithful_sizedData (base := 0x40) rfl half (fun _ _ => ⟨rfl, rfl⟩) (fun _ _ => ⟨rfl, rfl⟩) t
  case h_6 half =>
    exact faithful_sizedData (base := 0x50) rfl half (fun _ _ => ⟨rfl, rfl⟩) (fun _ _ => ⟨rfl, rfl⟩) t
  case h_7 half | h_8 half | h_9 half | h_10 half =>
    exact faithful_lastByte (by simp [Instr.HasCode, encode, Instr.encodable, withSizeReg_sizeOf_regOf, half])
  case h_11 half => exact faithful_decodeReg (by simp [encodeRegEA, withSizeReg_sizeOf_regOf, half]) t
  case h_12 half | h_13 half | h_14 half =>
    exact faithful_decodeMem (by simp [encodeMemEA, withSizeReg_sizeOf_regOf, half]) t
  case h_15 half =>
    exact faithful_withByte fun _ t' => faithful_decodeMem (by simp [encodeMemEA, withSizeReg_sizeOf_regOf, half]) t'
  case h_16 =>
    have half : b1.toNat / 16 = 15 := by
      simp only [imp_false] at *
      omega
    exact faithful_withWord fun _ t' => faithful_decodeMem (by simp [encodeMemEA, withSizeReg_sizeOf_regOf, half]) t'

/-- Settles O2: the decoder is faithful before it has read a byte. -/
theorem encodeDecode : Obligations.EncodeDecode := faithful_decode

end Sys2Proof

/-! ## Executing what was decoded -/

namespace Sys2Proof.Machine

/-! ### A step with an instruction (R124, R387) -/

theorem State.fetch_of_ok {s : State} {i : Instr} {rest : List Byte} (h : decode s.fetchBytes = .ok (i, rest)) :
    s.fetch = .ok (i, s.advance (maxLength - rest.length)) := by
  rw [State.fetch, h]

/-- No byte of the instruction noted as stored to (R89, D4). -/
theorem State.storedAhead_eq_false {s : State} {len : Nat}
    (h : ∀ k < len, s.phys (s.fetchAddr k) ∉ s.stored ∧ s.phys (s.fetchAddr k) ∉ s.storedBefore) :
    s.storedAhead len = false := by
  refine List.any_eq_false.2 fun k hk => ?_
  obtain ⟨h1, h2⟩ := h k (List.mem_range.1 hk)
  simp [h1, h2]

theorem State.staleFetch_eq_false {s : State} {i : Instr} {rest : List Byte} (h : decode s.fetchBytes = .ok (i, rest))
    (hs : s.chip.ifetchCoherent = true ∨ s.storedAhead (maxLength - rest.length) = false) : s.staleFetch = false := by
  rw [State.staleFetch, h]
  rcases hs with hs | hs <;> simp [hs]

/-- Settles O5: the fetch is not stale, so `step` runs what it decodes. -/
theorem stepRunsDecodedInstruction : Obligations.StepRunsDecodedInstruction := by
  intro s i rest hw hd hs
  have fresh : s.staleFetch = false := State.staleFetch_eq_false hd (hs.imp_right State.storedAhead_eq_false)
  refine ⟨?_, _, rfl⟩
  have hf : s.fetch = .ok (i, s.advance (6 - rest.length)) := State.fetch_of_ok hd
  cases hx : exec i (s.advance (6 - rest.length)) <;>
    simp only [step, hw, fresh, hf, hx, Bool.false_eq_true, if_false]

/-! ### The invalid instruction exception (R117 to R120, R385) -/

/-- The stacked PC is by default the address after the bytes examined (R393). -/
theorem State.takeInvalid_entry {s : State} (h : s.canEnter .invalidInstruction) (examined : List Byte) (after : Word) :
    ∃ pc, EntryEffect s .invalidInstruction pc (s.takeInvalid examined after) ∧
      (s.chip.invalidPc = .afterLastExamined → pc = after) :=
  ⟨s.invalidStackedPc examined after, State.exceptionSequence_entry h _,
    fun hp => by rw [State.invalidStackedPc, hp]⟩

theorem exec_of_isInvalidCode {i : Instr} (h : isInvalidCode i = true) (s : State) : exec i s = s.invalidCode i := by
  cases i with
  | invalidFirst0B | invalidFirst16 | invalidFirst1B | invalidOpReg | invalidOpMem | invalidOpImm | invalidSecond01
  | invalidSecond06 | invalidSecond07 | invalidSecond11 | invalidThird => rfl
  | _ => cases h

/-- The codes of R120, with the bytes that are examined and the address after these. -/
def pageCodes (s : State) (r : Reg) (b : Byte) (w : Word) : List (Instr × List Byte × Word) :=
  [(.pjmpAbs24 b w, [0x13], s.pc - 3), (.pjmpInd r, encode (.pjmpInd r), s.pc), (.pjsrAbs24 b w, [0x03], s.pc - 3),
    (.pjsrInd r, encode (.pjsrInd r), s.pc), (.prts, [0x11, 0x19], s.pc), (.prtd8 b, [0x11, 0x14], s.pc - 1),
    (.prtd16 w, [0x11, 0x1C], s.pc - 2)]

theorem exec_pageCodes_min {s : State} (hm : s.mode = .min) (r : Reg) (b : Byte) (w : Word) :
    ∀ p ∈ pageCodes s r b w, exec p.1 s = .next (s.takeInvalid p.2.1 p.2.2) := by
  simp [pageCodes, exec, execPjmpAbs24, execPjmpInd, execPjsrAbs24, execPjsrInd, execPrts, execPrtd8, execPrtd16, hm]

/-- Settles O56: both kinds of code end in `takeInvalid`, which is an exception entry. -/
theorem invalidCodesTakeException : Obligations.InvalidCodesTakeException := by
  refine ⟨fun i s hi hc => ?_, fun s r b w hm hc p hp => ?_⟩
  · obtain ⟨pc, entry, hpc⟩ := State.takeInvalid_entry hc (encode i) s.pc
    have ⟨_, _, mask, _⟩ := entry
    exact ⟨_, pc, exec_of_isInvalidCode hi s, entry, mask, rfl, hpc⟩
  · obtain ⟨⟨i, examined, after⟩, hq, rfl⟩ : ∃ q ∈ pageCodes s r b w, (q.1, q.2.2) = p := List.mem_map.1 hp
    obtain ⟨pc, entry, hpc⟩ := State.takeInvalid_entry hc examined after
    exact ⟨_, pc, exec_pageCodes_min hm r b w _ hq, entry, hpc⟩

end Sys2Proof.Machine

/-! ## Data transfer into registers and over the stack (40_data_transfer.md) -/

namespace Sys2Proof.Machine

/-! ### Moves into a register -/

theorem State.moveToReg_spec (s : State) (src : SrcEA) (rd : Reg) :
    SourceEffect s src [(rd, mergeReg src.size ((s.readSrc src).2.reg rd) (s.readSrc src).1)]
      (moveFlags (s.readSrc src).1 s.flags) (s.moveToReg src rd) :=
  s.aluSrc_spec src rd fun _ v old => (v, moveFlags v old)

theorem exec_movfpe {s : State} (h : s.chip.hasEClock = true) (m : MemEA) (rd : Reg) :
    exec (.movfpe m rd) s = .next (s.aluSrc (.mem .byte m) rd fun _ v old => (v, old)) :=
  if_pos h

/-- Settles O28: every load is `State.moveToReg` of its source; MOVFPE is the same shape without flags. -/
theorem movesToRegister : Obligations.MovesToRegister := by
  intro s rd move
  have load : ∀ {i : Instr} (src : SrcEA), exec i s = .next (s.moveToReg src rd) →
      ∃ t, exec i s = .next t ∧ move src t := fun src h => ⟨_, h, s.moveToReg_spec src rd⟩
  exact ⟨fun src => load src rfl, fun data => load (.imm8 data) rfl, fun data => load (.imm16 data) rfl,
    fun sz a => load (.mem sz (.abs8 a)) rfl, fun sz d => load (.mem sz (.disp8 .r6 d)) rfl,
    fun m h => ⟨_, exec_movfpe h m rd, s.aluSrc_spec (.mem .byte m) rd fun _ v old => (v, old)⟩⟩

/-! ### Register lists (R108) -/

/-- The registers below a number that a list byte names, by their numbers. -/
theorem filter_ofNum (list : Byte) {n : Nat} (hn : n ≤ 8) :
    ((List.range n).map Reg.ofNum).filter (fun r => list.getLsbD r.num) =
      ((List.range n).filter fun j => list.getLsbD j).map Reg.ofNum := by
  rw [List.filter_map]
  congr 1
  refine List.filter_congr fun j hj => ?_
  have := List.mem_range.1 hj
  rw [Function.comp_apply, Reg.num_ofNum (by omega)]

theorem listRegs_eq (list : Byte) :
    listRegs list = ((List.range 8).filter fun j => list.getLsbD j).map Reg.ofNum :=
  filter_ofNum list le_rfl

theorem mem_listRegs {list : Byte} {r : Reg} : r ∈ listRegs list ↔ list.getLsbD r.num = true := by
  rw [listRegs, List.mem_filter]
  exact and_iff_right (by cases r <;> decide)

theorem listRegs_length (list : Byte) :
    (listRegs list).length = ((List.range 8).filter fun j => list.getLsbD j).length := by
  rw [listRegs_eq, List.length_map]

/-- A list byte names no register exactly where no bit is set. -/
theorem listRegs_isEmpty (list : Byte) : (listRegs list).isEmpty = (list == 0) := by
  rw [Bool.eq_iff_iff, List.isEmpty_iff, beq_iff_eq, List.eq_nil_iff_forall_not_mem]
  refine ⟨fun h => BitVec.eq_of_getLsbD_eq fun i hi => ?_, fun h r hr => ?_⟩
  · have bit := mt mem_listRegs.2 (h (Reg.ofNum i))
    rw [Reg.num_ofNum hi] at bit
    simpa using bit
  · simp [mem_listRegs, h] at hr

/-- A listed register stands after the listed ones of lower number and occurs once. -/
theorem listRegs_split {list : Byte} {r : Reg} (h : list.getLsbD r.num = true) :
    ∃ above, listRegs list = ((List.range r.num).filter fun j => list.getLsbD j).map Reg.ofNum ++ r :: above ∧
      r ∉ above := by
  have regs : ∃ above, [Reg.r0, .r1, .r2, .r3, .r4, .r5, .r6, .r7] = (List.range r.num).map Reg.ofNum ++ r :: above ∧
      r ∉ above := by
    refine ⟨[Reg.r0, .r1, .r2, .r3, .r4, .r5, .r6, .r7].drop (r.num + 1), ?_⟩
    cases r <;> decide
  obtain ⟨above, split, once⟩ := regs
  refine ⟨above.filter fun r => list.getLsbD r.num, ?_, fun hr => once (List.mem_filter.1 hr).1⟩
  rw [listRegs, split, List.filter_append, filter_ofNum list (Reg.num_lt r).le,
    List.filter_cons_of_pos (p := fun r : Reg => list.getLsbD r.num) h]

/-! ### Words on the stack -/

theorem slot_zero (x : Word) : x + 2 * BitVec.ofNat 16 0 = x := by simp

theorem slot_succ (x : Word) (k : Nat) : x + 2 * BitVec.ofNat 16 (k + 1) = x + 2 + 2 * BitVec.ofNat 16 k := by
  rw [BitVec.add_assoc, BitVec.ofNat_add, BitVec.mul_add, BitVec.add_comm (2 * _)]
  rfl

theorem lsb_slot (x : Word) (k : Nat) : (x + 2 * BitVec.ofNat 16 k).getLsbD 0 = x.getLsbD 0 := by
  rw [lsb_eq, lsb_eq, slot_toNat]
  congr 1
  apply propext
  omega

theorem State.memAt_stackSlot {s : State} {n k : Nat} (h : s.memAt (s.stackBytes n)) (hk : k < n) :
    s.memAt (s.wordBytes (s.stackSlot k)) := fun a ha =>
  h a (List.mem_flatMap.2 ⟨k, List.mem_range.2 hk, ha⟩)

/-! ### LDM -/

/-- The loop of LDM takes one register after the other. -/
theorem State.ldmLoop_cons (s : State) (off : Word) (r : Reg) (rest : List Reg) :
    s.ldmLoop off (r :: rest) = (s.ldmLoop off [r]).ldmLoop (off + 2) rest := rfl

/-- The word of one register: loaded into it, or discarded for R7 (R170). -/
theorem State.ldmLoop_singleton (s : State) (off : Word) (r : Reg) :
    s.ldmLoop off [r] =
      if r = .r7 then (s.loadWord (s.addr s.tp off)).2
      else (s.loadWord (s.addr s.tp off)).2.setReg r (s.loadWord (s.addr s.tp off)).1 := rfl

/-- One register of LDM: no other register, and an address error is pending after an odd offset (R64). -/
theorem State.ldmLoop_singleton_spec (s : State) (off : Word) (r : Reg) :
    (∃ k, s.ldmLoop off [r] = { s with
      regs := (s.ldmLoop off [r]).regs
      free := k
      addrErrPending := s.addrErrPending || off.getLsbD 0 }) ∧
      ∀ q, q ≠ r → (s.ldmLoop off [r]).reg q = s.reg q := by
  obtain ⟨k, load⟩ := s.loadWord_spec (s.addr s.tp off)
  rw [State.addr_lsb] at load
  rw [State.ldmLoop_singleton]
  split
  · exact ⟨⟨k, by rw [load]⟩, fun q _ => by rw [load]; rfl⟩
  · exact ⟨⟨k, by rw [load]; rfl⟩, fun q hq => by rw [State.reg_setReg_ne _ hq, load]; rfl⟩

/-- One register of LDM whose word can be read at an even offset. -/
theorem State.ldmLoop_singleton_mem {s : State} {off : Word} (even : off.getLsbD 0 = false)
    (readable : s.memAt (s.wordBytes (s.addr s.tp off))) (r : Reg) :
    s.ldmLoop off [r] = if r = .r7 then s else s.setReg r (s.wordAt (s.addr s.tp off)) := by
  rw [State.ldmLoop_singleton, s.loadWord_mem _ (by rw [State.addr_lsb, even]) readable]

theorem State.ldmLoop_append (a b : List Reg) :
    ∀ (s : State) (off : Word),
      s.ldmLoop off (a ++ b) = (s.ldmLoop off a).ldmLoop (off + 2 * BitVec.ofNat 16 a.length) b := by
  induction a with
  | nil => intro s off; simp [State.ldmLoop]
  | cons r rest ih =>
    intro s off
    rw [List.cons_append, State.ldmLoop_cons, ih, State.ldmLoop_cons s off r rest, List.length_cons, slot_succ]

/-- The loop of LDM changes nothing but registers, the count of free values, and whether an address error is pending,
which it is after a load at an odd offset (R64, R170). -/
theorem State.ldmLoop_spec (l : List Reg) :
    ∀ (s : State) (off : Word), ∃ k, s.ldmLoop off l = { s with
      regs := (s.ldmLoop off l).regs
      free := k
      addrErrPending := s.addrErrPending || (!l.isEmpty && off.getLsbD 0) } := by
  induction l with
  | nil => exact fun s _ => ⟨s.free, by simp [State.ldmLoop]⟩
  | cons r rest ih =>
    intro s off
    obtain ⟨⟨_, first⟩, -⟩ := s.ldmLoop_singleton_spec off r
    obtain ⟨k, last⟩ := ih (s.ldmLoop off [r]) (off + 2)
    refine ⟨k, ?_⟩
    rw [State.ldmLoop_cons, last, first, lsb_add_two]
    cases rest <;> simp

/-- A register that is not listed is kept. -/
theorem State.ldmLoop_reg {q : Reg} (l : List Reg) :
    ∀ (s : State) (off : Word), q ∉ l → (s.ldmLoop off l).reg q = s.reg q := by
  induction l with
  | nil => exact fun _ _ _ => rfl
  | cons r rest ih =>
    intro s off h
    obtain ⟨hr, hrest⟩ := not_or.1 (List.mem_cons.not.1 h)
    rw [State.ldmLoop_cons, ih _ _ hrest, (s.ldmLoop_singleton_spec off r).2 q hr]

/-- Where every word can be read, at even offsets, the loop of LDM changes registers only. -/
theorem State.ldmLoop_mem (l : List Reg) :
    ∀ (s : State) (off : Word), off.getLsbD 0 = false →
      (∀ k < l.length, s.memAt (s.wordBytes (s.addr s.tp (off + 2 * BitVec.ofNat 16 k)))) →
      s.ldmLoop off l = { s with regs := (s.ldmLoop off l).regs } := by
  induction l with
  | nil => exact fun _ _ _ _ => rfl
  | cons r rest ih =>
    intro s off even readable
    have first : s.ldmLoop off [r] = { s with regs := (s.ldmLoop off [r]).regs } := by
      have word := readable 0 (by simp)
      rw [slot_zero] at word
      rw [State.ldmLoop_singleton_mem even word]
      split <;> rfl
    have last := ih (s.ldmLoop off [r]) (off + 2) (by rw [lsb_add_two, even]) fun k hk => by
      have word := readable (k + 1) (by simpa using hk)
      rw [slot_succ] at word
      rw [first]
      exact word
    rw [State.ldmLoop_cons, last, first]

/-- The loop of LDM gives a register the word at its place in the list (R170). -/
theorem State.ldmLoop_word {s : State} {off : Word} {below above : List Reg} {r : Reg} (h7 : r ≠ .r7) (once : r ∉ above)
    (even : off.getLsbD 0 = false)
    (readable : s.memAt (s.wordBytes (s.addr s.tp (off + 2 * BitVec.ofNat 16 below.length)))) :
    (s.ldmLoop off (below ++ r :: above)).reg r = s.wordAt (s.addr s.tp (off + 2 * BitVec.ofNat 16 below.length)) := by
  obtain ⟨k, h⟩ := s.ldmLoop_spec below off
  rw [State.ldmLoop_append, State.ldmLoop_cons, State.ldmLoop_reg _ _ _ once,
    State.ldmLoop_singleton_mem (by rw [lsb_slot, even]) (by rw [h]; exact readable), if_neg h7, State.reg_setReg_self, h]
  rfl

theorem exec_ldm (list : Byte) (s : State) :
    exec (.ldm list) s = .next ((s.ldmLoop (s.reg .r7) (listRegs list)).setReg .r7
      (s.reg .r7 + 2 * BitVec.ofNat 16 (listRegs list).length)) := rfl

/-- Settles O30: the loop of LDM over the listed registers, and R7 written last. -/
theorem ldmResult : Obligations.LdmResult := by
  intro list s
  obtain ⟨k, rest⟩ := s.ldmLoop_spec (listRegs list) (s.reg .r7)
  refine ⟨_, exec_ldm list s, ?_, fun r h7 hr => ?_, ?_, ?_, fun readable even => ⟨?_, fun r h7 hr => ?_⟩⟩
  · rw [State.reg_setReg_self, listRegs_length]
  · rw [State.reg_setReg_ne _ h7, State.ldmLoop_reg _ _ _ (by simp [mem_listRegs, hr])]
  · rw [rest]; rfl
  · rw [State.setReg_addrErrPending, rest, listRegs_isEmpty]
    rfl
  · have loop := State.ldmLoop_mem (listRegs list) s (s.reg .r7) even fun k hk =>
      s.memAt_stackSlot readable (by rwa [← listRegs_length])
    rw [loop]; rfl
  · obtain ⟨above, split, once⟩ := listRegs_split hr
    have place := congrArg List.length split
    rw [listRegs_length, List.length_append, List.length_cons, List.length_map] at place
    rw [State.reg_setReg_ne _ h7, split, State.ldmLoop_word h7 once even, List.length_map]
    · rfl
    · rw [List.length_map]
      exact s.memAt_stackSlot readable (by omega)

/-! ### STM -/

theorem State.stmLoop_append (a b : List Reg) : ∀ s : State, s.stmLoop (a ++ b) = (s.stmLoop a).stmLoop b := by
  induction a with
  | nil => exact fun _ => rfl
  | cons r rest ih => exact fun s => ih _

/-- One register of STM is a push, of R7 with its value less 2 (R171). -/
theorem State.stmLoop_singleton (s : State) (r : Reg) :
    s.stmLoop [r] = s.push16 (if r = .r7 then s.reg .r7 - 2 else s.reg r) := by
  rw [← State.reg_setReg]
  rfl

/-- The loop of STM changes nothing but registers, memory with the note of its stores, and whether an address error is
pending, which it is after a push with R7 odd (R64, R171). -/
theorem State.stmLoop_spec (l : List Reg) :
    ∀ s : State, s.stmLoop l = { s with
      regs := (s.stmLoop l).regs
      mem := (s.stmLoop l).mem
      stored := (s.stmLoop l).stored
      addrErrPending := s.addrErrPending || (!l.isEmpty && (s.reg .r7).getLsbD 0) } := by
  induction l with
  | nil => exact fun s => by simp [State.stmLoop]
  | cons r rest ih =>
    intro s
    have push := (s.push16_spec (if r = .r7 then s.reg .r7 - 2 else s.reg r)).1
    rw [← State.stmLoop_singleton] at push
    have sp : (s.stmLoop [r]).reg .r7 = s.reg .r7 - 2 := by
      rw [push]; exact State.reg_setReg_self s .r7 _
    have loop : s.stmLoop (r :: rest) = (s.stmLoop [r]).stmLoop rest := rfl
    rw [loop, ih (s.stmLoop [r]), sp, lsb_sub_two, push]
    cases rest <;> simp

/-- STM from the highest register down: each word is pushed as the register was before, that of R7, which can only be
the first, less 2 (R171). -/
theorem State.stmLoop_reverse_pushed (s : State) (l : List Reg) (hl : l.length ≤ 8)
    (last : l.Pairwise fun r _ => r ≠ .r7) :
    Pushed s (s.stmLoop l.reverse) (l.map fun r => if r = .r7 then s.reg .r7 - 2 else s.reg r) := by
  induction l with
  | nil => exact pushed_nil s
  | cons r rest ih =>
    obtain ⟨hr, last⟩ := List.pairwise_cons.1 last
    rw [List.length_cons] at hl
    have pushed := ih (by omega) last
    have keeps := KeepsSystem.stmLoop rest.reverse s
    obtain ⟨⟨-, -, chip, -, -⟩, wf, -⟩ := keeps.frame
    have word : (if r = .r7 then (s.stmLoop rest.reverse).reg .r7 - 2 else (s.stmLoop rest.reverse).reg r) =
        if r = .r7 then s.reg .r7 - 2 else s.reg r := by
      cases rest with
      | nil => rfl
      | cons q rest =>
        have h7 := hr q (by simp)
        rw [if_neg h7, if_neg h7, pushed.2.1 r (by simpa using h7)]
    rw [List.reverse_cons, State.stmLoop_append, State.stmLoop_singleton, word]
    exact pushed.push _ keeps.mode_eq keeps.tp_eq chip wf (by rw [List.length_map]; omega)

theorem exec_stm (list : Byte) (s : State) : exec (.stm list) s = .next (s.stmLoop (listRegs list).reverse) := rfl

/-- R7 can only be the last of the listed registers. -/
theorem listRegs_pairwise (list : Byte) : (listRegs list).Pairwise fun r _ => r ≠ .r7 :=
  List.Pairwise.filter _ (by decide)

/-- Settles O31: the loop of STM pushes the listed registers from the highest down. -/
theorem stmResult : Obligations.StmResult := by
  intro list s
  have rest := s.stmLoop_spec (listRegs list).reverse
  rw [List.isEmpty_reverse, listRegs_isEmpty] at rest
  refine ⟨_, exec_stm list s, ?_, ?_, ?_⟩
  · exact s.stmLoop_reverse_pushed (listRegs list) (List.length_filter_le _ _) (listRegs_pairwise list)
  · rw [rest]
  · rw [rest]; rfl

/-! ### Moves between registers -/

/-- An instruction that writes a value to Rd and flags of that value changes nothing else. -/
theorem registerOnly {s : State} {i : Instr} {rd : Reg} {v : Word} {P : Word → Prop} (F : Word → Flags) (hv : P v)
    (h : exec i s = .next ((s.setReg rd v).setFlags (F v))) :
    ∃ t, exec i s = .next t ∧ P (t.reg rd) ∧ KeepsRegs s t [rd] ∧
      t = { s.setFlags (F (t.reg rd)) with regs := t.regs } := by
  have result : ((s.setReg rd v).setFlags (F v)).reg rd = v := s.reg_setReg_self rd v
  refine ⟨_, h, ?_, fun q hq => s.reg_setReg_ne (List.mem_singleton.not.1 hq) v, ?_⟩
  · rwa [result]
  · rw [result]; rfl

/-- Both writes of XCH; with Rs = Rd they write back the register's own word. -/
theorem exec_xch (s : State) (rs rd : Reg) :
    exec (.xch rs rd) s = .next ((s.setReg rs (s.reg rd)).setReg rd (s.reg rs)) := rfl

/-- The halves of a word exchanged are the word rotated by 8 (R175). -/
theorem swap_eq_rotateLeft (w : Word) : w.extractLsb' 0 8 ++ w.extractLsb' 8 8 = w.rotateLeft 8 := by
  refine word_ext fun i hi => ?_
  rw [BitVec.getLsbD_append, BitVec.getLsbD_rotateLeft, BitVec.getLsbD_extractLsb', BitVec.getLsbD_extractLsb']
  by_cases low : i < 8
  · simp [low]
  · simp [low, hi, show i - 8 < 8 by omega]

theorem sext16_toInt (v : Byte) : (sext16 v).toInt = v.toInt :=
  BitVec.toInt_signExtend_of_le (by decide)

theorem zeroExtend_toNat (v : Byte) : (v.setWidth 16).toNat = v.toNat :=
  BitVec.toNat_setWidth_of_le (by decide)

/-- A zero-extended byte is not negative (R223). -/
theorem testFlags_zeroExtend (v : Byte) : testFlags (v.setWidth 16) = ⟨false, v.setWidth 16 == 0, false, false⟩ := by
  have nonneg : (v.setWidth 16).msb = false := by
    rw [BitVec.msb_eq_false_iff_two_mul_lt, zeroExtend_toNat]
    omega
  rw [testFlags, nonneg]
  rfl

/-- Settles O32: XCH is two register writes, the others each one with the flags of what was written. -/
theorem registerOnlyMoves : Obligations.RegisterOnlyMoves := by
  intro s rs rd
  refine ⟨⟨_, exec_xch s rs rd, ?_, ?_, fun q hq => ?_, rfl⟩, ?_, ?_, ?_⟩
  · rw [State.reg_setReg]
    split
    case isTrue h => rw [h]
    case isFalse h => exact State.reg_setReg_self _ _ _
  · exact State.reg_setReg_self _ _ _
  · obtain ⟨hs, hd⟩ : q ≠ rs ∧ q ≠ rd := by simpa using hq
    rw [State.reg_setReg_ne _ hd, State.reg_setReg_ne _ hs]
  · exact registerOnly (P := (· = (s.reg rd).rotateLeft 8)) (moveFlags · s.flags) (swap_eq_rotateLeft _) rfl
  · exact registerOnly (P := fun w => w.toInt = ((s.reg rd).setWidth 8).toInt) testFlags (sext16_toInt _) rfl
  · refine registerOnly (P := fun w => w.toNat = (s.reg rd).toNat % 256) (fun w => ⟨false, w == 0, false, false⟩)
      ((zeroExtend_toNat _).trans (BitVec.toNat_setWidth 8 _)) ?_
    rw [← testFlags_zeroExtend]
    rfl

end Sys2Proof.Machine

/-! ## Arithmetic (41_arithmetic.md)

`addN` and `subN` are the sum and the difference of the operands as integers, taken modulo 2^n. The two-operand
instructions are the shapes `State.aluSrc`, `State.wordSrc` and `State.testSrc` with their own function; MULXU and DIVXU
write one register or a pair after reading their source. -/

namespace Sys2Proof.Machine

/-! ### Flags of a sum and of a difference (R200) -/

/-- An integer of one bit more than the word wraps at most once. -/
theorem toInt_ofInt_cases {n : Nat} {x : Int} (lo : -2 ^ n ≤ x) (hi : x < 2 ^ n) :
    (BitVec.ofInt n x).toInt = x ∨ (BitVec.ofInt n x).toInt = x + 2 ^ n ∨ (BitVec.ofInt n x).toInt = x - 2 ^ n := by
  rw [BitVec.toInt_ofInt, Int.bmod_def, Nat.cast_pow, Nat.cast_ofNat]
  rcases Int.lt_or_le x 0 with neg | nonneg
  · rw [← Int.add_emod_right, Int.emod_eq_of_lt (by omega) (by omega)]
    split <;> omega
  · rw [Int.emod_eq_of_lt nonneg hi]
    split <;> omega

section
variable {n : Nat} (d s : BitVec n)

theorem addN_fst (cin : Bool) : (addN d s cin).1 = BitVec.ofInt n (d.toInt + s.toInt + cin.toNat) := by
  rw [BitVec.ofInt_add, BitVec.ofInt_add, BitVec.ofInt_toInt, BitVec.ofInt_toInt, BitVec.ofInt_natCast, addN]
  simp only [BitVec.ofNat_add, BitVec.ofNat_toNat, BitVec.setWidth_eq]

/-- V of a sum is set exactly where the signed sum does not fit (R200). -/
theorem addN_v_iff (hn : 0 < n) (cin : Bool) :
    (addN d s cin).2.v = true ↔ (addN d s cin).1.toInt ≠ d.toInt + s.toInt + cin.toNat := by
  have signs : (addN d s cin).2.v = true ↔ s.toInt < 0 ∧ d.toInt < 0 ∧ 0 ≤ (addN d s cin).1.toInt ∨
      0 ≤ s.toInt ∧ 0 ≤ d.toInt ∧ (addN d s cin).1.toInt < 0 := by
    simp [addN, BitVec.msb_eq_toInt, and_assoc]
  have hd := And.intro d.le_two_mul_toInt d.two_mul_toInt_lt
  have hs := And.intro s.le_two_mul_toInt s.two_mul_toInt_lt
  have hr := And.intro (addN d s cin).1.le_two_mul_toInt (addN d s cin).1.two_mul_toInt_lt
  have carry := cin.toNat_le
  have even : (2 : Int) ^ n = 2 * 2 ^ (n - 1) := (mul_pow_sub_one hn.ne' 2).symm
  have wrap := toInt_ofInt_cases (n := n) (x := d.toInt + s.toInt + cin.toNat) (by omega) (by omega)
  rw [← addN_fst] at wrap
  rw [signs]
  omega

/-- A difference with borrow is the sum with the complement, the carry being no borrow. -/
theorem subN_fst (bin : Bool) : (subN d s bin).1 = (addN d (~~~s) (!bin)).1 := by
  simp only [subN, addN, BitVec.ofNat_add, BitVec.ofNat_toNat, BitVec.setWidth_eq]
  rw [BitVec.sub_eq_add_neg d, BitVec.neg_eq_not_add, ← BitVec.add_assoc]
  cases bin <;> simp

/-- The formulas of R200 for V agree where the subtrahend is complemented. -/
theorem subN_v (hn : 0 < n) (bin : Bool) : (subN d s bin).2.v = (addN d (~~~s) (!bin)).2.v := by
  have result := subN_fst d s bin
  simp only [subN, addN] at result ⊢
  simp [result, BitVec.msb_not, hn]

/-- The complement of a signed number; a word of no bits is its own complement. -/
theorem toInt_not_of_pos (hn : 0 < n) : (~~~s).toInt = -s.toInt - 1 := by
  have complement : ((~~~s).toNat : Int) = 2 ^ n - 1 - s.toNat := by
    have := s.isLt
    rw [BitVec.toNat_not]
    push_cast [show s.toNat ≤ 2 ^ n - 1 by omega, show 1 ≤ 2 ^ n by omega]
    rfl
  rw [BitVec.toInt_eq_msb_cond, BitVec.toInt_eq_msb_cond, BitVec.msb_not, complement, Nat.cast_pow, Nat.cast_ofNat]
  cases s.msb with
  | false => simp [hn]; omega
  | true => simp; omega

/-- V of a difference is set exactly where the signed difference does not fit (R200). -/
theorem subN_v_iff (hn : 0 < n) (bin : Bool) :
    (subN d s bin).2.v = true ↔ (subN d s bin).1.toInt ≠ d.toInt - s.toInt - bin.toNat := by
  have noBorrow : ((!bin).toNat : Int) = 1 - bin.toNat := by cases bin <;> rfl
  rw [subN_v d s hn, addN_v_iff _ _ hn, subN_fst, toInt_not_of_pos s hn, noBorrow]
  omega

/-- The difference modulo 2^n (R200). -/
theorem subN_toNat (bin : Bool) :
    ((subN d s bin).1.toNat : Int) = ((d.toNat : Int) - s.toNat - bin.toNat) % 2 ^ n := by
  have difference : (subN d s bin).1 = BitVec.ofInt n (d.toNat - s.toNat - bin.toNat) := by
    simp only [Int.sub_eq_add_neg, BitVec.ofInt_add, BitVec.ofInt_neg, BitVec.ofInt_natCast, BitVec.ofNat_toNat,
      BitVec.setWidth_eq, ← BitVec.sub_eq_add_neg]
    rfl
  rw [difference, BitVec.toNat_ofInt, Int.toNat_of_nonneg (Int.emod_nonneg _ (by simp)), Nat.cast_pow]
  rfl

end

theorem Size.bits_pos (sz : Size) : 0 < sz.bits := by cases sz <;> decide

/-- Settles O25: the sum is formed as a natural number, V is `addN_v_iff`. -/
theorem additionFlags : Obligations.AdditionFlags := fun _ d s cin =>
  ⟨BitVec.toNat_ofNat _ _, rfl, beq_iff_eq, decide_eq_true_iff, addN_v_iff d s (Size.bits_pos _) cin⟩

/-- Settles O26: the difference is one of integers modulo 2^n, V is `subN_v_iff`. -/
theorem subtractionFlags : Obligations.SubtractionFlags := fun _ d s bin =>
  ⟨subN_toNat d s bin, rfl, beq_iff_eq, decide_eq_true_iff, subN_v_iff d s (Size.bits_pos _) bin⟩

/-! ### Two operands -/

/-- Settles O33: each of the nine is one of the shapes `State.wordSrc` and `State.aluSrc` with its own function. -/
theorem twoOperandResults : Obligations.TwoOperandResults := by
  intro s src rd d v c z logic wide word
  have alu : ∀ {i : Instr} (f : BitVec src.size.bits → BitVec src.size.bits → Flags → BitVec src.size.bits × Flags),
      exec i s = .next (s.aluSrc src rd f) → ∃ t, exec i s = .next t ∧
        SourceEffect s src [(rd, mergeReg src.size word (f d v s.flags).1)] (f d v s.flags).2 t :=
    fun f h => ⟨_, h, s.aluSrc_spec src rd f⟩
  refine ⟨⟨_, rfl, s.wordSrc_spec src rd (· + ·)⟩, ⟨_, rfl, s.wordSrc_spec src rd (· - ·)⟩, ?_⟩
  repeat rw [List.forall_mem_cons]
  exact ⟨alu (fun d v _ => addN d v false) rfl, alu (fun d v _ => subN d v false) rfl, alu addxN rfl, alu subxN rfl,
    alu (fun d v old => (d &&& v, moveFlags (d &&& v) old)) rfl,
    alu (fun d v old => (d ||| v, moveFlags (d ||| v) old)) rfl,
    alu (fun d v old => (d ^^^ v, moveFlags (d ^^^ v) old)) rfl, List.forall_mem_nil _⟩

/-- Settles O37: the compares are `State.testSrc` and `State.inspect`; of a register and an immediate they are one write
of the flags. -/
theorem compareResults : Obligations.CompareResults := fun s src rd sz d m b w =>
  ⟨⟨_, rfl, s.testSrc_spec src rd fun d v _ => (subN d v false).2⟩, rfl, rfl,
    ⟨_, rfl, s.inspect_spec .byte (.mem m) fun v _ => (subN v b false).2⟩,
    ⟨_, rfl, s.inspect_spec .word (.mem m) fun v _ => (subN v w false).2⟩,
    ⟨_, rfl, s.inspect_spec sz d fun v _ => testFlags v⟩⟩

/-! ### CLR and STC -/

/-- CCR is the low byte of SR (R27). -/
theorem ccr_setWidth (v : Word) : (v.setWidth 8).setWidth 16 = v &&& 0x00FF := by
  refine BitVec.eq_of_toNat_eq ?_
  rw [BitVec.toNat_and, BitVec.toNat_setWidth_of_le (by decide), BitVec.toNat_setWidth]
  exact (Nat.and_two_pow_sub_one_eq_mod v.toNat 8).symm

/-- Settles O35: both are one write of the destination; CLR writes its flags after it. -/
theorem clearAndStoreControl : Obligations.ClearAndStoreControl := by
  intro s sz cr r m value
  have control : s.crRead cr = value := by
    cases cr with
    | ccr => exact ccr_setWidth s.sr
    | sr | br | ep | dp | tp => rfl
  rw [← control]
  exact ⟨rfl, ⟨_, rfl, s.storeMem_spec sz m (fun _ => 0) clrFlags⟩, rfl,
    ⟨_, rfl, s.storeMem_keepsFlags cr.size m fun _ => (s.crRead cr).setWidth _⟩⟩

/-! ### Decimal digits (R209, R210) -/

theorem toBcd_toNat {u : Nat} (h : u < 100) : (toBcd u).toNat = u / 10 * 16 + u % 10 := by
  rw [toBcd, BitVec.toNat_ofNat]
  omega

theorem bcdValid_iff {b : Byte} : bcdValid b = true ↔ b.toNat / 16 ≤ 9 ∧ b.toNat % 16 ≤ 9 := by
  simp [bcdValid]

theorem bcdValid_toBcd {u : Nat} (h : u < 100) : bcdValid (toBcd u) = true := by
  rw [bcdValid_iff, toBcd_toNat h]
  omega

theorem bcdValue_toBcd {u : Nat} (h : u < 100) : bcdValue (toBcd u) = u := by
  rw [bcdValue, toBcd_toNat h]
  omega

theorem bcdValue_lt {b : Byte} (h : bcdValid b = true) : bcdValue b < 100 := by
  rw [bcdValid_iff] at h
  rw [bcdValue]
  omega

section
variable {s : State} {rs rd : Reg}

theorem State.decimal_of_valid (hd : bcdValid ((s.reg rd).setWidth 8) = true)
    (hv : bcdValid ((s.reg rs).setWidth 8) = true) (f : Byte → Byte → Flags → Byte × Flags) :
    s.decimal rs rd f =
      (s.setRegN .byte rd (f ((s.reg rd).setWidth 8) ((s.reg rs).setWidth 8) s.flags).1).setFlags
        (f ((s.reg rd).setWidth 8) ((s.reg rs).setWidth 8) s.flags).2 :=
  if_pos (Bool.and_eq_true_iff.2 ⟨hd, hv⟩)

theorem State.decimal_of_invalid (h : (bcdValid ((s.reg rd).setWidth 8) && bcdValid ((s.reg rs).setWidth 8)) = false)
    (f : Byte → Byte → Flags → Byte × Flags) : s.decimal rs rd f =
      { (s.setRegN .byte rd (Config.freeByte s.free)).setFlags
          { s.flags with z := Config.freeBit (s.free + 1), c := Config.freeBit (s.free + 2) } with
        free := s.free + 3 } :=
  if_neg (by rw [Bool.not_eq_true]; exact h)

/-- A result of valid digits, a number below 100, is read back from its own digits. -/
theorem exec_decimal_of_valid {i : Instr} {f : Byte → Byte → Flags → Byte × Flags} {u : Nat} {c : Bool}
    (hd : bcdValid ((s.reg rd).setWidth 8) = true) (hv : bcdValid ((s.reg rs).setWidth 8) = true)
    (run : exec i s = .next (s.decimal rs rd f)) (hu : u < 100)
    (digits : f ((s.reg rd).setWidth 8) ((s.reg rs).setWidth 8) s.flags =
      (toBcd u, { s.flags with z := s.flags.z && u == 0, c := c })) :
    ∃ r : Byte, bcdValid r = true ∧ bcdValue r = u ∧ exec i s = .next ((s.setRegN .byte rd r).setFlags
      { s.flags with z := s.flags.z && decide (bcdValue r = 0), c := c }) := by
  refine ⟨toBcd u, bcdValid_toBcd hu, bcdValue_toBcd hu, ?_⟩
  rw [run, State.decimal_of_valid hd hv, digits, bcdValue_toBcd hu]
  rfl

end

/-- Settles O38: the digits of a sum or difference modulo 100 are read back as that number. -/
theorem decimalResults : Obligations.DecimalResults := by
  intro s rs rd d v c hd hv
  refine ⟨exec_decimal_of_valid (f := daddN) hd hv rfl (Nat.mod_lt _ (by decide)) rfl, ?_⟩
  have difference : (((bcdValue d + 100 - (bcdValue v + c)) % 100 : Nat) : Int) =
      ((bcdValue d : Int) - bcdValue v - c) % 100 := by
    have := bcdValue_lt hv
    have : c ≤ 1 := s.flags.c.toNat_le
    omega
  obtain ⟨r, valid, value, run⟩ :=
    exec_decimal_of_valid (i := .dsub rs rd) (f := dsubN) hd hv rfl (Nat.mod_lt _ (by decide)) rfl
  exact ⟨r, valid, by rw [value, ← difference], run⟩

/-! ### Operands without a stated result (D17, D18) -/

section
variable {s : State} {i : Instr} {b : Nat} {d : DstEA} (hb : 8 ≤ b)
include hb

theorem exec_bitModify_of_le (f : Byte → Byte → Byte) (run : exec i s = .next (s.bitModify .byte b d f)) :
    ∃ (k : Nat) (w : Byte) (z : Bool) (t : State), exec i s = .next t ∧
      ModifyEffect { s with free := k } .byte d (fun _ old => (w, { old with z := z })) t := by
  rw [run, State.bitModify, if_neg (Nat.not_lt.2 hb)]
  exact ⟨_, _, _, _, rfl, State.modify_spec _ .byte d _⟩

theorem exec_bitTest_of_le (run : exec i s = .next (s.bitTest .byte b d)) :
    ∃ (k : Nat) (z : Bool) (t : State), exec i s = .next t ∧
      InspectEffect { s with free := k } .byte d (fun _ old => { old with z := z }) t := by
  rw [run, State.bitTest, if_neg (Nat.not_lt.2 hb)]
  exact ⟨_, _, _, rfl, State.inspect_spec _ .byte d _⟩

end

/-- Settles O39: the instruction draws free values and goes on in its shape with these. -/
theorem openOperandsRunOn : Obligations.OpenOperandsRunOn := by
  refine ⟨fun s rs rd h => ?_, fun s d imm rs => ?_⟩
  all_goals repeat rw [List.forall_mem_cons]
  · exact ⟨⟨_, _, _, _, congrArg _ (State.decimal_of_invalid h daddN)⟩,
      ⟨_, _, _, _, congrArg _ (State.decimal_of_invalid h dsubN)⟩, List.forall_mem_nil _⟩
  · refine ⟨fun hb => ⟨?_, exec_bitTest_of_le hb rfl⟩, fun hb => ⟨?_, exec_bitTest_of_le hb rfl⟩,
      List.forall_mem_nil _⟩
    all_goals
      exact ⟨exec_bitModify_of_le hb (fun v k => v ||| k) rfl, exec_bitModify_of_le hb (fun v k => v &&& ~~~k) rfl,
        exec_bitModify_of_le hb (fun v k => v ^^^ k) rfl, List.forall_mem_nil _⟩

/-! ### Register pairs (R24) -/

theorem pairLow_eq {rd : Reg} (h : rd.even = true) : pairLow rd = Reg.ofNum (rd.num + 1) := by
  cases rd with
  | r0 | r2 | r4 | r6 => rfl
  | r1 | r3 | r5 | r7 => cases h

theorem ne_pairLow (rd : Reg) : rd ≠ pairLow rd := by cases rd <;> decide

/-- A number in two halves; bits above the upper one are lost on both sides. -/
theorem ofNat_add_bits (m n p : Nat) : BitVec.ofNat (m + n) p = BitVec.ofNat m (p / 2 ^ n) ++ BitVec.ofNat n p := by
  refine BitVec.eq_of_getLsbD_eq fun i hi => ?_
  rw [BitVec.getLsbD_append, BitVec.getLsbD_ofNat, BitVec.getLsbD_ofNat, BitVec.getLsbD_ofNat, Nat.testBit_div_two_pow]
  by_cases low : i < n
  · simp [low, hi]
  · simp [low, hi, show i - n < m by omega, show i - n + n = i by omega]

theorem append_toNat {m n : Nat} (x : BitVec m) (y : BitVec n) : (x ++ y).toNat = x.toNat * 2 ^ n + y.toNat := by
  rw [BitVec.toNat_append, ← Nat.shiftLeft_add_eq_or_of_lt y.isLt, Nat.shiftLeft_eq]

theorem State.setRegPair_append (s : State) (rd : Reg) (upper lower : Word) :
    s.setRegPair rd (upper ++ lower) = (s.setReg rd upper).setReg (pairLow rd) lower := by
  rw [State.setRegPair, BitVec.extractLsb'_append_eq_left, BitVec.extractLsb'_append_eq_right]

/-! ### Results after a source has been read -/

section
variable (s : State) (src : SrcEA) (rd : Reg) (f : Flags)

/-- Only the flags. -/
theorem sourceEffect_flags : SourceEffect s src [] f (((s.readSrc src).2.setFlags f).finishSrc src []) :=
  s.testSrc_spec src .r0 fun _ _ _ => f

/-- Rd and the flags. -/
theorem sourceEffect_reg (v : Word) :
    SourceEffect s src [(rd, v)] f ((((s.readSrc src).2.setReg rd v).setFlags f).finishSrc src [rd]) := by
  refine sourceEffect s src [(rd, v)] f _ rfl ?_ (State.flags_setFlags _ _) ?_ fun q hq => ?_
  · rw [State.upper_setFlags, State.setReg_sr, State.readSrc_sr]
  · rw [List.forall_mem_singleton]
    exact State.reg_setReg_self _ _ _
  · exact State.reg_setReg_ne _ (by simpa using hq) _

/-- The pair named by Rd and the flags. -/
theorem sourceEffect_regPair (upper lower : Word) :
    SourceEffect s src [(rd, upper), (pairLow rd, lower)] f
      ((((s.readSrc src).2.setRegPair rd (upper ++ lower)).setFlags f).finishSrc src [rd, pairLow rd]) := by
  rw [State.setRegPair_append]
  refine sourceEffect s src [(rd, upper), (pairLow rd, lower)] f _ rfl ?_ (State.flags_setFlags _ _) ?_ fun q hq => ?_
  · rw [State.upper_setFlags, State.setReg_sr, State.setReg_sr, State.readSrc_sr]
  · rw [List.forall_mem_cons, List.forall_mem_singleton]
    exact ⟨(State.reg_setReg_ne _ (ne_pairLow rd) _).trans (State.reg_setReg_self _ _ _), State.reg_setReg_self _ _ _⟩
  · obtain ⟨hu, hl⟩ : q ≠ rd ∧ q ≠ pairLow rd := by simpa using hq
    exact (State.reg_setReg_ne _ hl _).trans (State.reg_setReg_ne _ hu _)

end

/-- N and Z of a number that fits. -/
theorem testFlags_ofNat {n p : Nat} (hp : p < 2 ^ n) :
    testFlags (BitVec.ofNat n p) = ⟨decide (2 ^ (n - 1) ≤ p), decide (p = 0), false, false⟩ := by
  have value : (BitVec.ofNat n p).toNat = p := Nat.mod_eq_of_lt hp
  have zero : (BitVec.ofNat n p == 0#n) = decide (p = 0) := by
    rw [Bool.eq_iff_iff, beq_iff_eq, decide_eq_true_iff, ← BitVec.toNat_inj, value]
    simp
  rw [testFlags, BitVec.msb_eq_decide, value, zero]

/-! ### MULXU (R216) -/

theorem Size.bits_le (sz : Size) : sz.bits ≤ 16 := by cases sz <;> decide

theorem mulByte_eq {sz : Size} (d : Word) (v : BitVec sz.bits) :
    mulByte d (v.setWidth 16) = BitVec.ofNat 16 (d.toNat % 256 * v.toNat) := by
  rw [mulByte, ← BitVec.ofNat_toNat 16 (d.setWidth 8), BitVec.toNat_setWidth, BitVec.ofNat_mul, BitVec.ofNat_toNat 16 v]

theorem mulWord_eq {sz : Size} (d : Word) (v : BitVec sz.bits) :
    mulWord d (v.setWidth 16) = BitVec.ofNat 32 (d.toNat * v.toNat) := by
  rw [mulWord, ← BitVec.ofNat_toNat 32 (v.setWidth 16), BitVec.toNat_setWidth_of_le (Size.bits_le sz), BitVec.ofNat_mul,
    BitVec.ofNat_toNat 32 d]

section
variable {s : State} {src : SrcEA} {rd : Reg}

theorem exec_mulxu_byte (h : src.size = .byte) :
    let p := ((s.readSrc src).2.reg rd).toNat % 256 * (s.readSrc src).1.toNat
    exec (.mulxu src rd) s = .next ((((s.readSrc src).2.setReg rd (BitVec.ofNat 16 p)).setFlags
      (testFlags (BitVec.ofNat 16 p))).finishSrc src [rd]) := by
  intro p
  simp only [exec, execMulxu, h, mulByte_eq]
  rfl

theorem exec_mulxu_word (h : src.size = .word) (even : rd.even = true) :
    let p := ((s.readSrc src).2.reg rd).toNat * (s.readSrc src).1.toNat
    exec (.mulxu src rd) s = .next ((((s.readSrc src).2.setRegPair rd (BitVec.ofNat 32 p)).setFlags
      (testFlags (BitVec.ofNat 32 p))).finishSrc src [rd, pairLow rd]) := by
  intro p
  simp only [exec, execMulxu, h, even, mulWord_eq, if_true]
  rfl

end

/-- Settles O40: the product fits in the register or the pair it is written to. -/
theorem multiplyResults : Obligations.MultiplyResults := by
  intro s src rd v d
  have hd : d < 65536 := BitVec.isLt _
  have hv : v < 2 ^ src.size.bits := BitVec.isLt _
  refine ⟨fun byte => ⟨_, exec_mulxu_byte byte, ?_⟩, fun word even => ⟨_, exec_mulxu_word word even, ?_⟩⟩
  · have bound : d % 256 * v < 2 ^ 16 := by
      rw [byte] at hv
      exact Nat.mul_lt_mul'' (c := 256) (d := 256) (Nat.mod_lt d (by decide)) hv
    rw [testFlags_ofNat bound]
    exact sourceEffect_reg s src rd _ _
  · have bound : d * v < 2 ^ 32 := by
      rw [word] at hv
      exact Nat.mul_lt_mul'' (c := 65536) (d := 65536) hd hv
    rw [testFlags_ofNat bound, ofNat_add_bits 16 16, ← pairLow_eq even]
    exact sourceEffect_regPair s src rd _ _ _

/-! ### DIVXU (R218) -/

/-- The register pair as a number. -/
theorem State.regPair_toNat (s : State) (rd : Reg) :
    (s.regPair rd).toNat = (s.reg rd).toNat * 65536 + (s.reg (pairLow rd)).toNat :=
  append_toNat _ _

/-- A remainder and a quotient that fit in a byte each. -/
theorem ofNat_append_byte {q : Nat} (r : Nat) (hq : q < 256) :
    BitVec.ofNat 8 r ++ BitVec.ofNat 8 q = BitVec.ofNat 16 (r * 256 + q) := by
  have quotient : BitVec.ofNat 8 (r * 256 + q) = BitVec.ofNat 8 q := by
    refine BitVec.eq_of_toNat_eq ?_
    rw [BitVec.toNat_ofNat, BitVec.toNat_ofNat]
    omega
  rw [ofNat_add_bits 8 8, quotient, show (r * 256 + q) / 2 ^ 8 = r by omega]

section
variable {u : State} {src : SrcEA} {n dvd dvs : Nat} {put : Nat → Nat → State} {written : List Reg}

theorem State.divide_by_zero (h : dvs = 0) : u.divide src n dvd dvs put written =
    ((u.setFlags zeroDivideFlags).finishSrc src []).exceptionSequence .zeroDivide u.pc :=
  if_pos h

theorem State.divide_overflow (h : dvs ≠ 0) (large : 2 ^ n ≤ dvd / dvs) :
    u.divide src n dvd dvs put written = (u.setFlags divOverflowFlags).finishSrc src [] :=
  (if_neg h).trans (if_pos large)

theorem State.divide_fits (h : dvs ≠ 0) (fits : dvd / dvs < 2 ^ n) : u.divide src n dvd dvs put written =
    ((put (dvd / dvs) (dvd % dvs)).setFlags (quotientFlags n (dvd / dvs))).finishSrc src written :=
  (if_neg h).trans (if_neg (Nat.not_le.2 fits))

end

/-- What a performed division leaves: of bytes the remainder above the quotient in Rd, of words the remainder in Rd and
the quotient in the register after it. -/
def quotientResults (sz : Size) (rd : Reg) (q r : Nat) : List (Reg × Word) :=
  if sz = .byte then [(rd, BitVec.ofNat 16 (r * 256 + q))]
  else [(rd, BitVec.ofNat 16 r), (Reg.ofNum (rd.num + 1), BitVec.ofNat 16 q)]

/-- What is divided: Rd, or the pair it names. -/
def State.dividend (s : State) (sz : Size) (rd : Reg) : Nat :=
  if sz = .byte then (s.reg rd).toNat else (s.reg rd).toNat * 65536 + (s.reg (Reg.ofNum (rd.num + 1))).toNat

section
variable {s : State} {src : SrcEA} {rd : Reg}

/-- DIVXU of both sizes is one division, whose results are written as one register or as a pair. -/
theorem exec_divxu {sz : Size} (size : src.size = sz) (even : sz = .word → rd.even = true) : ∃ put written,
    exec (.divxu src rd) s = .next ((s.readSrc src).2.divide src sz.bits ((s.readSrc src).2.dividend sz rd)
      (s.readSrc src).1.toNat put written) ∧
    ∀ q r f, q < 2 ^ sz.bits →
      SourceEffect s src (quotientResults sz rd q r) f (((put q r).setFlags f).finishSrc src written) := by
  cases sz with
  | byte =>
    refine ⟨_, _, by simp only [exec, execDivxu, size]; rfl, fun q r f hq => ?_⟩
    rw [ofNat_append_byte r hq]
    exact sourceEffect_reg s src rd f _
  | word =>
    have pair := pairLow_eq (even rfl)
    have dividend : ((s.readSrc src).2.regPair rd).toNat = (s.readSrc src).2.dividend .word rd := by
      rw [State.regPair_toNat, pair]
      rfl
    refine ⟨_, _, by simp only [exec, execDivxu, size, even, if_true, dividend]; rfl, fun q r f _ => ?_⟩
    rw [quotientResults, ← pair]
    exact sourceEffect_regPair s src rd f _ _

end

/-- Settles O41: the three cases of `State.divide`; the last one ends in an exception sequence, which is an entry under
the ordinary conditions. -/
theorem divideResults : Obligations.DivideResults := by
  intro s src rd even n v hi lo dividend
  obtain ⟨put, written, run, performed⟩ := exec_divxu (s := s) rfl even
  replace run : exec (.divxu src rd) s = .next ((s.readSrc src).2.divide src n dividend v put written) := run
  have pc : (s.readSrc src).2.pc = s.pc := by
    obtain ⟨k, h⟩ := s.readSrc_spec src
    rw [h]
  refine ⟨_, run, fun hv fits => ?_, fun hv large => ?_, fun hv => ⟨?_, fun enter => ?_⟩⟩
  · intro q r
    rw [State.divide_fits hv fits, quotientFlags, testFlags_ofNat fits]
    exact performed q r _ fits
  · rw [State.divide_overflow hv large]
    exact sourceEffect_flags s src divOverflowFlags
  · exact sourceEffect_flags s src zeroDivideFlags
  · rw [State.divide_by_zero hv, pc]
    exact State.exceptionSequence_entry enter s.pc

end Sys2Proof.Machine

/-! ## Shifts, rotates and bits (42_logic_shift_bit.md)

A shift or rotate by one bit moves every bit one place and puts a bit into the free place: 0, the sign, the bit that
left, or C. The rotates are compared with the rotations of the library bit by bit. -/

namespace Sys2Proof.Machine

/-! ### One place to the left, one place to the right (R266 to R273) -/

theorem getLsbD_lowBit (n i : Nat) (b : Bool) : (lowBit n b).getLsbD i = (decide (0 < n) && decide (i = 0) && b) := by
  cases b with
  | false => rw [lowBit, Bool.and_false]; exact BitVec.getLsbD_zero
  | true => rw [lowBit, Bool.and_true]; exact BitVec.getLsbD_one

section
variable {n i : Nat} (d : BitVec n)

theorem getLsbD_shiftInLow (hi : i < n) (b : Bool) :
    (d <<< 1 ||| lowBit n b).getLsbD i = if i = 0 then b else d.getLsbD (i - 1) := by
  rw [BitVec.getLsbD_or, BitVec.getLsbD_shiftLeft, getLsbD_lowBit]
  cases i with
  | zero => simp [hi]
  | succ i => simp [hi]

theorem getLsbD_shiftInHigh (hi : i < n) (b : Bool) :
    (d >>> 1 ||| lowBit n b <<< (n - 1)).getLsbD i = if i = n - 1 then b else d.getLsbD (i + 1) := by
  rw [BitVec.getLsbD_or, BitVec.getLsbD_ushiftRight, BitVec.getLsbD_shiftLeft, getLsbD_lowBit, Nat.add_comm 1 i]
  by_cases top : i = n - 1
  · have outside : d.getLsbD (i + 1) = false := BitVec.getLsbD_of_ge _ _ (by omega)
    rw [if_pos top, outside]
    simp [hi, show ¬ i < n - 1 by omega, show i - (n - 1) = 0 by omega, show 0 < n by omega]
  · simp [top, show i < n - 1 by omega]

theorem getLsbD_rotateLeft_one (hn : 1 < n) (hi : i < n) :
    (d.rotateLeft 1).getLsbD i = if i = 0 then d.msb else d.getLsbD (i - 1) := by
  rw [BitVec.getLsbD_rotateLeft, Nat.mod_eq_of_lt hn, BitVec.msb_eq_getLsbD_last]
  cases i with
  | zero => simp
  | succ i => simp [hi]

theorem getLsbD_rotateRight_one (hn : 1 < n) (hi : i < n) :
    (d.rotateRight 1).getLsbD i = if i = n - 1 then d.getLsbD 0 else d.getLsbD (i + 1) := by
  rw [BitVec.getLsbD_rotateRight, Nat.mod_eq_of_lt hn, Nat.add_comm 1 i]
  by_cases top : i = n - 1
  · simp [top, show n - 1 < n by omega]
  · simp [top, show i < n - 1 by omega]

end

/-! ### Results (R266 to R273) -/

section
variable {n : Nat} (d : BitVec n) (f : Flags)

theorem toNat_shiftLeft_one : (d <<< 1).toNat = 2 * d.toNat % 2 ^ n := by
  rw [BitVec.toNat_shiftLeft, Nat.shiftLeft_eq, pow_one, Nat.mul_comm]

/-- The bit next to the sign is the sign after the shift, so that V is a change of sign (R266). -/
theorem shalN_v_iff : (shalN d f).2.v = true ↔ (shalN d f).1.msb ≠ d.msb := by
  rw [shalN, BitVec.msb_shiftLeft, shiftFlags, Bool.xor_comm]
  exact bne_iff_ne

theorem sharN_toInt : (sharN d f).1.toInt = d.toInt / 2 := by
  rw [sharN, BitVec.toInt_sshiftRight, Int.shiftRight_eq_div_pow]
  rfl

theorem shlrN_toNat : (shlrN d f).1.toNat = d.toNat / 2 := by
  rw [shlrN, BitVec.toNat_ushiftRight, Nat.shiftRight_one]

theorem shlrN_n : (shlrN d f).2.n = false := by
  rw [shlrN, shiftFlags, BitVec.msb_ushiftRight]
  rfl

theorem rotlN_eq_rotateLeft (hn : 1 < n) : (rotlN d f).1 = d.rotateLeft 1 := by
  refine BitVec.eq_of_getLsbD_eq fun i hi => ?_
  rw [rotlN, getLsbD_shiftInLow d hi, getLsbD_rotateLeft_one d hn hi]

theorem rotrN_eq_rotateRight (hn : 1 < n) : (rotrN d f).1 = d.rotateRight 1 := by
  refine BitVec.eq_of_getLsbD_eq fun i hi => ?_
  rw [rotrN, getLsbD_shiftInHigh d hi, getLsbD_rotateRight_one d hn hi]

/-- C as the bit above the operand: the old C goes to bit 0, the old most significant bit to C (R272). -/
theorem rotxlN_eq_rotateLeft (hn : 0 < n) :
    BitVec.ofBool (rotxlN d f).2.c ++ (rotxlN d f).1 = (BitVec.ofBool f.c ++ d).rotateLeft 1 := by
  refine BitVec.eq_of_getLsbD_eq fun i hi => ?_
  rw [getLsbD_rotateLeft_one _ (by omega) hi, BitVec.getLsbD_append, BitVec.getLsbD_append]
  by_cases low : i < n
  · rw [if_pos low, rotxlN, getLsbD_shiftInLow d low, if_pos (by omega : i - 1 < n), BitVec.msb_append]
    simp
  · have top : i = n := by omega
    subst top
    rw [if_neg low, if_neg hn.ne', if_pos (by omega), ← BitVec.msb_eq_getLsbD_last]
    simp [rotxlN, shiftFlags]

/-- C as the bit above the operand: the old C goes to the most significant bit, the old bit 0 to C (R273). -/
theorem rotxrN_eq_rotateRight (hn : 0 < n) :
    BitVec.ofBool (rotxrN d f).2.c ++ (rotxrN d f).1 = (BitVec.ofBool f.c ++ d).rotateRight 1 := by
  refine BitVec.eq_of_getLsbD_eq fun i hi => ?_
  rw [getLsbD_rotateRight_one _ (by omega) hi, BitVec.getLsbD_append, BitVec.getLsbD_append, BitVec.getLsbD_append,
    if_pos hn]
  by_cases low : i < n
  · rw [if_pos low, if_neg (by omega), rotxrN, getLsbD_shiftInHigh d low]
    by_cases top : i = n - 1
    · rw [if_pos top, if_neg (by omega), show i + 1 - n = 0 by omega]
      simp
    · rw [if_neg top, if_pos (by omega)]
  · rw [if_neg low, if_pos (by omega), show i - n = 0 by omega]
    simp [rotxrN, shiftFlags]

end

theorem Size.one_lt_bits (sz : Size) : 1 < sz.bits := by cases sz <;> decide

/-- Settles O27: the results by the lemmas above; C, and V but for SHAL, stand in the definitions, and so do N and Z. -/
theorem shiftAndRotateResults : Obligations.ShiftAndRotateResults := by
  intro sz d f
  have hn := Size.one_lt_bits sz
  have pos := Size.bits_pos sz
  refine ⟨⟨toNat_shiftLeft_one d, rfl, shalN_v_iff d f⟩, ⟨sharN_toInt d f, rfl, rfl⟩, ⟨toNat_shiftLeft_one d, rfl, rfl⟩,
    ⟨shlrN_toNat d f, rfl, rfl, shlrN_n d f⟩, ⟨rotlN_eq_rotateLeft d f hn, rfl, rfl⟩,
    ⟨rotrN_eq_rotateRight d f hn, rfl, rfl⟩, ⟨rotxlN_eq_rotateLeft d f pos, rfl⟩,
    ⟨rotxrN_eq_rotateRight d f pos, rfl⟩, ?_⟩
  repeat rw [List.forall_mem_cons]
  exact ⟨⟨rfl, beq_iff_eq⟩, ⟨rfl, beq_iff_eq⟩, ⟨rfl, beq_iff_eq⟩, ⟨rfl, beq_iff_eq⟩, ⟨rfl, beq_iff_eq⟩,
    ⟨rfl, beq_iff_eq⟩, ⟨rfl, beq_iff_eq⟩, ⟨rfl, beq_iff_eq⟩, List.forall_mem_nil _⟩

/-! ### Bit numbers inside the operand (R274 to R282) -/

section
variable {s : State} {sz : Size} {i : Instr} {b : Nat} {d : DstEA} (hb : b < sz.bits)
include hb

theorem exec_bitModify_of_lt (f : BitVec sz.bits → BitVec sz.bits → BitVec sz.bits)
    (run : exec i s = .next (s.bitModify sz b d f)) :
    ∃ t, exec i s = .next t ∧ ModifyEffect s sz d (fun v old => (f v (1#sz.bits <<< b), bitFlags v b old)) t := by
  rw [run, State.bitModify, if_pos hb]
  exact ⟨_, rfl, s.modify_spec sz d _⟩

theorem exec_bitTest_of_lt (run : exec i s = .next (s.bitTest sz b d)) :
    ∃ t, exec i s = .next t ∧ InspectEffect s sz d (fun v old => bitFlags v b old) t := by
  rw [run, State.bitTest, if_pos hb]
  exact ⟨_, rfl, s.inspect_spec sz d _⟩

end

/-- Settles O42: with an immediate or a register's number, BSET, BCLR and BNOT are `State.bitModify` with their own
function of the operand and the one bit, BTST is `State.bitTest`. -/
theorem bitResults : Obligations.BitResults := by
  intro s sz d imm rs one z
  repeat rw [List.forall_mem_cons]
  refine ⟨fun hb => ?_, fun hb => ?_, List.forall_mem_nil _⟩
  all_goals
    exact ⟨exec_bitModify_of_lt hb (fun v k => v ||| k) rfl, exec_bitModify_of_lt hb (fun v k => v &&& ~~~k) rfl,
      exec_bitModify_of_lt hb (fun v k => v ^^^ k) rfl, exec_bitTest_of_lt hb rfl⟩

end Sys2Proof.Machine

/-! ## Jumps, calls and returns (43_branch.md)

A call is pushes and a jump, a return is pops. What a push leaves is `Pushed` of the model; `Popped` is its counterpart,
and what was pushed is what a return to the same stack finds. -/

namespace Sys2Proof.Machine

/-! ### Registers and codes -/

/-- Two register files with the same words are one. -/
theorem Regs.ext_get {g h : Regs} (same : ∀ r, g.get r = h.get r) : g = h := by
  cases g
  cases h
  rw [Regs.mk.injEq]
  exact ⟨same .r0, same .r1, same .r2, same .r3, same .r4, same .r5, same .r6, same .r7⟩

/-- The register after an even one has the next number (R303). -/
theorem nextReg_of_even {r : Reg} (h : r.even = true) : nextReg r = Reg.ofNum (r.num + 1) := by
  cases r with
  | r0 | r2 | r4 | r6 => rfl
  | r1 | r3 | r5 | r7 => cases h

/-- A register number is added to a byte in whose low bits there is room for it (R105). -/
theorem withReg_eq_add {base : Byte} (hb : base.toNat % 8 = 0) (r : Reg) :
    withReg base r = base + BitVec.ofNat 8 r.num := by
  have := r.num_lt
  have := base.isLt
  apply BitVec.eq_of_toNat_eq
  rw [withReg_toNat hb, BitVec.toNat_add, BitVec.toNat_ofNat]
  omega

/-! ### Page jumps, calls and returns in maximum mode (R303, R306, R308, R310) -/

section
variable {s : State} (hm : s.mode = .max)
include hm

theorem exec_pjmpAbs24 (page : Byte) (a : Word) : exec (.pjmpAbs24 page a) s = .next (s.pageJump page a) := by
  simp only [exec, execPjmpAbs24, hm]

theorem exec_pjmpInd {r : Reg} (hr : r.even = true) :
    exec (.pjmpInd r) s = .next (s.pageJump ((s.reg r).setWidth 8) (s.reg (Reg.ofNum (r.num + 1)))) := by
  simp only [exec, execPjmpInd, hm, hr, if_true, nextReg_of_even hr]

theorem exec_pjsrAbs24 (page : Byte) (a : Word) : exec (.pjsrAbs24 page a) s = .next (s.pageCall page a) := by
  simp only [exec, execPjsrAbs24, hm]

theorem exec_pjsrInd {r : Reg} (hr : r.even = true) :
    exec (.pjsrInd r) s = .next (s.pageCall ((s.reg r).setWidth 8) (s.reg (Reg.ofNum (r.num + 1)))) := by
  simp only [exec, execPjsrInd, hm, hr, if_true, nextReg_of_even hr]

theorem exec_prts : exec .prts s = .next s.popCPPC := by
  simp only [exec, execPrts, hm]

theorem exec_prtd8 (b : Byte) : exec (.prtd8 b) s = .next (s.popCPPC.releaseStack (b.signExtend 16)) := by
  simp only [exec, execPrtd8, hm, sext16]

theorem exec_prtd16 (w : Word) : exec (.prtd16 w) s = .next (s.popCPPC.releaseStack w) := by
  simp only [exec, execPrtd16, hm]

end

/-- Settles O44: JMP writes PC; PJMP in maximum mode writes CP and PC. -/
theorem jumpResults : Obligations.JumpResults := fun _ _ _ page a =>
  ⟨rfl, rfl, rfl, rfl, fun hm => exec_pjmpAbs24 hm page a, fun hm => exec_pjmpInd hm⟩

/-! ### Calls (R304 to R306) -/

/-- One word pushed. -/
theorem State.push16_pushed (s : State) (v : Word) : Pushed s (s.push16 v) [v] :=
  (pushed_nil s).push v rfl rfl rfl id (by simp)

/-- Two words pushed, the second one on top. -/
theorem State.push16_push16_pushed (s : State) (v w : Word) : Pushed s ((s.push16 v).push16 w) [w, v] := by
  have keeps := KeepsSystem.push16 s v
  obtain ⟨⟨-, -, chip, -, -⟩, wf, -⟩ := keeps.frame
  exact (s.push16_pushed v).push w keeps.mode_eq keeps.tp_eq chip wf (by simp)

/-- What two pushes leave as it is; R7 is odd at both or at none (R399). -/
theorem State.push16_push16_rest (s : State) (v w : Word) :
    (s.push16 v).push16 w = { s with
      regs := ((s.push16 v).push16 w).regs
      mem := ((s.push16 v).push16 w).mem
      stored := ((s.push16 v).push16 w).stored
      addrErrPending := s.addrErrPending || (s.reg .r7).getLsbD 0 } := by
  have first := (s.push16_spec v).1
  have second := ((s.push16 v).push16_spec w).1
  have sp : (s.push16 v).reg .r7 = s.reg .r7 - 2 := by rw [first]; exact s.reg_setReg_self .r7 _
  rw [sp, lsb_sub_two] at second
  rw [second, first]
  simp

/-- What a call leaves as it is beside the pushed words: everything but CP and PC; with R7 odd an address error is
pending (R399). -/
def KeepsBeyondCall (s t : State) : Prop :=
  t.addrErrPending = (s.addrErrPending || (s.reg .r7).getLsbD 0) ∧
    t = { s with
      regs := t.regs, mem := t.mem, stored := t.stored, pc := t.pc, cp := t.cp, addrErrPending := t.addrErrPending }

theorem State.call_keeps (s : State) (target : Word) : KeepsBeyondCall s (s.call target) := by
  have rest := (s.push16_spec s.pc).1
  constructor
  · rw [State.call, State.jump_addrErrPending, rest]
  · rw [State.call, rest]; rfl

theorem State.pageCall_keeps (s : State) (page : Byte) (target : Word) :
    KeepsBeyondCall s (s.pageCall page target) := by
  have rest := s.push16_push16_rest s.pc (pageWord s.cp)
  constructor
  · rw [State.pageCall, State.pageJump_addrErrPending, rest]
  · rw [State.pageCall, rest]; rfl

/-- PC and CP are none of what `Pushed` speaks of. -/
theorem State.call_pushed (s : State) (target : Word) : Pushed s (s.call target) [s.pc] := s.push16_pushed s.pc

theorem State.pageCall_pushed (s : State) (page : Byte) (target : Word) :
    Pushed s (s.pageCall page target) [(0 : Byte) ++ s.cp, s.pc] :=
  s.push16_push16_pushed s.pc (pageWord s.cp)

/-- An instruction that is `State.call` (R304, R305). -/
theorem exec_call {i : Instr} {s : State} {target : Word} (h : exec i s = .next (s.call target)) :
    ∃ t, exec i s = .next t ∧ Pushed s t [s.pc] ∧ t.pc = target ∧ t.cp = s.cp ∧ KeepsBeyondCall s t :=
  ⟨_, h, s.call_pushed target, rfl, (KeepsSystem.call s target).cp_eq, s.call_keeps target⟩

/-- An instruction that is `State.pageCall` (R306). -/
theorem exec_pageCall {i : Instr} {s : State} {page : Byte} {target : Word}
    (h : exec i s = .next (s.pageCall page target)) :
    ∃ t, exec i s = .next t ∧ Pushed s t [(0 : Byte) ++ s.cp, s.pc] ∧ t.cp = page ∧ t.pc = target ∧
      KeepsBeyondCall s t :=
  ⟨_, h, s.pageCall_pushed page target, rfl, rfl, s.pageCall_keeps page target⟩

/-- Settles O45: BSR and JSR are `State.call` with their targets, PJSR is `State.pageCall`. -/
theorem callResults : Obligations.CallResults := by
  intro s r d page a rest
  refine ⟨?_, fun hm => exec_pageCall (exec_pjsrAbs24 hm page a), fun hm hr => exec_pageCall (exec_pjsrInd hm hr)⟩
  repeat rw [List.forall_mem_cons]
  exact ⟨exec_call rfl, exec_call rfl, exec_call rfl, exec_call rfl, exec_call rfl, exec_call rfl,
    List.forall_mem_nil _⟩

/-! ### Returns (R307 to R310) -/

/-- From `s` to `t` `n` words are popped into PC and CP, and `imm` is added to R7; nothing else changes but the count of
free values, and with R7 odd an address error is pending (R399). -/
def Popped (s t : State) (n : Nat) (imm : Word) : Prop :=
  t.reg .r7 = s.reg .r7 + 2 * BitVec.ofNat 16 n + imm ∧ KeepsRegs s t [.r7] ∧
    t.addrErrPending = (s.addrErrPending || (s.reg .r7).getLsbD 0) ∧
    t = { s with regs := t.regs, pc := t.pc, cp := t.cp, free := t.free, addrErrPending := t.addrErrPending }

/-- One word popped, into PC or CP. -/
theorem State.pop16_popped {s t : State} (h : t = { s.pop16.2 with pc := t.pc, cp := t.cp }) : Popped s t 1 0 := by
  obtain ⟨k, pop⟩ := s.pop16_spec
  rw [pop] at h
  rw [h]
  refine ⟨?_, fun q hq => ?_, rfl, rfl⟩
  · exact (s.reg_setReg_self .r7 _).trans (add_zero _).symm
  · exact s.reg_setReg_ne (List.mem_singleton.not.1 hq) _

/-- Pops one after the other; R7 is odd at all or at none. -/
theorem Popped.trans {s t u : State} {n m : Nat} (h : Popped s t n 0) (g : Popped t u m 0) : Popped s u (n + m) 0 := by
  obtain ⟨sp, regs, err, rest⟩ := h
  obtain ⟨sp', regs', err', rest'⟩ := g
  rw [add_zero] at sp sp'
  have odd : (t.reg .r7).getLsbD 0 = (s.reg .r7).getLsbD 0 := by rw [sp, lsb_slot]
  refine ⟨?_, fun q hq => (regs' q hq).trans (regs q hq), ?_, ?_⟩
  · rw [sp', sp, BitVec.ofNat_add, mul_add, add_zero, add_assoc]
  · rw [err', err, odd, Bool.or_assoc, Bool.or_self]
  · rw [rest', rest]

/-- The words above the return address are released (R309). -/
theorem Popped.release {s t : State} {n : Nat} (h : Popped s t n 0) (imm : Word) :
    Popped s (t.releaseStack imm) n imm := by
  obtain ⟨sp, regs, err, rest⟩ := h
  rw [add_zero] at sp
  refine ⟨?_, fun q hq => ?_, err, ?_⟩
  · rw [State.releaseStack, State.reg_setReg_self, sp]
  · rw [State.releaseStack, State.reg_setReg_ne _ (List.mem_singleton.not.1 hq), regs q hq]
  · rw [State.releaseStack, rest]; rfl

/-- The first pop of PRTS and PRTD: CP is the low byte of the word (R308). -/
def State.popCP (s : State) : State := { s.pop16.2 with cp := s.pop16.1.setWidth 8 }

theorem State.popCPPC_eq (s : State) : s.popCPPC = s.popCP.popPC := rfl

theorem State.popCP_popped (s : State) : Popped s s.popCP 1 0 := State.pop16_popped rfl

theorem State.popPC_popped (s : State) : Popped s s.popPC 1 0 := State.pop16_popped rfl

theorem State.popCPPC_popped (s : State) : Popped s s.popCPPC 2 0 :=
  s.popCP_popped.trans (m := 1) s.popCP.popPC_popped

/-- After a pop each word is one place nearer to the top. -/
theorem State.stackSlot_of_popped {s t : State} {k : Nat} (hm : t.mode = s.mode) (htp : t.tp = s.tp)
    (sp : t.reg .r7 = s.reg .r7 + 2) : t.stackSlot k = s.stackSlot (k + 1) := by
  rw [State.stackSlot, State.stackSlot, sp, htp, slot_succ, State.addr_congr hm]

section
variable {s : State} (even : (s.reg .r7).getLsbD 0 = false)
include even

/-- A pop from memory that can be read, by the place of the word. -/
theorem State.pop16_slot (readable : s.memAt (s.wordBytes (s.stackSlot 0))) :
    s.pop16 = (s.wordAt (s.stackSlot 0), s.setReg .r7 (s.reg .r7 + 2)) := by
  rw [State.stackSlot, slot_zero] at readable ⊢
  exact s.pop16_mem even readable

theorem State.popCP_mem (readable : s.memAt (s.wordBytes (s.stackSlot 0))) :
    s.popCP = { s.setReg .r7 (s.reg .r7 + 2) with cp := (s.wordAt (s.stackSlot 0)).setWidth 8 } := by
  rw [State.popCP, State.pop16_slot even readable]

theorem State.popPC_mem (readable : s.memAt (s.wordBytes (s.stackSlot 0))) :
    s.popPC = { s.setReg .r7 (s.reg .r7 + 2) with pc := s.wordAt (s.stackSlot 0) } := by
  rw [State.popPC, State.pop16_slot even readable]

/-- PC is the word below CP on the stack as it was before both pops (R308). -/
theorem State.popCPPC_mem (readable : s.memAt (s.stackBytes 2)) :
    s.popCPPC = { s with
      regs := s.popCPPC.regs, cp := (s.wordAt (s.stackSlot 0)).setWidth 8, pc := s.wordAt (s.stackSlot 1) } := by
  have pop := State.popCP_mem even (s.memAt_stackSlot readable (by decide))
  have sp : s.popCP.reg .r7 = s.reg .r7 + 2 := by rw [pop]; exact s.reg_setReg_self .r7 _
  have chip : s.popCP.chip = s.chip := by rw [pop]; rfl
  have slot : s.popCP.stackSlot 0 = s.stackSlot 1 :=
    State.stackSlot_of_popped (by rw [pop]; rfl) (by rw [pop]; rfl) sp
  have pc := State.popPC_mem (s := s.popCP) (by rw [sp, lsb_add_two, even]) (by
    rw [slot, State.memAt_congr chip, State.wordBytes_congr chip]
    exact s.memAt_stackSlot readable (by decide))
  rw [State.popCPPC_eq, pc, slot, State.wordAt_congr (by rw [pop]; rfl) chip, pop]
  rfl

end

/-- An instruction that pops PC and then releases words, if any (R307, R309). -/
theorem exec_return {i : Instr} {s t : State} {imm : Word} (h : exec i s = .next t) (popped : Popped s t 1 imm)
    (pc : t.pc = s.popPC.pc) (cp : t.cp = s.popPC.cp) :
    ∃ u, exec i s = .next u ∧ Popped s u 1 imm ∧ u.cp = s.cp ∧
      (s.memAt (s.stackBytes 1) ∧ (s.reg .r7).getLsbD 0 = false → u.pc = s.wordAt (s.stackSlot 0)) := by
  refine ⟨t, h, popped, cp.trans (KeepsSystem.popPC s).cp_eq, fun ⟨readable, even⟩ => ?_⟩
  rw [pc, State.popPC_mem even (s.memAt_stackSlot readable (by decide))]

/-- An instruction that pops CP and PC and then releases words, if any (R308, R310). -/
theorem exec_pageReturn {i : Instr} {s t : State} {imm : Word} (h : exec i s = .next t) (popped : Popped s t 2 imm)
    (pc : t.pc = s.popCPPC.pc) (cp : t.cp = s.popCPPC.cp) :
    ∃ u, exec i s = .next u ∧ Popped s u 2 imm ∧
      (s.memAt (s.stackBytes 2) ∧ (s.reg .r7).getLsbD 0 = false →
        u.cp = (s.wordAt (s.stackSlot 0)).setWidth 8 ∧ u.pc = s.wordAt (s.stackSlot 1)) := by
  refine ⟨t, h, popped, fun ⟨readable, even⟩ => ?_⟩
  rw [pc, cp, State.popCPPC_mem even readable]
  exact ⟨rfl, rfl⟩

/-- Settles O46: RTS and RTD are `State.popPC`, PRTS and PRTD `State.popCPPC`, the ones with an immediate with a release
after it. -/
theorem returnResults : Obligations.ReturnResults := by
  intro s b w popped readable
  constructor
  · repeat rw [List.forall_mem_cons]
    exact ⟨exec_return rfl s.popPC_popped rfl rfl, exec_return rfl (s.popPC_popped.release _) rfl rfl,
      exec_return rfl (s.popPC_popped.release _) rfl rfl, List.forall_mem_nil _⟩
  · intro hm
    repeat rw [List.forall_mem_cons]
    exact ⟨exec_pageReturn (exec_prts hm) s.popCPPC_popped rfl rfl,
      exec_pageReturn (exec_prtd8 hm b) (s.popCPPC_popped.release _) rfl rfl,
      exec_pageReturn (exec_prtd16 hm w) (s.popCPPC_popped.release _) rfl rfl, List.forall_mem_nil _⟩

/-! ### A call and its return (R306, R308) -/

/-- The words on the stack after n pushes are where the pushes wrote them. -/
theorem State.stackBytes_subset_pushBytes {s t : State} {n : Nat} (hm : t.mode = s.mode) (htp : t.tp = s.tp)
    (hc : t.chip = s.chip) (sp : t.reg .r7 = s.reg .r7 - 2 * BitVec.ofNat 16 n) : t.stackBytes n ⊆ s.pushBytes n := by
  intro a ha
  obtain ⟨k, hk, ha⟩ := List.mem_flatMap.1 ha
  obtain ⟨j, rfl⟩ : ∃ j, n = j + 1 + k := ⟨n - 1 - k, by have := List.mem_range.1 hk; omega⟩
  refine List.mem_flatMap.2 ⟨j, List.mem_range.2 (by omega), ?_⟩
  have place : t.stackSlot k = s.addr s.tp (s.reg .r7 - 2 * BitVec.ofNat 16 (j + 1)) := by
    rw [State.stackSlot, State.addr_congr hm, htp, sp, BitVec.ofNat_add (j + 1) k]
    congr 1
    ring
  rwa [← place, ← State.wordBytes_congr hc]

/-- What has been pushed into RAM with R7 even can be read from the stack again. -/
theorem Pushed.readBack {s t : State} {words : List Word} (h : Pushed s t words) (hm : t.mode = s.mode)
    (htp : t.tp = s.tp) (hc : t.chip = s.chip) (can : s.canPush words.length) :
    (t.reg .r7).getLsbD 0 = false ∧ t.memAt (t.stackBytes words.length) ∧
      ∀ k < words.length, words[k]? = some (t.wordAt (t.stackSlot k)) := by
  obtain ⟨sp, -, -, stored⟩ := h
  obtain ⟨ram, wf, even⟩ := can
  refine ⟨?_, fun a ha => ?_, fun k hk => ?_⟩
  · rw [← lsb_slot _ words.length, sp, sub_add_cancel, even]
  · rw [hc]
    exact ram.memAt a (State.stackBytes_subset_pushBytes hm htp hc sp ha)
  · rw [State.stackSlot, State.addr_congr hm, htp]
    exact stored wf even ram k hk

/-- As many words popped as were pushed: every general register is as before. -/
theorem Pushed.regs_of_popped {s t u : State} {words : List Word} (h : Pushed s t words)
    (g : Popped t u words.length 0) : u.regs = s.regs := by
  obtain ⟨sp, regs, -, -⟩ := h
  obtain ⟨sp', regs', -, -⟩ := g
  refine Regs.ext_get fun r => ?_
  by_cases h7 : r = .r7
  · subst h7
    exact sp'.trans (by rw [sp, add_zero, sub_add_cancel]; rfl)
  · have other := List.mem_singleton.not.2 h7
    exact (regs' r other).trans (regs r other)

theorem pageWord_setWidth (page : Byte) : (pageWord page).setWidth 8 = page := BitVec.setWidth_append_eq_right

/-- A return to the frame of a page call restores CP, PC and the registers (R306, R308). -/
theorem State.popCPPC_pageCall {s : State} (can : s.canPush 2) (page : Byte) (target : Word) :
    (s.pageCall page target).popCPPC = { s with
      mem := (s.pageCall page target).popCPPC.mem, stored := (s.pageCall page target).popCPPC.stored } := by
  have ⟨_, _, evenBefore⟩ := can
  obtain ⟨t, ht⟩ : ∃ t, t = s.pageCall page target := ⟨_, rfl⟩
  have pushed := s.pageCall_pushed page target
  obtain ⟨err, call⟩ := s.pageCall_keeps page target
  rw [← ht] at pushed err call ⊢
  obtain ⟨even, readable, words⟩ :=
    pushed.readBack (by rw [call]) (by rw [call]) (by rw [call]) can
  have cp : pageWord s.cp = t.wordAt (t.stackSlot 0) := Option.some.inj (words 0 (by simp))
  have pc : s.pc = t.wordAt (t.stackSlot 1) := Option.some.inj (words 1 (by simp))
  have noError : t.addrErrPending = s.addrErrPending := by rw [err, evenBefore, Bool.or_false]
  have back := State.popCPPC_mem even readable
  rw [← cp, ← pc, pageWord_setWidth, pushed.regs_of_popped t.popCPPC_popped] at back
  rw [back, call, noError]

/-- Settles O47: either form of PJSR is a page call, and PRTS returns from it. -/
theorem pageCallAndReturn : Obligations.PageCallAndReturn := by
  intro s r page a i hm can form
  obtain ⟨p, target, call⟩ : ∃ p target, exec i s = .next (s.pageCall p target) := by
    obtain rfl | ⟨hr, rfl⟩ := form
    · exact ⟨_, _, exec_pjsrAbs24 hm page a⟩
    · exact ⟨_, _, exec_pjsrInd hm hr⟩
  have mode : (s.pageCall p target).mode = .max := by
    obtain ⟨-, rest⟩ := s.pageCall_keeps p target
    rw [rest, hm]
  exact ⟨_, _, call, exec_prts mode, State.popCPPC_pageCall can p target⟩

/-! ### SCB (R316) -/

/-- The counter becomes H'FFFF exactly where it was 0. -/
theorem State.countAndBranch_eq (s : State) (leave : Bool) (r : Reg) (d : Word) :
    s.countAndBranch leave r d =
      if leave then s
      else if s.reg r = 0 then s.setReg r 0xFFFF
      else { s.setReg r (s.reg r - 1) with pc := s.pc + d } := by
  have last : s.reg r - 1 = 0xFFFF ↔ s.reg r = 0 := sub_eq_iff_eq_add
  by_cases zero : s.reg r = 0
  · simp only [State.countAndBranch, last.2 zero, if_pos zero, if_true]
  · simp only [State.countAndBranch, if_neg (mt last.1 zero), if_neg zero, State.jump]

theorem exec_scb {i : Instr} {s : State} {leave : Bool} {r : Reg} {d : Byte}
    (h : exec i s = .next (s.countAndBranch leave r (sext16 d))) :
    exec i s = .next
      (if leave then s
       else if s.reg r = 0 then s.setReg r 0xFFFF
       else { s.setReg r (s.reg r - 1) with pc := s.pc + d.signExtend 16 }) := by
  rw [h, State.countAndBranch_eq]
  rfl

/-- Settles O48: the codes are two bytes with the register and one displacement; each instruction is
`State.countAndBranch` with its condition. -/
theorem scbResults : Obligations.ScbResults := by
  intro s r d
  have register : withReg 0xB8 r = 0xB8 + BitVec.ofNat 8 r.num := withReg_eq_add rfl r
  refine ⟨by simp only [encode, register, and_self], ?_⟩
  repeat rw [List.forall_mem_cons]
  exact ⟨exec_scb rfl, exec_scb rfl, exec_scb rfl, List.forall_mem_nil _⟩

end Sys2Proof.Machine

/-! ## System control (44_system_control.md)

LDC and the logic on control registers are one write of a control register (`ControlWritten` of the model) and the
inhibit; RTE is a pop into SR and then the pops of a return; LINK and UNLK are a push and a pop around moves of R6 and
R7. -/

namespace Sys2Proof.Machine

/-! ### Control registers (R344, R346 to R348, R352, R353) -/

/-- A write of a control register in `u`, as seen from `s`, where from `s` to `u` the system state and SR are kept. -/
theorem State.crWrite_written {s u : State} (keeps : KeepsSystem s u) (sr : u.sr = s.sr) (cr : CtlReg) (v : Word) :
    ControlWritten s (u.crWrite cr v) cr v s.flags := by
  have br := keeps.br_eq
  have ep := keeps.ep_eq
  have dp := keeps.dp_eq
  have tp := keeps.tp_eq
  have flags : u.flags = s.flags := State.flags_congr sr
  cases cr with
  | sr => exact ⟨rfl, br, ep, dp, tp⟩
  | ccr => exact ⟨by rw [State.crWrite, State.writeCCR_sr, sr], br, ep, dp, tp⟩
  | br => exact ⟨⟨by rw [← sr]; rfl, flags⟩, rfl, ep, dp, tp⟩
  | ep => exact ⟨⟨by rw [← sr]; rfl, flags⟩, br, rfl, dp, tp⟩
  | dp => exact ⟨⟨by rw [← sr]; rfl, flags⟩, br, ep, rfl, tp⟩
  | tp => exact ⟨⟨by rw [← sr]; rfl, flags⟩, br, ep, dp, rfl⟩

/-- After the end of an instruction that writes no general register these are as the source operand leaves them. -/
theorem State.finishSrc_reg {s u : State} {src : SrcEA} (h : u.regs = (s.readSrc src).2.regs) (q : Reg) :
    (u.finishSrc src []).reg q = (s.srcStepped src).reg q := by
  have before := State.reg_congr h q
  rw [State.srcStepped_reg]
  by_cases inc : incremented src = some q
  · rw [if_pos inc, State.finishSrc_reg_inc u src [] q inc List.not_mem_nil, before]
  · rw [if_neg inc, State.finishSrc_reg_ne u src [] q inc, before]

theorem exec_ldc {src : SrcEA} {cr : CtlReg} (h : src.size = cr.size) (s : State) :
    exec (.ldc src cr) s = .next
      (((s.readSrc src).2.crWrite cr ((s.readSrc src).1.setWidth 16)).finishSrc src []).inhibit :=
  if_pos h

/-- Settles O49: reading the source keeps the control registers, the end of the instruction what has been written. -/
theorem ldcResult : Obligations.LdcResult := by
  intro s src cr size
  refine ⟨_, exec_ldc size s, ?_⟩
  have written := State.crWrite_written (.readSrc s src) (State.readSrc_sr s src) cr ((s.readSrc src).1.setWidth 16)
  have write := (s.readSrc src).2.crWrite_eq cr ((s.readSrc src).1.setWidth 16)
  obtain ⟨_, read⟩ := s.readSrc_spec src
  obtain ⟨w, hw⟩ : ∃ w, w = (s.readSrc src).2.crWrite cr ((s.readSrc src).1.setWidth 16) := ⟨_, rfl⟩
  rw [← hw] at written write ⊢
  obtain ⟨_, finish⟩ := w.finishSrc_spec src []
  have regs := State.finishSrc_reg (s := s) (u := w) (src := src) (by rw [write])
  refine ⟨?_, rfl, regs, fun a _ => ?_, ?_, ?_⟩
  · rw [finish]; exact written
  · rw [State.inhibit_mem, finish, write, read]
  · rw [State.inhibit_addrErrPending, finish, write, read]
  · rw [finish, write, read]; rfl

/-- The flags of the logic on a control register, where SR and CCR are not the register written. -/
theorem ControlWritten.crFlags {s t : State} {cr : CtlReg} {v : Word} (h : ControlWritten s t cr v s.flags) :
    ControlWritten s (t.crFlags cr (v.setWidth 8)) cr v (moveFlags (v.setWidth 8) s.flags) := by
  obtain ⟨sr, pages⟩ := h
  cases cr with
  | sr | ccr => exact ⟨sr, pages⟩
  | br | ep | dp | tp =>
    obtain ⟨upper, flags⟩ := sr
    refine ⟨⟨(State.upper_setFlags _ _).trans upper, ?_⟩, pages⟩
    rw [State.crFlags, State.flags_setFlags, flags]

theorem State.crFlags_eq (s : State) (cr : CtlReg) (b : Byte) :
    s.crFlags cr b = { s with sr := (s.crFlags cr b).sr } := by
  cases cr <;> rfl

/-- What ANDC, ORC and XORC have in common. -/
theorem State.crModify_spec (s : State) {imm : ImmEA} {cr : CtlReg} (h : imm.size = cr.size) (f : Word → Word → Word) :
    ∃ t, s.crModify imm cr f = .next t ∧
      ControlWritten s t cr (f (s.crRead cr) (immValue imm))
        (moveFlags ((f (s.crRead cr) (immValue imm)).setWidth 8) s.flags) ∧
      t = { s with sr := t.sr, br := t.br, ep := t.ep, dp := t.dp, tp := t.tp, inhibitNext := true } := by
  refine ⟨_, if_pos h, (State.crWrite_written (.refl s) rfl cr _).crFlags, ?_⟩
  rw [State.crFlags_eq, State.crWrite_eq]
  rfl

/-- Settles O50: the three differ in the operation only. -/
theorem controlRegisterLogic : Obligations.ControlRegisterLogic := by
  intro s imm cr size v x
  have register : s.crRead cr = v := by
    cases cr with
    | ccr => exact ccr_setWidth s.sr
    | sr | br | ep | dp | tp => rfl
  have immediate : immValue imm = x := by cases imm <;> rfl
  have logic := fun f => s.crModify_spec size f
  rw [register, immediate] at logic
  repeat rw [List.forall_mem_cons]
  exact ⟨logic _, logic _, logic _, List.forall_mem_nil _⟩

/-! ### Traps (R340, R341) -/

/-- A trap enters its exception and leaves the mask (R386, R390). -/
theorem State.trap_entry {s : State} {kind : Exc} (h : s.canEnter kind) (noMask : kind.newMask = none) (p : Word) :
    EntryEffect s kind p (s.exceptionSequence kind p) ∧ (s.exceptionSequence kind p).mask = s.mask :=
  ⟨State.exceptionSequence_entry h p, s.exceptionSequence_mask noMask p⟩

theorem exec_trapvs (s : State) :
    exec .trapvs s = .next (if s.flags.v then s.exceptionSequence .trapVS s.pc else s) := rfl

/-- Settles O51: TRAPA is an exception sequence, TRAP/VS one under its condition. -/
theorem trapResults : Obligations.TrapResults := by
  refine fun s v => ⟨fun can => ?_, fun can overflow => ?_, fun noOverflow => ?_⟩
  · obtain ⟨entry, mask⟩ := State.trap_entry can rfl s.pc
    exact ⟨_, rfl, entry, mask, rfl⟩
  · obtain ⟨entry, mask⟩ := State.trap_entry can rfl s.pc
    exact ⟨_, by rw [exec_trapvs, if_pos overflow], entry, mask, rfl⟩
  · rw [exec_trapvs, noOverflow]
    rfl

/-! ### RTE (R342, R396) -/

/-- The first pop of RTE: SR. -/
def State.popSR (s : State) : State := s.pop16.2.writeSR s.pop16.1

theorem State.returnFromException_min {s : State} (hm : s.mode = .min) :
    s.returnFromException = s.popSR.popPC.inhibit := by
  simp only [State.returnFromException, hm]
  rfl

theorem State.returnFromException_max {s : State} (hm : s.mode = .max) :
    s.returnFromException = s.popSR.popCPPC.inhibit := by
  simp only [State.returnFromException, hm]
  rfl

/-- But for SR itself, the first pop is one like those into PC and CP. -/
theorem State.popSR_popped (s : State) : Popped (s.writeSR s.pop16.1) s.popSR 1 0 := by
  obtain ⟨k, pop⟩ := s.pop16_spec
  rw [State.popSR, pop]
  refine ⟨?_, fun q hq => ?_, rfl, rfl⟩
  · exact (s.reg_setReg_self .r7 _).trans (add_zero _).symm
  · exact s.reg_setReg_ne (List.mem_singleton.not.1 hq) _

/-- The words of an exception frame (R391). -/
def Mode.frameWords : Mode → Nat
  | .min => 2
  | .max => 3

/-- RTE pops the words of the frame, the first one into SR, and inhibits. -/
theorem State.returnFromException_popped (s : State) :
    ∃ t, s.returnFromException = t.inhibit ∧ Popped (s.writeSR s.pop16.1) t s.mode.frameWords 0 := by
  cases hm : s.mode with
  | min => exact ⟨_, State.returnFromException_min hm, s.popSR_popped.trans (m := 1) s.popSR.popPC_popped⟩
  | max => exact ⟨_, State.returnFromException_max hm, s.popSR_popped.trans (m := 2) s.popSR.popCPPC_popped⟩

section
variable {s : State} (even : (s.reg .r7).getLsbD 0 = false)
include even

theorem State.popSR_mem (readable : s.memAt (s.wordBytes (s.stackSlot 0))) :
    s.popSR = (s.setReg .r7 (s.reg .r7 + 2)).writeSR (s.wordAt (s.stackSlot 0)) := by
  rw [State.popSR, State.pop16_slot even readable]

/-- After the first pop R7 is even again, and the rest of the frame is where it was, one place nearer to the top. -/
theorem State.popSR_stack {n : Nat} (readable : s.memAt (s.stackBytes (n + 1))) :
    (s.popSR.reg .r7).getLsbD 0 = false ∧ s.popSR.memAt (s.popSR.stackBytes n) ∧
      ∀ k, s.popSR.wordAt (s.popSR.stackSlot k) = s.wordAt (s.stackSlot (k + 1)) := by
  rw [State.popSR_mem even (s.memAt_stackSlot readable n.succ_pos)]
  obtain ⟨t, ht⟩ : ∃ t, t = (s.setReg .r7 (s.reg .r7 + 2)).writeSR (s.wordAt (s.stackSlot 0)) := ⟨_, rfl⟩
  rw [← ht]
  have sp : t.reg .r7 = s.reg .r7 + 2 := by rw [ht]; exact s.reg_setReg_self .r7 _
  have chip : t.chip = s.chip := by rw [ht]; rfl
  have slot : ∀ k, t.stackSlot k = s.stackSlot (k + 1) := fun _ =>
    State.stackSlot_of_popped (by rw [ht]; rfl) (by rw [ht]; rfl) sp
  refine ⟨by rw [sp, lsb_add_two, even], fun a ha => ?_, fun k => ?_⟩
  · obtain ⟨k, hk, ha⟩ := List.mem_flatMap.1 ha
    rw [slot, State.wordBytes_congr chip] at ha
    rw [chip]
    exact s.memAt_stackSlot readable (Nat.succ_lt_succ (List.mem_range.1 hk)) a ha
  · rw [slot, State.wordAt_congr (by rw [ht]; rfl) chip]

/-- In minimum mode the frame is SR and PC (R391). -/
theorem State.returnFromException_mem_min (hm : s.mode = .min) (readable : s.memAt (s.stackBytes 2)) :
    s.returnFromException.sr = s.wordAt (s.stackSlot 0) &&& srBits ∧
      s.returnFromException.pc = s.wordAt (s.stackSlot 1) := by
  obtain ⟨evenAfter, rest, word⟩ := State.popSR_stack even readable
  have sr := State.popSR_mem even (s.memAt_stackSlot readable (Nat.succ_pos 1))
  rw [State.returnFromException_min hm, State.popPC_mem evenAfter (s.popSR.memAt_stackSlot rest Nat.one_pos), word, sr]
  exact ⟨rfl, rfl⟩

/-- In maximum mode the frame is SR, CP and PC (R391). -/
theorem State.returnFromException_mem_max (hm : s.mode = .max) (readable : s.memAt (s.stackBytes 3)) :
    s.returnFromException.sr = s.wordAt (s.stackSlot 0) &&& srBits ∧
      s.returnFromException.cp = (s.wordAt (s.stackSlot 1)).setWidth 8 ∧
      s.returnFromException.pc = s.wordAt (s.stackSlot 2) := by
  obtain ⟨evenAfter, rest, word⟩ := State.popSR_stack even readable
  have sr := State.popSR_mem even (s.memAt_stackSlot readable (Nat.succ_pos 2))
  rw [State.returnFromException_max hm, State.popCPPC_mem evenAfter rest, word, word, sr]
  exact ⟨rfl, rfl, rfl⟩

end

/-- Settles O52: the frame is popped in both modes; what the words hold is read off mode by mode. -/
theorem rteResult : Obligations.RteResult := by
  intro s
  obtain ⟨t, ret, sp, regs, err, rest⟩ := s.returnFromException_popped
  have run : exec .rte s = .next t.inhibit := congrArg Host.Outcome.next ret
  have cp := s.returnFromException_cp
  have minWords := fun even => State.returnFromException_mem_min (s := s) even
  have maxWords := fun even => State.returnFromException_mem_max (s := s) even
  rw [ret] at cp minWords maxWords
  refine ⟨_, run, rfl, ?_, regs, err, cp, by rw [rest]; rfl, fun readable even => ?_⟩
  · rw [State.reg_inhibit, sp, State.reg_writeSR, add_zero]
    cases s.mode <;> rfl
  · cases hm : s.mode with
    | min => rw [hm] at readable; exact minWords even hm readable
    | max => rw [hm] at readable; exact maxWords even hm readable

/-! ### LINK and UNLK (R350, R351) -/

theorem State.reg_link (s : State) (imm : Word) (q : Reg) : (s.link imm).reg q =
    if q = .r7 then s.reg .r7 - 2 + imm else if q = .r6 then s.reg .r7 - 2 else s.reg q := by
  have push := (s.push16_spec (s.reg .r6)).1
  have old : ∀ q, (s.push16 (s.reg .r6)).reg q = if q = .r7 then s.reg .r7 - 2 else s.reg q := fun q => by
    rw [push]
    exact s.reg_setReg .r7 q _
  simp only [State.link, State.reg_setReg, old]
  cases q <;> rfl

/-- Beside registers LINK is its push. -/
theorem State.link_eq (s : State) (imm : Word) :
    s.link imm = { s.push16 (s.reg .r6) with regs := (s.link imm).regs } := rfl

theorem exec_link {i : Instr} {s : State} {imm : Word} (h : exec i s = .next (s.link imm)) :
    ∃ t, exec i s = .next t ∧ t.reg .r6 = s.reg .r7 - 2 ∧ t.reg .r7 = s.reg .r7 - 2 + imm ∧
      KeepsRegs s t [.r6, .r7] ∧ Pushed s { t with regs := (s.setReg .r7 (s.reg .r7 - 2)).regs } [s.reg .r6] ∧
      t = { s with regs := t.regs, mem := t.mem, stored := t.stored, addrErrPending := t.addrErrPending } ∧
      t.addrErrPending = (s.addrErrPending || (s.reg .r7).getLsbD 0) := by
  obtain ⟨push, -⟩ := s.push16_spec (s.reg .r6)
  have pushed : { s.link imm with regs := (s.setReg .r7 (s.reg .r7 - 2)).regs } = s.push16 (s.reg .r6) := by
    rw [State.link_eq, push]
    rfl
  refine ⟨_, h, s.reg_link imm .r6, s.reg_link imm .r7, fun q hq => ?_, ?_, ?_, ?_⟩
  · obtain ⟨h6, h7⟩ : q ≠ .r6 ∧ q ≠ .r7 := by simpa using hq
    rw [State.reg_link, if_neg h7, if_neg h6]
  · rw [pushed]
    exact s.push16_pushed _
  · rw [State.link_eq, push]
  · rw [State.link_eq, push]

/-- R7 set to R6, before the pop of UNLK. -/
def State.dropFrame (s : State) : State := s.setReg .r7 (s.reg .r6)

theorem exec_unlk (s : State) : exec .unlk s = .next (s.dropFrame.pop16.2.setReg .r6 s.dropFrame.pop16.1) := rfl

/-- Settles O55: LINK by its push, UNLK by its pop from the stack that R6 points to. -/
theorem linkResults : Obligations.LinkResults := by
  intro s b w
  constructor
  · repeat rw [List.forall_mem_cons]
    exact ⟨exec_link rfl, exec_link rfl, List.forall_mem_nil _⟩
  · obtain ⟨_, pop⟩ := s.dropFrame.pop16_spec
    have sp : s.dropFrame.reg .r7 = s.reg .r6 := s.reg_setReg_self .r7 _
    refine ⟨_, exec_unlk s, ?_, fun q hq => ?_, ?_, ?_, fun readable even => ?_⟩
    · rw [State.reg_setReg_ne _ (by decide), pop, ← sp]
      exact s.dropFrame.reg_setReg_self .r7 _
    · obtain ⟨h6, h7⟩ : q ≠ .r6 ∧ q ≠ .r7 := by simpa using hq
      rw [State.reg_setReg_ne _ h6, pop]
      exact (s.dropFrame.reg_setReg_ne h7 _).trans (s.reg_setReg_ne h7 _)
    · rw [pop]; rfl
    · rw [State.setReg_addrErrPending, pop, ← sp]; rfl
    · rw [State.reg_setReg_self, s.dropFrame.pop16_mem (by rw [sp, even]) (by rw [sp]; exact readable), sp]
      rfl

/-! ### SLEEP and NOP (R343, R349) -/

/-- Settles O54: both are one equation of the model. -/
theorem sleepAndNop : Obligations.SleepAndNop := fun _ => ⟨rfl, rfl⟩

end Sys2Proof.Machine

/-! ## Steps without an instruction (60_exceptions.md R420 to R426) -/

namespace Sys2Proof.Machine

theorem step_of_withoutInstruction {s t : State} (h : s.withoutInstruction = some t) : step s = .next t := by
  rw [step, h]

/-- Hardware standby goes before everything else (R426). -/
theorem step_of_standbySelected {s : State} (h : s.standbySelected = true) : step s = .next s.enterHardwareStandby :=
  step_of_withoutInstruction (if_pos h)

/-- RES Low goes before the processing state (R381, R424). -/
theorem step_of_resLow {s : State} (standby : s.standbySelected = false) (res : s.pins.resLow = true) :
    step s = .next s.enterReset :=
  step_of_withoutInstruction ((if_neg (by simp [standby])).trans (if_pos res))

/-- Settles O9: the step is `enterReset`, which writes T and the mask and keeps what it does not name. -/
theorem resLowEntersResetState : Obligations.ResLowEntersResetState := fun s res standby =>
  ⟨s.enterReset, step_of_resLow standby res, rfl, (s.clearT.flagT_setMask 7).trans s.flagT_clearT,
    s.clearT.mask_setMask 7, rfl, rfl, rfl, rfl, rfl⟩

/-! ### Hardware standby (R426) -/

theorem State.standbySelected_of_pin {s : State} (h : s.chip.standbyByMode = false) :
    s.standbySelected = s.pins.stbyLow := by
  simp [State.standbySelected, h]

/-- On the H8/520 mode 6 selects hardware standby, and what is no operating mode lets it last. -/
theorem State.standbySelected_of_modePins {s : State} (h : s.chip.standbyByMode = true) :
    s.standbySelected = true ↔
      s.pins.modePins = standbyPins ∨ s.proc = .hardwareStandby ∧ s.pins.modePins ∉ operatingPins := by
  simp [State.standbySelected, h]

theorem standbyPins_not_operating : standbyPins ∉ operatingPins := by decide

/-- The mode pin values of the H8/520 that neither select hardware standby nor leave it. -/
theorem idlePins_neutral : ∀ m ∈ ([0, 5] : List (BitVec 3)), m ≠ standbyPins ∧ m ∉ operatingPins := by decide

/-- RAM on the chip and ROM keep their contents. -/
theorem State.enterHardwareStandby_held {s : State} {a : Nat} (h : heldInStandby s.chip.memoryMap a = true) :
    Memory.read s.enterHardwareStandby.mem a = Memory.read s.mem a :=
  (Memory.read_losePower s.mem s.chip.memoryMap s.free a).trans (if_pos h)

/-! ### Requests in the waiting states (R425, R426) -/

/-- Where no pending request is acceptable none is accepted. -/
theorem State.acceptInterrupts_of_none {s : State} (h : ∀ q ∈ s.requests, s.acceptable q = false) :
    s.acceptInterrupts = s :=
  State.acceptInterrupts_of_not_acceptable fun q top => h q (topRequest_spec top).1

theorem State.idleInStandby_eq_self {s : State} (h : .nmi ∉ s.requests ∨ s.chip.nmiLeavesStandby = false) :
    s.idleInStandby = s :=
  if_neg (by rcases h with h | h <;> simp [h])

theorem State.idleInStandby_of_nmi {s : State} (pending : .nmi ∈ s.requests) (wakes : s.chip.nmiLeavesStandby = true) :
    s.idleInStandby = s.acceptInterrupts :=
  if_pos (by simp [pending, wakes])

section
variable {s : State} (standby : s.standbySelected = false) (res : s.pins.resLow = false)
include standby res

/-! With no pin asking for anything else the processing state decides (R420). -/

theorem step_of_doubleFault (h : s.proc = .doubleFault) : step s = .next s :=
  step_of_withoutInstruction (by simp [State.withoutInstruction, standby, res, h])

theorem step_of_hardwareStandby (h : s.proc = .hardwareStandby) : step s = .next s :=
  step_of_withoutInstruction (by simp [State.withoutInstruction, standby, res, h])

theorem step_of_softwareStandby (h : s.proc = .softwareStandby) : step s = .next s.idleInStandby :=
  step_of_withoutInstruction (by simp [State.withoutInstruction, standby, res, h])

theorem step_of_sleep (h : s.proc = .sleep) : step s = .next s.acceptInterrupts :=
  step_of_withoutInstruction (by simp [State.withoutInstruction, State.idleInSleep, standby, res, h])

theorem step_of_busRequested (h : s.proc = .execution) (requested : s.busRequested = true) :
    step s = .next { s with proc := .busReleased } :=
  step_of_withoutInstruction (by simp [State.withoutInstruction, standby, res, h, requested])

theorem step_of_busReleased (h : s.proc = .busReleased) :
    step s = .next (if s.busRequested = true then s else { s with proc := .execution }) :=
  step_of_withoutInstruction (by cases hb : s.busRequested <;> simp [State.withoutInstruction, standby, res, h, hb])

end

/-- Settles O11: what selects hardware standby, what entering it holds, and one equation of `step` for each waiting
state. -/
theorem waitingStates : Obligations.WaitingStates := by
  refine ⟨fun s => ⟨State.standbySelected_of_pin, fun byMode => ?_⟩, fun s selected => ?_, fun s _ standby res => ?_,
    fun s res standby => ?_⟩
  · have selected := State.standbySelected_of_modePins byMode
    refine ⟨fun six => selected.2 (.inl six), fun operating => ?_, fun idle => ?_⟩
    · rw [Bool.eq_false_iff, ne_eq, selected]
      rintro (six | ⟨-, other⟩)
      · exact standbyPins_not_operating (six ▸ operating)
      · exact other operating
    · obtain ⟨notSix, other⟩ := idlePins_neutral _ idle
      rw [selected, or_iff_right notSix, and_iff_left other]
  · exact ⟨_, step_of_standbySelected selected, rfl, rfl, rfl, fun _ => State.enterHardwareStandby_held⟩
  · exact ⟨_, step_of_resLow standby res, rfl, rfl⟩
  · refine ⟨step_of_doubleFault standby res, step_of_hardwareStandby standby res, fun proc deaf => ?_,
      fun proc masked => ?_, step_of_busRequested standby res, step_of_busReleased standby res⟩
    · rw [step_of_softwareStandby standby res proc, State.idleInStandby_eq_self deaf]
    · rw [step_of_sleep standby res proc, State.acceptInterrupts_of_none masked]

end Sys2Proof.Machine

/-! ## Exceptions at the check point (60_exceptions.md R387 to R398)

Each exception is entered on the state the one before it left. An exception that is no interrupt leaves the pending
requests and the mask, so that a request is acceptable after it exactly if it was before. -/

namespace Sys2Proof.Machine

/-! ### What an entry leaves (R390) -/

theorem EntryEffect.flagT_eq {s t : State} {kind : Exc} {p : Word} (h : EntryEffect s kind p t) :
    t.flagT = false := by
  obtain ⟨-, flagT, -⟩ := h
  exact flagT

theorem EntryEffect.mask_eq {s t : State} {kind : Exc} {p : Word} (h : EntryEffect s kind p t) :
    t.mask = kind.newMask.getD s.mask := by
  obtain ⟨-, -, mask, -⟩ := h
  exact mask

theorem EntryEffect.proc_eq {s t : State} {kind : Exc} {p : Word} (h : EntryEffect s kind p t) :
    t.proc = .execution := by
  obtain ⟨-, -, -, -, -, -, rest⟩ := h
  rw [rest]

/-- An entry requests no trace and holds off nothing: what is pending is as before it. -/
theorem EntryEffect.pending_eq {s t : State} {kind : Exc} {p : Word} (h : EntryEffect s kind p t) :
    t.inhibitNext = s.inhibitNext ∧ t.addrErrPending = s.addrErrPending ∧ t.tracePending = s.tracePending := by
  obtain ⟨-, -, -, -, -, -, rest⟩ := h
  rw [rest]
  exact ⟨rfl, rfl, rfl⟩

/-! ### Accepting the highest request (R394) -/

theorem State.canEnter.running {s : State} {kind : Exc} (h : s.canEnter kind) : s.proc ≠ .doubleFault := by
  obtain ⟨-, -, running⟩ := h
  exact running

/-- An acceptable request with no NMI behind it is accepted, and nothing after it. -/
theorem State.acceptInterrupts_entry {s : State} {q : Request} (top : topRequest s.requests = some q)
    (ok : s.acceptable q = true) (single : .nmi ∉ s.requests.erase q) (can : s.canEnter q.exc) :
    EntryEffect { s with requests := s.requests.erase q } q.exc s.pc s.acceptInterrupts := by
  have ⟨⟨_, _, even⟩, _, running⟩ := can
  obtain ⟨-, mask⟩ := State.acceptRequest_entered q running even
  rw [State.acceptInterrupts_of_acceptable top ok running, State.acceptInterrupts_acceptRequest top single mask]
  exact State.exceptionSequence_entry (s := { s with requests := s.requests.erase q }) can s.pc

/-- Settles O13: the highest request by `topRequest_spec`, its entry, and none where all are at or below the mask. -/
theorem interruptAcceptance : Obligations.InterruptAcceptance := by
  refine ⟨fun _ _ => topRequest_spec, fun s q can top high single => ?_, fun s low => ?_⟩
  · have entry := State.acceptInterrupts_entry top (by simpa [State.acceptable] using high) single can
    exact ⟨entry, (congrArg BitVec.toNat entry.mask_eq).trans (q.newMask_exc _)⟩
  · refine State.acceptInterrupts_of_none fun q pending => ?_
    obtain ⟨notNmi, atMask⟩ := low q pending
    simp [State.acceptable, notNmi, atMask]

/-- Settles O12: both states go on with `acceptInterrupts`. -/
theorem wakeUpByRequest : Obligations.WakeUpByRequest := by
  intro s q res standby can top ok single asleep
  have entry := State.acceptInterrupts_entry top ok single can
  refine ⟨s.acceptInterrupts, ?_, entry.proc_eq, entry⟩
  obtain proc | ⟨proc, rfl, wakes⟩ := asleep
  · exact step_of_sleep standby res proc
  · obtain ⟨pending, -⟩ := topRequest_spec top
    rw [step_of_softwareStandby standby res proc, State.idleInStandby_of_nmi pending wakes]

/-! ### Requests behind another exception (R390, R394) -/

/-- In `t` the same requests are pending at the same mask as in `s`. -/
structure SameRequests (s t : State) : Prop where
  requests : t.requests = s.requests
  mask : t.mask = s.mask

theorem SameRequests.acceptable {s t : State} (h : SameRequests s t) (q : Request) :
    t.acceptable q = s.acceptable q := by
  rw [State.acceptable, State.acceptable, h.mask]

/-- Only an interrupt raises the mask, and only its acceptance withdraws a request (R390). -/
theorem SameRequests.exceptionSequence (s : State) {kind : Exc} (noMask : kind.newMask = none) (p : Word) :
    SameRequests s (s.exceptionSequence kind p) := by
  obtain ⟨⟨-, -, -, -, requests⟩, -⟩ := Frame.exceptionSequence s kind p
  exact ⟨requests, s.exceptionSequence_mask noMask p⟩

theorem SameRequests.acceptInterrupts_of_none {s t : State} (same : SameRequests s t)
    (none : ∀ q ∈ s.requests, s.acceptable q = false) : t.acceptInterrupts = t :=
  State.acceptInterrupts_of_none fun q pending => (same.acceptable q).trans (none q (same.requests ▸ pending))

theorem SameRequests.acceptInterrupts_entry {s t : State} {q : Request} (same : SameRequests s t)
    (top : topRequest s.requests = some q) (ok : s.acceptable q = true) (single : .nmi ∉ s.requests.erase q)
    (can : t.canEnter q.exc) :
    EntryEffect { t with requests := s.requests.erase q } q.exc t.pc t.acceptInterrupts := by
  rw [← same.requests] at top single ⊢
  exact State.acceptInterrupts_entry top ((same.acceptable q).trans ok) single can

/-! ### The handlers of the check point (R387, R398) -/

theorem State.handleAddrErr_of_pending {s : State} (h : s.addrErrPending = true) :
    s.handleAddrErr = { s with addrErrPending := false }.exceptionSequence .addressError s.pc := if_pos h

theorem State.handleAddrErr_of_not_pending {s : State} (h : s.addrErrPending = false) : s.handleAddrErr = s :=
  if_neg (by simp [h])

theorem State.handleTrace_of_pending {s : State} (h : s.tracePending = true) :
    s.handleTrace = { s with tracePending := false }.exceptionSequence .trace s.pc := if_pos h

theorem State.handleTrace_of_not_pending {s : State} (h : s.tracePending = false) : s.handleTrace = s :=
  if_neg (by simp [h])

/-- Handling an address error requests no trace. -/
theorem State.handleAddrErr_tracePending {s : State} (h : s.tracePending = false) :
    s.handleAddrErr.tracePending = false := by
  rw [State.handleAddrErr]
  split
  · obtain ⟨-, trace, -⟩ := State.exceptionSequence_pending { s with addrErrPending := false } .addressError s.pc
    simpa [h] using trace
  · exact h

section
variable {s : State} (running : s.proc ≠ .doubleFault)
include running

/-- After an inhibiting instruction only an address error is handled (R395). -/
theorem State.checkPoint_of_inhibit (inhibit : s.inhibitNext = true) :
    s.checkPoint = { s with inhibitNext := false, tracePending := false }.handleAddrErr := by
  simp only [State.checkPoint, if_neg running, inhibit, if_true, Bool.not_true, Bool.and_false]
  exact State.handleTrace_of_not_pending (State.handleAddrErr_tracePending rfl)

variable (inhibit : s.inhibitNext = false)
include inhibit

/-- With T = 0 an address error is handled, then interrupts (R387). -/
theorem State.checkPoint_of_not_flagT (noTrace : s.flagT = false) :
    s.checkPoint = { s with tracePending := false }.handleAddrErr.acceptInterrupts := by
  have unchanged : { s with inhibitNext := false, tracePending := false } = { s with tracePending := false } := by
    rw [← inhibit]
  simp only [State.checkPoint, if_neg running, inhibit, noTrace, Bool.false_and, unchanged, Bool.false_eq_true,
    if_false]
  rw [State.handleTrace_of_not_pending (State.handleAddrErr_tracePending rfl)]

/-- With T = 1 the trace waits for the address error and goes before interrupts (R387, R398). -/
theorem State.checkPoint_of_flagT (trace : s.flagT = true) :
    s.checkPoint = { s with tracePending := true }.handleAddrErr.handleTrace.acceptInterrupts := by
  have unchanged : { s with inhibitNext := false, tracePending := true } = { s with tracePending := true } := by
    rw [← inhibit]
  simp only [State.checkPoint, if_neg running, inhibit, trace, Bool.not_false, Bool.and_true, unchanged,
    Bool.false_eq_true, if_false]

end

/-- Settles O15: with neither address error nor trace the check point does nothing. -/
theorem inhibitHoldsOff : Obligations.InhibitHoldsOff := fun s inhibit noError running =>
  (State.checkPoint_of_inhibit running inhibit).trans
    (State.handleAddrErr_of_not_pending (s := { s with inhibitNext := false, tracePending := false }) noError)

/-- Settles O19: the second case of an exception sequence. -/
theorem oddStackDoubleFaults : Obligations.OddStackDoubleFaults := by
  intro s kind p running odd
  obtain ⟨halted, -⟩ | ⟨-, -, fault⟩ | ⟨-, even, -⟩ := s.exceptionSequence_cases kind p
  · exact absurd halted running
  · exact fault
  · exact absurd (even.symm.trans odd) (by simp)

/-! ### Address error, trace and interrupt due together (R382, R383, R389) -/

/-- The state in which the address error is entered while a trace request waits (R398). -/
def State.traceWaiting (s : State) : State := { s with addrErrPending := false, tracePending := true }

/-- The handler of the address error, entered before the trace. -/
def State.errorBeforeTrace (s : State) : State := s.traceWaiting.exceptionSequence .addressError s.pc

/-- The handler of the trace entered right behind the address error. -/
def State.traceAfterError (s : State) : State :=
  { s.errorBeforeTrace with tracePending := false }.exceptionSequence .trace s.errorBeforeTrace.pc

theorem State.traceAfterError_same (s : State) : SameRequests s s.traceAfterError := by
  have error := SameRequests.exceptionSequence s.traceWaiting (kind := .addressError) rfl s.pc
  have trace := SameRequests.exceptionSequence { s.errorBeforeTrace with tracePending := false } (kind := .trace) rfl
    s.errorBeforeTrace.pc
  exact ⟨trace.requests.trans error.requests, trace.mask.trans error.mask⟩

section
variable {s : State} (inhibit : s.inhibitNext = false)
include inhibit

theorem State.checkPoint_of_addrErr (running : s.proc ≠ .doubleFault) (noTrace : s.flagT = false)
    (error : s.addrErrPending = true) :
    s.checkPoint = ({ s with addrErrPending := false, tracePending := false }.exceptionSequence .addressError
      s.pc).acceptInterrupts := by
  rw [State.checkPoint_of_not_flagT running inhibit noTrace,
    State.handleAddrErr_of_pending (s := { s with tracePending := false }) error]

theorem State.checkPoint_of_trace (running : s.proc ≠ .doubleFault) (trace : s.flagT = true)
    (noError : s.addrErrPending = false) :
    s.checkPoint = ({ s with tracePending := false }.exceptionSequence .trace s.pc).acceptInterrupts := by
  rw [State.checkPoint_of_flagT running inhibit trace,
    State.handleAddrErr_of_not_pending (s := { s with tracePending := true }) noError,
    State.handleTrace_of_pending (s := { s with tracePending := true }) rfl]

theorem State.checkPoint_of_nothing (running : s.proc ≠ .doubleFault) (noTrace : s.flagT = false)
    (noError : s.addrErrPending = false) : s.checkPoint = { s with tracePending := false }.acceptInterrupts := by
  rw [State.checkPoint_of_not_flagT running inhibit noTrace,
    State.handleAddrErr_of_not_pending (s := { s with tracePending := false }) noError]

theorem State.checkPoint_of_addrErr_trace (can : s.canEnter .addressError) (trace : s.flagT = true)
    (error : s.addrErrPending = true) : s.checkPoint = s.traceAfterError.acceptInterrupts := by
  obtain ⟨-, -, waiting⟩ := (State.exceptionSequence_entry (s := s.traceWaiting) can s.pc).pending_eq
  rw [State.checkPoint_of_flagT can.running inhibit trace,
    State.handleAddrErr_of_pending (s := { s with tracePending := true }) error]
  exact congrArg State.acceptInterrupts (State.handleTrace_of_pending (s := s.errorBeforeTrace) waiting)

end

/-- Settles O17: behind the address error no trace is requested and no request acceptable. -/
theorem addressErrorTaken : Obligations.AddressErrorTaken := by
  intro s can error quiet
  have entry := State.exceptionSequence_entry
    (s := { s with addrErrPending := false, inhibitNext := false, tracePending := false }) can s.pc
  cases inhibit : s.inhibitNext with
  | true =>
    rw [State.checkPoint_of_inhibit can.running inhibit,
      State.handleAddrErr_of_pending (s := { s with inhibitNext := false, tracePending := false }) error]
    exact entry
  | false =>
    obtain ⟨noTrace, none⟩ := quiet.resolve_left (by simp [inhibit])
    have unchanged : { s with addrErrPending := false, inhibitNext := false, tracePending := false } =
        { s with addrErrPending := false, tracePending := false } := by rw [← inhibit]
    rw [State.checkPoint_of_addrErr inhibit can.running noTrace error,
      (SameRequests.exceptionSequence { s with addrErrPending := false, tracePending := false } (kind := .addressError)
        rfl s.pc).acceptInterrupts_of_none none, ← unchanged]
    exact entry

/-- Settles O16: T = 1 requests the trace; after an instruction exception T is 0 and only the requests are left. -/
theorem traceTaken : Obligations.TraceTaken := by
  refine ⟨fun s can trace inhibit noError none => ?_, fun s _ p kind _ can inhibit noError => ?_⟩
  · rw [State.checkPoint_of_trace inhibit can.running trace noError,
      (SameRequests.exceptionSequence { s with tracePending := false } (kind := .trace)
        rfl s.pc).acceptInterrupts_of_none none]
    exact State.exceptionSequence_entry (s := { s with tracePending := false }) can s.pc
  · intro u
    have entry : EntryEffect s kind p u := State.exceptionSequence_entry can p
    obtain ⟨inhibit', error', -⟩ := entry.pending_eq
    have running : u.proc ≠ .doubleFault := by simp [entry.proc_eq]
    rw [State.checkPoint_of_nothing (inhibit'.trans inhibit) running entry.flagT_eq (error'.trans noError)]
    exact ⟨fun none => State.acceptInterrupts_of_none none,
      fun q top ok single can => State.acceptInterrupts_entry (s := { u with tracePending := false }) top ok single can⟩

/-- Settles O18: the chain of entries at the check point, cut where the statement names its states; the requests wait
unchanged behind address error and trace. -/
theorem simultaneousExceptions : Obligations.SimultaneousExceptions := by
  refine ⟨fun s error trace inhibit none => ?_, fun s q inhibit top ok single => ⟨?_, ?_, ?_⟩⟩
  · intro first u canError canTrace
    have entry : EntryEffect first .addressError s.pc u := State.exceptionSequence_entry (s := first) canError s.pc
    rw [State.checkPoint_of_addrErr_trace inhibit canError trace error,
      s.traceAfterError_same.acceptInterrupts_of_none none]
    exact ⟨entry, entry.flagT_eq, State.exceptionSequence_entry (s := { u with tracePending := false }) canTrace u.pc⟩
  · intro trace noError first u canTrace canInterrupt
    have entry : EntryEffect first .trace s.pc u := State.exceptionSequence_entry (s := first) canTrace s.pc
    have same : SameRequests first u := .exceptionSequence first rfl s.pc
    rw [State.checkPoint_of_trace inhibit canTrace.running trace noError]
    exact ⟨entry, entry.flagT_eq, same.acceptInterrupts_entry top ok single canInterrupt⟩
  · intro noTrace error first u canError canInterrupt
    have entry : EntryEffect first .addressError s.pc u := State.exceptionSequence_entry (s := first) canError s.pc
    have same : SameRequests first u := .exceptionSequence first rfl s.pc
    rw [State.checkPoint_of_addrErr inhibit canError.running noTrace error]
    exact ⟨entry, entry.flagT_eq, same.acceptInterrupts_entry top ok single canInterrupt⟩
  · intro trace error first u v canError canTrace canInterrupt
    have entry : EntryEffect first .addressError s.pc u := State.exceptionSequence_entry (s := first) canError s.pc
    have traced : EntryEffect { u with tracePending := false } .trace u.pc v :=
      State.exceptionSequence_entry (s := { u with tracePending := false }) canTrace u.pc
    rw [State.checkPoint_of_addrErr_trace inhibit canError trace error]
    exact ⟨entry, entry.flagT_eq, traced, traced.flagT_eq,
      s.traceAfterError_same.acceptInterrupts_entry top ok single canInterrupt⟩

end Sys2Proof.Machine

/-! ## Exception entry and RTE (60_exceptions.md R391, R396) -/

namespace Sys2Proof.Machine

theorem State.exceptionFrame_length (s : State) (p : Word) : (s.exceptionFrame p).length = s.mode.frameWords := by
  rw [State.exceptionFrame]
  cases s.mode <;> rfl

theorem State.canEnter.canPush {s : State} {kind : Exc} (h : s.canEnter kind) : s.canPush s.mode.frameWords := by
  obtain ⟨frame, -⟩ := h
  cases hm : s.mode <;> rwa [hm] at frame

/-- RTE from memory that can be read draws no free value. -/
theorem State.returnFromException_free {s : State} (even : (s.reg .r7).getLsbD 0 = false)
    (readable : s.memAt (s.stackBytes s.mode.frameWords)) : s.returnFromException.free = s.free := by
  cases hm : s.mode with
  | min =>
    rw [hm] at readable
    obtain ⟨evenAfter, rest, -⟩ := State.popSR_stack even readable
    rw [State.returnFromException_min hm, State.popPC_mem evenAfter (s.popSR.memAt_stackSlot rest Nat.one_pos),
      State.popSR_mem even (s.memAt_stackSlot readable (Nat.succ_pos 1))]
    rfl
  | max =>
    rw [hm] at readable
    obtain ⟨evenAfter, rest, -⟩ := State.popSR_stack even readable
    rw [State.returnFromException_max hm, State.popCPPC_mem evenAfter rest,
      State.popSR_mem even (s.memAt_stackSlot readable (Nat.succ_pos 2))]
    rfl

/-- With its reserved bits 0 a word is what SR keeps of it (R27). -/
theorem and_srBits_of_reserved {x : Word} (h : x &&& 0x78F0 = 0) : x &&& srBits = x := by
  have all : (srBits ||| 0x78F0 : Word) = BitVec.allOnes 16 := by decide
  calc x &&& srBits = (x &&& srBits) ||| (x &&& 0x78F0) := by rw [h]; exact BitVec.or_zero.symm
    _ = x := by rw [← BitVec.and_or_distrib_left, all, BitVec.and_allOnes]

/-- As many words are popped as the entry pushed. -/
theorem EntryEffect.returned_regs {s t : State} {kind : Exc} {p : Word} (entry : EntryEffect s kind p t) :
    t.returnFromException.regs = s.regs := by
  obtain ⟨pushed, -, -, -, -, -, rest⟩ := entry
  obtain ⟨u, ret, popped⟩ := t.returnFromException_popped
  rw [show t.mode = s.mode by rw [rest], ← s.exceptionFrame_length p] at popped
  rw [ret, State.inhibit_regs]
  exact Pushed.regs_of_popped (t := t.writeSR t.pop16.1) pushed popped

section
variable {s t : State} {kind : Exc} {p : Word} (can : s.canEnter kind) (entry : EntryEffect s kind p t)
include can entry

/-- The frame stands on the stack of the handler and can be read there. -/
theorem EntryEffect.readBack : (t.reg .r7).getLsbD 0 = false ∧ t.memAt (t.stackBytes s.mode.frameWords) ∧
    ∀ k < s.mode.frameWords, (s.exceptionFrame p)[k]? = some (t.wordAt (t.stackSlot k)) := by
  obtain ⟨pushed, -, -, -, -, -, rest⟩ := entry
  rw [← s.exceptionFrame_length p]
  exact pushed.readBack (by rw [rest]) (by rw [rest]) (by rw [rest])
    (by rw [s.exceptionFrame_length p]; exact can.canPush)

/-- RTE takes SR, CP and PC back from the frame (R396). -/
theorem EntryEffect.returned_words (reserved : s.sr &&& 0x78F0 = 0) : t.returnFromException.sr = s.sr ∧
    t.returnFromException.cp = s.cp ∧ t.returnFromException.pc = p := by
  obtain ⟨even, readable, words⟩ := entry.readBack can
  obtain ⟨-, -, -, -, -, vector, rest⟩ := entry
  have mode : t.mode = s.mode := by rw [rest]
  cases hm : s.mode with
  | min =>
    simp only [State.exceptionFrame, VectorTaken, hm, Mode.frameWords] at words vector readable mode
    obtain ⟨sr, pc⟩ := State.returnFromException_mem_min even mode readable
    obtain ⟨-, cp⟩ := vector
    rw [sr, pc, t.returnFromException_cp mode, cp, ← Option.some.inj (words 0 (by decide)),
      ← Option.some.inj (words 1 (by decide)), and_srBits_of_reserved reserved]
    exact ⟨rfl, rfl, rfl⟩
  | max =>
    simp only [State.exceptionFrame, hm, Mode.frameWords] at words readable mode
    obtain ⟨sr, cp, pc⟩ := State.returnFromException_mem_max even mode readable
    rw [sr, cp, pc, ← Option.some.inj (words 0 (by decide)), ← Option.some.inj (words 1 (by decide)),
      ← Option.some.inj (words 2 (by decide)), and_srBits_of_reserved reserved]
    exact ⟨rfl, pageWord_setWidth s.cp, rfl⟩

/-- RTE undoes the entry, but for memory and the inhibit of the next check point (R395, R396). -/
theorem EntryEffect.returned (reserved : s.sr &&& 0x78F0 = 0) : t.returnFromException = { s with
    pc := p, proc := .execution, inhibitNext := true, mem := t.mem, stored := t.stored } := by
  obtain ⟨sr, cp, pc⟩ := entry.returned_words can reserved
  have regs := entry.returned_regs
  obtain ⟨even, readable, -⟩ := entry.readBack can
  obtain ⟨-, -, -, -, -, -, rest⟩ := entry
  have free : t.returnFromException.free = s.free :=
    (State.returnFromException_free even (by rw [show t.mode = s.mode by rw [rest]]; exact readable)).trans
      (by rw [rest])
  obtain ⟨u, run, -, -, -, noError, -, back, -⟩ := rteResult t
  obtain rfl : t.returnFromException = u := Host.Outcome.next.inj run
  rw [back, noError, regs, sr, cp, pc, free, even, Bool.or_false, rest]

end

/-- Settles O53: RTE finds the frame of the entry as it was pushed. -/
theorem exceptionEntryAndReturn : Obligations.ExceptionEntryAndReturn := by
  intro s kind p can reserved
  have entry := State.exceptionSequence_entry can p
  have back := entry.returned can reserved
  exact ⟨_, rfl, by rw [back]⟩

end Sys2Proof.Machine

/-! ## Reset (70_reset_and_hazards.md R440 to R446) -/

namespace Sys2Proof.Machine

/-- Settles O6: every clause of the invariant is a fact about the one state `State.reset`. -/
theorem invAtReset : Obligations.InvAtReset :=
  State.reset.inv_iff.2
    ⟨{ mem := rfl, reserved := by decide, mode := by decide, busLock := rfl, proc := by decide }, rfl, rfl, rfl⟩

/-! ### The system byte and the vector of the reset sequence (R388, R442) -/

/-- T is 0 and the mask 7 after a reset; only the flags of SR are free. -/
theorem State.systemByte_resetRegisters (s : State) : s.resetRegisters.flagT = false ∧ s.resetRegisters.mask = 7 := by
  have sr : s.resetRegisters.sr = 0x0700 ||| (Config.freeWord (s.free + 8) &&& 0x000F) := rfl
  constructor
  · simp [State.flagT, sr]
  · have noFlag : ∀ i < 3, (0x000F : Word).getLsbD (8 + i) = false := by decide
    have set : ∀ i < 3, (0x0700 : Word).getLsbD (8 + i) = (7 : BitVec 3).getLsbD i := by decide
    apply BitVec.eq_of_getLsbD_eq
    intro i hi
    rw [State.mask, sr, BitVec.getLsbD_extractLsb', BitVec.getLsbD_or, BitVec.getLsbD_and, noFlag i hi, set i hi]
    simp [hi]

/-- The addresses of page 0 reach memory as they are, whatever page lines the chip has (R7, D19). -/
theorem State.phys_of_lt (s : State) {a : Addr} (h : a.toNat < 2 ^ 16) : s.phys a = a.toNat :=
  Nat.mod_eq_of_lt (h.trans_le (Nat.pow_le_pow_right (by decide) (Nat.le_add_right 16 _)))

theorem State.vectorBytes_zero_min {s : State} (h : s.mode = .min) : s.vectorBytes 0 = [0, 1] := by
  simp [State.vectorBytes, State.vectorAddr, State.wordBytes, h, State.phys_of_lt]

theorem State.vectorBytes_zero_max {s : State} (h : s.mode = .max) : s.vectorBytes 0 = [0, 1, 2, 3] := by
  simp [State.vectorBytes, State.vectorAddr, State.wordBytes, h, State.phys_of_lt]

/-- After `resetRegisters` the reset sequence writes PC and CP, and nothing else but the count of free values and the
processing state. -/
theorem State.resetSequence_eq (s : State) : ∃ k, s.resetSequence = { s.resetRegisters with
    pc := s.resetSequence.pc, cp := s.resetSequence.cp, free := k, proc := .execution } := by
  obtain ⟨⟨k, fetched⟩, -⟩ := s.resetRegisters.vectorFetch_spec 0
  refine ⟨k, ?_⟩
  rw [State.resetSequence, fetched]

/-- The vector of minimum mode is PC. -/
theorem State.resetSequence_vector_min {s : State} (mode : s.resetRegisters.mode = .min) (readable : s.memAt [0, 1]) :
    s.resetSequence.pc = s.wordAt 0 := by
  obtain ⟨-, -, vector⟩ := s.resetRegisters.vectorFetch_spec 0
  rw [State.vectorBytes_zero_min mode, mode] at vector
  obtain ⟨-, pc, -⟩ := vector readable
  exact pc

/-- The vector of maximum mode is CP, in the low byte of its word, and PC (D8). -/
theorem State.resetSequence_vector_max {s : State} (mode : s.resetRegisters.mode = .max)
    (readable : s.memAt [0, 1, 2, 3]) :
    s.resetSequence.cp = (s.wordAt 0).setWidth 8 ∧ s.resetSequence.pc = s.wordAt 2 := by
  obtain ⟨-, -, vector⟩ := s.resetRegisters.vectorFetch_spec 0
  rw [State.vectorBytes_zero_max mode, mode] at vector
  obtain ⟨-, cp, pc⟩ := vector readable
  exact ⟨cp, pc⟩

theorem step_of_resetState {s : State} (standby : s.standbySelected = false) (res : s.pins.resLow = false)
    (h : s.proc = .resetState) : step s = .next s.resetSequence :=
  step_of_withoutInstruction (by simp [State.withoutInstruction, standby, res, h])

/-- Settles O10: what `resetRegisters` writes, and PC and CP by the mode that it latched. -/
theorem resetSequence : Obligations.ResetSequence := by
  intro s proc res standby
  obtain ⟨k, written⟩ := s.resetSequence_eq
  obtain ⟨flagT, mask⟩ := s.systemByte_resetRegisters
  have mode : s.resetSequence.mode = s.resetRegisters.mode := by rw [written]
  have sr : s.resetSequence.sr = s.resetRegisters.sr := by rw [written]
  obtain ⟨mem, requests⟩ : s.resetSequence.mem = s.mem ∧ s.resetSequence.requests = s.requests := by
    rw [written]
    exact ⟨rfl, rfl⟩
  refine ⟨s.resetSequence, step_of_resetState standby res proc, rfl, congrArg State.mds written, mode,
    (congrArg (BitVec.getLsbD · 15) sr).trans flagT, (congrArg (BitVec.extractLsb' 8 3) sr).trans mask,
    sr ▸ s.reserved_resetRegisters, congrArg State.inhibitNext written, congrArg State.addrErrPending written,
    congrArg State.tracePending written, mem, requests, ?_⟩
  rw [mode]
  cases latched : s.resetRegisters.mode with
  | min => exact State.resetSequence_vector_min latched
  | max => exact State.resetSequence_vector_max latched

/-! ### What only the reset sequence changes (R441) -/

/-- The configuration: the mode, the mode pins latched, the chip and its pins. -/
structure SameConfiguration (s t : State) : Prop where
  mode : t.mode = s.mode
  mds : t.mds = s.mds
  chip : t.chip = s.chip
  pins : t.pins = s.pins

namespace SameConfiguration

theorem refl (s : State) : SameConfiguration s s := ⟨rfl, rfl, rfl, rfl⟩

theorem trans {s t u : State} (h : SameConfiguration s t) (g : SameConfiguration t u) : SameConfiguration s u :=
  ⟨g.mode.trans h.mode, g.mds.trans h.mds, g.chip.trans h.chip, g.pins.trans h.pins⟩

theorem of_frame {s t : State} (h : Frame s t) : SameConfiguration s t := by
  obtain ⟨⟨mode, mds, chip, pins, -⟩, -⟩ := h
  exact ⟨mode, mds, chip, pins⟩

theorem acceptRequest (s : State) (q : Request) : SameConfiguration s (s.acceptRequest q) :=
  have withdrawn : SameConfiguration s { s with requests := s.requests.erase q } := ⟨rfl, rfl, rfl, rfl⟩
  withdrawn.trans (of_frame (.exceptionSequence _ q.exc s.pc))

theorem acceptLoop (fuel : Nat) (s : State) : SameConfiguration s (State.acceptLoop fuel s) := by
  induction fuel generalizing s with
  | zero => exact refl s
  | succ fuel ih =>
    rw [State.acceptLoop]
    split
    · exact refl s
    · split
      · exact refl s
      · split
        · exact (acceptRequest s _).trans (ih _)
        · exact refl s

theorem acceptInterrupts (s : State) : SameConfiguration s s.acceptInterrupts := acceptLoop _ s

theorem handleAddrErr (s : State) : SameConfiguration s s.handleAddrErr := by
  rw [State.handleAddrErr]
  split
  · have cleared : SameConfiguration s { s with addrErrPending := false } := ⟨rfl, rfl, rfl, rfl⟩
    exact cleared.trans (of_frame (.exceptionSequence _ _ _))
  · exact refl s

theorem handleTrace (s : State) : SameConfiguration s s.handleTrace := by
  rw [State.handleTrace]
  split
  · have cleared : SameConfiguration s { s with tracePending := false } := ⟨rfl, rfl, rfl, rfl⟩
    exact cleared.trans (of_frame (.exceptionSequence _ _ _))
  · exact refl s

theorem checkPoint (s : State) : SameConfiguration s s.checkPoint := by
  rw [State.checkPoint]
  split
  · exact refl s
  · have latched : SameConfiguration s
        { s with inhibitNext := false, tracePending := s.flagT && !s.inhibitNext } := ⟨rfl, rfl, rfl, rfl⟩
    have handled := (latched.trans (handleAddrErr _)).trans (handleTrace _)
    dsimp only
    split
    · exact handled
    · exact handled.trans (acceptInterrupts _)

end SameConfiguration

/-- What a step without an instruction can be (R420): hardware standby or the reset state is entered, the reset sequence
runs, requests are accepted, or at most the processing state changes. -/
theorem State.withoutInstruction_cases {s t : State} (h : s.withoutInstruction = some t) :
    t = s.enterHardwareStandby ∨ t = s.enterReset ∨ s.proc = .resetState ∧ t = s.resetSequence ∨
      t = s.acceptInterrupts ∨ ∃ p, t = { s with proc := p } := by
  have idle : ∃ p, s = { s with proc := p } := ⟨s.proc, rfl⟩
  rw [State.withoutInstruction] at h
  split at h
  · exact .inl (Option.some.inj h).symm
  split at h
  · exact .inr (.inl (Option.some.inj h).symm)
  refine .inr (.inr ?_)
  cases proc : s.proc <;> simp only [proc] at h
  case resetState => exact .inl ⟨rfl, (Option.some.inj h).symm⟩
  case sleep => exact .inr (.inl (Option.some.inj h).symm)
  case softwareStandby =>
    obtain rfl := Option.some.inj h
    rw [State.idleInStandby]
    split
    · exact .inr (.inl rfl)
    · exact .inr (.inr idle)
  case hardwareStandby | doubleFault => exact .inr (.inr (Option.some.inj h ▸ idle))
  case busReleased =>
    split at h
    · exact .inr (.inr (Option.some.inj h ▸ idle))
    · exact .inr (.inr ⟨_, (Option.some.inj h).symm⟩)
  case execution | exceptionHandling =>
    split at h
    · exact .inr (.inr ⟨_, (Option.some.inj h).symm⟩)
    · cases h

theorem SameConfiguration.withoutInstruction {s t : State} (h : s.withoutInstruction = some t)
    (noReset : s.proc ≠ .resetState) : SameConfiguration s t := by
  obtain rfl | rfl | ⟨reset, -⟩ | rfl | ⟨p, rfl⟩ := State.withoutInstruction_cases h
  · exact ⟨rfl, rfl, rfl, rfl⟩
  · exact .of_frame (.enterReset s)
  · exact absurd reset noReset
  · exact .acceptInterrupts s
  · exact ⟨rfl, rfl, rfl, rfl⟩

/-- Settles O58: no step without an instruction but the reset sequence, no instruction and no check point changes the
configuration. -/
theorem modeChangesOnlyInReset : Obligations.ModeChangesOnlyInReset := by
  intro s t hstep noReset
  obtain hw | ⟨-, i, n, u, run, rfl⟩ := step_cases hstep
  · obtain ⟨mode, mds, chip, pins⟩ := SameConfiguration.withoutInstruction hw noReset
    exact ⟨mode, mds, chip, pins⟩
  · have advanced : SameConfiguration s (s.advance n) := ⟨rfl, rfl, rfl, rfl⟩
    have executed : SameConfiguration (s.advance n) u := .of_frame (exec_effect run).frame
    obtain ⟨mode, mds, chip, pins⟩ := (advanced.trans executed).trans (.checkPoint u)
    exact ⟨mode, mds, chip, pins⟩

end Sys2Proof.Machine
